-- ==== Sys2Proof/Word.lean ====
section
/-! DEFINITION. The word types of the hardware (00_scope.md R11, R12): all values are unsigned. -/

namespace Sys2Proof

/-- "Unsigned 8-bit value 0..255" (R12). -/
abbrev Byte := BitVec 8

/-- A 32-bit value: an operand, a result value, a count (R98, R99, R30). -/
abbrev Word := BitVec 32

/-- A status code, 3 bits (10_state.md R25). -/
abbrev StatusCode := BitVec 3

/-- An index of the node arena or NULL, 10 bits (10_state.md R31). -/
abbrev NodeIdx := BitVec 10

end Sys2Proof
end

