-- ==== Sys2Proof/Syntax.lean ====
section
/-! DEFINITION. The 48 operations of 30_encoding.md R100, one constructor each, in the table's order, and the
pseudo-operations of R103. An operand is the whole field of its format (R99). -/

namespace Sys2Proof

/-- R100: the operation set. `imm8`, `imm16`, `imm32` are the operand fields of the formats OP8, OP16, OP32. -/
inductive Instr where
  | coreNop
  | coreReset
  | coreStatus
  | coreRewind
  | leWr32 (imm32 : BitVec 32)
  | leRd32
  | bwInit
  | bwWbit (imm8 : BitVec 8)
  | bwFlush
  | brInit
  | brRbit
  | brEof
  | fmClr
  | fmAcc (imm8 : BitVec 8)
  | fmEos
  | fmScale
  | fmCum
  | fmFind (imm32 : BitVec 32)
  | fmWhdr (imm32 : BitVec 32)
  | fmRhdr (imm32 : BitVec 32)
  | fmScan
  | hfBuild
  | hfCodes
  | hfEsym (imm16 : BitVec 16)
  | hfStep
  | hfDsym
  | hfEnc
  | hfDec
  | acEinit
  | acEsym (imm16 : BitVec 16)
  | acEfin
  | acDinit
  | acDsym
  | acEnc
  | acDec
  | rcEinit
  | rcEsym (imm16 : BitVec 16)
  | rcEfin
  | rcDinit
  | rcDsym
  | rcEnc
  | rcDec
  | rlEinit
  | rlEbyte (imm8 : BitVec 8)
  | rlEfin
  | rlDrec
  | rlEnc
  | rlDec
  deriving DecidableEq, Repr

/-- R103: which coder a pseudo-operation names. -/
inductive CoderName where
  | hf
  | ac
  | rc
  deriving DecidableEq, Repr

/-- R103: the pseudo-operations of the assembler. -/
inductive Pseudo where
  /-- `BW.WBITS "b0 b1 ... bk"` -/
  | wbits (bits : List Bool)
  /-- `FM.ACCS x0 x1 ... xk` -/
  | accs (bytes : List Byte)
  /-- `WSYM.HF s`, `WSYM.AC s`, `WSYM.RC s` -/
  | wsym (c : CoderName) (s : BitVec 16)
  /-- `RSYM.HF`, `RSYM.AC`, `RSYM.RC` -/
  | rsym (c : CoderName)
  /-- `FINISH.HF`, `FINISH.AC`, `FINISH.RC` -/
  | finish (c : CoderName)
  deriving DecidableEq, Repr

/-- R103: the expansion of a pseudo-operation. -/
def Pseudo.expand : Pseudo → List Instr
  | .wbits bs => bs.map fun b => .bwWbit (if b then 1 else 0)
  | .accs xs => xs.map .fmAcc
  | .wsym .hf s => [.hfEsym s]
  | .wsym .ac s => [.acEsym s]
  | .wsym .rc s => [.rcEsym s]
  | .rsym .hf => [.hfDsym]
  | .rsym .ac => [.acDsym]
  | .rsym .rc => [.rcDsym]
  | .finish .hf => [.bwFlush]
  | .finish .ac => [.acEfin]
  | .finish .rc => [.rcEfin]

end Sys2Proof
end

