-- ==== Sys2Proof/WellFormed.lean ====
section
/-! DEFINITION. Which instructions are well formed. The only operand range narrower than its field that a command may
violate is the symbol operand (30_encoding.md R99): "a symbol operand `imm16` must be ≤ 256, else `BAD_COMMAND`". -/

namespace Sys2Proof

/-- R99: a symbol operand is 0..256. -/
def symbolOk (imm16 : BitVec 16) : Bool := decide (imm16.toNat ≤ 256)

/-- R99, R101: an instruction is well formed when its symbol operand, if it has one, is a symbol. `imm8` of `BW.WBIT`
may hold anything: bits 7..1 are ignored (U20). -/
def Instr.wellFormed : Instr → Bool
  | .hfEsym s => symbolOk s
  | .acEsym s => symbolOk s
  | .rcEsym s => symbolOk s
  | .coreNop => true
  | .coreReset => true
  | .coreStatus => true
  | .coreRewind => true
  | .leWr32 _ => true
  | .leRd32 => true
  | .bwInit => true
  | .bwWbit _ => true
  | .bwFlush => true
  | .brInit => true
  | .brRbit => true
  | .brEof => true
  | .fmClr => true
  | .fmAcc _ => true
  | .fmEos => true
  | .fmScale => true
  | .fmCum => true
  | .fmFind _ => true
  | .fmWhdr _ => true
  | .fmRhdr _ => true
  | .fmScan => true
  | .hfBuild => true
  | .hfCodes => true
  | .hfStep => true
  | .hfDsym => true
  | .hfEnc => true
  | .hfDec => true
  | .acEinit => true
  | .acEfin => true
  | .acDinit => true
  | .acDsym => true
  | .acEnc => true
  | .acDec => true
  | .rcEinit => true
  | .rcEfin => true
  | .rcDinit => true
  | .rcDsym => true
  | .rcEnc => true
  | .rcDec => true
  | .rlEinit => true
  | .rlEbyte _ => true
  | .rlEfin => true
  | .rlDrec => true
  | .rlEnc => true
  | .rlDec => true

end Sys2Proof
end

