-- ==== Sys2Proof/Decode.lean ====
section
/-! DEFINITION. The command encoding of 30_encoding.md sections 3 to 6: byte-order helpers, the opcode table, the
decoder, the encoder, and the assembler's writing of a command (R102). -/

namespace Sys2Proof

/-! ## Byte order (20_memory.md R65, R66, R69) -/

/-- R66: byte k of a 32-bit value, k = 0 the least significant. -/
def byteOf (v : Word) (k : Nat) : Byte := v.extractLsb' (8 * k) 8

/-- R66: `write_u32` "emits four bytes low-to-high". -/
def leBytes32 (v : Word) : List Byte := [byteOf v 0, byteOf v 1, byteOf v 2, byteOf v 3]

/-- R66: `v = b0 + 2^8·b1 + 2^16·b2 + 2^24·b3`. -/
def ofLeBytes32 (b0 b1 b2 b3 : Byte) : Word := b3 ++ b2 ++ b1 ++ b0

/-- R69: the four bytes of a value most significant first. -/
def beBytes32 (v : Word) : List Byte := [byteOf v 3, byteOf v 2, byteOf v 1, byteOf v 0]

/-- R99: a 16-bit operand, little-endian. -/
def leBytes16 (v : BitVec 16) : List Byte := [v.extractLsb' 0 8, v.extractLsb' 8 8]

/-- R99: the operand of format OP16. -/
def ofLeBytes16 (b0 b1 : Byte) : BitVec 16 := b1 ++ b0

/-- The low `8·n` bits of a number as n bytes, least significant first (R99: a command "seen as one little-endian
integer w (byte 0 least significant)"). -/
def natBytes : Nat → Nat → List Byte
  | 0, _ => []
  | n + 1, w => BitVec.ofNat 8 w :: natBytes n (w / 256)

/-! ## The decoder -/

/-- R99: what follows the opcode byte, and the instruction it makes. -/
inductive Format where
  | op0 (i : Instr)
  | op8 (mk : BitVec 8 → Instr)
  | op16 (mk : BitVec 16 → Instr)
  | op32 (mk : BitVec 32 → Instr)

/-- R100: units CORE (0), LE (1), BW (2), BR (3). -/
def opcodesCoreLeBwBr : List (Byte × Format) :=
  [(0x00, .op0 .coreNop), (0x01, .op0 .coreReset), (0x02, .op0 .coreStatus), (0x03, .op0 .coreRewind),
   (0x10, .op32 .leWr32), (0x11, .op0 .leRd32),
   (0x20, .op0 .bwInit), (0x21, .op8 .bwWbit), (0x22, .op0 .bwFlush),
   (0x30, .op0 .brInit), (0x31, .op0 .brRbit), (0x32, .op0 .brEof)]

/-- R100: unit FM (4). -/
def opcodesFm : List (Byte × Format) :=
  [(0x40, .op0 .fmClr), (0x41, .op8 .fmAcc), (0x42, .op0 .fmEos), (0x43, .op0 .fmScale), (0x44, .op0 .fmCum),
   (0x45, .op32 .fmFind), (0x46, .op32 .fmWhdr), (0x47, .op32 .fmRhdr), (0x48, .op0 .fmScan)]

/-- R100: unit HF (5). -/
def opcodesHf : List (Byte × Format) :=
  [(0x50, .op0 .hfBuild), (0x51, .op0 .hfCodes), (0x52, .op16 .hfEsym), (0x53, .op0 .hfStep), (0x54, .op0 .hfDsym),
   (0x5E, .op0 .hfEnc), (0x5F, .op0 .hfDec)]

/-- R100: units AC (6) and RC (7). -/
def opcodesAcRc : List (Byte × Format) :=
  [(0x60, .op0 .acEinit), (0x61, .op16 .acEsym), (0x62, .op0 .acEfin), (0x63, .op0 .acDinit), (0x64, .op0 .acDsym),
   (0x6E, .op0 .acEnc), (0x6F, .op0 .acDec),
   (0x70, .op0 .rcEinit), (0x71, .op16 .rcEsym), (0x72, .op0 .rcEfin), (0x73, .op0 .rcDinit), (0x74, .op0 .rcDsym),
   (0x7E, .op0 .rcEnc), (0x7F, .op0 .rcDec)]

/-- R100: unit RL (8). -/
def opcodesRl : List (Byte × Format) :=
  [(0x80, .op0 .rlEinit), (0x81, .op8 .rlEbyte), (0x82, .op0 .rlEfin), (0x83, .op0 .rlDrec),
   (0x8E, .op0 .rlEnc), (0x8F, .op0 .rlDec)]

/-- R100: the operation table. -/
def opcodeTable : List (Byte × Format) := opcodesCoreLeBwBr ++ opcodesFm ++ opcodesHf ++ opcodesAcRc ++ opcodesRl

/-- R99: "The opcode alone determines the format and so the length." Nothing for a reserved opcode (R101). -/
def formatOf (op : Byte) : Option Format := opcodeTable.lookup op

/-- Why a byte string is no command. -/
inductive DecodeError where
  /-- There is no byte at all: no command has been given. -/
  | noCommand
  /-- R101: the opcode byte is not in the table of R100. -/
  | reservedOpcode (op : Byte)
  /-- The opcode asks for operand bytes that are not there (assumption 3). -/
  | operandMissing (op : Byte)
  deriving DecidableEq, Repr

/-- R99, R101: the command at the front of a byte string, and the bytes after it. Total: "every byte string either decodes
to one row of rule R100 with its operand, or is `BAD_COMMAND`". A symbol operand above 256 is decoded here and refused
by the operation (R277 item 1; assumption 21). -/
def decode : List Byte → Except DecodeError (Instr × List Byte)
  | [] => .error .noCommand
  | op :: rest =>
    match formatOf op with
    | none => .error (.reservedOpcode op)
    | some (.op0 i) => .ok (i, rest)
    | some (.op8 mk) =>
      match rest with
      | b0 :: r => .ok (mk b0, r)
      | _ => .error (.operandMissing op)
    | some (.op16 mk) =>
      match rest with
      | b0 :: b1 :: r => .ok (mk (ofLeBytes16 b0 b1), r)
      | _ => .error (.operandMissing op)
    | some (.op32 mk) =>
      match rest with
      | b0 :: b1 :: b2 :: b3 :: r => .ok (mk (ofLeBytes32 b0 b1 b2 b3), r)
      | _ => .error (.operandMissing op)

/-- R99: the length in bytes of the command that an opcode byte opens; a reserved opcode "is treated as a one-byte
command" (R101). -/
def commandLength (op : Byte) : Nat :=
  match formatOf op with
  | some (.op8 _) => 2
  | some (.op16 _) => 3
  | some (.op32 _) => 5
  | some (.op0 _) => 1
  | none => 1

/-- The instruction this decoder reads from a table word: the low `nbits` bits of `w`, byte 0 least significant, every bit
above them 0, five bytes in all (the longest command). -/
def decodeTableWord (nbits w : Nat) : Option Instr :=
  match decode (natBytes 5 (w % 2 ^ nbits)) with
  | .ok (i, _) => some i
  | .error _ => none

/-! ## The encoder -/

/-- R99, R100: the bytes of a command. -/
def encode : Instr → List Byte
  | .coreNop => [0x00]
  | .coreReset => [0x01]
  | .coreStatus => [0x02]
  | .coreRewind => [0x03]
  | .leWr32 v => 0x10 :: leBytes32 v
  | .leRd32 => [0x11]
  | .bwInit => [0x20]
  | .bwWbit b => [0x21, b]
  | .bwFlush => [0x22]
  | .brInit => [0x30]
  | .brRbit => [0x31]
  | .brEof => [0x32]
  | .fmClr => [0x40]
  | .fmAcc b => [0x41, b]
  | .fmEos => [0x42]
  | .fmScale => [0x43]
  | .fmCum => [0x44]
  | .fmFind v => 0x45 :: leBytes32 v
  | .fmWhdr v => 0x46 :: leBytes32 v
  | .fmRhdr v => 0x47 :: leBytes32 v
  | .fmScan => [0x48]
  | .hfBuild => [0x50]
  | .hfCodes => [0x51]
  | .hfEsym s => 0x52 :: leBytes16 s
  | .hfStep => [0x53]
  | .hfDsym => [0x54]
  | .hfEnc => [0x5E]
  | .hfDec => [0x5F]
  | .acEinit => [0x60]
  | .acEsym s => 0x61 :: leBytes16 s
  | .acEfin => [0x62]
  | .acDinit => [0x63]
  | .acDsym => [0x64]
  | .acEnc => [0x6E]
  | .acDec => [0x6F]
  | .rcEinit => [0x70]
  | .rcEsym s => 0x71 :: leBytes16 s
  | .rcEfin => [0x72]
  | .rcDinit => [0x73]
  | .rcDsym => [0x74]
  | .rcEnc => [0x7E]
  | .rcDec => [0x7F]
  | .rlEinit => [0x80]
  | .rlEbyte b => [0x81, b]
  | .rlEfin => [0x82]
  | .rlDrec => [0x83]
  | .rlEnc => [0x8E]
  | .rlDec => [0x8F]

/-! ## The assembler's writing of a command (R102) -/

/-- R100: the mnemonic. -/
def mnemonic : Instr → String
  | .coreNop => "CORE.NOP"
  | .coreReset => "CORE.RESET"
  | .coreStatus => "CORE.STATUS"
  | .coreRewind => "CORE.REWIND"
  | .leWr32 _ => "LE.WR32"
  | .leRd32 => "LE.RD32"
  | .bwInit => "BW.INIT"
  | .bwWbit _ => "BW.WBIT"
  | .bwFlush => "BW.FLUSH"
  | .brInit => "BR.INIT"
  | .brRbit => "BR.RBIT"
  | .brEof => "BR.EOF"
  | .fmClr => "FM.CLR"
  | .fmAcc _ => "FM.ACC"
  | .fmEos => "FM.EOS"
  | .fmScale => "FM.SCALE"
  | .fmCum => "FM.CUM"
  | .fmFind _ => "FM.FIND"
  | .fmWhdr _ => "FM.WHDR"
  | .fmRhdr _ => "FM.RHDR"
  | .fmScan => "FM.SCAN"
  | .hfBuild => "HF.BUILD"
  | .hfCodes => "HF.CODES"
  | .hfEsym _ => "HF.ESYM"
  | .hfStep => "HF.STEP"
  | .hfDsym => "HF.DSYM"
  | .hfEnc => "HF.ENC"
  | .hfDec => "HF.DEC"
  | .acEinit => "AC.EINIT"
  | .acEsym _ => "AC.ESYM"
  | .acEfin => "AC.EFIN"
  | .acDinit => "AC.DINIT"
  | .acDsym => "AC.DSYM"
  | .acEnc => "AC.ENC"
  | .acDec => "AC.DEC"
  | .rcEinit => "RC.EINIT"
  | .rcEsym _ => "RC.ESYM"
  | .rcEfin => "RC.EFIN"
  | .rcDinit => "RC.DINIT"
  | .rcDsym => "RC.DSYM"
  | .rcEnc => "RC.ENC"
  | .rcDec => "RC.DEC"
  | .rlEinit => "RL.EINIT"
  | .rlEbyte _ => "RL.EBYTE"
  | .rlEfin => "RL.EFIN"
  | .rlDrec => "RL.DREC"
  | .rlEnc => "RL.ENC"
  | .rlDec => "RL.DEC"

/-- R99: the operand of a command as a natural, if its format has one. -/
def operandOf : Instr → Option Nat
  | .leWr32 v | .fmFind v | .fmWhdr v | .fmRhdr v => some v.toNat
  | .bwWbit b | .fmAcc b | .rlEbyte b => some b.toNat
  | .hfEsym s | .acEsym s | .rcEsym s => some s.toNat
  | .coreNop | .coreReset | .coreStatus | .coreRewind | .leRd32 | .bwInit | .bwFlush | .brInit | .brRbit | .brEof => none
  | .fmClr | .fmEos | .fmScale | .fmCum | .fmScan | .hfBuild | .hfCodes | .hfStep | .hfDsym | .hfEnc | .hfDec => none
  | .acEinit | .acEfin | .acDinit | .acDsym | .acEnc | .acDec | .rcEinit | .rcEfin | .rcDinit | .rcDsym => none
  | .rcEnc | .rcDec | .rlEinit | .rlEfin | .rlDrec | .rlEnc | .rlDec => none

/-- R102: `UNIT.FUNC` or `UNIT.FUNC operand`, the operand in decimal. -/
def asmLine (i : Instr) : String :=
  match operandOf i with
  | none => mnemonic i
  | some v => mnemonic i ++ " " ++ Nat.repr v

end Sys2Proof
end

