-- ==== Sys2Proof/Config.lean ====
section
/-! DEFINITION. The fixed parameters of 00_scope.md R9 and R10. The one open parameter, SINK_CAP, is
`State.snk.cap` (assumption 7). The spec leaves no value free, so there is no opaque constant here. -/

namespace Sys2Proof.Config

/-- R9: number of symbols. -/
abbrev nsym : Nat := 257

/-- R9: index of the end-of-stream symbol. -/
abbrev eos : Nat := 256

/-- R9: length of the cumulative table. -/
abbrev cumLen : Nat := 258

/-- R10: arena capacity. -/
abbrev arenaLen : Nat := 513

/-- R9: scaling target. -/
abbrev maxTotal : Nat := 16777216

/-- R9: one more than the largest value of the coders' registers, `2^32`. -/
abbrev full : Nat := 4294967296

/-- R9: `2^31`. -/
abbrev half : Nat := 2147483648

/-- R9: `2^30`. -/
abbrev q1 : Nat := 1073741824

/-- R9: `3 · 2^30`. -/
abbrev q3 : Nat := 3221225472

/-- R9: renormalization threshold of the range coder, `2^24`. -/
abbrev rthr : Nat := 16777216

/-- R9: largest RLE run count, `2^32 − 1`. -/
abbrev rlMax : Nat := 4294967295

/-- R10, D20: fill bits at which the arithmetic decoder has nothing left to decode from. -/
abbrev acZfillMax : Nat := 32

/-- R10, D21: fill bytes at which the range decoder has nothing left to decode from. -/
abbrev rcZfillMax : Nat := 4

/-- R144, D31: `max(1, 2^24 / 257)`. -/
abbrev scaledFallback : Nat := 65280

/-- 20_memory.md R68: the tag `HFMN` as a little-endian operand. -/
abbrev magicHF : Word := 0x4E4D4648#32

/-- R68: the tag `AENC`. -/
abbrev magicAC : Word := 0x434E4541#32

/-- R68: the tag `RCNC`. -/
abbrev magicRC : Word := 0x434E4352#32

/-- 10_state.md R31: the absent node index. -/
abbrev null : NodeIdx := 0x3FF#10

/-! Bounds on the turns of the model's loops (assumption 12). The spec's loops end by themselves (R319). -/

/-- R147: `hi − lo` is 257 at first and is at most halved upwards at each turn: nine turns reach 1. -/
abbrev findTurns : Nat := 9

/-- R194: each turn doubles a range of at least 1, and the loop exits when it is `2^32`: at most 32 turns and the
last test. -/
abbrev acTurns : Nat := 33

/-- R222: "The loop ends after at most 4 turns", and the last test. -/
abbrev rcTurns : Nat := 5

end Sys2Proof.Config
end

