-- ==== Sys2Proof/Machine/State.lean ====
section
/-! DEFINITION. The state of one instance (10_state.md), why a command ends early, and reset (R39, R300, R301).
Section numbers R<n> are the spec's; "assumption n" is notes/assumptions/n.md. -/

namespace Sys2Proof.Machine

open Sys2Proof

/-! ## Units -/

/-- R27: the bit-stream packer. The bits held are `acc[cnt−1:0]`, oldest highest. -/
structure BW where
  acc : Byte
  cnt : Fin 8
  deriving DecidableEq, Repr

/-- R28: the bit-stream unpacker. The bits not yet returned are `cur[rem−1:0]`. -/
structure BR where
  cur : Byte
  rem : Fin 9
  eof : Bool
  deriving DecidableEq, Repr

/-- R30: the frequency table and the cumulative table. -/
structure FM where
  freq : Vector Word 257
  cum  : Vector Word 258
  deriving DecidableEq, Repr

/-- R31: an entry of the node arena. -/
structure Node where
  freq  : Nat
  sym   : BitVec 9
  left  : NodeIdx
  right : NodeIdx
  deriving DecidableEq, Repr

/-- R31, R32: the node arena, the tree's registers and the code table. -/
structure HF where
  node : Vector Node 513
  n    : BitVec 10
  root : NodeIdx
  walk : NodeIdx
  len  : Vector (BitVec 9) 257
  bits : Vector (BitVec 256) 257
  deriving DecidableEq, Repr

/-- R33: the arithmetic coder. The values of the three 64-bit containers are below `2^32` (assumption 10). -/
structure AC where
  low   : Word
  high  : Word
  code  : Word
  pend  : Nat
  zfill : Fin 33
  deriving DecidableEq, Repr

/-- R34: the range coder. -/
structure RC where
  low   : Word
  high  : Word
  code  : Word
  zfill : Fin 5
  deriving DecidableEq, Repr

/-- R35: the run-length encoder. -/
structure RL where
  cur : Byte
  cnt : Word
  deriving DecidableEq, Repr

/-! ## The environment's side -/

/-- 20_memory.md R60: the byte source and its cursor. -/
structure Src where
  data : List Byte
  pos  : Nat
  deriving DecidableEq, Repr

/-- R60: the byte sink. `cap` is `SINK_CAP` (R10, D7), `none` for ∞ (assumption 7). -/
structure Snk where
  data : List Byte
  cap  : Option Nat
  deriving DecidableEq, Repr

/-- 30_encoding.md R98: the tag of a result, 0 `NONE`, 1 `VAL`, 2 `CEOF`. -/
inductive Tag where
  | none
  | val
  | ceof
  deriving DecidableEq, Repr

/-- R98: the two bits of a tag on the result port. -/
def Tag.code : Tag → BitVec 2
  | .none => 0
  | .val => 1
  | .ceof => 2

/-- R98: the triple on the result port. -/
structure Response where
  status : StatusCode
  tag    : Tag
  val    : Word
  deriving DecidableEq, Repr

/-- The state of one instance and of what the environment attached to it. `cmd` and `resp` are the command port and the
result port (R98; assumptions 1 and 4). -/
structure State where
  status : StatusCode
  bw     : BW
  br     : BR
  fm     : FM
  hf     : HF
  ac     : AC
  rc     : RC
  rl     : RL
  src    : Src
  snk    : Snk
  cmd    : List Byte
  resp   : Option Response
  deriving DecidableEq, Repr

/-! ## How an operation ends -/

/-- 60_exceptions.md R270: the error kinds. -/
inductive ErrorKind where
  | truncation
  | badMagic
  | badHeader
  | corruptStream
  | sinkFailure
  | domainFault
  | badCommand
  deriving DecidableEq, Repr

/-- R16: what a `return` puts on the result port. -/
inductive Reply where
  | none
  | val (v : Word)
  | ceof
  deriving DecidableEq, Repr

/-- How an operation ends before its `return`. -/
inductive Stop where
  /-- R15: `raise K`. -/
  | raise (k : ErrorKind)
  /-- A loop has used up the model's bound on its turns (assumption 12). -/
  | loopBound
  deriving DecidableEq, Repr

/-- The reasons the MODEL stops with a fault. The errors of the spec are not among them: a raised error is a next state
(R280), and so is a refused command (R281). -/
inductive Fault where
  /-- Raised by a command one of whose loops has used up the model's bound on its turns. The spec says that every operation
  terminates on every input (R319), and the bounds are chosen so that no command reaches them; the certificate states it.
  Safe: the model would stop where the hardware goes on. -/
  | loopBound
  deriving DecidableEq, Repr

/-- The reasons the model refuses an instruction. -/
inductive Refusal where
  /-- Answered by `exec`'s arm for an instruction that has no meaning yet; no arm of this model uses it. Safe. -/
  | notModelled (mnemonic : String)
  deriving DecidableEq, Repr

/-! ## Reset (R39, R300, R301) -/

/-- R39: `BW.acc = 0`, `BW.cnt = 0`. -/
def BW.reset : BW := ⟨0, 0⟩

/-- R39: `BR.cur = 0`, `BR.rem = 0`, `BR.eof = 0`. -/
def BR.reset : BR := ⟨0, 0, false⟩

/-- R39: both tables all 0. -/
def FM.reset : FM := ⟨Vector.replicate 257 0, Vector.replicate 258 0⟩

/-- DESIGN CHOICE (assumption 9): what an arena entry holds that nothing has written. -/
def Node.blank : Node := ⟨0, 0, Config.null, Config.null⟩

/-- R39: no tree, no codes; the arena's contents are unspecified (assumption 9). -/
def HF.reset : HF :=
  ⟨Vector.replicate 513 Node.blank, 0, Config.null, Config.null, Vector.replicate 257 0, Vector.replicate 257 0⟩

/-- R39: the whole interval. -/
def AC.reset : AC := ⟨0, 0xFFFFFFFF, 0, 0, 0⟩

/-- R39: the whole interval. -/
def RC.reset : RC := ⟨0, 0xFFFFFFFF, 0, 0⟩

/-- R39: no run open. -/
def RL.reset : RL := ⟨0, 0⟩

/-- R301: an instance right after the environment attached a source with these bytes, at position 0, and an empty sink of
this capacity, and applied the hardware reset. Nothing is on the command port, nothing has been answered. -/
def State.attach (data : List Byte) (cap : Option Nat) : State :=
  { status := 0, bw := .reset, br := .reset, fm := .reset, hf := .reset, ac := .reset, rc := .reset, rl := .reset,
    src := ⟨data, 0⟩, snk := ⟨[], cap⟩, cmd := [], resp := none }

/-- The machine right after reset: no source bytes and an unbounded sink (DESIGN CHOICE, assumptions 6 and 7). -/
def State.reset : State := State.attach [] none

end Sys2Proof.Machine
end

