-- ==== Sys2Proof/Machine/Flags.lean ====
section
/-! DEFINITION. The flags of the hardware (10_state.md R26): `BR.eof` and "`CORE.STATUS ≠ 0`". There are no arithmetic
condition codes. The error codes of 60_exceptions.md R270. -/

namespace Sys2Proof.Machine

open Sys2Proof

/-- R270: the code of an error kind. -/
def ErrorKind.code : ErrorKind → StatusCode
  | .truncation => 1
  | .badMagic => 2
  | .badHeader => 3
  | .corruptStream => 4
  | .sinkFailure => 5
  | .domainFault => 6
  | .badCommand => 7

/-- R26, R281: "`CORE.STATUS ≠ 0`": the instance refuses everything but `CORE.RESET`. -/
def State.refusing (s : State) : Bool := decide (s.status ≠ 0)

/-- R126: the value of the flag `BR.eof`. -/
def State.eofFlag (s : State) : Word := if s.br.eof then 1 else 0

/-- R125: a bit as a result value. -/
def bitValue (b : Bool) : Word := if b then 1 else 0

end Sys2Proof.Machine
end

