-- ==== Sys2Proof/Machine/Ops.lean ====
section
/-! DEFINITION. The operations every unit is built from: how an operation runs, raises and answers; raising an error and
leaving the error state; the two streams. -/

namespace Sys2Proof.Machine

open Sys2Proof

/-! ## Named updates of the state -/

def State.setBw (s : State) (v : BW) : State := { s with bw := v }
def State.setBr (s : State) (v : BR) : State := { s with br := v }
def State.setFm (s : State) (v : FM) : State := { s with fm := v }
def State.setHf (s : State) (v : HF) : State := { s with hf := v }
def State.setAc (s : State) (v : AC) : State := { s with ac := v }
def State.setRc (s : State) (v : RC) : State := { s with rc := v }
def State.setRl (s : State) (v : RL) : State := { s with rl := v }
def State.setSrc (s : State) (v : Src) : State := { s with src := v }
def State.setSnk (s : State) (v : Snk) : State := { s with snk := v }
def State.setCmd (s : State) (v : List Byte) : State := { s with cmd := v }

/-! ## Answering, raising an error, leaving the error state -/

/-- R98: the tag of a reply. -/
def Reply.tag : Reply → Tag
  | .none => .none
  | .val _ => .val
  | .ceof => .ceof

/-- R98: "`val` (32 bits) = the result, 0 when the tag is not `VAL`". -/
def Reply.value : Reply → Word
  | .none => 0
  | .val v => v
  | .ceof => 0

/-- R98, R16: the answer of an operation that did not raise; `status` is `CORE.STATUS` as it stands. -/
def State.answer (s : State) (r : Reply) : State := { s with resp := some ⟨s.status, r.tag, r.value⟩ }

/-- R280: taking an error. "`CORE.STATUS <- code(K)`; the operation ends; the result port carries `(code(K), NONE, 0)`.
Nothing is saved anywhere". -/
def State.takeError (s : State) (k : ErrorKind) : State := { s with status := k.code, resp := some ⟨k.code, .none, 0⟩ }

/-- R300, R291, R283: reset, the only way out of the error state. "every register and table <- its reset value"; the
streams are the environment's and stay (R301). -/
def State.resetBlock (s : State) : State :=
  { s with
    status := 0, bw := .reset, br := .reset, fm := .reset, hf := .reset, ac := .reset, rc := .reset, rl := .reset }

/-- An operation's pseudocode: it runs to its `return` with a value, or ends early; either way the state holds what the
pseudocode had assigned (R279). -/
abbrev Op (α : Type) := EStateM Stop State α

/-- R15: `raise K`: "nothing after the `raise` in its pseudocode happens". -/
def raise {α : Type} (k : ErrorKind) : Op α := fun s => .error (.raise k) s

/-- A loop of the model has no turn left (assumption 12). -/
def stuck {α : Type} : Op α := fun s => .error .loopBound s

/-- An operation that looks at the state before it goes on. -/
def reading {α : Type} (f : State → Op α) : Op α := fun s => f s s

/-- A change of the FM tables. -/
def modFm (f : FM → FM) : Op Unit := fun s => .ok () (s.setFm (f s.fm))

/-- A change of the HF registers and tables. -/
def modHf (f : HF → HF) : Op Unit := fun s => .ok () (s.setHf (f s.hf))

/-- A change of the AC registers. -/
def modAc (f : AC → AC) : Op Unit := fun s => .ok () (s.setAc (f s.ac))

/-- A change of the RC registers. -/
def modRc (f : RC → RC) : Op Unit := fun s => .ok () (s.setRc (f s.rc))

/-- R281, R16, R280: a command. Refused while `CORE.STATUS ≠ 0`, with nothing changed but the answer
`(CORE.STATUS, NONE, 0)`; else its pseudocode runs, and its `return` or its `raise` is answered. -/
def runCommand (op : Op Reply) (s : State) : Host.Outcome State Fault Refusal :=
  if s.refusing then .next (s.answer .none)
  else
    match op s with
    | .ok r s' => .next (s'.answer r)
    | .error (.raise k) s' => .next (s'.takeError k)
    | .error .loopBound _ => .fault .loopBound

/-- R16: an operation whose `return` has no value (tag `NONE`). -/
def noValue (op : Op Unit) : Op Reply := do
  op
  pure .none

/-! ## The streams (00_scope.md R14, 20_memory.md R60 to R63) -/

/-- R61: `SrcRead()`, `none` for `EOF`. -/
def srcRead : Op (Option Byte) := fun s =>
  match s.src.data[s.src.pos]? with
  | some b => .ok (some b) (s.setSrc { s.src with pos := s.src.pos + 1 })
  | none => .ok none s

/-- R63: `SrcSeek(p)`. -/
def srcSeek (p : Nat) : Op Unit := fun s => .ok () (s.setSrc { s.src with pos := p })

/-- The cursor, read by the two-pass encoders (R168: `m <- src.pos`). -/
def srcPos : Op Nat := fun s => .ok s.src.pos s

/-- How many bytes the source still has; the model's bound on the turns of a loop that reads to the end
(assumption 12). -/
def srcLeft (s : State) : Nat := s.src.data.length - s.src.pos

/-- R62: a write fails "exactly when `len(snk.data) = SINK_CAP`; with `SINK_CAP = ∞` it never fails". -/
def snkFull (s : State) : Bool :=
  match s.snk.cap with
  | none => false
  | some c => decide (s.snk.data.length = c)

/-- R62: `SnkWrite(b)`. -/
def snkWrite (b : Byte) : Op Unit := fun s =>
  if snkFull s then .error (.raise .sinkFailure) s
  else .ok () (s.setSnk { s.snk with data := s.snk.data ++ [b] })

/-- R64: bytes written in order, one `SnkWrite` each. -/
def writeBytes : List Byte → Op Unit
  | [] => pure ()
  | b :: bs => do
    snkWrite b
    writeBytes bs

/-- R254: "repeat n times: SnkWrite(v)". -/
def writeCopies : Nat → Byte → Op Unit
  | 0, _ => pure ()
  | n + 1, v => do
    snkWrite v
    writeCopies n v

/-- "repeat n times" (R197, R223, R225). -/
def repeatOp (op : Op Unit) : Nat → Op Unit
  | 0 => pure ()
  | k + 1 => do
    op
    repeatOp op k

/-- The loop of `FM.SCAN` and of the encoders (R143, R168, R200, R227, R255): `x <- SrcRead()`; leave at `EOF`; else do
`f x`. Each turn but the last reads one byte. -/
def forEachByte (f : Byte → Op Unit) : Nat → Op Unit
  | 0 => stuck
  | k + 1 => do
    match ← srcRead with
    | none => pure ()
    | some x =>
      f x
      forEachByte f k

/-- The same loop, run to the end of the source. -/
def forSource (f : Byte → Op Unit) : Op Unit := reading fun s => forEachByte f (srcLeft s + 1)

/-- R14: `MemRead(a, n)`, "the pure indexing `src.data[a .. a+n−1]` with no cursor effect". -/
def memRead (s : State) (a n : Nat) : List Byte := (s.src.data.drop a).take n

/-- R60, R62: the byte at an offset of the sink, `none` at or past its end: what a reader of the sink sees. -/
def sinkByte (s : State) (a : Nat) : Option Byte := s.snk.data[a]?

end Sys2Proof.Machine
end

