-- ==== Sys2Proof/Machine/Operands.lean ====
section
/-! DEFINITION. Operand forms (30_encoding.md R99) and the reads of the tables by index (10_state.md R36). -/

namespace Sys2Proof.Machine

open Sys2Proof

/-- A symbol, "Unsigned integer in 0..256" (R18). -/
abbrev Symbol := Fin 257

/-- R9: the end-of-stream symbol. -/
def eosSymbol : Symbol := 256

/-- R9: a literal byte as a symbol. -/
def byteSymbol (b : Byte) : Symbol := ⟨b.toNat, by have := b.isLt; omega⟩

/-- R99: `BW.WBIT` "uses only `imm8[0]` and ignores `imm8[7:1]`". -/
def bitOperand (imm8 : BitVec 8) : Bool := imm8.getLsbD 0

/-- R99, R101: a symbol operand; "An `OP16` command whose `imm16 > 256` also does `raise BadCommand`". -/
def symbolOperand (imm16 : BitVec 16) : Op Symbol :=
  if h : imm16.toNat ≤ 256 then pure ⟨imm16.toNat, by omega⟩ else raise .badCommand

/-- R147: a symbol as a result value. -/
def symbolValue (s : Symbol) : Word := BitVec.ofNat 32 s.val

/-- A symbol below 256 as the byte a decoder writes (R169). -/
def symbolByte (s : Symbol) : Byte := BitVec.ofNat 8 s.val

/-- R169, R201, R228: the loop of the decoders: decode a symbol, leave at EOS, else write it as a byte. -/
def decodeLoop (dsym : Op Symbol) : Nat → Op Unit
  | 0 => stuck
  | k + 1 => do
    let x ← dsym
    if x = eosSymbol then pure ()
    else do
      snkWrite (symbolByte x)
      decodeLoop dsym k

/-- R30: `FM.freq[s]`. -/
def FM.freqAt (m : FM) (s : Symbol) : Nat := (m.freq[s]).toNat

/-- R144, R146: the exact sum of the 257 counts. -/
def FM.total (m : FM) : Nat := (m.freq.toList.map BitVec.toNat).sum

/-- R30: `FM.cum[i]`; 0 outside the table, which no rule reads. -/
def FM.cumAt (m : FM) (i : Nat) : Nat :=
  match m.cum[i]? with
  | some v => v.toNat
  | none => 0

/-- R31: the arena entry at an index; a blank entry outside the arena, which no tree reaches (assumption 14). -/
def HF.nodeAt (h : HF) (i : NodeIdx) : Node := h.node.getD i.toNat Node.blank

/-- R31: the symbol of a leaf, 0..256 (assumption 14). -/
def Node.symbol (x : Node) : Symbol := Fin.ofNat 257 x.sym.toNat

/-- R31: "A node is a *leaf* exactly when `left = NULL` and `right = NULL`." -/
def Node.isLeaf (x : Node) : Bool := x.left == Config.null && x.right == Config.null

end Sys2Proof.Machine
end

