-- ==== Sys2Proof/Machine/BitIO.lean ====
section
/-! DEFINITION. 40_bitio.md: the bit-stream packer BW (R120 to R122), the bit-stream unpacker BR (R124 to R126) and the
little-endian helper LE (R128, R129): the procedures other units call, then the meanings of the eight commands. -/

namespace Sys2Proof.Machine

open Sys2Proof

/-! ## Procedures -/

/-- R120. -/
def bwInit : Op Unit := fun s => .ok () (s.setBw ⟨0, 0⟩)

/-- R121: the accumulator with one more bit: `((BW.acc << 1) OR b) mod 256`. -/
def BW.shiftIn (w : BW) (b : Bool) : Byte := (w.acc <<< 1) ||| (if b then 1 else 0)

/-- R121: at the eighth bit the registers are reset before the byte is written. -/
def bwWbit (b : Bool) : Op Unit := fun s =>
  if h : s.bw.cnt.val + 1 = 8 then
    snkWrite (s.bw.shiftIn b) (s.setBw ⟨0, 0⟩)
  else
    .ok () (s.setBw ⟨s.bw.shiftIn b, ⟨s.bw.cnt.val + 1, by have := s.bw.cnt.isLt; omega⟩⟩)

/-- R122: the held bits with zeros below: `(BW.acc << (8 − BW.cnt)) mod 256`. -/
def BW.padded (w : BW) : Byte := w.acc <<< (8 - w.cnt.val)

/-- R122. -/
def bwFlush : Op Unit := fun s =>
  if s.bw.cnt.val > 0 then snkWrite s.bw.padded (s.setBw ⟨0, 0⟩) else .ok () s

/-- R124. -/
def brInit : Op Unit := fun s => .ok () (s.setBr ⟨0, 0, false⟩)

/-- R125: "bit 7 first, bit 0 last": one look-ahead bit of `cur`, `r + 1` bits being left. -/
def brTake (cur : Byte) (r : Nat) (h : r < 8) : Op Bool := fun s =>
  .ok (cur.getLsbD r) (s.setBr { s.br with cur := cur, rem := ⟨r, by omega⟩ })

/-- R125: the next bit; once the source has ended, 0 for ever with `BR.eof = 1`. -/
def brRbit : Op Bool := fun s =>
  if s.br.eof then .ok false s
  else if h : s.br.rem.val = 0 then
    match srcRead s with
    | .ok (some x) s' => brTake x 7 (by omega) s'
    | .ok none s' => .ok false (s'.setBr { s'.br with eof := true })
    | .error e s' => .error e s'
  else brTake s.br.cur (s.br.rem.val - 1) (by have := s.br.rem.isLt; omega) s

/-- R126: the flag `BR.eof` as the callers test it. -/
def brEofSeen : Op Bool := fun s => .ok s.br.eof s

/-- R128: `write_u32(v)`. -/
def leWr32 (v : Word) : Op Unit := writeBytes (leBytes32 v)

/-- A byte in the middle of a little-endian value: the end of the source is `TRUNCATION` (R129). -/
def readByteOrTruncation : Op Byte := do
  match ← srcRead with
  | some b => pure b
  | none => raise .truncation

/-- R129: `read_u32()`, `none` for `CLEAN_EOF`. -/
def leRd32 : Op (Option Word) := do
  match ← srcRead with
  | none => pure none
  | some b0 =>
    let b1 ← readByteOrTruncation
    let b2 ← readByteOrTruncation
    let b3 ← readByteOrTruncation
    pure (some (ofLeBytes32 b0 b1 b2 b3))

/-- Bits written in order, one `BW.WBIT` each (R103's `BW.WBITS`). -/
def writeBits : List Bool → Op Unit
  | [] => pure ()
  | b :: bs => do
    bwWbit b
    writeBits bs

/-! ## Meanings -/

/-- R120 `BW.INIT`. -/
def execBwInit (s : State) : Host.Outcome State Fault Refusal := runCommand (noValue bwInit) s

/-- R121 `BW.WBIT b`. -/
def execBwWbit (imm8 : BitVec 8) (s : State) : Host.Outcome State Fault Refusal :=
  runCommand (noValue (bwWbit (bitOperand imm8))) s

/-- R122 `BW.FLUSH`. -/
def execBwFlush (s : State) : Host.Outcome State Fault Refusal := runCommand (noValue bwFlush) s

/-- R124 `BR.INIT`. -/
def execBrInit (s : State) : Host.Outcome State Fault Refusal := runCommand (noValue brInit) s

/-- R125 `BR.RBIT`: result `VAL` 0 or 1. -/
def execBrRbit (s : State) : Host.Outcome State Fault Refusal :=
  runCommand (do let b ← brRbit; pure (.val (bitValue b))) s

/-- R126 `BR.EOF`: result `VAL BR.eof`. -/
def execBrEof (s : State) : Host.Outcome State Fault Refusal :=
  runCommand (fun t => .ok (.val t.eofFlag) t) s

/-- R128 `LE.WR32 v`. -/
def execLeWr32 (imm32 : BitVec 32) (s : State) : Host.Outcome State Fault Refusal :=
  runCommand (noValue (leWr32 imm32)) s

/-- R129 `LE.RD32`: `VAL v`, or `CEOF`. -/
def execLeRd32 (s : State) : Host.Outcome State Fault Refusal :=
  runCommand (do
    match ← leRd32 with
    | some v => pure (.val v)
    | none => pure .ceof) s

end Sys2Proof.Machine
end

