-- ==== Sys2Proof/Machine/Model.lean ====
section
/-! DEFINITION. 41_model.md: the static frequency model FM (R140 to R149): the procedures other units call, then the
meanings of the nine commands. -/

namespace Sys2Proof.Machine

open Sys2Proof

/-! ## Frequency construction -/

/-- R140: "`FM.cum` is not touched". -/
def fmClr : Op Unit := modFm fun m => { m with freq := Vector.replicate 257 0 }

/-- R141: a frequency table with one more of byte b, modulo `2^32`. -/
def FM.accumulate (m : FM) (b : Byte) : FM :=
  have h : b.toNat < 257 := by have := b.isLt; omega
  { m with freq := m.freq.set b.toNat (m.freq[b.toNat] + 1) }

/-- R141. -/
def fmAcc (b : Byte) : Op Unit := modFm fun m => m.accumulate b

/-- R142. -/
def fmEos : Op Unit := modFm fun m => { m with freq := m.freq.set 256 1 }

/-- R143. -/
def fmScan : Op Unit := do
  fmClr
  forSource fmAcc
  fmEos

/-! ## Scaling -/

/-- R144: a nonzero entry becomes `max(1, freq · MAX_TOTAL / total)`. -/
def scaleEntry (total : Nat) (f : Word) : Word :=
  if f = 0 then 0 else BitVec.ofNat 32 (max 1 (f.toNat * Config.maxTotal / total))

/-- R144: the scaled table. The inner test can never hold and is kept because the source gives it (U21). -/
def FM.scaled (m : FM) : Vector Word 257 :=
  if m.total = 0 then Vector.replicate 257 1
  else if m.total > Config.maxTotal then
    let scaled := m.freq.map (scaleEntry m.total)
    if (scaled.toList.map BitVec.toNat).sum = 0 then Vector.replicate 257 (BitVec.ofNat 32 Config.scaledFallback)
    else scaled
  else m.freq

/-- R144. -/
def fmScale : Op Unit := modFm fun m => { m with freq := m.scaled }

/-! ## Cumulative table and lookup -/

/-- R146, R30: "entry i equals the sum of frequencies of symbols 0..i−1", as an exact natural. -/
def FM.prefixSum (m : FM) (i : Nat) : Nat := ((m.freq.toList.take i).map BitVec.toNat).sum

/-- R146: the cumulative table; all-ones counts stand for a table of total 0. -/
def FM.cumTable (m : FM) : Vector Word 258 :=
  Vector.ofFn fun i : Fin 258 => BitVec.ofNat 32 (if m.total = 0 then i.val else m.prefixSum i.val)

/-- R146: `BAD_HEADER` when the total exceeds `2^32 − 1`; `FM.cum` is then not written. -/
def fmCum : Op Unit := fun s =>
  if s.fm.total > Config.rlMax then .error (.raise .badHeader) s
  else .ok () (s.setFm { s.fm with cum := s.fm.cumTable })

/-- R147: the half-open binary search. -/
def findLoop (m : FM) (v : Nat) : Nat → Nat → Nat → Nat
  | 0, lo, _ => lo
  | k + 1, lo, hi =>
    if hi - lo > 1 then
      if m.cumAt ((lo + hi) / 2) ≤ v then findLoop m v k ((lo + hi) / 2) hi
      else findLoop m v k lo ((lo + hi) / 2)
    else lo

/-- R147: the symbol whose share of the total holds `v`. The index found is below 257 (assumption 12). -/
def fmFind (v : Nat) : Op Symbol := fun s =>
  if v ≥ s.fm.cumAt 257 then .error (.raise .corruptStream) s
  else .ok (Fin.ofNat 257 (findLoop s.fm v Config.findTurns 0 257)) s

/-! ## The shared header -/

/-- u32 values written in order (R148). -/
def writeWords : List Word → Op Unit
  | [] => pure ()
  | v :: vs => do
    leWr32 v
    writeWords vs

/-- R148. -/
def fmWhdr (tag : Word) : Op Unit := do
  leWr32 tag
  leWr32 257
  reading fun s => writeWords s.fm.freq.toList

/-- R149: a u32 of a header; a clean end of the source is `TRUNCATION` here. -/
def readWordOrTruncation : Op Word := do
  match ← leRd32 with
  | some v => pure v
  | none => raise .truncation

/-- R149: n u32 values in stream order. -/
def readWords : (n : Nat) → Op (Vector Word n)
  | 0 => pure #v[]
  | n + 1 => do
    let vs ← readWords n
    let v ← readWordOrTruncation
    pure (vs.push v)

/-- R149: `FM.freq` takes the values read. -/
def loadFreq (f : Vector Word 257) : Op Unit := modFm fun m => { m with freq := f }

/-- R149: "if (sum of f[s]) ≠ 0 and f[256] = 0: raise BadHeader". -/
def headerHasEos : Op Unit := fun s =>
  if s.fm.total ≠ 0 ∧ s.fm.freqAt eosSymbol = 0 then .error (.raise .badHeader) s else .ok () s

/-- R149, in R277's order of checks. -/
def fmRhdr (tag : Word) : Op Unit := do
  let m0 ← readByteOrTruncation
  let m1 ← readByteOrTruncation
  let m2 ← readByteOrTruncation
  let m3 ← readByteOrTruncation
  if ofLeBytes32 m0 m1 m2 m3 ≠ tag then raise .badMagic
  else do
    let n ← readWordOrTruncation
    if n ≠ 257 then raise .badHeader
    else do
      let f ← readWords 257
      loadFreq f
      headerHasEos

/-! ## Meanings -/

/-- R140 `FM.CLR`. -/
def execFmClr (s : State) : Host.Outcome State Fault Refusal := runCommand (noValue fmClr) s

/-- R141 `FM.ACC b`. -/
def execFmAcc (imm8 : BitVec 8) (s : State) : Host.Outcome State Fault Refusal := runCommand (noValue (fmAcc imm8)) s

/-- R142 `FM.EOS`. -/
def execFmEos (s : State) : Host.Outcome State Fault Refusal := runCommand (noValue fmEos) s

/-- R144 `FM.SCALE`. -/
def execFmScale (s : State) : Host.Outcome State Fault Refusal := runCommand (noValue fmScale) s

/-- R146 `FM.CUM`. -/
def execFmCum (s : State) : Host.Outcome State Fault Refusal := runCommand (noValue fmCum) s

/-- R147 `FM.FIND v`: result `VAL s`. -/
def execFmFind (imm32 : BitVec 32) (s : State) : Host.Outcome State Fault Refusal :=
  runCommand (do let x ← fmFind imm32.toNat; pure (.val (symbolValue x))) s

/-- R148 `FM.WHDR tag`: "Any tag value is written as given". -/
def execFmWhdr (imm32 : BitVec 32) (s : State) : Host.Outcome State Fault Refusal :=
  runCommand (noValue (fmWhdr imm32)) s

/-- R149 `FM.RHDR tag`. -/
def execFmRhdr (imm32 : BitVec 32) (s : State) : Host.Outcome State Fault Refusal :=
  runCommand (noValue (fmRhdr imm32)) s

/-- R143 `FM.SCAN`. -/
def execFmScan (s : State) : Host.Outcome State Fault Refusal := runCommand (noValue fmScan) s

end Sys2Proof.Machine
end

