-- ==== Sys2Proof/Machine/Huffman.lean ====
section
/-! DEFINITION. 42_huffman.md: the tree builder, the code assigner, the emitter and the prefix-tree walker (R160 to R169):
the procedures, then the meanings of the seven commands. -/

namespace Sys2Proof.Machine

open Sys2Proof

/-! ## The tree (R160 to R163) -/

/-- R160, R162: one leaf per symbol with nonzero frequency, in ascending symbol order. -/
def FM.leaves (m : FM) : List Node :=
  m.freq.toList.zipIdx.filterMap fun p =>
    if p.1 = 0 then none else some ⟨p.1.toNat, BitVec.ofNat 9 p.2, Config.null, Config.null⟩

/-- R161: node x, at index i, is removed before node y, at index j. -/
def removedBefore (x : Node) (i : Nat) (y : Node) (j : Nat) : Bool :=
  decide (x.freq < y.freq)
    || (x.freq == y.freq && (decide (y.sym.toNat < x.sym.toNat) || (x.sym == y.sym && decide (i < j))))

/-- The node at an index of the part of the arena in use. -/
def nodeIn (nodes : List Node) (i : Nat) : Node := nodes.getD i Node.blank

/-- R161: of two indices the one removed first. -/
def earlier (nodes : List Node) (i j : Nat) : Nat :=
  if removedBefore (nodeIn nodes j) j (nodeIn nodes i) i then j else i

/-- R162: "the element of Q first in the order of rule R161", and Q without it. -/
def popFirst (nodes : List Node) : List Nat → Option (Nat × List Nat)
  | [] => none
  | i :: q =>
    let a := q.foldl (earlier nodes) i
    some (a, (i :: q).erase a)

/-- R162: the parent of the first-removed node a (left) and the second-removed node b (right). -/
def parentOf (nodes : List Node) (a b : Nat) : Node :=
  ⟨(nodeIn nodes a).freq + (nodeIn nodes b).freq, 0, BitVec.ofNat 10 a, BitVec.ofNat 10 b⟩

/-- R162: the loop "while Q has more than one element". Each turn makes Q one element smaller. -/
def mergeLoop : Nat → List Node → List Nat → List Node × List Nat
  | 0, nodes, q => (nodes, q)
  | k + 1, nodes, q =>
    match popFirst nodes q with
    | none => (nodes, q)
    | some (a, q₁) =>
      match popFirst nodes q₁ with
      | none => (nodes, q)
      | some (b, q₂) => mergeLoop k (nodes ++ [parentOf nodes a b]) (q₂ ++ [nodes.length])

/-- R162, R163: the arena entries in use and the index of the root. -/
def FM.tree (m : FM) : List Node × Nat :=
  match m.leaves with
  | [] => ([⟨1, 256, Config.null, Config.null⟩], 0)
  | [l] => ([l, ⟨l.freq, 0, 0, Config.null⟩], 1)
  | ls =>
    let r := mergeLoop ls.length ls (List.range ls.length)
    (r.1, r.2.headD 0)

/-- The arena after the entries from index 0 on are written; the entries above keep what they hold. -/
def overlay (new : List Node) (old : Vector Node 513) : Vector Node 513 :=
  Vector.ofFn fun i : Fin 513 => new.getD i.val old[i]

/-- R162: the unit after `HF.BUILD`; "`HF.len` and `HF.bits` are not touched". -/
def HF.built (h : HF) (t : List Node × Nat) : HF :=
  { h with
    node := overlay t.1 h.node, n := BitVec.ofNat 10 t.1.length, root := BitVec.ofNat 10 t.2,
    walk := BitVec.ofNat 10 t.2 }

/-- R162. -/
def hfBuild : Op Unit := reading fun s => modHf fun h => h.built s.fm.tree

/-! ## Codes (R164, R165) -/

/-- R164: the leaves reachable from a node, each with its path, depth first. The number is a bound on the depth
(assumption 13). -/
def leafPaths (h : HF) : Nat → NodeIdx → List Bool → List (Symbol × List Bool)
  | 0, _, _ => []
  | k + 1, i, p =>
    let x := h.nodeAt i
    if x.isLeaf then [(x.symbol, p)]
    else
      (if x.left = Config.null then [] else leafPaths h k x.left (p ++ [false]))
        ++ (if x.right = Config.null then [] else leafPaths h k x.right (p ++ [true]))

/-- R164: "If the prefix is empty at a leaf (single-node tree), assign the code "0"." -/
def codeOfPath (p : List Bool) : List Bool := if p = [] then [false] else p

/-- R164: a code "read as a binary number, first bit most significant". -/
def codeBits (c : List Bool) : BitVec 256 := c.foldl (fun v b => (v <<< 1) ||| (if b then 1 else 0)) 0

/-- R164: one symbol's code recorded. -/
def HF.record (h : HF) (e : Symbol × List Bool) : HF :=
  { h with
    len := h.len.set e.1.val (BitVec.ofNat 9 (codeOfPath e.2).length),
    bits := h.bits.set e.1.val (codeBits (codeOfPath e.2)) }

/-- R164: the unit with no code recorded. -/
def HF.clearCodes (h : HF) : HF := { h with len := Vector.replicate 257 0, bits := Vector.replicate 257 0 }

/-- R164: the unit after `HF.CODES`. -/
def HF.coded (h : HF) : HF := (leafPaths h Config.arenaLen h.root []).foldl HF.record h.clearCodes

/-- R164, R166, R276: "no tree has been built since reset". -/
def needTree : Op Unit := fun s => if s.hf.root = Config.null then .error (.raise .domainFault) s else .ok () s

/-- R164. -/
def hfCodes : Op Unit := do
  needTree
  modHf HF.coded

/-- R165: the bits k−1 down to 0 of a code. -/
def writeCodeBits (c : BitVec 256) : Nat → Op Unit
  | 0 => pure ()
  | k + 1 => do
    bwWbit (c.getLsbD k)
    writeCodeBits c k

/-- R165. -/
def hfEsym (x : Symbol) : Op Unit := fun s =>
  if s.hf.len[x] = 0 then .error (.raise .domainFault) s
  else writeCodeBits s.hf.bits[x] (s.hf.len[x]).toNat s

/-! ## The walker (R166, R167) -/

/-- R166: what bit b does at the walker's place, once it is known to be a bit of the source. -/
def HF.descend (h : HF) (b : Bool) : Except ErrorKind (HF × Option Symbol) :=
  if (h.nodeAt h.root).isLeaf then
    if b then .error .corruptStream else .ok (h, some (h.nodeAt h.root).symbol)
  else
    let c := if b then (h.nodeAt h.walk).right else (h.nodeAt h.walk).left
    if c = Config.null then .error .corruptStream
    else if (h.nodeAt c).isLeaf then .ok ({ h with walk := h.root }, some (h.nodeAt c).symbol)
    else .ok ({ h with walk := c }, none)

/-- R166: the walker takes the bit. -/
def walkBit (b : Bool) : Op (Option Symbol) := fun s =>
  match s.hf.descend b with
  | .ok (h, r) => .ok r (s.setHf h)
  | .error k => .error (.raise k) s

/-- R166: "The EOF test comes before the bit is used, so a fill bit never moves the walker." -/
def hfStep : Op (Option Symbol) := do
  needTree
  let b ← brRbit
  if ← brEofSeen then raise .truncation
  else walkBit b

/-- R167: steps until one completes a code. "each step consumes one bit or raises". -/
def dsymLoop : Nat → Op Symbol
  | 0 => stuck
  | k + 1 => do
    match ← hfStep with
    | some x => pure x
    | none => dsymLoop k

/-- The bits the bit reader can still return before the source ends (assumption 12). -/
def bitsLeft (s : State) : Nat := s.br.rem.val + 8 * srcLeft s

/-- R167. -/
def hfDsym : Op Symbol := reading fun s => dsymLoop (bitsLeft s + 1)

/-! ## Whole streams (R168, R169) -/

/-- R168. -/
def hfEnc : Op Unit := do
  let m ← srcPos
  fmScan
  srcSeek m
  fmWhdr Config.magicHF
  hfBuild
  hfCodes
  bwInit
  forSource fun x => hfEsym (byteSymbol x)
  hfEsym eosSymbol
  bwFlush

/-- R169. Each symbol consumes a bit of the source (assumption 12). -/
def hfDec : Op Unit := do
  fmRhdr Config.magicHF
  hfBuild
  brInit
  reading fun s => decodeLoop hfDsym (bitsLeft s + 1)

/-! ## Meanings -/

/-- R162 `HF.BUILD`. -/
def execHfBuild (s : State) : Host.Outcome State Fault Refusal := runCommand (noValue hfBuild) s

/-- R164 `HF.CODES`. -/
def execHfCodes (s : State) : Host.Outcome State Fault Refusal := runCommand (noValue hfCodes) s

/-- R165 `HF.ESYM s`. -/
def execHfEsym (imm16 : BitVec 16) (s : State) : Host.Outcome State Fault Refusal :=
  runCommand (noValue (do let x ← symbolOperand imm16; hfEsym x)) s

/-- R166 `HF.STEP`: "`VAL s` when this bit completed a code, `NONE` when the walker moved to an internal node". -/
def execHfStep (s : State) : Host.Outcome State Fault Refusal :=
  runCommand (do
    match ← hfStep with
    | some x => pure (.val (symbolValue x))
    | none => pure .none) s

/-- R167 `HF.DSYM`: result `VAL s`. -/
def execHfDsym (s : State) : Host.Outcome State Fault Refusal :=
  runCommand (do let x ← hfDsym; pure (.val (symbolValue x))) s

/-- R168 `HF.ENC`. -/
def execHfEnc (s : State) : Host.Outcome State Fault Refusal := runCommand (noValue hfEnc) s

/-- R169 `HF.DEC`. -/
def execHfDec (s : State) : Host.Outcome State Fault Refusal := runCommand (noValue hfDec) s

end Sys2Proof.Machine
end

