-- ==== Sys2Proof/Machine/Interval.lean ====
section
/-! DEFINITION. The two procedures the arithmetic unit and the range unit share (43_arith.md): the interval update (R191)
and the target value (R198), "for `U` one of `AC`, `RC`". All arithmetic is on naturals (R190). -/

namespace Sys2Proof.Machine

open Sys2Proof

/-- R191: the unit a shared procedure works on. -/
inductive Coder where
  | ac
  | rc
  deriving DecidableEq, Repr

/-- R191: `U.low`. -/
def State.lowOf (s : State) : Coder → Nat
  | .ac => s.ac.low.toNat
  | .rc => s.rc.low.toNat

/-- R191: `U.high`. -/
def State.highOf (s : State) : Coder → Nat
  | .ac => s.ac.high.toNat
  | .rc => s.rc.high.toNat

/-- R198: `U.code`. -/
def State.codeOf (s : State) : Coder → Nat
  | .ac => s.ac.code.toNat
  | .rc => s.rc.code.toNat

/-- R191: "`U.high <- nh; U.low <- nl`". -/
def State.setInterval (s : State) (u : Coder) (nl nh : Nat) : State :=
  match u with
  | .ac => s.setAc { s.ac with low := BitVec.ofNat 32 nl, high := BitVec.ofNat 32 nh }
  | .rc => s.setRc { s.rc with low := BitVec.ofNat 32 nl, high := BitVec.ofNat 32 nh }

/-- R191: `U.high − U.low + 1`; meaningful when `low ≤ high`, which every use tests first. -/
def State.rangeOf (s : State) (u : Coder) : Nat := s.highOf u + 1 - s.lowOf u

/-- R191: `(range · C[i]) / total`. -/
def FM.share (m : FM) (range i : Nat) : Nat := range * m.cumAt i / m.cumAt 257

/-- R191: `IntervalUpdate(U, s)`. `nh` is one less than `low + share (s+1)`, so "`nh < nl`" is
`share (s+1) ≤ share s` (assumption 20). "On a fault the registers keep their old values." -/
def intervalUpdate (u : Coder) (x : Symbol) : Op Unit := fun s =>
  let loShare := s.fm.share (s.rangeOf u) x.val
  let hiShare := s.fm.share (s.rangeOf u) (x.val + 1)
  if s.fm.cumAt 257 = 0 ∨ s.rangeOf u = 0 then .error (.raise .domainFault) s
  else if hiShare ≤ loShare then .error (.raise .domainFault) s
  else .ok () (s.setInterval u (s.lowOf u + loShare) (s.lowOf u + hiShare - 1))

/-- R198: `TargetValue(U)`. -/
def targetValue (u : Coder) : Op Nat := fun s =>
  if s.fm.cumAt 257 = 0 ∨ s.rangeOf u = 0 then .error (.raise .domainFault) s
  else if s.codeOf u < s.lowOf u ∨ s.highOf u < s.codeOf u then .error (.raise .corruptStream) s
  else .ok (((s.codeOf u - s.lowOf u + 1) * s.fm.cumAt 257 - 1) / s.rangeOf u) s

end Sys2Proof.Machine
end

