-- ==== Sys2Proof/Machine/Arith.lean ====
section
/-! DEFINITION. 43_arith.md: the arithmetic coder (R192 to R201): the procedures, then the meanings of the seven commands. -/

namespace Sys2Proof.Machine

open Sys2Proof

/-! ## Renormalization (R194, R199) -/

/-- R194: which of the three tests holds, "tried in this order", or none. -/
inductive Renorm where
  /-- `high < HALF` -/
  | lower
  /-- `low ≥ HALF` -/
  | upper
  /-- `low ≥ Q1` and `high < Q3` -/
  | middle
  /-- none: the loop exits -/
  | done
  deriving DecidableEq, Repr

/-- R194: the tests of one turn. -/
def AC.renorm (a : AC) : Renorm :=
  if a.high.toNat < Config.half then .lower
  else if Config.half ≤ a.low.toNat then .upper
  else if Config.q1 ≤ a.low.toNat ∧ a.high.toNat < Config.q3 then .middle
  else .done

/-- R194, R199: the constant a turn subtracts from the registers. -/
def Renorm.bias : Renorm → Nat
  | .lower => 0
  | .upper => Config.half
  | .middle => Config.q1
  | .done => 0

/-- R194: the bias taken off, then "`AC.low <- 2 · AC.low; AC.high <- 2 · AC.high + 1`". Nothing is lost in 32 bits when
`low ≤ high` (assumption 10). -/
def AC.rescale (a : AC) (bias : Nat) : AC :=
  { a with
    low := BitVec.ofNat 32 (2 * (a.low.toNat - bias)), high := BitVec.ofNat 32 (2 * (a.high.toNat - bias) + 1) }

/-! ## Encoder -/

/-- R192: "`AC.code` and `AC.zfill` are not touched". -/
def acEinit : Op Unit := modAc fun a => { a with low := 0, high := 0xFFFFFFFF, pend := 0 }

/-- R193: "while AC.pend > 0: call BW.WBIT(1 − b); AC.pend <- AC.pend − 1"; the number is `AC.pend`. -/
def emitPending (b : Bool) : Nat → Op Unit
  | 0 => pure ()
  | k + 1 => do
    bwWbit b
    modAc fun a => { a with pend := k }
    emitPending b k

/-- R193: `AcEmit(b)`. -/
def acEmit (b : Bool) : Op Unit := do
  bwWbit b
  reading fun s => emitPending (!b) s.ac.pend

/-- R194: what a turn of the encoder writes or counts before the registers change. -/
def acEmitFor : Renorm → Op Unit
  | .lower => acEmit false
  | .upper => acEmit true
  | .middle => modAc fun a => { a with pend := a.pend + 1 }
  | .done => pure ()

/-- R194: the renormalization loop of the encoder. -/
def acEncLoop : Nat → Op Unit
  | 0 => stuck
  | k + 1 => fun s =>
    match s.ac.renorm with
    | .done => .ok () s
    | r =>
      (do
        acEmitFor r
        modAc fun a => a.rescale r.bias
        acEncLoop k) s

/-- R194. -/
def acEsym (x : Symbol) : Op Unit := do
  intervalUpdate .ac x
  acEncLoop Config.acTurns

/-- R195. -/
def acEfin : Op Unit := do
  modAc fun a => { a with pend := a.pend + 1 }
  reading fun s => acEmit (decide (Config.q1 ≤ s.ac.low.toNat))
  bwFlush

/-! ## Decoder -/

/-- R196: one more fill bit counted, "saturating at 32" (R33). -/
def AC.countFill (a : AC) : AC := { a with zfill := ⟨min 32 (a.zfill.val + 1), by omega⟩ }

/-- R196: "if BR.eof = 1: AC.zfill <- min(32, AC.zfill + 1)". -/
def acCountFill : Op Unit := fun s => if s.br.eof then .ok () (s.setAc s.ac.countFill) else .ok () s

/-- R196: `AcFill()`. -/
def acFill : Op Bool := do
  let b ← brRbit
  acCountFill
  pure b

/-- R197, R199: "`AC.code <- 2 · AC.code + AcFill()`". -/
def acShiftIn : Op Unit := do
  let b ← acFill
  modAc fun a => { a with code := BitVec.ofNat 32 (2 * a.code.toNat + b.toNat) }

/-- R197: "`AC.pend` is not touched", and it "does not call `BR.INIT`". -/
def acDinit : Op Unit := do
  modAc fun a => { a with low := 0, high := 0xFFFFFFFF, code := 0, zfill := 0 }
  repeatOp acShiftIn 32

/-- R199: the bias taken off all three registers and the interval doubled; the code's own doubling is `acShiftIn`. -/
def AC.rescaleDec (a : AC) (bias : Nat) : AC :=
  { a.rescale bias with code := BitVec.ofNat 32 (a.code.toNat - bias) }

/-- R199: the renormalization loop of the decoder. -/
def acDecLoop : Nat → Op Unit
  | 0 => stuck
  | k + 1 => fun s =>
    match s.ac.renorm with
    | .done => .ok () s
    | r =>
      (do
        modAc fun a => a.rescaleDec r.bias
        acShiftIn
        acDecLoop k) s

/-- R199: "`TRUNCATION` when all 32 bits of `AC.code` are fill bits at entry". -/
def acNeedInput : Op Unit := fun s =>
  if s.ac.zfill.val ≥ Config.acZfillMax then .error (.raise .truncation) s else .ok () s

/-- R199. -/
def acDsym : Op Symbol := do
  acNeedInput
  let v ← targetValue .ac
  let x ← fmFind v
  intervalUpdate .ac x
  acDecLoop Config.acTurns
  pure x

/-! ## Whole streams -/

/-- R200. -/
def acEnc : Op Unit := do
  let m ← srcPos
  fmScan
  srcSeek m
  fmScale
  fmWhdr Config.magicAC
  fmCum
  acEinit
  bwInit
  forSource fun x => acEsym (byteSymbol x)
  acEsym eosSymbol
  acEfin

/-- A bound on the symbols `AC.DEC` decodes (R203(a)): between two bit reads each symbol but EOS makes the range smaller,
and there are at most `bitsLeft` data bits and 32 fill bits to read (assumption 12). -/
def acDecBound (s : State) : Nat := (bitsLeft s + Config.acZfillMax + 2) * Config.full

/-- R201. -/
def acDec : Op Unit := do
  fmRhdr Config.magicAC
  fmCum
  brInit
  acDinit
  reading fun s => decodeLoop acDsym (acDecBound s)

/-! ## Meanings -/

/-- R192 `AC.EINIT`. -/
def execAcEinit (s : State) : Host.Outcome State Fault Refusal := runCommand (noValue acEinit) s

/-- R194 `AC.ESYM s`. -/
def execAcEsym (imm16 : BitVec 16) (s : State) : Host.Outcome State Fault Refusal :=
  runCommand (noValue (do let x ← symbolOperand imm16; acEsym x)) s

/-- R195 `AC.EFIN`. -/
def execAcEfin (s : State) : Host.Outcome State Fault Refusal := runCommand (noValue acEfin) s

/-- R197 `AC.DINIT`. -/
def execAcDinit (s : State) : Host.Outcome State Fault Refusal := runCommand (noValue acDinit) s

/-- R199 `AC.DSYM`: result `VAL s`. -/
def execAcDsym (s : State) : Host.Outcome State Fault Refusal :=
  runCommand (do let x ← acDsym; pure (.val (symbolValue x))) s

/-- R200 `AC.ENC`. -/
def execAcEnc (s : State) : Host.Outcome State Fault Refusal := runCommand (noValue acEnc) s

/-- R201 `AC.DEC`. -/
def execAcDec (s : State) : Host.Outcome State Fault Refusal := runCommand (noValue acDec) s

end Sys2Proof.Machine
end

