-- ==== Sys2Proof/Machine/Range.lean ====
section
/-! DEFINITION. 44_range.md: the range coder (R221 to R228): the procedures, then the meanings of the seven commands. -/

namespace Sys2Proof.Machine

open Sys2Proof

/-! ## Renormalization (R220, R222, R226) -/

/-- R222: `(low XOR high) < 2^24`, "`low` and `high` have the same top byte" (R220). -/
def RC.sameTop (r : RC) : Bool := decide ((r.low ^^^ r.high).toNat < Config.rthr)

/-- R222: "the top byte of `low` (bits 24–31)". -/
def RC.topByte (r : RC) : Byte := r.low.extractLsb' 24 8

/-- R222: "shift `low` left 8, shift `high` left 8 and OR in 0xFF". -/
def RC.shiftOut (r : RC) : RC := { r with low := r.low <<< 8, high := (r.high <<< 8) ||| 0xFF }

/-! ## Encoder -/

/-- R221: "`RC.code` and `RC.zfill` are not touched". -/
def rcEinit : Op Unit := modRc fun r => { r with low := 0, high := 0xFFFFFFFF }

/-- R222: the loop; a byte that cannot be written leaves the registers as they are. -/
def rcEncLoop : Nat → Op Unit
  | 0 => stuck
  | k + 1 => fun s =>
    if s.rc.sameTop then
      (do
        snkWrite s.rc.topByte
        modRc RC.shiftOut
        rcEncLoop k) s
    else .ok () s

/-- R222. -/
def rcEsym (x : Symbol) : Op Unit := do
  intervalUpdate .rc x
  rcEncLoop Config.rcTurns

/-- R223: one byte of the tail, and the shift after it. -/
def rcTailByte : Op Unit := do
  reading fun s => snkWrite s.rc.topByte
  modRc fun r => { r with low := r.low <<< 8 }

/-- R223. -/
def rcEfin : Op Unit := repeatOp rcTailByte 4

/-! ## Decoder -/

/-- R224: one more fill byte counted, saturating at 4 (R34). -/
def RC.countFill (r : RC) : RC := { r with zfill := ⟨min 4 (r.zfill.val + 1), by omega⟩ }

/-- R224: `RcFill()`. -/
def rcFill : Op Byte := do
  match ← srcRead with
  | some x => pure x
  | none =>
    modRc RC.countFill
    pure 0

/-- R225, R226: "`RC.code <- ((RC.code · 256) mod 2^32) OR RcFill()`". -/
def rcShiftIn : Op Unit := do
  let b ← rcFill
  modRc fun r => { r with code := (r.code <<< 8) ||| b.setWidth 32 }

/-- R225. -/
def rcDinit : Op Unit := do
  modRc fun r => { r with low := 0, high := 0xFFFFFFFF, code := 0, zfill := 0 }
  repeatOp rcShiftIn 4

/-- R226: the renormalization loop of the decoder. -/
def rcDecLoop : Nat → Op Unit
  | 0 => stuck
  | k + 1 => fun s =>
    if s.rc.sameTop then
      (do
        modRc RC.shiftOut
        rcShiftIn
        rcDecLoop k) s
    else .ok () s

/-- R226: "`TRUNCATION` when all four bytes of `RC.code` are fill bytes at entry". -/
def rcNeedInput : Op Unit := fun s =>
  if s.rc.zfill.val ≥ Config.rcZfillMax then .error (.raise .truncation) s else .ok () s

/-- R226. -/
def rcDsym : Op Symbol := do
  rcNeedInput
  let v ← targetValue .rc
  let x ← fmFind v
  intervalUpdate .rc x
  rcDecLoop Config.rcTurns
  pure x

/-! ## Whole streams -/

/-- R227. -/
def rcEnc : Op Unit := do
  let m ← srcPos
  fmScan
  srcSeek m
  fmScale
  fmWhdr Config.magicRC
  fmCum
  rcEinit
  forSource fun x => rcEsym (byteSymbol x)
  rcEsym eosSymbol
  rcEfin

/-- A bound on the symbols `RC.DEC` decodes (R230(c)): between two byte reads each symbol but EOS makes the range smaller,
and there are at most `srcLeft` source bytes and 4 fill bytes to read (assumption 12). -/
def rcDecBound (s : State) : Nat := (srcLeft s + Config.rcZfillMax + 2) * Config.full

/-- R228. -/
def rcDec : Op Unit := do
  fmRhdr Config.magicRC
  fmCum
  rcDinit
  reading fun s => decodeLoop rcDsym (rcDecBound s)

/-! ## Meanings -/

/-- R221 `RC.EINIT`. -/
def execRcEinit (s : State) : Host.Outcome State Fault Refusal := runCommand (noValue rcEinit) s

/-- R222 `RC.ESYM s`. -/
def execRcEsym (imm16 : BitVec 16) (s : State) : Host.Outcome State Fault Refusal :=
  runCommand (noValue (do let x ← symbolOperand imm16; rcEsym x)) s

/-- R223 `RC.EFIN`. -/
def execRcEfin (s : State) : Host.Outcome State Fault Refusal := runCommand (noValue rcEfin) s

/-- R225 `RC.DINIT`. -/
def execRcDinit (s : State) : Host.Outcome State Fault Refusal := runCommand (noValue rcDinit) s

/-- R226 `RC.DSYM`: result `VAL s`. -/
def execRcDsym (s : State) : Host.Outcome State Fault Refusal :=
  runCommand (do let x ← rcDsym; pure (.val (symbolValue x))) s

/-- R227 `RC.ENC`. -/
def execRcEnc (s : State) : Host.Outcome State Fault Refusal := runCommand (noValue rcEnc) s

/-- R228 `RC.DEC`. -/
def execRcDec (s : State) : Host.Outcome State Fault Refusal := runCommand (noValue rcDec) s

end Sys2Proof.Machine
end

