-- ==== Sys2Proof/Machine/Rle.lean ====
section
/-! DEFINITION. 45_rle.md: the run-length codec (R251 to R256): the procedures, then the meanings of the six commands. -/

namespace Sys2Proof.Machine

open Sys2Proof

/-! ## Encoder -/

/-- R251. -/
def rlEinit : Op Unit := fun s => .ok () (s.setRl ⟨0, 0⟩)

/-- R94: a record, the count then the value. -/
def writeRecord (n : Word) (c : Byte) : Op Unit := do
  leWr32 n
  snkWrite c

/-- R252: the new run is in the registers before the record of the old one is written. -/
def rlEbyte (b : Byte) : Op Unit := fun s =>
  if s.rl.cnt = 0 then .ok () (s.setRl ⟨b, 1⟩)
  else if b = s.rl.cur ∧ s.rl.cnt.toNat < Config.rlMax then .ok () (s.setRl { s.rl with cnt := s.rl.cnt + 1 })
  else writeRecord s.rl.cnt s.rl.cur (s.setRl ⟨b, 1⟩)

/-- R253. -/
def rlEfin : Op Unit := fun s =>
  if s.rl.cnt.toNat > 0 then writeRecord s.rl.cnt s.rl.cur (s.setRl { s.rl with cnt := 0 }) else .ok () s

/-! ## Decoder -/

/-- R254: false for `CLEAN_EOF`, true when a record was expanded. -/
def rlDrec : Op Bool := do
  match ← leRd32 with
  | none => pure false
  | some n =>
    if n = 0 then raise .corruptStream
    else do
      let v ← readByteOrTruncation
      writeCopies n.toNat v
      pure true

/-- R256: each turn but the last reads at least five bytes. -/
def rlDecLoop : Nat → Op Unit
  | 0 => stuck
  | k + 1 => do
    if ← rlDrec then rlDecLoop k else pure ()

/-! ## Whole streams -/

/-- R255: "One pass; no seek." -/
def rlEnc : Op Unit := do
  rlEinit
  forSource rlEbyte
  rlEfin

/-- R256. -/
def rlDec : Op Unit := reading fun s => rlDecLoop (srcLeft s + 1)

/-! ## Meanings -/

/-- R251 `RL.EINIT`. -/
def execRlEinit (s : State) : Host.Outcome State Fault Refusal := runCommand (noValue rlEinit) s

/-- R252 `RL.EBYTE b`. -/
def execRlEbyte (imm8 : BitVec 8) (s : State) : Host.Outcome State Fault Refusal := runCommand (noValue (rlEbyte imm8)) s

/-- R253 `RL.EFIN`. -/
def execRlEfin (s : State) : Host.Outcome State Fault Refusal := runCommand (noValue rlEfin) s

/-- R254 `RL.DREC`: "`VAL 1` when a record was expanded, `CEOF` when the source ended at a record boundary". -/
def execRlDrec (s : State) : Host.Outcome State Fault Refusal :=
  runCommand (do if ← rlDrec then pure (.val 1) else pure .ceof) s

/-- R255 `RL.ENC`. -/
def execRlEnc (s : State) : Host.Outcome State Fault Refusal := runCommand (noValue rlEnc) s

/-- R256 `RL.DEC`. -/
def execRlDec (s : State) : Host.Outcome State Fault Refusal := runCommand (noValue rlDec) s

end Sys2Proof.Machine
end

