-- ==== Sys2Proof/Machine/System.lean ====
section
/-! DEFINITION. The four CORE operations (60_exceptions.md R290 to R293). -/

namespace Sys2Proof.Machine

open Sys2Proof

/-- R290 `CORE.NOP`: "Changes nothing; result `(CORE.STATUS, NONE, 0)`", refused or not (R281). -/
def execCoreNop (s : State) : Host.Outcome State Fault Refusal := runCommand (pure .none) s

/-- R291 `CORE.RESET`: "performed even when `CORE.STATUS ≠ 0`"; result `(0, NONE, 0)`. -/
def execCoreReset (s : State) : Host.Outcome State Fault Refusal := .next (s.resetBlock.answer .none)

/-- R292 `CORE.STATUS`: "It is `CORE.NOP` under another name: the status it \"reads\" is the `status` field every result
carries." -/
def execCoreStatus (s : State) : Host.Outcome State Fault Refusal := runCommand (pure .none) s

/-- R293 `CORE.REWIND`: "It sets only the cursor; `BR`'s look-ahead is not cleared". -/
def execCoreRewind (s : State) : Host.Outcome State Fault Refusal := runCommand (noValue (srcSeek 0)) s

end Sys2Proof.Machine
end

