-- ==== Sys2Proof/Machine/Dispatch.lean ====
section
/-! DEFINITION. The meaning of every instruction, one arm each. -/

namespace Sys2Proof.Machine

open Sys2Proof

def exec (i : Instr) (s : State) : Host.Outcome State Fault Refusal :=
  match i with
  | .coreNop => Sys2Proof.Machine.execCoreNop s
  | .coreReset => Sys2Proof.Machine.execCoreReset s
  | .coreStatus => Sys2Proof.Machine.execCoreStatus s
  | .coreRewind => Sys2Proof.Machine.execCoreRewind s
  | .leWr32 imm32 => Sys2Proof.Machine.execLeWr32 imm32 s
  | .leRd32 => Sys2Proof.Machine.execLeRd32 s
  | .bwInit => Sys2Proof.Machine.execBwInit s
  | .bwWbit imm8 => Sys2Proof.Machine.execBwWbit imm8 s
  | .bwFlush => Sys2Proof.Machine.execBwFlush s
  | .brInit => Sys2Proof.Machine.execBrInit s
  | .brRbit => Sys2Proof.Machine.execBrRbit s
  | .brEof => Sys2Proof.Machine.execBrEof s
  | .fmClr => Sys2Proof.Machine.execFmClr s
  | .fmAcc imm8 => Sys2Proof.Machine.execFmAcc imm8 s
  | .fmEos => Sys2Proof.Machine.execFmEos s
  | .fmScale => Sys2Proof.Machine.execFmScale s
  | .fmCum => Sys2Proof.Machine.execFmCum s
  | .fmFind imm32 => Sys2Proof.Machine.execFmFind imm32 s
  | .fmWhdr imm32 => Sys2Proof.Machine.execFmWhdr imm32 s
  | .fmRhdr imm32 => Sys2Proof.Machine.execFmRhdr imm32 s
  | .fmScan => Sys2Proof.Machine.execFmScan s
  | .hfBuild => Sys2Proof.Machine.execHfBuild s
  | .hfCodes => Sys2Proof.Machine.execHfCodes s
  | .hfEsym imm16 => Sys2Proof.Machine.execHfEsym imm16 s
  | .hfStep => Sys2Proof.Machine.execHfStep s
  | .hfDsym => Sys2Proof.Machine.execHfDsym s
  | .hfEnc => Sys2Proof.Machine.execHfEnc s
  | .hfDec => Sys2Proof.Machine.execHfDec s
  | .acEinit => Sys2Proof.Machine.execAcEinit s
  | .acEsym imm16 => Sys2Proof.Machine.execAcEsym imm16 s
  | .acEfin => Sys2Proof.Machine.execAcEfin s
  | .acDinit => Sys2Proof.Machine.execAcDinit s
  | .acDsym => Sys2Proof.Machine.execAcDsym s
  | .acEnc => Sys2Proof.Machine.execAcEnc s
  | .acDec => Sys2Proof.Machine.execAcDec s
  | .rcEinit => Sys2Proof.Machine.execRcEinit s
  | .rcEsym imm16 => Sys2Proof.Machine.execRcEsym imm16 s
  | .rcEfin => Sys2Proof.Machine.execRcEfin s
  | .rcDinit => Sys2Proof.Machine.execRcDinit s
  | .rcDsym => Sys2Proof.Machine.execRcDsym s
  | .rcEnc => Sys2Proof.Machine.execRcEnc s
  | .rcDec => Sys2Proof.Machine.execRcDec s
  | .rlEinit => Sys2Proof.Machine.execRlEinit s
  | .rlEbyte imm8 => Sys2Proof.Machine.execRlEbyte imm8 s
  | .rlEfin => Sys2Proof.Machine.execRlEfin s
  | .rlDrec => Sys2Proof.Machine.execRlDrec s
  | .rlEnc => Sys2Proof.Machine.execRlEnc s
  | .rlDec => Sys2Proof.Machine.execRlDec s

end Sys2Proof.Machine
end

