-- ==== Sys2Proof/Machine/Fetch.lean ====
section
/-! DEFINITION. Taking the next command from the command port (30_encoding.md R98, R99, R101). There is no program counter
and no instruction memory (10_state.md R24): commands arrive on a port. -/

namespace Sys2Proof.Machine

open Sys2Proof

/-- What is at the front of the command port. -/
inductive Fetched where
  /-- No byte is pending: "After reset the block is idle and waits for a command" (R300). -/
  | idle
  /-- A command; the state has its bytes taken off the port. -/
  | command (i : Instr) (s : State)
  /-- R101: no command of the table; the state has the bytes taken off the port. -/
  | bad (s : State)

/-- The command at the front of the port. A reserved opcode is "a one-byte command", its "would-be operand bytes are not
consumed" (R101); an opcode whose operand bytes are missing takes all that is there (assumption 3). A refused command
is taken off the port like any other (assumption 5). -/
def fetch (s : State) : Fetched :=
  match decode s.cmd with
  | .ok (i, rest) => .command i (s.setCmd rest)
  | .error .noCommand => .idle
  | .error (.reservedOpcode _) => .bad (s.setCmd s.cmd.tail)
  | .error (.operandMissing _) => .bad (s.setCmd [])

/-- R101: "does `raise BadCommand` (status 7) and changes nothing else"; refused first if the instance refuses (R277). -/
def rejectCommand (s : State) : Host.Outcome State Fault Refusal := runCommand (raise .badCommand) s

/-- The command bytes of a table word: its low `nbits` bits, byte 0 first, zeros above, cut to the length its opcode
byte gives (R99). -/
def commandBytes (nbits w : Nat) : List Byte :=
  let bs := natBytes 5 (w % 2 ^ nbits)
  bs.take (commandLength (bs.headD 0))

end Sys2Proof.Machine
end

