-- ==== Sys2Proof/Machine/Step.lean ====
section
/-! DEFINITION. One step of the machine: the next command of the command port, performed to completion (R98). With nothing
pending the block "is idle and keeps all state" (60_exceptions.md R289). -/

namespace Sys2Proof.Machine

open Sys2Proof

/-- One step. -/
def step (s : State) : Host.Outcome State Fault Refusal :=
  match fetch s with
  | .idle => .next s
  | .command i s' => exec i s'
  | .bad s' => rejectCommand s'

/-- The state with one command put at the front of the command port, where `step` takes its next command. -/
def State.withFetchWord (s : State) (nbits w : Nat) : State := s.setCmd (commandBytes nbits w ++ s.cmd)

end Sys2Proof.Machine
end

