-- ==== Sys2Proof/Safety.lean ====
section
/-! DEFINITION. What a legal state is, and the words the claims are stated in: running a list of commands, what the source
still holds, room in the sink, the stream formats (30_encoding.md R90, 20_memory.md R67), the code of a symbol. Nothing
here is used by the machine. -/

namespace Sys2Proof.Machine

open Sys2Proof

/-! ## The streams -/

/-- What reading from here on will return (R61). -/
def State.remaining (s : State) : List Byte := s.src.data.drop s.src.pos

/-- The sink can take n more bytes (R62). -/
def State.hasRoom (s : State) (n : Nat) : Bool :=
  match s.snk.cap with
  | none => true
  | some c => decide (s.snk.data.length + n ≤ c)

/-- The sink has room for `m` more bytes and no more, and `m < n` (R62). -/
def State.roomOnlyFor (s : State) (m n : Nat) : Prop := s.snk.cap = some (s.snk.data.length + m) ∧ m < n

/-- R60, R62: the streams are as the environment and the block can make them: the cursor is within the source, the sink
within its capacity. The streams are lists, so equal streams are equal data (assumption 18). -/
def Memory.wf (src : Src) (snk : Snk) : Bool :=
  decide (src.pos ≤ src.data.length)
    && (match snk.cap with
        | none => true
        | some c => decide (snk.data.length ≤ c))

/-- A byte's bits, "bit 7 first, bit 0 last" (R125). -/
def byteBits (b : Byte) : List Bool := (List.range 8).map fun i => b.getLsbD (7 - i)

/-- The bits the bit reader can still return, in order (R28, R125): the look-ahead, then the bytes of the source. -/
def State.bitStream (s : State) : List Bool :=
  if s.br.eof then []
  else (List.range s.br.rem.val).map (fun i => s.br.cur.getLsbD (s.br.rem.val - 1 - i)) ++ s.remaining.flatMap byteBits

/-- The next n bits, "beyond-EOF bits are zero" (R196). -/
def State.nextBits (s : State) (n : Nat) : List Bool := (List.range n).map fun k => s.bitStream.getD k false

/-- Bits read as a binary number, first bit most significant. -/
def bitsToNat (bs : List Bool) : Nat := bs.foldl (fun v b => 2 * v + b.toNat) 0

/-- The next n bytes, "treat beyond-EOF as zero" (R224). -/
def State.nextBytes (s : State) (n : Nat) : List Byte := (List.range n).map fun k => s.remaining.getD k 0

/-- Bytes read as a number, first byte most significant (R69). -/
def bytesToNat (bs : List Byte) : Nat := bs.foldl (fun v b => 256 * v + b.toNat) 0

/-! ## Answers (R98) -/

/-- `(0, NONE, 0)` -/
def answerNone : Option Response := some ⟨0, .none, 0⟩

/-- `(0, VAL, v)` -/
def answerVal (v : Word) : Option Response := some ⟨0, .val, v⟩

/-- `(0, CEOF, 0)` -/
def answerCeof : Option Response := some ⟨0, .ceof, 0⟩

/-- `(code, NONE, 0)` -/
def answerError (c : StatusCode) : Option Response := some ⟨c, .none, 0⟩

/-- R280: the state with an error taken. -/
def State.failed (s : State) (c : StatusCode) : State := { s with status := c, resp := answerError c }

/-- The state with bytes appended to the sink. -/
def State.wrote (s : State) (bs : List Byte) : State := { s with snk := { s.snk with data := s.snk.data ++ bs } }

/-- The state with the cursor n bytes on. -/
def State.consumed (s : State) (n : Nat) : State := { s with src := { s.src with pos := s.src.pos + n } }

/-! ## Running commands -/

/-- Commands one after another, each to completion (R24), until one stops. -/
def runInstrs : List Instr → State → Host.Outcome State Fault Refusal
  | [], s => .next s
  | i :: is, s =>
    match exec i s with
    | .next t => runInstrs is t
    | .fault r => .fault r
    | .refused r => .refused r

/-- R100: the 48 opcode bytes. -/
def definedOpcodes : List Byte :=
  [0x00, 0x01, 0x02, 0x03, 0x10, 0x11, 0x20, 0x21, 0x22, 0x30, 0x31, 0x32]
  ++ [0x40, 0x41, 0x42, 0x43, 0x44, 0x45, 0x46, 0x47, 0x48, 0x50, 0x51, 0x52, 0x53, 0x54, 0x5E, 0x5F]
  ++ [0x60, 0x61, 0x62, 0x63, 0x64, 0x6E, 0x6F, 0x70, 0x71, 0x72, 0x73, 0x74, 0x7E, 0x7F]
  ++ [0x80, 0x81, 0x82, 0x83, 0x8E, 0x8F]

/-! ## Formats -/

/-- R90: the shared header. -/
def headerBytes (tag : Word) (freq : Vector Word 257) : List Byte :=
  leBytes32 tag ++ leBytes32 257 ++ freq.toList.flatMap leBytes32

/-- R142's example: "the table of the empty input". -/
def eosOnly : Vector Word 257 := (Vector.replicate 257 0).set 256 1

/-- The counts of the input that is the one byte b (R143). -/
def oneByte (b : Byte) : Vector Word 257 := Vector.ofFn fun x : Symbol => if x.val = b.toNat ∨ x.val = 256 then 1 else 0

/-- R67, R123: the bytes hold exactly these bits, MSB first, zero-padded on the low side. -/
def IsPacked (bits : List Bool) (out : List Byte) : Prop :=
  out.length = (bits.length + 7) / 8
    ∧ ∀ k, k < 8 * out.length → (out.getD (k / 8) 0).getLsbD (7 - k % 8) = bits.getD k false

/-- R32, R96(b): the code of a symbol, first bit first. -/
def HF.codeWord (h : HF) (x : Symbol) : List Bool :=
  (List.range (h.len[x]).toNat).map fun i => (h.bits[x]).getLsbD ((h.len[x]).toNat - 1 - i)

/-- R103: `BW.WBITS`. -/
def wbits (bits : List Bool) : List Instr := Pseudo.expand (.wbits bits)

/-- R94: RLE records as bytes. -/
def recordBytes (rs : List (Word × Byte)) : List Byte := rs.flatMap fun r => leBytes32 r.1 ++ [r.2]

/-- R94: what RLE records stand for: "`count` copies of `value`". -/
def recordExpansion (rs : List (Word × Byte)) : List Byte := rs.flatMap fun r => List.replicate r.1.toNat r.2

/-! ## Legal states -/

/-- R27: "between operations `BW.acc < 2^BW.cnt`". -/
def BW.legal (w : BW) : Prop := w.acc.toNat < 2 ^ w.cnt.val

/-- R30: `FM.cum` is "non-decreasing, `FM.cum[0] = 0`". All zero after reset. -/
def FM.cumLegal (m : FM) : Prop := m.cumAt 0 = 0 ∧ ∀ i, i < 257 → m.cumAt i ≤ m.cumAt (i + 1)

/-- R31, R32: the indices of the tree: `HF.n` entries in use, root and walker among them or both `NULL`, the walker at the
root or at a node that is no leaf, children below their parents, symbols 0..256. -/
def HF.legal (h : HF) : Prop :=
  h.n.toNat ≤ 513
    ∧ (h.root = Config.null ↔ h.walk = Config.null)
    ∧ (h.root ≠ Config.null →
        h.root.toNat < h.n.toNat ∧ h.walk.toNat < h.n.toNat ∧ (h.walk = h.root ∨ (h.nodeAt h.walk).isLeaf = false))
    ∧ ∀ i : NodeIdx, i.toNat < h.n.toNat →
        ((h.nodeAt i).left = Config.null ∨ (h.nodeAt i).left.toNat < i.toNat)
          ∧ ((h.nodeAt i).right = Config.null ∨ (h.nodeAt i).right.toNat < i.toNat)
          ∧ (h.nodeAt i).sym.toNat ≤ 256

/-- R160: the child of an entry on a side, `true` for the right. -/
def HF.child (h : HF) (p : NodeIdx) (b : Bool) : NodeIdx := if b then (h.nodeAt p).right else (h.nodeAt p).left

/-- R160: "Huffman nodes form a strict tree (no sharing, no cycles)": the root is the last entry in use; every other entry is a
child of an entry in use; no two child fields name the same entry; an entry that is no leaf has two children, but for
the parent that wraps a single leaf (R163). No entry is in use exactly when there is no tree (R39). -/
def HF.strictTree (h : HF) : Prop :=
  (h.root = Config.null ↔ h.n = 0)
    ∧ (h.root ≠ Config.null → h.root.toNat + 1 = h.n.toNat)
    ∧ (∀ i : NodeIdx, i.toNat < h.n.toNat → i ≠ h.root → ∃ (p : NodeIdx) (b : Bool), p.toNat < h.n.toNat ∧ h.child p b = i)
    ∧ (∀ p q : NodeIdx, p.toNat < h.n.toNat → q.toNat < h.n.toNat → ∀ a b : Bool,
        h.child p a ≠ Config.null → h.child p a = h.child q b → p = q ∧ a = b)
    ∧ ∀ p : NodeIdx, p.toNat < h.n.toNat →
        (h.nodeAt p).isLeaf = true
          ∨ ((h.nodeAt p).left ≠ Config.null ∧ (h.nodeAt p).right ≠ Config.null)
          ∨ (h.n = 2 ∧ p = h.root ∧ (h.nodeAt p).left = 0 ∧ (h.nodeAt p).right = Config.null)

/-- R166: a tree that is one leaf has nowhere else for the walker to be. -/
def HF.walkerAtLeafRoot (h : HF) : Prop := (h.nodeAt h.root).isLeaf = true → h.walk = h.root

/-- R32: the legal values of the code table: a length of at most 256, and no bit of a code at or above its length. -/
def HF.codesLegal (h : HF) : Prop :=
  ∀ x : Symbol, (h.len[x]).toNat ≤ 256 ∧ (h.bits[x]).toNat < 2 ^ (h.len[x]).toNat

/-- The ranges and orders of the registers. The range coder's order is broken inside `RC.EFIN` and stays so if its writing
fails, which leaves `CORE.STATUS ≠ 0` (R282). -/
def State.registersLegal (s : State) : Prop :=
  s.bw.legal ∧ s.fm.cumLegal ∧ s.hf.legal ∧ s.ac.low.toNat ≤ s.ac.high.toNat
    ∧ (s.status = 0 → s.rc.low.toNat ≤ s.rc.high.toNat)

/-- A legal state: legal registers, a tree of the shape of R160, the walker's place, and a legal code table. -/
def State.Legal (s : State) : Prop :=
  s.registersLegal ∧ s.hf.strictTree ∧ s.hf.walkerAtLeafRoot ∧ s.hf.codesLegal

/-- R202(a): "`AC.low < HALF ≤ AC.high` and (`AC.low < Q1` or `AC.high ≥ Q3`)". -/
def AC.renormalized (a : AC) : Prop :=
  a.low.toNat < 2 ^ 31 ∧ 2 ^ 31 ≤ a.high.toNat ∧ (a.low.toNat < 2 ^ 30 ∨ 3 * 2 ^ 30 ≤ a.high.toNat)

/-- R230(a): "the top bytes of `low` and `high` differ", in order. -/
def RC.renormalized (r : RC) : Prop := r.low.toNat / 2 ^ 24 < r.high.toNat / 2 ^ 24

/-- R320's premise P0, first half: "every byte value occurs fewer than 2^32 times in the input". -/
def fewOccurrences (xs : List Byte) : Prop := ∀ b : Byte, xs.count b < 2 ^ 32

/-! ## The tree (42_huffman.md) -/

/-- R161: the arena entry i is removed from the queue before the entry j. -/
def HF.first (h : HF) (i j : NodeIdx) : Prop :=
  (h.nodeAt i).freq < (h.nodeAt j).freq
    ∨ ((h.nodeAt i).freq = (h.nodeAt j).freq
        ∧ ((h.nodeAt j).sym.toNat < (h.nodeAt i).sym.toNat
            ∨ ((h.nodeAt i).sym = (h.nodeAt j).sym ∧ i.toNat < j.toNat)))

/-- R162: the arena entry i is a child of the entry p. -/
def HF.childOf (h : HF) (i p : NodeIdx) : Prop := (h.nodeAt p).left = i ∨ (h.nodeAt p).right = i

/-- R160: the symbols with nonzero frequency, ascending. -/
def FM.coded (m : FM) : List Symbol := (List.finRange 257).filter fun x => decide (m.freqAt x ≠ 0)

/-- R164: the path `p` (0 to the left child, 1 to the right) leads from entry i to entry j. -/
def HF.reaches (h : HF) : NodeIdx → List Bool → NodeIdx → Prop
  | i, [], j => i = j
  | i, b :: p, j =>
    (if b then (h.nodeAt i).right else (h.nodeAt i).left) ≠ Config.null
      ∧ h.reaches (if b then (h.nodeAt i).right else (h.nodeAt i).left) p j

/-! ## Intervals (43_arith.md, 44_range.md) -/

/-- R191: `range = high − low + 1`. -/
def rangeSize (low high : Word) : Nat := high.toNat + 1 - low.toNat

/-- R191: `low + (range · C[s]) / total`. -/
def FM.newLow (m : FM) (low high : Word) (x : Nat) : Nat :=
  low.toNat + rangeSize low high * m.cumAt x / m.cumAt 257

/-- R191: `low + (range · C[s+1]) / total − 1`. -/
def FM.newHigh (m : FM) (low high : Word) (x : Nat) : Nat :=
  low.toNat + rangeSize low high * m.cumAt (x + 1) / m.cumAt 257 - 1

/-- R191: there is a table, and the symbol's share of the interval is not empty. -/
def FM.hasShare (m : FM) (low high : Word) (x : Nat) : Prop :=
  m.cumAt 257 ≠ 0
    ∧ rangeSize low high * m.cumAt x / m.cumAt 257 < rangeSize low high * m.cumAt (x + 1) / m.cumAt 257

/-- R194, R193: the renormalization loop from `low`, `high`, `pend` makes n turns, writes these bits and leaves
`low'`, `high'`, `pend'`. -/
inductive AcTurns : Nat → Nat → Nat → Nat → List Bool → Nat → Nat → Nat → Prop
  | exit {l h p : Nat} (h1 : 2 ^ 31 ≤ h) (h2 : l < 2 ^ 31) (h3 : l < 2 ^ 30 ∨ 3 * 2 ^ 30 ≤ h) : AcTurns 0 l h p [] l h p
  | lower {n l h p l' h' p' : Nat} {bs : List Bool} (h1 : h < 2 ^ 31)
      (next : AcTurns n (2 * l) (2 * h + 1) 0 bs l' h' p') :
      AcTurns (n + 1) l h p (false :: List.replicate p true ++ bs) l' h' p'
  | upper {n l h p l' h' p' : Nat} {bs : List Bool} (h1 : 2 ^ 31 ≤ h) (h2 : 2 ^ 31 ≤ l)
      (next : AcTurns n (2 * (l - 2 ^ 31)) (2 * (h - 2 ^ 31) + 1) 0 bs l' h' p') :
      AcTurns (n + 1) l h p (true :: List.replicate p false ++ bs) l' h' p'
  | middle {n l h p l' h' p' : Nat} {bs : List Bool} (h1 : 2 ^ 31 ≤ h) (h2 : l < 2 ^ 31) (h3 : 2 ^ 30 ≤ l)
      (h4 : h < 3 * 2 ^ 30) (next : AcTurns n (2 * (l - 2 ^ 30)) (2 * (h - 2 ^ 30) + 1) (p + 1) bs l' h' p') :
      AcTurns (n + 1) l h p bs l' h' p'

/-- R222: the renormalization loop from `low`, `high` writes these bytes, one a turn, and leaves `low'`, `high'`. -/
inductive RcTurns : Word → Word → List Byte → Word → Word → Prop
  | exit {l h : Word} (h1 : 2 ^ 24 ≤ (l ^^^ h).toNat) : RcTurns l h [] l h
  | shift {l h l' h' : Word} {bs : List Byte} (h1 : (l ^^^ h).toNat < 2 ^ 24)
      (next : RcTurns (l <<< 8) ((h <<< 8) ||| 0xFF) bs l' h') : RcTurns l h (byteOf l 3 :: bs) l' h'

/-! ## Whole streams -/

/-- R169, R201, R228: the loop of a decoder from `s`, in commands: read a symbol, stop at an error or at symbol 256, else write
the byte. It has written these bytes and ends in `t`. -/
inductive DecodesTo (dsym : Instr) : State → List Byte → State → Prop
  | error {s t : State} (h : exec dsym s = .next t) (e : t.status ≠ 0) : DecodesTo dsym s [] t
  | eos {s t : State} (h : exec dsym s = .next t) (e : t.resp = answerVal 256) : DecodesTo dsym s [] t
  | full {s t : State} {b : Byte} (h : exec dsym s = .next t) (e : t.resp = answerVal (b.setWidth 32))
      (f : t.hasRoom 1 = false) : DecodesTo dsym s [] (t.failed 5)
  | byte {s t u : State} {b : Byte} {bs : List Byte} (h : exec dsym s = .next t)
      (e : t.resp = answerVal (b.setWidth 32)) (f : t.hasRoom 1 = true) (next : DecodesTo dsym (t.wrote [b]) bs u) :
      DecodesTo dsym s (b :: bs) u

/-- R103: a byte of the input as the symbol operand of an `ESYM`. -/
def byteOperand (b : Byte) : BitVec 16 := b.setWidth 16

/-- R168, R200, R227, R255: the encoders with their expansions for the bytes `bs`: the commands of the first pass, which reads
the source to its end, and then those that write the stream. -/
def encoderExpansions (bs : List Byte) : List (Instr × List Instr × List Instr) :=
  [(.hfEnc, [.fmScan, .coreRewind], [.fmWhdr 0x4E4D4648#32, .hfBuild, .hfCodes, .bwInit]
      ++ bs.map (fun b => .hfEsym (byteOperand b)) ++ [.hfEsym 256, .bwFlush]),
   (.acEnc, [.fmScan, .coreRewind], [.fmScale, .fmWhdr 0x434E4541#32, .fmCum, .acEinit, .bwInit]
      ++ bs.map (fun b => .acEsym (byteOperand b)) ++ [.acEsym 256, .acEfin]),
   (.rcEnc, [.fmScan, .coreRewind], [.fmScale, .fmWhdr 0x434E4352#32, .fmCum, .rcEinit]
      ++ bs.map (fun b => .rcEsym (byteOperand b)) ++ [.rcEsym 256, .rcEfin]),
   (.rlEnc, [], .rlEinit :: bs.map .rlEbyte ++ [.rlEfin])]

/-- R169, R201, R228: the decoders with the command that reads a symbol and the commands that come before the first one. -/
def decoderExpansions : List (Instr × Instr × List Instr) :=
  [(.hfDec, .hfDsym, [.fmRhdr 0x4E4D4648#32, .hfBuild, .brInit]),
   (.acDec, .acDsym, [.fmRhdr 0x434E4541#32, .fmCum, .brInit, .acDinit]),
   (.rcDec, .rcDsym, [.fmRhdr 0x434E4352#32, .fmCum, .rcDinit])]

end Sys2Proof.Machine
end

