-- ==== Sys2Proof/Certificates/Slice0/Obligations.lean ====
section
/-! DEFINITION. The statements about the machine. Each says in its docstring which rule of the spec it formalises, or that it
states a choice of the model. -/

open Sys2Proof Sys2Proof.Machine

/-! ## Commands and answers -/

/-- R98, R99: when the bytes on the command port decode to a command, a step performs it, its bytes taken off the port. -/
def Obligations.StepPerformsTheDecodedCommand : Prop :=
  ∀ (s : State) (i : Instr) (rest : List Byte), decode s.cmd = .ok (i, rest) → step s = exec i (s.setCmd rest)

/-- R289: with no command given the block keeps all state. That a step is taken at all is the model's (assumptions 1, 2). -/
def Obligations.IdleCommandPortKeepsTheState : Prop :=
  ∀ s : State, s.cmd = [] → step s = .next s

/-- R101: a reserved opcode is a one-byte command that raises `BadCommand` and changes nothing else; so does a symbol operand
above 256. 48 of the 256 opcode bytes are defined. -/
def Obligations.ReservedOpcodesAndLargeSymbolsAreBadCommands : Prop :=
  (definedOpcodes.length = 48 ∧ definedOpcodes.Nodup)
    ∧ (∀ (s : State) (op : Byte) (rest : List Byte), s.cmd = op :: rest → op ∉ definedOpcodes → s.status = 0 →
        step s = .next ((s.setCmd rest).failed 7))
    ∧ ∀ (s : State) (v : BitVec 16), 256 < v.toNat → s.status = 0 →
        exec (.hfEsym v) s = .next (s.failed 7) ∧ exec (.acEsym v) s = .next (s.failed 7)
          ∧ exec (.rcEsym v) s = .next (s.failed 7)

/-- THE MODEL'S CHOICE (assumption 3): an opcode whose operand bytes are not all there is `BadCommand`, and all the bytes are
taken off the port. -/
def Obligations.IncompleteCommandIsBadCommand : Prop :=
  ∀ (s : State) (op : Byte) (rest : List Byte), s.cmd = op :: rest → op ∈ definedOpcodes →
    rest.length + 1 < commandLength op → s.status = 0 → step s = .next ((s.setCmd []).failed 7)

/-- R99, R100: decoding what the encoder writes gives the command back, with every operand at every value, and leaves the bytes
after it. -/
def Obligations.EncodedCommandsDecodeBack : Prop :=
  ∀ (i : Instr) (rest : List Byte), decode (encode i ++ rest) = .ok (i, rest)

/-- R99, R101: every byte string either is the encoding of one command with bytes after it, which is what the decoder reads, or
the decoder gives no command. -/
def Obligations.DecodedBytesAreTheEncoding : Prop :=
  ∀ bs : List Byte,
    (∀ (i : Instr) (rest : List Byte), decode bs = .ok (i, rest) ↔ bs = encode i ++ rest)
      ∧ ((¬ ∃ (i : Instr) (rest : List Byte), bs = encode i ++ rest) ↔ ∃ e, decode bs = .error e)

/-- R99, R100: words written out from the table's encodings. -/
def Obligations.WrittenWordsDecodeToTheirCommands : Prop :=
  decodeTableWord 8 0b00000011 = some .coreRewind
    ∧ decodeTableWord 40 0b0100111001001101010001100100100000010000 = some (.leWr32 0x4E4D4648#32)
    ∧ decodeTableWord 16 0b1111111000100001 = some (.bwWbit 0xFE#8)
    ∧ decodeTableWord 8 0b00110001 = some .brRbit
    ∧ decodeTableWord 16 0b0100000101000001 = some (.fmAcc 0x41#8)
    ∧ decodeTableWord 24 0b000000010000000001010010 = some (.hfEsym 0x100#16)
    ∧ decodeTableWord 8 0b01101111 = some .acDec
    ∧ decodeTableWord 24 0b000000000110000101110001 = some (.rcEsym 0x61#16)
    ∧ decodeTableWord 8 0b10000011 = some .rlDrec
    ∧ decodeTableWord 8 0b10010000 = none

/-- R281: while the status is not 0 every command but `CORE.RESET` does nothing and answers with the status; that holds for
every opcode byte, reserved ones included; `CORE.RESET` is always performed. -/
def Obligations.NonzeroStatusRefusesAllButReset : Prop :=
  (∀ (i : Instr) (s : State), s.status ≠ 0 → i ≠ .coreReset → exec i s = .next { s with resp := answerError s.status })
    ∧ (∀ (s : State) (op : Byte) (rest : List Byte), s.status ≠ 0 → s.cmd = op :: rest → op ≠ 0x01 →
        ∃ c, step s = .next { s with cmd := c, resp := answerError s.status })
    ∧ ∀ s : State, ∃ t, exec .coreReset s = .next t ∧ t.status = 0

/-- R290, R292, R293: `CORE.NOP` and `CORE.STATUS` change nothing, refused or not, and answer with the status; `CORE.REWIND`
sets the cursor to 0 and nothing else, unless it is refused. -/
def Obligations.NopStatusAndRewind : Prop :=
  (encode .coreNop = [0x00] ∧ encode .coreStatus = [0x02] ∧ encode .coreRewind = [0x03])
    ∧ (∀ s : State, exec .coreNop s = .next { s with resp := answerError s.status }
        ∧ exec .coreStatus s = .next { s with resp := answerError s.status })
    ∧ ∀ s : State,
        (s.status = 0 → exec .coreRewind s = .next { s with src := { s.src with pos := 0 }, resp := answerNone })
        ∧ (s.status ≠ 0 → exec .coreRewind s = .next { s with resp := answerError s.status })

/-- R291, R39: whatever the status, `CORE.RESET` gives every register and table its reset value and touches neither stream.
Nothing is said of the arena, whose contents the spec leaves unspecified (assumption 9). -/
def Obligations.ResetRestoresEveryRegister : Prop :=
  encode .coreReset = [0x01]
    ∧ ∀ s : State, ∃ t, exec .coreReset s = .next t ∧ t.status = 0
        ∧ (t.bw.acc = 0 ∧ t.bw.cnt = 0) ∧ (t.br.cur = 0 ∧ t.br.rem = 0 ∧ t.br.eof = false)
        ∧ (∀ x : Symbol, t.fm.freqAt x = 0) ∧ (∀ i, i ≤ 257 → t.fm.cumAt i = 0)
        ∧ (t.hf.n = 0 ∧ t.hf.root = 0x3FF#10 ∧ t.hf.walk = 0x3FF#10)
        ∧ (∀ x : Symbol, t.hf.len[x] = 0 ∧ t.hf.bits[x] = 0)
        ∧ (t.ac.low = 0 ∧ t.ac.high.toNat = 2 ^ 32 - 1 ∧ t.ac.code = 0 ∧ t.ac.pend = 0 ∧ t.ac.zfill = 0)
        ∧ (t.rc.low = 0 ∧ t.rc.high.toNat = 2 ^ 32 - 1 ∧ t.rc.code = 0 ∧ t.rc.zfill = 0)
        ∧ (t.rl.cur = 0 ∧ t.rl.cnt = 0)
        ∧ t.src = s.src ∧ t.snk = s.snk ∧ t.cmd = s.cmd ∧ t.resp = answerNone

/-- R302: "`INIT` after reset changes nothing". -/
def Obligations.InitAfterResetChangesNothing : Prop :=
  ∀ s : State, ∃ t, exec .coreReset s = .next t
    ∧ ∀ i, i ∈ [Instr.bwInit, .brInit, .acEinit, .rcEinit, .rlEinit, .fmClr] → exec i t = .next t

/-- R98, R100, R25: what is on the result port after a command: the status; a value only from the operations whose row says so;
a clean end only from `LE.RD32` and `RL.DREC`; 0 for the value under any other tag; no value with an error. The status is
changed only when it is 0, or by reset. -/
def Obligations.EveryAnswerFollowsTheResultPortRule : Prop :=
  ∀ (i : Instr) (s t : State), exec i s = .next t →
    (∃ r, t.resp = some r ∧ r.status = t.status ∧ (r.tag ≠ .val → r.val = 0) ∧ (t.status ≠ 0 → r.tag = .none)
      ∧ (r.tag = .val → i ∈ [Instr.leRd32, .brRbit, .brEof, .hfStep, .hfDsym, .acDsym, .rcDsym, .rlDrec]
          ∨ ∃ v, i = .fmFind v)
      ∧ (r.tag = .ceof → i = .leRd32 ∨ i = .rlDrec))
    ∧ (t.status = s.status ∨ s.status = 0 ∨ i = .coreReset ∧ t.status = 0)

/-! ## Every step -/

/-- R60, R62, R74: no step changes the source's bytes or the sink's capacity, or a byte already in the sink; the cursor stays
in the source, the sink within its capacity. That the capacity is a field of the state is the model's (assumption 7), and so
is the command port as a queue of bytes that are only taken from its front (assumption 1). -/
def Obligations.StepsKeepTheStreamsWellFormed : Prop :=
  ∀ s t : State, step s = .next t →
    t.src.data = s.src.data ∧ t.snk.cap = s.snk.cap ∧ s.snk.data <+: t.snk.data ∧ t.cmd <:+ s.cmd
      ∧ (Memory.wf s.src s.snk = true → Memory.wf t.src t.snk = true)

/-- R27, R30, R31, R32, R39, R160, R163, R166, R202(a), R230(a): the registers stay in their legal ranges, the
tree a strict tree with the walker in its place, the code table within its legal values. -/
def Obligations.StepsKeepTheRegistersLegal : Prop :=
  ∀ s t : State, s.Legal → step s = .next t → t.Legal

/-- R301, R39: an instance just made has legal registers, the cursor at 0, an empty sink, and the reset value in every
register. Its empty ports are the model's choice (assumptions 1, 4). -/
def Obligations.NewInstanceIsLegal : Prop :=
  ∀ (data : List Byte) (cap : Option Nat),
    (State.attach data cap).Legal ∧ Memory.wf (State.attach data cap).src (State.attach data cap).snk = true
      ∧ (State.attach data cap).src = ⟨data, 0⟩ ∧ (State.attach data cap).snk = ⟨[], cap⟩
      ∧ exec .coreReset (State.attach data cap) = .next { State.attach data cap with resp := answerNone }

/-- R319: "Every operation terminates on every input." No command ends in the model's loop bound (assumption 12). -/
def Obligations.EveryCommandEnds : Prop :=
  ∀ (i : Instr) (s : State), s.registersLegal → ∃ t, exec i s = .next t

/-! ## LE -/

/-- R128: `LE.WR32` writes four bytes, least significant first; it stops at the first byte that does not fit, and the earlier
ones stay. -/
def Obligations.WordsAreWrittenLittleEndian : Prop :=
  ∀ (s : State) (v : Word), s.status = 0 →
    encode (.leWr32 v) = [0x10, v.extractLsb' 0 8, v.extractLsb' 8 8, v.extractLsb' 16 8, v.extractLsb' 24 8]
      ∧ (s.hasRoom 4 = true → exec (.leWr32 v) s = .next { s.wrote
          [v.extractLsb' 0 8, v.extractLsb' 8 8, v.extractLsb' 16 8, v.extractLsb' 24 8] with resp := answerNone })
      ∧ ∀ m, s.roomOnlyFor m 4 → exec (.leWr32 v) s = .next ((s.wrote
          ([v.extractLsb' 0 8, v.extractLsb' 8 8, v.extractLsb' 16 8, v.extractLsb' 24 8].take m)).failed 5)

/-- R129: `LE.RD32` by how many bytes the source still holds: none, 1 to 3, 4 or more. -/
def Obligations.WordsAreReadLittleEndian : Prop :=
  encode .leRd32 = [0x11]
    ∧ ∀ s : State, s.status = 0 →
        (s.remaining = [] → exec .leRd32 s = .next { s with resp := answerCeof })
        ∧ (1 ≤ s.remaining.length → s.remaining.length ≤ 3 →
            exec .leRd32 s = .next ((s.consumed s.remaining.length).failed 1))
        ∧ ∀ (b0 b1 b2 b3 : Byte) (rest : List Byte), s.remaining = b0 :: b1 :: b2 :: b3 :: rest →
            exec .leRd32 s = .next { s.consumed 4 with resp := answerVal (BitVec.ofNat 32
              (b0.toNat + 2 ^ 8 * b1.toNat + 2 ^ 16 * b2.toNat + 2 ^ 24 * b3.toNat)) }

/-! ## BW and BR -/

/-- R120, R121, R122: the three commands of the bit writer. At the eighth bit, and at a flush with bits held, a byte is
written; if it does not fit it is lost. -/
def Obligations.BitWriterCommands : Prop :=
  (encode .bwInit = [0x20] ∧ (∀ b, encode (.bwWbit b) = [0x21, b]) ∧ encode .bwFlush = [0x22])
    ∧ ∀ s : State, s.status = 0 →
        exec .bwInit s = .next { s with bw := ⟨0, 0⟩, resp := answerNone }
        ∧ (∀ imm : BitVec 8,
            (s.bw.cnt.val < 7 → exec (.bwWbit imm) s =
              .next { s with bw := ⟨(s.bw.acc <<< 1) ||| (imm &&& 1), s.bw.cnt + 1⟩, resp := answerNone })
            ∧ (s.bw.cnt.val = 7 → s.hasRoom 1 = true → exec (.bwWbit imm) s =
              .next { s.wrote [(s.bw.acc <<< 1) ||| (imm &&& 1)] with bw := ⟨0, 0⟩, resp := answerNone })
            ∧ (s.bw.cnt.val = 7 → s.roomOnlyFor 0 1 → exec (.bwWbit imm) s =
              .next { s.failed 5 with bw := ⟨0, 0⟩ }))
        ∧ (s.bw.cnt.val = 0 → exec .bwFlush s = .next { s with resp := answerNone })
        ∧ (0 < s.bw.cnt.val → s.hasRoom 1 = true → exec .bwFlush s =
            .next { s.wrote [s.bw.acc <<< (8 - s.bw.cnt.val)] with bw := ⟨0, 0⟩, resp := answerNone })
        ∧ (0 < s.bw.cnt.val → s.roomOnlyFor 0 1 → exec .bwFlush s = .next { s.failed 5 with bw := ⟨0, 0⟩ })

/-- R123: the packing law. -/
def Obligations.BitsWrittenArePacked : Prop :=
  ∀ (s : State) (bits : List Bool), s.status = 0 → s.hasRoom ((bits.length + 7) / 8) = true →
    ∃ out, runInstrs (.bwInit :: wbits bits ++ [.bwFlush]) s =
        .next { s.wrote out with bw := ⟨0, 0⟩, resp := answerNone }
      ∧ IsPacked bits out

/-- R124, R125, R126: the three commands of the bit reader. -/
def Obligations.BitReaderCommands : Prop :=
  (encode .brInit = [0x30] ∧ encode .brRbit = [0x31] ∧ encode .brEof = [0x32])
    ∧ ∀ s : State, s.status = 0 →
        exec .brInit s = .next { s with br := ⟨0, 0, false⟩, resp := answerNone }
        ∧ exec .brEof s = .next { s with resp := answerVal (if s.br.eof then 1 else 0) }
        ∧ (s.br.eof = true → exec .brRbit s = .next { s with resp := answerVal 0 })
        ∧ (s.br.eof = false → s.br.rem.val = 0 → s.remaining = [] →
            exec .brRbit s = .next { s with br := { s.br with eof := true }, resp := answerVal 0 })
        ∧ (∀ (x : Byte) (rest : List Byte), s.br.eof = false → s.br.rem.val = 0 → s.remaining = x :: rest →
            exec .brRbit s = .next { s.consumed 1 with
              br := ⟨x, 7, false⟩, resp := answerVal (if x.getLsbD 7 then 1 else 0) })
        ∧ ∀ r : Fin 8, s.br.eof = false → s.br.rem.val = r.val + 1 →
            exec .brRbit s = .next { s with
              br := ⟨s.br.cur, r.castSucc, false⟩, resp := answerVal (if s.br.cur.getLsbD r.val then 1 else 0) }

/-- R127: the unpacking law. From a source that holds exactly what the packing law describes, the k-th bit read is the k-th
bit written, 0 past the last one, and `BR.eof` is 0 up to the end of the last byte and 1 from there on. -/
def Obligations.BitsReadAreTheBitsWritten : Prop :=
  ∀ (s : State) (bits : List Bool) (out : List Byte) (k : Nat),
    s.status = 0 → IsPacked bits out → s.remaining = out →
    ∃ t, runInstrs (.brInit :: List.replicate (k + 1) .brRbit) s = .next t
      ∧ t.resp = answerVal (if bits.getD k false then 1 else 0)
      ∧ (t.br.eof = true ↔ 8 * out.length ≤ k)

/-! ## FM -/

/-- R140, R141, R142: the three commands that write counts. -/
def Obligations.CountsAreClearedCountedAndMarked : Prop :=
  (encode .fmClr = [0x40] ∧ (∀ b, encode (.fmAcc b) = [0x41, b]) ∧ encode .fmEos = [0x42])
    ∧ ∀ s : State, s.status = 0 →
        (∃ m, exec .fmClr s = .next { s with fm := m, resp := answerNone } ∧ m.cum = s.fm.cum
          ∧ ∀ x : Symbol, m.freqAt x = 0)
        ∧ (∀ b : Byte, ∃ m, exec (.fmAcc b) s = .next { s with fm := m, resp := answerNone } ∧ m.cum = s.fm.cum
          ∧ ∀ x : Symbol, m.freqAt x = if x.val = b.toNat then (s.fm.freqAt x + 1) % 2 ^ 32 else s.fm.freqAt x)
        ∧ ∃ m, exec .fmEos s = .next { s with fm := m, resp := answerNone } ∧ m.cum = s.fm.cum
          ∧ ∀ x : Symbol, m.freqAt x = if x.val = 256 then 1 else s.fm.freqAt x

/-- R143: `FM.SCAN` counts the bytes from the cursor to the end of the source and leaves the cursor there. -/
def Obligations.ScanCountsTheRestOfTheSource : Prop :=
  encode .fmScan = [0x48]
    ∧ ∀ s : State, s.status = 0 →
        ∃ m, exec .fmScan s = .next { s.consumed s.remaining.length with fm := m, resp := answerNone }
          ∧ (s.src.pos ≤ s.src.data.length → s.src.pos + s.remaining.length = s.src.data.length)
          ∧ m.cum = s.fm.cum
          ∧ (∀ b : Byte, m.freqAt (byteSymbol b) = s.remaining.count b % 2 ^ 32) ∧ m.freqAt 256 = 1

/-- R144: `FM.SCALE`, count by count. The inner test of the rule never holds. -/
def Obligations.ScalingOfEveryCount : Prop :=
  encode .fmScale = [0x43]
    ∧ ∀ s : State, s.status = 0 →
        ∃ m, exec .fmScale s = .next { s with fm := m, resp := answerNone } ∧ m.cum = s.fm.cum
          ∧ ∀ x : Symbol, m.freqAt x =
              if s.fm.total = 0 then 1
              else if s.fm.total ≤ 2 ^ 24 then s.fm.freqAt x
              else if s.fm.freqAt x = 0 then 0
              else max 1 (s.fm.freqAt x * 2 ^ 24 / s.fm.total)

/-- R145: what scaling guarantees: positive counts stay positive, and the total is at most `2^24 + 255`. -/
def Obligations.ScalingBoundsTheTotal : Prop :=
  ∀ s : State, s.status = 0 → ∃ t, exec .fmScale s = .next t
    ∧ 1 ≤ t.fm.total ∧ t.fm.total ≤ 2 ^ 24 + 255 ∧ ∀ x : Symbol, 0 < s.fm.freqAt x → 0 < t.fm.freqAt x

/-- R146: `FM.CUM`: prefix sums; all-ones counts for a table of total 0; `BAD_HEADER`, and `FM.cum` as it was, when the total
does not fit. -/
def Obligations.CumulativeTableIsThePrefixSum : Prop :=
  encode .fmCum = [0x44]
    ∧ ∀ s : State, s.status = 0 →
        (2 ^ 32 - 1 < s.fm.total → exec .fmCum s = .next (s.failed 3))
        ∧ (s.fm.total ≤ 2 ^ 32 - 1 →
            ∃ m, exec .fmCum s = .next { s with fm := m, resp := answerNone } ∧ m.freq = s.fm.freq
              ∧ m.cumAt 0 = 0 ∧ m.cumAt 257 = (if s.fm.total = 0 then 257 else s.fm.total)
              ∧ ∀ x : Symbol, m.cumAt (x.val + 1) = m.cumAt x.val + if s.fm.total = 0 then 1 else s.fm.freqAt x)

/-- R147: `FM.FIND v` gives the one symbol whose share of the total holds v, and raises `CorruptStream` when v is not below the
total. -/
def Obligations.FindGivesTheUniqueSymbol : Prop :=
  (∀ v, encode (.fmFind v) = 0x45 :: leBytes32 v)
    ∧ ∀ (s : State) (v : Word), s.status = 0 → s.fm.cumLegal →
        (s.fm.cumAt 257 ≤ v.toNat → exec (.fmFind v) s = .next (s.failed 4))
        ∧ (v.toNat < s.fm.cumAt 257 → ∃ x : Symbol,
            exec (.fmFind v) s = .next { s with resp := answerVal (BitVec.ofNat 32 x.val) }
              ∧ (s.fm.cumAt x.val ≤ v.toNat ∧ v.toNat < s.fm.cumAt (x.val + 1))
              ∧ ∀ y : Symbol, s.fm.cumAt y.val ≤ v.toNat → v.toNat < s.fm.cumAt (y.val + 1) → y = x)

/-- R148, R90: `FM.WHDR` writes the 1036 bytes of the header, or as many as fit. -/
def Obligations.HeaderIsWritten : Prop :=
  (∀ tag, encode (.fmWhdr tag) = 0x46 :: leBytes32 tag)
    ∧ ∀ (s : State) (tag : Word), s.status = 0 →
        (headerBytes tag s.fm.freq).length = 1036
        ∧ (s.hasRoom 1036 = true → exec (.fmWhdr tag) s =
            .next { s.wrote (headerBytes tag s.fm.freq) with resp := answerNone })
        ∧ ∀ m, s.roomOnlyFor m 1036 → exec (.fmWhdr tag) s =
            .next ((s.wrote ((headerBytes tag s.fm.freq).take m)).failed 5)

/-- R149, R277 item 2: `FM.RHDR`, in the order of its checks; what the cursor is after each. Of the registers after an error
nothing is said (R282). -/
def Obligations.HeaderIsReadAndChecked : Prop :=
  (∀ tag, encode (.fmRhdr tag) = 0x47 :: leBytes32 tag)
    ∧ ∀ (s : State) (tag : Word), s.status = 0 →
        (s.remaining.length < 4 → ∃ m,
          exec (.fmRhdr tag) s = .next { (s.consumed s.remaining.length).failed 1 with fm := m })
        ∧ (4 ≤ s.remaining.length → s.remaining.take 4 ≠ leBytes32 tag → ∃ m,
          exec (.fmRhdr tag) s = .next { (s.consumed 4).failed 2 with fm := m })
        ∧ (s.remaining.take 4 = leBytes32 tag → s.remaining.length < 8 → ∃ m,
          exec (.fmRhdr tag) s = .next { (s.consumed s.remaining.length).failed 1 with fm := m })
        ∧ (s.remaining.take 4 = leBytes32 tag → 8 ≤ s.remaining.length →
            (s.remaining.drop 4).take 4 ≠ [0x01, 0x01, 0x00, 0x00] → ∃ m,
          exec (.fmRhdr tag) s = .next { (s.consumed 8).failed 3 with fm := m })
        ∧ (s.remaining.take 8 = leBytes32 tag ++ [0x01, 0x01, 0x00, 0x00] → s.remaining.length < 1036 → ∃ m,
          exec (.fmRhdr tag) s = .next { (s.consumed s.remaining.length).failed 1 with fm := m })
        ∧ ∀ (f : Vector Word 257) (rest : List Byte), s.remaining = headerBytes tag f ++ rest →
            ((∃ x : Symbol, f[x] ≠ 0) → f[256] = 0 → ∃ m,
              exec (.fmRhdr tag) s = .next { (s.consumed 1036).failed 3 with fm := m })
            ∧ ((∀ x : Symbol, f[x] = 0) ∨ f[256] ≠ 0 →
              exec (.fmRhdr tag) s =
                .next { s.consumed 1036 with fm := { s.fm with freq := f }, resp := answerNone })

/-! ## HF -/

/-- R163: the degenerate trees: a synthesized EOS leaf when no count is nonzero, and a parent whose only child is its left
child when one is. -/
def Obligations.DegenerateTreesAreBuilt : Prop :=
  ∀ s : State, s.status = 0 →
    (s.fm.coded = [] → ∃ h, exec .hfBuild s = .next { s with hf := h, resp := answerNone }
      ∧ h.len = s.hf.len ∧ h.bits = s.hf.bits ∧ h.n = 1 ∧ h.root = 0 ∧ h.walk = 0
      ∧ h.nodeAt 0 = ⟨1, 256, 0x3FF#10, 0x3FF#10⟩)
    ∧ ∀ x : Symbol, s.fm.coded = [x] → ∃ h, exec .hfBuild s = .next { s with hf := h, resp := answerNone }
      ∧ h.len = s.hf.len ∧ h.bits = s.hf.bits ∧ h.n = 2 ∧ h.root = 1 ∧ h.walk = 1
      ∧ h.nodeAt 0 = ⟨s.fm.freqAt x, BitVec.ofNat 9 x.val, 0x3FF#10, 0x3FF#10⟩
      ∧ (h.nodeAt 1).sym = 0 ∧ (h.nodeAt 1).left = 0 ∧ (h.nodeAt 1).right = 0x3FF#10

/-- R160, R161, R162: the tree of k ≥ 2 coded symbols: k leaves in ascending symbol order, then k − 1 parents in the order they
are made; each parent joins the two waiting entries that come first in the order of R161, the first on the left. -/
def Obligations.HuffmanTreeIsBuilt : Prop :=
  encode .hfBuild = [0x50]
    ∧ ∀ (s : State) (k : Nat), s.status = 0 → s.fm.coded.length = k → 2 ≤ k →
        ∃ h, exec .hfBuild s = .next { s with hf := h, resp := answerNone }
          ∧ h.len = s.hf.len ∧ h.bits = s.hf.bits
          ∧ h.n.toNat = 2 * k - 1 ∧ h.root.toNat = 2 * k - 2 ∧ h.walk = h.root
          ∧ (∀ (i : Nat) (x : Symbol), s.fm.coded[i]? = some x →
              h.nodeAt (BitVec.ofNat 10 i) = ⟨s.fm.freqAt x, BitVec.ofNat 9 x.val, 0x3FF#10, 0x3FF#10⟩)
          ∧ ∀ p : NodeIdx, k ≤ p.toNat → p.toNat < 2 * k - 1 →
              ∃ a b : NodeIdx, a ≠ b ∧ a.toNat < p.toNat ∧ b.toNat < p.toNat
                ∧ h.nodeAt p = ⟨(h.nodeAt a).freq + (h.nodeAt b).freq, 0, a, b⟩
                ∧ (∀ q : NodeIdx, k ≤ q.toNat → q.toNat < p.toNat → ¬ h.childOf a q ∧ ¬ h.childOf b q)
                ∧ h.first a b
                ∧ ∀ j : NodeIdx, j.toNat < p.toNat → j ≠ a → j ≠ b →
                    (∀ q : NodeIdx, k ≤ q.toNat → q.toNat < p.toNat → ¬ h.childOf j q) → h.first b j

/-- R164: `HF.CODES` raises `DomainFault` without a tree, and otherwise writes the code table and nothing else. -/
def Obligations.CodesNeedATree : Prop :=
  encode .hfCodes = [0x51]
    ∧ ∀ s : State, s.status = 0 →
        (s.hf.root = 0x3FF#10 → exec .hfCodes s = .next (s.failed 6))
        ∧ (s.hf.root ≠ 0x3FF#10 → ∃ l b, exec .hfCodes s =
            .next { s with hf := { s.hf with len := l, bits := b }, resp := answerNone })

/-- R164, R170(a): after `HF.BUILD` and `HF.CODES` the code of a coded symbol is its path from the root, "0" for an empty path,
at most 256 bits; a symbol of count 0 has none; no code is a prefix of another. -/
def Obligations.CodesArePathsAndPrefixFree : Prop :=
  ∀ s : State, s.status = 0 →
    ∃ h, runInstrs [.hfBuild, .hfCodes] s = .next { s with hf := h, resp := answerNone }
      ∧ (∀ x : Symbol, s.fm.freqAt x = 0 → (s.fm.total = 0 → x ≠ 256) → h.len[x] = 0 ∧ h.bits[x] = 0)
      ∧ (∀ x : Symbol, (s.fm.freqAt x ≠ 0 ∨ s.fm.total = 0 ∧ x = 256) →
          1 ≤ (h.len[x]).toNat ∧ (h.len[x]).toNat ≤ 256 ∧ (h.bits[x]).toNat < 2 ^ (h.len[x]).toNat
            ∧ ∃ (p : List Bool) (j : NodeIdx), h.reaches h.root p j ∧ (h.nodeAt j).isLeaf = true
                ∧ (h.nodeAt j).sym.toNat = x.val ∧ h.codeWord x = if p = [] then [false] else p)
      ∧ ∀ x y : Symbol, x ≠ y → h.len[x] ≠ 0 → h.len[y] ≠ 0 → ¬ h.codeWord x <+: h.codeWord y

/-- R165: `HF.ESYM` writes the bits of the symbol's code, first bit first, through the bit writer; a symbol without a code is a
`DomainFault`, an operand above 256 a `BadCommand`. -/
def Obligations.SymbolsAreEmittedAsTheirCodes : Prop :=
  ∀ (s : State) (v : BitVec 16), s.status = 0 →
    encode (.hfEsym v) = 0x52 :: leBytes16 v
      ∧ (256 < v.toNat → exec (.hfEsym v) s = .next (s.failed 7))
      ∧ ∀ x : Symbol, v.toNat = x.val →
          (s.hf.len[x] = 0 → exec (.hfEsym v) s = .next (s.failed 6))
          ∧ (s.hf.len[x] ≠ 0 → ∃ t, exec (.hfEsym v) s = .next t ∧ runInstrs (wbits (s.hf.codeWord x)) s = .next t
              ∧ (s.snk.cap = none → t.status = 0 ∧ t.resp = answerNone))

/-- R166: `HF.STEP`, in the order of its checks: no tree; no bit left; a single-leaf root; an absent child; a leaf; an internal
node. The bit is the one `BR.RBIT` reads. -/
def Obligations.WalkerStepsByOneBit : Prop :=
  encode .hfStep = [0x53]
    ∧ ∀ s : State, s.status = 0 → s.hf.legal →
        (s.hf.root = 0x3FF#10 → exec .hfStep s = .next (s.failed 6))
        ∧ (s.hf.root ≠ 0x3FF#10 → s.bitStream = [] →
            exec .hfStep s = .next ({ s with br := { s.br with eof := true } }.failed 1))
        ∧ ∀ (b : Bool) (rest : List Bool), s.hf.root ≠ 0x3FF#10 → s.bitStream = b :: rest →
            ∃ u, exec .brRbit s = .next u ∧ u.br.eof = false ∧ u.bitStream = rest
              ∧ let c := if b then (s.hf.nodeAt s.hf.walk).right else (s.hf.nodeAt s.hf.walk).left
                if (s.hf.nodeAt s.hf.root).isLeaf = true then
                  exec .hfStep s =
                    .next (if b then u.failed 4
                           else { u with resp := answerVal ((s.hf.nodeAt s.hf.root).sym.setWidth 32) })
                else if c = 0x3FF#10 then exec .hfStep s = .next (u.failed 4)
                else if (s.hf.nodeAt c).isLeaf = true then
                  exec .hfStep s = .next { u with
                    hf := { s.hf with walk := s.hf.root }, resp := answerVal ((s.hf.nodeAt c).sym.setWidth 32) }
                else exec .hfStep s = .next { u with hf := { s.hf with walk := c }, resp := answerNone }

/-- R167: `HF.DSYM` repeats `HF.STEP` until it gives a symbol or raises; so with the bits of a path to a leaf in front of it, it
reads exactly those bits and gives that leaf's symbol; at a root that is a leaf it reads one bit, 0, and gives the root's.
That the walker is at such a root is part of `State.Legal`, which every step keeps. -/
def Obligations.SymbolReadRepeatsTheStep : Prop :=
  encode .hfDsym = [0x54]
    ∧ (∀ s t : State, s.status = 0 → exec .hfStep s = .next t →
        exec .hfDsym s = if t.resp = answerNone then exec .hfDsym t else .next t)
    ∧ (∀ (s : State) (rest : List Bool),
        s.status = 0 → s.hf.legal → s.hf.root ≠ 0x3FF#10 → (s.hf.nodeAt s.hf.root).isLeaf = true →
        s.bitStream = false :: rest →
        ∃ br pos, exec .hfDsym s = .next { s with
            br := br, src := { s.src with pos := pos }, resp := answerVal ((s.hf.nodeAt s.hf.root).sym.setWidth 32) }
          ∧ State.bitStream { s with br := br, src := { s.src with pos := pos } } = rest)
    ∧ ∀ (s : State) (p : List Bool) (j : NodeIdx) (rest : List Bool),
        s.status = 0 → s.hf.legal → s.hf.walkerAtLeafRoot → s.hf.root ≠ 0x3FF#10 → p ≠ [] → s.bitStream = p ++ rest →
        s.hf.reaches s.hf.walk p j → (s.hf.nodeAt j).isLeaf = true →
        ∃ br pos, exec .hfDsym s = .next { s with
            br := br, src := { s.src with pos := pos }, hf := { s.hf with walk := s.hf.root },
            resp := answerVal ((s.hf.nodeAt j).sym.setWidth 32) }
          ∧ State.bitStream { s with br := br, src := { s.src with pos := pos } } = rest

/-! ## Whole Huffman streams -/

/-- R168, R91: `HF.ENC` writes the header with the raw counts, then the codes of the input's bytes and of symbol 256, packed, by
the codes `HF.BUILD` and `HF.CODES` make from those counts. -/
def Obligations.HuffmanEncoderWritesTheStream : Prop :=
  encode .hfEnc = [0x5E]
    ∧ ∀ s : State, s.status = 0 → s.snk.cap = none → fewOccurrences s.remaining →
        ∃ (m : FM) (h : HF) (payload : List Byte),
          exec .hfEnc s = .next { (s.wrote (headerBytes 0x4E4D4648#32 m.freq ++ payload)).consumed s.remaining.length with
            fm := m, hf := h, bw := ⟨0, 0⟩, resp := answerNone }
          ∧ m.cum = s.fm.cum ∧ (∀ b : Byte, m.freqAt (byteSymbol b) = s.remaining.count b) ∧ m.freqAt 256 = 1
          ∧ (∃ t, runInstrs [.hfBuild, .hfCodes] { s with fm := m } = .next t ∧ t.hf = h)
          ∧ IsPacked (s.remaining.flatMap (fun b => h.codeWord (byteSymbol b)) ++ h.codeWord 256) payload

/-- R320 laws 3 and 4, R168, R195, R200, R223, R227, R255: the encodings of the empty input and of every input of one byte. -/
def Obligations.EmptyInputIsEncoded : Prop :=
  (∀ s : State, s.status = 0 → s.snk.cap = none → s.remaining = [] →
    (∃ t, exec .hfEnc s = .next t ∧ t.status = 0 ∧ t.resp = answerNone
      ∧ t.snk.data = s.snk.data ++ headerBytes 0x4E4D4648#32 eosOnly ++ [0x00] ∧ t.src = s.src)
    ∧ (∃ t, exec .acEnc s = .next t ∧ t.status = 0 ∧ t.resp = answerNone
      ∧ t.snk.data = s.snk.data ++ headerBytes 0x434E4541#32 eosOnly ++ [0x40] ∧ t.src = s.src)
    ∧ (∃ t, exec .rcEnc s = .next t ∧ t.status = 0 ∧ t.resp = answerNone
      ∧ t.snk.data = s.snk.data ++ headerBytes 0x434E4352#32 eosOnly ++ [0x00, 0x00, 0x00, 0x00] ∧ t.src = s.src)
    ∧ exec .rlEnc s = .next { s with rl := ⟨0, 0⟩, resp := answerNone })
  ∧ ∀ (s : State) (b : Byte), s.status = 0 → s.snk.cap = none → s.remaining = [b] →
    (∃ t, exec .hfEnc s = .next t ∧ t.status = 0 ∧ t.resp = answerNone
      ∧ t.snk.data = s.snk.data ++ headerBytes 0x4E4D4648#32 (oneByte b) ++ [0x80] ∧ t.src = (s.consumed 1).src)
    ∧ (∃ t, exec .acEnc s = .next t ∧ t.status = 0 ∧ t.resp = answerNone
      ∧ t.snk.data = s.snk.data ++ headerBytes 0x434E4541#32 (oneByte b) ++ [0x50] ∧ t.src = (s.consumed 1).src)
    ∧ (∃ t, exec .rcEnc s = .next t ∧ t.status = 0 ∧ t.resp = answerNone
      ∧ t.snk.data = s.snk.data ++ headerBytes 0x434E4352#32 (oneByte b) ++ [0x40, 0x00, 0x00, 0x00]
      ∧ t.src = (s.consumed 1).src)
    ∧ exec .rlEnc s =
        .next { (s.consumed 1).wrote [0x01, 0x00, 0x00, 0x00, b] with rl := ⟨b, 0⟩, resp := answerNone }

/-- R169, R201, R228: a header that names only EOS, with a payload, decodes to nothing with status 0; without a payload it is
`TRUNCATION`. -/
def Obligations.EosOnlyStreamsDecodeToNothing : Prop :=
  ∀ (s : State) (payload : List Byte), s.status = 0 →
    (∀ (b : Byte) (rest : List Byte), payload = b :: rest → b.getLsbD 7 = false →
      s.remaining = headerBytes 0x4E4D4648#32 eosOnly ++ payload →
      ∃ t, exec .hfDec s = .next t ∧ t.status = 0 ∧ t.resp = answerNone ∧ t.snk = s.snk
        ∧ t.src = ⟨s.src.data, s.src.pos + 1037⟩)
    ∧ (s.remaining = headerBytes 0x434E4541#32 eosOnly ++ payload →
      ∃ t, exec .acDec s = .next t ∧ t.status = (if payload = [] then 1 else 0) ∧ t.snk = s.snk
        ∧ t.resp = (if payload = [] then answerError 1 else answerNone)
        ∧ t.src = ⟨s.src.data, s.src.pos + (1036 + min 4 payload.length)⟩)
    ∧ (s.remaining = headerBytes 0x434E4352#32 eosOnly ++ payload →
      ∃ t, exec .rcDec s = .next t ∧ t.status = (if payload = [] then 1 else 0) ∧ t.snk = s.snk
        ∧ t.resp = (if payload = [] then answerError 1 else answerNone)
        ∧ t.src = ⟨s.src.data, s.src.pos + (1036 + min 4 payload.length)⟩)

/-- R170(e), (g), R320 laws 1 and 8: the Huffman round trip, under the premise that no byte value occurs `2^32` times, and the
truncation law: a stream cut anywhere decodes to `TRUNCATION`, with a beginning of the input in the sink. -/
def Obligations.HuffmanRoundTrip : Prop :=
  ∀ xs : List Byte, fewOccurrences xs →
    ∃ t, exec .hfEnc (State.attach xs none) = .next t ∧ t.status = 0
      ∧ (∃ u, exec .hfDec (State.attach t.snk.data none) = .next u ∧ u.status = 0 ∧ u.snk.data = xs)
      ∧ ∀ k, k < t.snk.data.length →
          ∃ u, exec .hfDec (State.attach (t.snk.data.take k) none) = .next u ∧ u.status = 1 ∧ u.snk.data <+: xs

/-! ## AC -/

/-- R192, R221, R251: the three commands that create an encoder's state. -/
def Obligations.EncodersAreInitialised : Prop :=
  (encode .acEinit = [0x60] ∧ encode .rcEinit = [0x70] ∧ encode .rlEinit = [0x80])
    ∧ ∀ s : State, s.status = 0 →
        exec .acEinit s = .next { s with
          ac := { s.ac with low := 0, high := 0xFFFFFFFF#32, pend := 0 }, resp := answerNone }
        ∧ exec .rcEinit s = .next { s with rc := { s.rc with low := 0, high := 0xFFFFFFFF#32 }, resp := answerNone }
        ∧ exec .rlEinit s = .next { s with rl := ⟨0, 0⟩, resp := answerNone }

/-- R191, R193, R194: `AC.ESYM`: a symbol without a share is a `DomainFault`; otherwise the interval becomes the symbol's share
and is renormalized, the bits of the turns going through the bit writer; an operand above 256 is a `BadCommand`. -/
def Obligations.ArithmeticSymbolIsEncoded : Prop :=
  ∀ (s : State) (v : BitVec 16), s.status = 0 →
    encode (.acEsym v) = 0x61 :: leBytes16 v
      ∧ (256 < v.toNat → exec (.acEsym v) s = .next (s.failed 7))
      ∧ ∀ x : Symbol, v.toNat = x.val →
          (¬ s.fm.hasShare s.ac.low s.ac.high x.val → exec (.acEsym v) s = .next (s.failed 6))
          ∧ (s.fm.cumLegal → s.ac.low.toNat ≤ s.ac.high.toNat → s.fm.hasShare s.ac.low s.ac.high x.val →
              ∃ (n : Nat) (l h : Word) (p : Nat) (bits : List Bool) (u : State) (a : AC),
                AcTurns n (s.fm.newLow s.ac.low s.ac.high x.val) (s.fm.newHigh s.ac.low s.ac.high x.val) s.ac.pend
                  bits l.toNat h.toNat p
                ∧ runInstrs (wbits bits) { s with resp := answerNone } = .next u
                ∧ exec (.acEsym v) s = .next { u with ac := a }
                ∧ (u.status = 0 → a = { s.ac with low := l, high := h, pend := p } ∧ a.renormalized)
                ∧ (s.snk.cap = none → u.status = 0 ∧ u.resp = answerNone))

/-- R195: `AC.EFIN` writes one bit, by where `AC.low` lies, then one more complementary bit than are pending, and flushes. -/
def Obligations.ArithmeticCoderFinishes : Prop :=
  encode .acEfin = [0x62]
    ∧ ∀ s : State, s.status = 0 → ∃ (u : State) (p : Nat),
        runInstrs (wbits (decide (2 ^ 30 ≤ s.ac.low.toNat)
            :: List.replicate (s.ac.pend + 1) (decide (s.ac.low.toNat < 2 ^ 30))) ++ [.bwFlush]) s = .next u
        ∧ exec .acEfin s = .next { u with ac := { s.ac with pend := p } }
        ∧ (u.status = 0 → p = 0) ∧ (s.snk.cap = none → u.status = 0 ∧ u.resp = answerNone)

/-- R196, R197: `AC.DINIT` reads 32 bits, zeros past the end of the source, and counts the zeros. -/
def Obligations.ArithmeticDecoderStarts : Prop :=
  encode .acDinit = [0x63]
    ∧ ∀ s : State, s.status = 0 → ∃ (u : State) (a : AC),
        runInstrs (List.replicate 32 .brRbit) s = .next u
        ∧ exec .acDinit s = .next { u with ac := a, resp := answerNone }
        ∧ a.low = 0 ∧ a.high = 0xFFFFFFFF#32 ∧ a.pend = s.ac.pend
        ∧ a.code.toNat = bitsToNat (s.nextBits 32) ∧ a.zfill.val = 32 - min 32 s.bitStream.length

/-- R198, R199, R226, R277 item 4: the order of the checks of `AC.DSYM` and `RC.DSYM`: nothing left to decode from; no table;
the code outside the interval. -/
def Obligations.DecodersCheckInOrder : Prop :=
  ∀ s : State, s.status = 0 →
    (s.ac.zfill.val = 32 → exec .acDsym s = .next (s.failed 1))
    ∧ (s.ac.zfill.val < 32 → s.fm.cumAt 257 = 0 → exec .acDsym s = .next (s.failed 6))
    ∧ (s.ac.zfill.val < 32 → s.fm.cumAt 257 ≠ 0 → s.ac.low.toNat ≤ s.ac.high.toNat →
        s.ac.code.toNat < s.ac.low.toNat ∨ s.ac.high.toNat < s.ac.code.toNat → exec .acDsym s = .next (s.failed 4))
    ∧ (s.rc.zfill.val = 4 → exec .rcDsym s = .next (s.failed 1))
    ∧ (s.rc.zfill.val < 4 → s.fm.cumAt 257 = 0 → exec .rcDsym s = .next (s.failed 6))
    ∧ (s.rc.zfill.val < 4 → s.fm.cumAt 257 ≠ 0 → s.rc.low.toNat ≤ s.rc.high.toNat →
        s.rc.code.toNat < s.rc.low.toNat ∨ s.rc.high.toNat < s.rc.code.toNat → exec .rcDsym s = .next (s.failed 4))

/-- R199, R202(c), (d): `AC.DSYM` gives the symbol whose share holds the code, makes the turns the encoder would make for it,
reading one bit a turn, and keeps the code inside the interval. -/
def Obligations.ArithmeticSymbolIsDecoded : Prop :=
  encode .acDsym = [0x64]
    ∧ ∀ s : State, s.status = 0 → s.fm.cumLegal → s.fm.cumAt 257 ≠ 0 → s.ac.zfill.val < 32 →
        s.ac.low.toNat ≤ s.ac.code.toNat → s.ac.code.toNat ≤ s.ac.high.toNat →
        ∃ (x : Symbol) (n : Nat) (bits : List Bool) (p : Nat) (u : State) (a : AC),
          s.fm.hasShare s.ac.low s.ac.high x.val
          ∧ (s.fm.newLow s.ac.low s.ac.high x.val ≤ s.ac.code.toNat
              ∧ s.ac.code.toNat ≤ s.fm.newHigh s.ac.low s.ac.high x.val)
          ∧ AcTurns n (s.fm.newLow s.ac.low s.ac.high x.val) (s.fm.newHigh s.ac.low s.ac.high x.val) 0 bits
              a.low.toNat a.high.toNat p
          ∧ runInstrs (List.replicate n .brRbit) s = .next u
          ∧ exec .acDsym s = .next { u with ac := a, resp := answerVal (BitVec.ofNat 32 x.val) }
          ∧ a.code.toNat = a.low.toNat + 2 ^ n * (s.ac.code.toNat - s.fm.newLow s.ac.low s.ac.high x.val)
              + bitsToNat (s.nextBits n)
          ∧ a.pend = s.ac.pend ∧ a.zfill.val = min 32 (s.ac.zfill.val + (n - s.bitStream.length))
          ∧ a.renormalized ∧ a.low.toNat ≤ a.code.toNat ∧ a.code.toNat ≤ a.high.toNat

/-! ## RC -/

/-- R191, R222: `RC.ESYM`: a symbol without a share is a `DomainFault`; otherwise the interval becomes the symbol's share and is
renormalized, one byte written a turn, four at most; an operand above 256 is a `BadCommand`. -/
def Obligations.RangeSymbolIsEncoded : Prop :=
  ∀ (s : State) (v : BitVec 16), s.status = 0 →
    encode (.rcEsym v) = 0x71 :: leBytes16 v
      ∧ (256 < v.toNat → exec (.rcEsym v) s = .next (s.failed 7))
      ∧ ∀ x : Symbol, v.toNat = x.val →
          (¬ s.fm.hasShare s.rc.low s.rc.high x.val → exec (.rcEsym v) s = .next (s.failed 6))
          ∧ (s.fm.cumLegal → s.rc.low.toNat ≤ s.rc.high.toNat → s.fm.hasShare s.rc.low s.rc.high x.val →
              ∃ (bytes : List Byte) (l h : Word),
                RcTurns (BitVec.ofNat 32 (s.fm.newLow s.rc.low s.rc.high x.val))
                  (BitVec.ofNat 32 (s.fm.newHigh s.rc.low s.rc.high x.val)) bytes l h
                ∧ bytes.length ≤ 4 ∧ RC.renormalized { s.rc with low := l, high := h }
                ∧ (s.hasRoom bytes.length = true → exec (.rcEsym v) s =
                    .next { s.wrote bytes with rc := { s.rc with low := l, high := h }, resp := answerNone })
                ∧ ∀ m, s.roomOnlyFor m bytes.length → ∃ r,
                    exec (.rcEsym v) s = .next { (s.wrote (bytes.take m)).failed 5 with rc := r })

/-- R223: `RC.EFIN` writes the four bytes of `RC.low`, most significant first, and leaves `RC.low = 0`. -/
def Obligations.RangeCoderFinishes : Prop :=
  encode .rcEfin = [0x72]
    ∧ ∀ s : State, s.status = 0 →
        (s.hasRoom 4 = true → exec .rcEfin s = .next { s.wrote [s.rc.low.extractLsb' 24 8, s.rc.low.extractLsb' 16 8,
            s.rc.low.extractLsb' 8 8, s.rc.low.extractLsb' 0 8] with
          rc := { s.rc with low := 0 }, resp := answerNone })
        ∧ ∀ m, s.roomOnlyFor m 4 → ∃ r, exec .rcEfin s = .next { (s.wrote
            ([s.rc.low.extractLsb' 24 8, s.rc.low.extractLsb' 16 8, s.rc.low.extractLsb' 8 8,
              s.rc.low.extractLsb' 0 8].take m)).failed 5 with rc := r }

/-- R224, R225: `RC.DINIT` reads four bytes at the cursor, zeros past the end of the source, and counts the zeros. -/
def Obligations.RangeDecoderStarts : Prop :=
  encode .rcDinit = [0x73]
    ∧ ∀ s : State, s.status = 0 → ∃ r : RC,
        exec .rcDinit s = .next { s.consumed (min 4 s.remaining.length) with rc := r, resp := answerNone }
        ∧ r.low = 0 ∧ r.high = 0xFFFFFFFF#32
        ∧ r.code.toNat = bytesToNat (s.nextBytes 4) ∧ r.zfill.val = 4 - min 4 s.remaining.length

/-- R226, R230(b): `RC.DSYM` gives the symbol whose share holds the code, makes the turns the encoder would make for it, reading
one byte a turn, and keeps the code inside the interval. -/
def Obligations.RangeSymbolIsDecoded : Prop :=
  encode .rcDsym = [0x74]
    ∧ ∀ s : State, s.status = 0 → s.fm.cumLegal → s.fm.cumAt 257 ≠ 0 → s.rc.zfill.val < 4 →
        s.rc.low.toNat ≤ s.rc.code.toNat → s.rc.code.toNat ≤ s.rc.high.toNat →
        ∃ (x : Symbol) (bytes : List Byte) (r : RC),
          s.fm.hasShare s.rc.low s.rc.high x.val
          ∧ (s.fm.newLow s.rc.low s.rc.high x.val ≤ s.rc.code.toNat
              ∧ s.rc.code.toNat ≤ s.fm.newHigh s.rc.low s.rc.high x.val)
          ∧ RcTurns (BitVec.ofNat 32 (s.fm.newLow s.rc.low s.rc.high x.val))
              (BitVec.ofNat 32 (s.fm.newHigh s.rc.low s.rc.high x.val)) bytes r.low r.high
          ∧ exec .rcDsym s = .next { s.consumed (min bytes.length s.remaining.length) with
              rc := r, resp := answerVal (BitVec.ofNat 32 x.val) }
          ∧ r.code.toNat = (s.rc.code.toNat * 256 ^ bytes.length + bytesToNat (s.nextBytes bytes.length)) % 2 ^ 32
          ∧ r.zfill.val = min 4 (s.rc.zfill.val + (bytes.length - s.remaining.length))
          ∧ r.renormalized ∧ r.low.toNat ≤ r.code.toNat ∧ r.code.toNat ≤ r.high.toNat

/-! ## Whole streams -/

/-- R168, R200, R227, R255, R103: the encoders are their expansions into primitive commands, the bytes of the source given as
operands: the first pass; the cursor put back where it was, which `CORE.REWIND` does when it was at the front; then the rest.
Only the cursor, which the rest does not move, stands at the end. -/
def Obligations.EncodersAreTheirExpansions : Prop :=
  (encode .acEnc = [0x6E] ∧ encode .rcEnc = [0x7E] ∧ encode .rlEnc = [0x8E])
    ∧ ∀ s : State, s.status = 0 →
        ∀ (enc : Instr) (scan is : List Instr), (enc, scan, is) ∈ encoderExpansions s.remaining →
          ∃ v u, runInstrs scan s = .next v ∧ runInstrs is { v with src := s.src } = .next u
            ∧ (s.src.pos = 0 → runInstrs (scan ++ is) s = .next u)
            ∧ (u.status = 0 →
                exec enc s = .next { u with src := { u.src with pos := s.src.pos + s.remaining.length } })
            ∧ (u.status ≠ 0 → ∃ t, exec enc s = .next t ∧ t.status = u.status ∧ t.resp = u.resp ∧ t.snk = u.snk)

/-- R169, R201, R228, R203(a), R230(c): the decoders read the header, prepare, and then read and write symbols until an error or
symbol 256; that ends on every input. -/
def Obligations.DecodersReadSymbolsUntilEos : Prop :=
  (encode .hfDec = [0x5F] ∧ encode .acDec = [0x6F] ∧ encode .rcDec = [0x7F])
    ∧ ∀ s : State, s.status = 0 → Memory.wf s.src s.snk = true →
        ∀ (dec dsym : Instr) (is : List Instr), (dec, dsym, is) ∈ decoderExpansions →
          ∃ u, runInstrs is s = .next u
            ∧ (u.status ≠ 0 → exec dec s = .next u)
            ∧ (u.status = 0 → ∃ bs v, DecodesTo dsym u bs v
                ∧ exec dec s = .next { v with resp := if v.status = 0 then answerNone else v.resp })

/-- R167, R169, R202(c), R203(a), R230(b), (c), R273, R276, R319: on every input the three decoders end, with a status among
those their rules name: `DOMAIN_FAULT` and `BAD_COMMAND` never, `CORRUPT_STREAM` only for Huffman. -/
def Obligations.DecodersEndWithANamedStatus : Prop :=
  ∀ s : State, s.status = 0 →
    (∃ t, exec .hfDec s = .next t ∧ t.status ∈ ([0, 1, 2, 3, 4, 5] : List StatusCode))
    ∧ (∃ t, exec .acDec s = .next t ∧ t.status ∈ ([0, 1, 2, 3, 5] : List StatusCode))
    ∧ (∃ t, exec .rcDec s = .next t ∧ t.status ∈ ([0, 1, 2, 3, 5] : List StatusCode))

/-- R320 law 1, R202, R203(b): the arithmetic round trip, under the premise that no byte value occurs `2^32` times. -/
def Obligations.ArithmeticRoundTrip : Prop :=
  ∀ xs : List Byte, fewOccurrences xs →
    ∃ t u, exec .acEnc (State.attach xs none) = .next t ∧ t.status = 0
      ∧ exec .acDec (State.attach t.snk.data none) = .next u ∧ u.status = 0 ∧ u.snk.data = xs

/-- R320 law 1, R229, R230(d): the range round trip, whenever the encoder ended with status 0. -/
def Obligations.RangeRoundTrip : Prop :=
  ∀ (xs : List Byte) (t : State), exec .rcEnc (State.attach xs none) = .next t → t.status = 0 →
    ∃ u, exec .rcDec (State.attach t.snk.data none) = .next u ∧ u.status = 0 ∧ u.snk.data = xs

/-! ## RL -/

/-- R252, R253: `RL.EBYTE` opens a run, lengthens it, or writes its record and opens the next; `RL.EFIN` writes the record of an
open run. -/
def Obligations.RunsAreFramed : Prop :=
  ((∀ b, encode (.rlEbyte b) = [0x81, b]) ∧ encode .rlEfin = [0x82])
    ∧ ∀ s : State, s.status = 0 →
        (∀ b : Byte,
          (s.rl.cnt = 0 → exec (.rlEbyte b) s = .next { s with rl := ⟨b, 1⟩, resp := answerNone })
          ∧ (s.rl.cnt ≠ 0 → b = s.rl.cur → s.rl.cnt.toNat < 2 ^ 32 - 1 →
              exec (.rlEbyte b) s = .next { s with rl := ⟨b, s.rl.cnt + 1⟩, resp := answerNone })
          ∧ (s.rl.cnt ≠ 0 → (b ≠ s.rl.cur ∨ s.rl.cnt.toNat = 2 ^ 32 - 1) →
              (s.hasRoom 5 = true → exec (.rlEbyte b) s =
                .next { s.wrote (leBytes32 s.rl.cnt ++ [s.rl.cur]) with rl := ⟨b, 1⟩, resp := answerNone })
              ∧ ∀ m, s.roomOnlyFor m 5 → ∃ r, exec (.rlEbyte b) s =
                .next { (s.wrote ((leBytes32 s.rl.cnt ++ [s.rl.cur]).take m)).failed 5 with rl := r }))
        ∧ (s.rl.cnt = 0 → exec .rlEfin s = .next { s with resp := answerNone })
        ∧ (s.rl.cnt ≠ 0 → s.hasRoom 5 = true → exec .rlEfin s =
            .next { s.wrote (leBytes32 s.rl.cnt ++ [s.rl.cur]) with rl := ⟨s.rl.cur, 0⟩, resp := answerNone })
        ∧ ∀ m, s.rl.cnt ≠ 0 → s.roomOnlyFor m 5 → ∃ r, exec .rlEfin s =
            .next { (s.wrote ((leBytes32 s.rl.cnt ++ [s.rl.cur]).take m)).failed 5 with rl := r }

/-- R254, R256: `RL.DREC` by what the source holds: nothing; a part of a count; the count 0; a count without a value; a record,
with room for its copies or not. `RL.DEC` repeats `RL.DREC` until it gives the clean end or raises; so it expands a source of
whole records. -/
def Obligations.RecordsAreExpanded : Prop :=
  (encode .rlDrec = [0x83] ∧ encode .rlDec = [0x8F])
    ∧ ∀ s : State, s.status = 0 →
        (s.remaining = [] → exec .rlDrec s = .next { s with resp := answerCeof })
        ∧ (1 ≤ s.remaining.length → s.remaining.length ≤ 3 →
            exec .rlDrec s = .next ((s.consumed s.remaining.length).failed 1))
        ∧ (∀ rest, s.remaining = leBytes32 0 ++ rest → exec .rlDrec s = .next ((s.consumed 4).failed 4))
        ∧ (∀ n : Word, n ≠ 0 → s.remaining = leBytes32 n → exec .rlDrec s = .next ((s.consumed 4).failed 1))
        ∧ (∀ (n : Word) (v : Byte) (rest : List Byte), n ≠ 0 → s.remaining = leBytes32 n ++ v :: rest →
            (s.hasRoom n.toNat = true → exec .rlDrec s =
              .next { (s.consumed 5).wrote (List.replicate n.toNat v) with resp := answerVal 1 })
            ∧ ∀ m, s.roomOnlyFor m n.toNat → exec .rlDrec s =
              .next (((s.consumed 5).wrote (List.replicate m v)).failed 5))
        ∧ (∀ t, exec .rlDrec s = .next t →
            exec .rlDec s = if t.resp = answerVal 1 then exec .rlDec t
              else if t.resp = answerCeof then .next { t with resp := answerNone } else .next t)
        ∧ ∀ rs : List (Word × Byte), s.remaining = recordBytes rs → (∀ r ∈ rs, r.1 ≠ 0) → s.snk.cap = none →
            exec .rlDec s =
              .next { (s.consumed (5 * rs.length)).wrote (recordExpansion rs) with resp := answerNone }

/-- R255, R257(a): `RL.ENC` writes one record for each maximal run of the rest of the source, runs being cut at `2^32 − 1`
bytes; no count is 0, and the records stand for exactly the bytes read. -/
def Obligations.RunLengthEncoderWritesMaximalRuns : Prop :=
  ∀ s : State, s.status = 0 → s.snk.cap = none →
    ∃ (rs : List (Word × Byte)) (c : Byte),
      exec .rlEnc s = .next { (s.consumed s.remaining.length).wrote (recordBytes rs) with
        rl := ⟨c, 0⟩, resp := answerNone }
      ∧ recordExpansion rs = s.remaining ∧ (∀ r ∈ rs, r.1 ≠ 0)
      ∧ rs.IsChain fun a b => a.2 ≠ b.2 ∨ a.1.toNat = 2 ^ 32 - 1

/-- R257(b), (d), R320 laws 1 and 8: the run-length round trip, with no premise, and the truncation law: a stream cut inside a
record decodes to `TRUNCATION`, a stream cut between records with status 0, and the sink holds a beginning of the input. -/
def Obligations.RunLengthRoundTrip : Prop :=
  ∀ xs : List Byte, ∃ t, exec .rlEnc (State.attach xs none) = .next t ∧ t.status = 0
    ∧ (∃ u, exec .rlDec (State.attach t.snk.data none) = .next u ∧ u.status = 0 ∧ u.snk.data = xs)
    ∧ ∀ k, k < t.snk.data.length →
        ∃ u, exec .rlDec (State.attach (t.snk.data.take k) none) = .next u
          ∧ u.status = (if (t.snk.data.length - k) % 5 = 0 then 0 else 1) ∧ u.snk.data <+: xs
end

