-- ==== Sys2Proof/Laws/State.lean ====
section
/-! SUPPORT. One lemma per field for every named update of the state, so that no proof unfolds a record update. -/

namespace Sys2Proof.Machine

open Sys2Proof

@[simp] theorem State.setBw_status (s : State) (v : BW) : (s.setBw v).status = s.status := rfl
@[simp] theorem State.setBw_bw (s : State) (v : BW) : (s.setBw v).bw = v := rfl
@[simp] theorem State.setBw_br (s : State) (v : BW) : (s.setBw v).br = s.br := rfl
@[simp] theorem State.setBw_fm (s : State) (v : BW) : (s.setBw v).fm = s.fm := rfl
@[simp] theorem State.setBw_hf (s : State) (v : BW) : (s.setBw v).hf = s.hf := rfl
@[simp] theorem State.setBw_ac (s : State) (v : BW) : (s.setBw v).ac = s.ac := rfl
@[simp] theorem State.setBw_rc (s : State) (v : BW) : (s.setBw v).rc = s.rc := rfl
@[simp] theorem State.setBw_rl (s : State) (v : BW) : (s.setBw v).rl = s.rl := rfl
@[simp] theorem State.setBw_src (s : State) (v : BW) : (s.setBw v).src = s.src := rfl
@[simp] theorem State.setBw_snk (s : State) (v : BW) : (s.setBw v).snk = s.snk := rfl
@[simp] theorem State.setBw_cmd (s : State) (v : BW) : (s.setBw v).cmd = s.cmd := rfl
@[simp] theorem State.setBw_resp (s : State) (v : BW) : (s.setBw v).resp = s.resp := rfl

@[simp] theorem State.setBr_status (s : State) (v : BR) : (s.setBr v).status = s.status := rfl
@[simp] theorem State.setBr_bw (s : State) (v : BR) : (s.setBr v).bw = s.bw := rfl
@[simp] theorem State.setBr_br (s : State) (v : BR) : (s.setBr v).br = v := rfl
@[simp] theorem State.setBr_fm (s : State) (v : BR) : (s.setBr v).fm = s.fm := rfl
@[simp] theorem State.setBr_hf (s : State) (v : BR) : (s.setBr v).hf = s.hf := rfl
@[simp] theorem State.setBr_ac (s : State) (v : BR) : (s.setBr v).ac = s.ac := rfl
@[simp] theorem State.setBr_rc (s : State) (v : BR) : (s.setBr v).rc = s.rc := rfl
@[simp] theorem State.setBr_rl (s : State) (v : BR) : (s.setBr v).rl = s.rl := rfl
@[simp] theorem State.setBr_src (s : State) (v : BR) : (s.setBr v).src = s.src := rfl
@[simp] theorem State.setBr_snk (s : State) (v : BR) : (s.setBr v).snk = s.snk := rfl
@[simp] theorem State.setBr_cmd (s : State) (v : BR) : (s.setBr v).cmd = s.cmd := rfl
@[simp] theorem State.setBr_resp (s : State) (v : BR) : (s.setBr v).resp = s.resp := rfl

@[simp] theorem State.setFm_status (s : State) (v : FM) : (s.setFm v).status = s.status := rfl
@[simp] theorem State.setFm_bw (s : State) (v : FM) : (s.setFm v).bw = s.bw := rfl
@[simp] theorem State.setFm_br (s : State) (v : FM) : (s.setFm v).br = s.br := rfl
@[simp] theorem State.setFm_fm (s : State) (v : FM) : (s.setFm v).fm = v := rfl
@[simp] theorem State.setFm_hf (s : State) (v : FM) : (s.setFm v).hf = s.hf := rfl
@[simp] theorem State.setFm_ac (s : State) (v : FM) : (s.setFm v).ac = s.ac := rfl
@[simp] theorem State.setFm_rc (s : State) (v : FM) : (s.setFm v).rc = s.rc := rfl
@[simp] theorem State.setFm_rl (s : State) (v : FM) : (s.setFm v).rl = s.rl := rfl
@[simp] theorem State.setFm_src (s : State) (v : FM) : (s.setFm v).src = s.src := rfl
@[simp] theorem State.setFm_snk (s : State) (v : FM) : (s.setFm v).snk = s.snk := rfl
@[simp] theorem State.setFm_cmd (s : State) (v : FM) : (s.setFm v).cmd = s.cmd := rfl
@[simp] theorem State.setFm_resp (s : State) (v : FM) : (s.setFm v).resp = s.resp := rfl

@[simp] theorem State.setHf_status (s : State) (v : HF) : (s.setHf v).status = s.status := rfl
@[simp] theorem State.setHf_bw (s : State) (v : HF) : (s.setHf v).bw = s.bw := rfl
@[simp] theorem State.setHf_br (s : State) (v : HF) : (s.setHf v).br = s.br := rfl
@[simp] theorem State.setHf_fm (s : State) (v : HF) : (s.setHf v).fm = s.fm := rfl
@[simp] theorem State.setHf_hf (s : State) (v : HF) : (s.setHf v).hf = v := rfl
@[simp] theorem State.setHf_ac (s : State) (v : HF) : (s.setHf v).ac = s.ac := rfl
@[simp] theorem State.setHf_rc (s : State) (v : HF) : (s.setHf v).rc = s.rc := rfl
@[simp] theorem State.setHf_rl (s : State) (v : HF) : (s.setHf v).rl = s.rl := rfl
@[simp] theorem State.setHf_src (s : State) (v : HF) : (s.setHf v).src = s.src := rfl
@[simp] theorem State.setHf_snk (s : State) (v : HF) : (s.setHf v).snk = s.snk := rfl
@[simp] theorem State.setHf_cmd (s : State) (v : HF) : (s.setHf v).cmd = s.cmd := rfl
@[simp] theorem State.setHf_resp (s : State) (v : HF) : (s.setHf v).resp = s.resp := rfl

@[simp] theorem State.setAc_status (s : State) (v : AC) : (s.setAc v).status = s.status := rfl
@[simp] theorem State.setAc_bw (s : State) (v : AC) : (s.setAc v).bw = s.bw := rfl
@[simp] theorem State.setAc_br (s : State) (v : AC) : (s.setAc v).br = s.br := rfl
@[simp] theorem State.setAc_fm (s : State) (v : AC) : (s.setAc v).fm = s.fm := rfl
@[simp] theorem State.setAc_hf (s : State) (v : AC) : (s.setAc v).hf = s.hf := rfl
@[simp] theorem State.setAc_ac (s : State) (v : AC) : (s.setAc v).ac = v := rfl
@[simp] theorem State.setAc_rc (s : State) (v : AC) : (s.setAc v).rc = s.rc := rfl
@[simp] theorem State.setAc_rl (s : State) (v : AC) : (s.setAc v).rl = s.rl := rfl
@[simp] theorem State.setAc_src (s : State) (v : AC) : (s.setAc v).src = s.src := rfl
@[simp] theorem State.setAc_snk (s : State) (v : AC) : (s.setAc v).snk = s.snk := rfl
@[simp] theorem State.setAc_cmd (s : State) (v : AC) : (s.setAc v).cmd = s.cmd := rfl
@[simp] theorem State.setAc_resp (s : State) (v : AC) : (s.setAc v).resp = s.resp := rfl

@[simp] theorem State.setRc_status (s : State) (v : RC) : (s.setRc v).status = s.status := rfl
@[simp] theorem State.setRc_bw (s : State) (v : RC) : (s.setRc v).bw = s.bw := rfl
@[simp] theorem State.setRc_br (s : State) (v : RC) : (s.setRc v).br = s.br := rfl
@[simp] theorem State.setRc_fm (s : State) (v : RC) : (s.setRc v).fm = s.fm := rfl
@[simp] theorem State.setRc_hf (s : State) (v : RC) : (s.setRc v).hf = s.hf := rfl
@[simp] theorem State.setRc_ac (s : State) (v : RC) : (s.setRc v).ac = s.ac := rfl
@[simp] theorem State.setRc_rc (s : State) (v : RC) : (s.setRc v).rc = v := rfl
@[simp] theorem State.setRc_rl (s : State) (v : RC) : (s.setRc v).rl = s.rl := rfl
@[simp] theorem State.setRc_src (s : State) (v : RC) : (s.setRc v).src = s.src := rfl
@[simp] theorem State.setRc_snk (s : State) (v : RC) : (s.setRc v).snk = s.snk := rfl
@[simp] theorem State.setRc_cmd (s : State) (v : RC) : (s.setRc v).cmd = s.cmd := rfl
@[simp] theorem State.setRc_resp (s : State) (v : RC) : (s.setRc v).resp = s.resp := rfl

@[simp] theorem State.setRl_status (s : State) (v : RL) : (s.setRl v).status = s.status := rfl
@[simp] theorem State.setRl_bw (s : State) (v : RL) : (s.setRl v).bw = s.bw := rfl
@[simp] theorem State.setRl_br (s : State) (v : RL) : (s.setRl v).br = s.br := rfl
@[simp] theorem State.setRl_fm (s : State) (v : RL) : (s.setRl v).fm = s.fm := rfl
@[simp] theorem State.setRl_hf (s : State) (v : RL) : (s.setRl v).hf = s.hf := rfl
@[simp] theorem State.setRl_ac (s : State) (v : RL) : (s.setRl v).ac = s.ac := rfl
@[simp] theorem State.setRl_rc (s : State) (v : RL) : (s.setRl v).rc = s.rc := rfl
@[simp] theorem State.setRl_rl (s : State) (v : RL) : (s.setRl v).rl = v := rfl
@[simp] theorem State.setRl_src (s : State) (v : RL) : (s.setRl v).src = s.src := rfl
@[simp] theorem State.setRl_snk (s : State) (v : RL) : (s.setRl v).snk = s.snk := rfl
@[simp] theorem State.setRl_cmd (s : State) (v : RL) : (s.setRl v).cmd = s.cmd := rfl
@[simp] theorem State.setRl_resp (s : State) (v : RL) : (s.setRl v).resp = s.resp := rfl

@[simp] theorem State.setSrc_status (s : State) (v : Src) : (s.setSrc v).status = s.status := rfl
@[simp] theorem State.setSrc_bw (s : State) (v : Src) : (s.setSrc v).bw = s.bw := rfl
@[simp] theorem State.setSrc_br (s : State) (v : Src) : (s.setSrc v).br = s.br := rfl
@[simp] theorem State.setSrc_fm (s : State) (v : Src) : (s.setSrc v).fm = s.fm := rfl
@[simp] theorem State.setSrc_hf (s : State) (v : Src) : (s.setSrc v).hf = s.hf := rfl
@[simp] theorem State.setSrc_ac (s : State) (v : Src) : (s.setSrc v).ac = s.ac := rfl
@[simp] theorem State.setSrc_rc (s : State) (v : Src) : (s.setSrc v).rc = s.rc := rfl
@[simp] theorem State.setSrc_rl (s : State) (v : Src) : (s.setSrc v).rl = s.rl := rfl
@[simp] theorem State.setSrc_src (s : State) (v : Src) : (s.setSrc v).src = v := rfl
@[simp] theorem State.setSrc_snk (s : State) (v : Src) : (s.setSrc v).snk = s.snk := rfl
@[simp] theorem State.setSrc_cmd (s : State) (v : Src) : (s.setSrc v).cmd = s.cmd := rfl
@[simp] theorem State.setSrc_resp (s : State) (v : Src) : (s.setSrc v).resp = s.resp := rfl

@[simp] theorem State.setSnk_status (s : State) (v : Snk) : (s.setSnk v).status = s.status := rfl
@[simp] theorem State.setSnk_bw (s : State) (v : Snk) : (s.setSnk v).bw = s.bw := rfl
@[simp] theorem State.setSnk_br (s : State) (v : Snk) : (s.setSnk v).br = s.br := rfl
@[simp] theorem State.setSnk_fm (s : State) (v : Snk) : (s.setSnk v).fm = s.fm := rfl
@[simp] theorem State.setSnk_hf (s : State) (v : Snk) : (s.setSnk v).hf = s.hf := rfl
@[simp] theorem State.setSnk_ac (s : State) (v : Snk) : (s.setSnk v).ac = s.ac := rfl
@[simp] theorem State.setSnk_rc (s : State) (v : Snk) : (s.setSnk v).rc = s.rc := rfl
@[simp] theorem State.setSnk_rl (s : State) (v : Snk) : (s.setSnk v).rl = s.rl := rfl
@[simp] theorem State.setSnk_src (s : State) (v : Snk) : (s.setSnk v).src = s.src := rfl
@[simp] theorem State.setSnk_snk (s : State) (v : Snk) : (s.setSnk v).snk = v := rfl
@[simp] theorem State.setSnk_cmd (s : State) (v : Snk) : (s.setSnk v).cmd = s.cmd := rfl
@[simp] theorem State.setSnk_resp (s : State) (v : Snk) : (s.setSnk v).resp = s.resp := rfl

@[simp] theorem State.setCmd_status (s : State) (v : List Byte) : (s.setCmd v).status = s.status := rfl
@[simp] theorem State.setCmd_bw (s : State) (v : List Byte) : (s.setCmd v).bw = s.bw := rfl
@[simp] theorem State.setCmd_br (s : State) (v : List Byte) : (s.setCmd v).br = s.br := rfl
@[simp] theorem State.setCmd_fm (s : State) (v : List Byte) : (s.setCmd v).fm = s.fm := rfl
@[simp] theorem State.setCmd_hf (s : State) (v : List Byte) : (s.setCmd v).hf = s.hf := rfl
@[simp] theorem State.setCmd_ac (s : State) (v : List Byte) : (s.setCmd v).ac = s.ac := rfl
@[simp] theorem State.setCmd_rc (s : State) (v : List Byte) : (s.setCmd v).rc = s.rc := rfl
@[simp] theorem State.setCmd_rl (s : State) (v : List Byte) : (s.setCmd v).rl = s.rl := rfl
@[simp] theorem State.setCmd_src (s : State) (v : List Byte) : (s.setCmd v).src = s.src := rfl
@[simp] theorem State.setCmd_snk (s : State) (v : List Byte) : (s.setCmd v).snk = s.snk := rfl
@[simp] theorem State.setCmd_cmd (s : State) (v : List Byte) : (s.setCmd v).cmd = v := rfl
@[simp] theorem State.setCmd_resp (s : State) (v : List Byte) : (s.setCmd v).resp = s.resp := rfl

@[simp] theorem State.answer_status (s : State) (r : Reply) : (s.answer r).status = s.status := rfl
@[simp] theorem State.answer_bw (s : State) (r : Reply) : (s.answer r).bw = s.bw := rfl
@[simp] theorem State.answer_br (s : State) (r : Reply) : (s.answer r).br = s.br := rfl
@[simp] theorem State.answer_fm (s : State) (r : Reply) : (s.answer r).fm = s.fm := rfl
@[simp] theorem State.answer_hf (s : State) (r : Reply) : (s.answer r).hf = s.hf := rfl
@[simp] theorem State.answer_ac (s : State) (r : Reply) : (s.answer r).ac = s.ac := rfl
@[simp] theorem State.answer_rc (s : State) (r : Reply) : (s.answer r).rc = s.rc := rfl
@[simp] theorem State.answer_rl (s : State) (r : Reply) : (s.answer r).rl = s.rl := rfl
@[simp] theorem State.answer_src (s : State) (r : Reply) : (s.answer r).src = s.src := rfl
@[simp] theorem State.answer_snk (s : State) (r : Reply) : (s.answer r).snk = s.snk := rfl
@[simp] theorem State.answer_cmd (s : State) (r : Reply) : (s.answer r).cmd = s.cmd := rfl
@[simp] theorem State.answer_resp (s : State) (r : Reply) : (s.answer r).resp = some ⟨s.status, r.tag, r.value⟩ := rfl

@[simp] theorem State.takeError_status (s : State) (k : ErrorKind) : (s.takeError k).status = k.code := rfl
@[simp] theorem State.takeError_bw (s : State) (k : ErrorKind) : (s.takeError k).bw = s.bw := rfl
@[simp] theorem State.takeError_br (s : State) (k : ErrorKind) : (s.takeError k).br = s.br := rfl
@[simp] theorem State.takeError_fm (s : State) (k : ErrorKind) : (s.takeError k).fm = s.fm := rfl
@[simp] theorem State.takeError_hf (s : State) (k : ErrorKind) : (s.takeError k).hf = s.hf := rfl
@[simp] theorem State.takeError_ac (s : State) (k : ErrorKind) : (s.takeError k).ac = s.ac := rfl
@[simp] theorem State.takeError_rc (s : State) (k : ErrorKind) : (s.takeError k).rc = s.rc := rfl
@[simp] theorem State.takeError_rl (s : State) (k : ErrorKind) : (s.takeError k).rl = s.rl := rfl
@[simp] theorem State.takeError_src (s : State) (k : ErrorKind) : (s.takeError k).src = s.src := rfl
@[simp] theorem State.takeError_snk (s : State) (k : ErrorKind) : (s.takeError k).snk = s.snk := rfl
@[simp] theorem State.takeError_cmd (s : State) (k : ErrorKind) : (s.takeError k).cmd = s.cmd := rfl
@[simp] theorem State.takeError_resp (s : State) (k : ErrorKind) :
    (s.takeError k).resp = some ⟨k.code, .none, 0⟩ := rfl

@[simp] theorem State.failed_status (s : State) (c : StatusCode) : (s.failed c).status = c := rfl
@[simp] theorem State.failed_bw (s : State) (c : StatusCode) : (s.failed c).bw = s.bw := rfl
@[simp] theorem State.failed_br (s : State) (c : StatusCode) : (s.failed c).br = s.br := rfl
@[simp] theorem State.failed_fm (s : State) (c : StatusCode) : (s.failed c).fm = s.fm := rfl
@[simp] theorem State.failed_hf (s : State) (c : StatusCode) : (s.failed c).hf = s.hf := rfl
@[simp] theorem State.failed_ac (s : State) (c : StatusCode) : (s.failed c).ac = s.ac := rfl
@[simp] theorem State.failed_rc (s : State) (c : StatusCode) : (s.failed c).rc = s.rc := rfl
@[simp] theorem State.failed_rl (s : State) (c : StatusCode) : (s.failed c).rl = s.rl := rfl
@[simp] theorem State.failed_src (s : State) (c : StatusCode) : (s.failed c).src = s.src := rfl
@[simp] theorem State.failed_snk (s : State) (c : StatusCode) : (s.failed c).snk = s.snk := rfl
@[simp] theorem State.failed_cmd (s : State) (c : StatusCode) : (s.failed c).cmd = s.cmd := rfl
@[simp] theorem State.failed_resp (s : State) (c : StatusCode) : (s.failed c).resp = answerError c := rfl

@[simp] theorem State.wrote_status (s : State) (bs : List Byte) : (s.wrote bs).status = s.status := rfl
@[simp] theorem State.wrote_bw (s : State) (bs : List Byte) : (s.wrote bs).bw = s.bw := rfl
@[simp] theorem State.wrote_br (s : State) (bs : List Byte) : (s.wrote bs).br = s.br := rfl
@[simp] theorem State.wrote_fm (s : State) (bs : List Byte) : (s.wrote bs).fm = s.fm := rfl
@[simp] theorem State.wrote_hf (s : State) (bs : List Byte) : (s.wrote bs).hf = s.hf := rfl
@[simp] theorem State.wrote_ac (s : State) (bs : List Byte) : (s.wrote bs).ac = s.ac := rfl
@[simp] theorem State.wrote_rc (s : State) (bs : List Byte) : (s.wrote bs).rc = s.rc := rfl
@[simp] theorem State.wrote_rl (s : State) (bs : List Byte) : (s.wrote bs).rl = s.rl := rfl
@[simp] theorem State.wrote_src (s : State) (bs : List Byte) : (s.wrote bs).src = s.src := rfl
@[simp] theorem State.wrote_snk (s : State) (bs : List Byte) :
    (s.wrote bs).snk = { s.snk with data := s.snk.data ++ bs } := rfl
@[simp] theorem State.wrote_cmd (s : State) (bs : List Byte) : (s.wrote bs).cmd = s.cmd := rfl
@[simp] theorem State.wrote_resp (s : State) (bs : List Byte) : (s.wrote bs).resp = s.resp := rfl

@[simp] theorem State.consumed_status (s : State) (n : Nat) : (s.consumed n).status = s.status := rfl
@[simp] theorem State.consumed_bw (s : State) (n : Nat) : (s.consumed n).bw = s.bw := rfl
@[simp] theorem State.consumed_br (s : State) (n : Nat) : (s.consumed n).br = s.br := rfl
@[simp] theorem State.consumed_fm (s : State) (n : Nat) : (s.consumed n).fm = s.fm := rfl
@[simp] theorem State.consumed_hf (s : State) (n : Nat) : (s.consumed n).hf = s.hf := rfl
@[simp] theorem State.consumed_ac (s : State) (n : Nat) : (s.consumed n).ac = s.ac := rfl
@[simp] theorem State.consumed_rc (s : State) (n : Nat) : (s.consumed n).rc = s.rc := rfl
@[simp] theorem State.consumed_rl (s : State) (n : Nat) : (s.consumed n).rl = s.rl := rfl
@[simp] theorem State.consumed_src (s : State) (n : Nat) :
    (s.consumed n).src = { s.src with pos := s.src.pos + n } := rfl
@[simp] theorem State.consumed_snk (s : State) (n : Nat) : (s.consumed n).snk = s.snk := rfl
@[simp] theorem State.consumed_cmd (s : State) (n : Nat) : (s.consumed n).cmd = s.cmd := rfl
@[simp] theorem State.consumed_resp (s : State) (n : Nat) : (s.consumed n).resp = s.resp := rfl

@[simp] theorem State.resetBlock_status (s : State) : s.resetBlock.status = 0 := rfl
@[simp] theorem State.resetBlock_bw (s : State) : s.resetBlock.bw = .reset := rfl
@[simp] theorem State.resetBlock_br (s : State) : s.resetBlock.br = .reset := rfl
@[simp] theorem State.resetBlock_fm (s : State) : s.resetBlock.fm = .reset := rfl
@[simp] theorem State.resetBlock_hf (s : State) : s.resetBlock.hf = .reset := rfl
@[simp] theorem State.resetBlock_ac (s : State) : s.resetBlock.ac = .reset := rfl
@[simp] theorem State.resetBlock_rc (s : State) : s.resetBlock.rc = .reset := rfl
@[simp] theorem State.resetBlock_rl (s : State) : s.resetBlock.rl = .reset := rfl
@[simp] theorem State.resetBlock_src (s : State) : s.resetBlock.src = s.src := rfl
@[simp] theorem State.resetBlock_snk (s : State) : s.resetBlock.snk = s.snk := rfl
@[simp] theorem State.resetBlock_cmd (s : State) : s.resetBlock.cmd = s.cmd := rfl
@[simp] theorem State.resetBlock_resp (s : State) : s.resetBlock.resp = s.resp := rfl

/-! The state right after an instance is made (R301). -/

@[simp] theorem State.attach_status (d : List Byte) (c : Option Nat) : (State.attach d c).status = 0 := rfl
@[simp] theorem State.attach_bw (d : List Byte) (c : Option Nat) : (State.attach d c).bw = .reset := rfl
@[simp] theorem State.attach_br (d : List Byte) (c : Option Nat) : (State.attach d c).br = .reset := rfl
@[simp] theorem State.attach_fm (d : List Byte) (c : Option Nat) : (State.attach d c).fm = .reset := rfl
@[simp] theorem State.attach_hf (d : List Byte) (c : Option Nat) : (State.attach d c).hf = .reset := rfl
@[simp] theorem State.attach_ac (d : List Byte) (c : Option Nat) : (State.attach d c).ac = .reset := rfl
@[simp] theorem State.attach_rc (d : List Byte) (c : Option Nat) : (State.attach d c).rc = .reset := rfl
@[simp] theorem State.attach_rl (d : List Byte) (c : Option Nat) : (State.attach d c).rl = .reset := rfl
@[simp] theorem State.attach_src (d : List Byte) (c : Option Nat) : (State.attach d c).src = ⟨d, 0⟩ := rfl
@[simp] theorem State.attach_snk (d : List Byte) (c : Option Nat) : (State.attach d c).snk = ⟨[], c⟩ := rfl
@[simp] theorem State.attach_cmd (d : List Byte) (c : Option Nat) : (State.attach d c).cmd = [] := rfl
@[simp] theorem State.attach_resp (d : List Byte) (c : Option Nat) : (State.attach d c).resp = none := rfl

/-! Reading past an update of the streams. -/

@[simp] theorem State.consumed_zero (s : State) : s.consumed 0 = s := rfl
@[simp] theorem State.wrote_nil (s : State) : s.wrote [] = s := by simp [State.wrote]
theorem State.consumed_consumed (s : State) (m n : Nat) : (s.consumed m).consumed n = s.consumed (m + n) := by
  simp [State.consumed, Nat.add_assoc]
theorem State.wrote_wrote (s : State) (a b : List Byte) : (s.wrote a).wrote b = s.wrote (a ++ b) := by
  simp [State.wrote]
theorem State.remaining_consumed (s : State) (n : Nat) : (s.consumed n).remaining = s.remaining.drop n := by
  simp [State.remaining, List.drop_drop]
@[simp] theorem State.remaining_wrote (s : State) (bs : List Byte) : (s.wrote bs).remaining = s.remaining := rfl
@[simp] theorem State.remaining_failed (s : State) (c : StatusCode) : (s.failed c).remaining = s.remaining := rfl

end Sys2Proof.Machine
end

