-- ==== Sys2Proof/Laws/Ops.lean ====
section
/-! SUPPORT. How an operation's pseudocode runs (sequencing, the three ways a command ends), and one lemma for each shared
operation of Machine/Ops.lean that says once everything it can do. -/

namespace Sys2Proof.Machine

open Sys2Proof

/-! ## Sequencing -/

@[simp] theorem Op.pure_run {α : Type} (a : α) (s : State) : (pure a : Op α) s = .ok a s := rfl

theorem Op.bind_run {α β : Type} (x : Op α) (f : α → Op β) (s : State) :
    (x >>= f) s = match x s with
      | .ok a t => f a t
      | .error e t => .error e t := by
  change EStateM.bind x f s = _
  unfold EStateM.bind
  cases x s <;> rfl

theorem Op.bind_of_ok {α β : Type} {x : Op α} {f : α → Op β} {s t : State} {a : α} (h : x s = .ok a t) :
    (x >>= f) s = f a t := by simp [Op.bind_run, h]

theorem Op.bind_of_error {α β : Type} {x : Op α} {f : α → Op β} {s t : State} {e : Stop} (h : x s = .error e t) :
    (x >>= f) s = .error e t := by simp [Op.bind_run, h]

theorem Op.bind_eq_ok {α β : Type} {x : Op α} {f : α → Op β} {s t : State} {b : β} :
    (x >>= f) s = .ok b t ↔ ∃ a u, x s = .ok a u ∧ f a u = .ok b t := by
  rw [Op.bind_run]; cases x s <;> simp

theorem Op.bind_eq_error {α β : Type} {x : Op α} {f : α → Op β} {s t : State} {e : Stop} :
    (x >>= f) s = .error e t ↔ x s = .error e t ∨ ∃ a u, x s = .ok a u ∧ f a u = .error e t := by
  rw [Op.bind_run]; cases x s <;> simp

@[simp] theorem raise_run {α : Type} (k : ErrorKind) (s : State) : (raise k : Op α) s = .error (.raise k) s := rfl
@[simp] theorem stuck_run {α : Type} (s : State) : (stuck : Op α) s = .error .loopBound s := rfl
@[simp] theorem reading_run {α : Type} (f : State → Op α) (s : State) : reading f s = f s s := rfl
@[simp] theorem modFm_run (f : FM → FM) (s : State) : modFm f s = .ok () (s.setFm (f s.fm)) := rfl
@[simp] theorem modHf_run (f : HF → HF) (s : State) : modHf f s = .ok () (s.setHf (f s.hf)) := rfl
@[simp] theorem modAc_run (f : AC → AC) (s : State) : modAc f s = .ok () (s.setAc (f s.ac)) := rfl
@[simp] theorem modRc_run (f : RC → RC) (s : State) : modRc f s = .ok () (s.setRc (f s.rc)) := rfl

theorem noValue_run (op : Op Unit) (s : State) :
    noValue op s = match op s with
      | .ok _ t => .ok .none t
      | .error e t => .error e t := by
  rw [noValue, Op.bind_run]
  cases op s <;> rfl

/-! ## What every run of an operation keeps -/

/-- However the operation ends, the state it ends in is related to the one it began in. -/
def Op.Keeps {α : Type} (R : State → State → Prop) (op : Op α) : Prop :=
  ∀ s, match op s with
    | .ok _ t => R s t
    | .error _ t => R s t

theorem Op.Keeps.bind {α β : Type} {R : State → State → Prop} (tr : ∀ a b c, R a b → R b c → R a c)
    {x : Op α} {f : α → Op β} (hx : Op.Keeps R x) (hf : ∀ a, Op.Keeps R (f a)) : Op.Keeps R (x >>= f) := by
  intro s
  have h := hx s
  rw [Op.bind_run]
  cases e : x s with
  | ok a t =>
    rw [e] at h
    have h2 := hf a t
    dsimp only at h ⊢
    cases e2 : f a t with
    | ok b u => rw [e2] at h2; exact tr _ _ _ h h2
    | error b u => rw [e2] at h2; exact tr _ _ _ h h2
  | error e' t => rw [e] at h; exact h

theorem Op.Keeps.pure {α : Type} {R : State → State → Prop} (rf : ∀ a, R a a) (a : α) :
    Op.Keeps R (Pure.pure a : Op α) := fun s => rf s

theorem Op.Keeps.raise {α : Type} {R : State → State → Prop} (rf : ∀ a, R a a) (k : ErrorKind) :
    Op.Keeps R (Machine.raise k : Op α) := fun s => rf s

theorem Op.Keeps.stuck {α : Type} {R : State → State → Prop} (rf : ∀ a, R a a) :
    Op.Keeps R (Machine.stuck : Op α) := fun s => rf s

theorem Op.Keeps.reading {α : Type} {R : State → State → Prop} {f : State → Op α} (h : ∀ s, Op.Keeps R (f s)) :
    Op.Keeps R (Machine.reading f) := fun s => h s s

theorem Op.Keeps.noValue {R : State → State → Prop} (rf : ∀ a, R a a) (tr : ∀ a b c, R a b → R b c → R a c)
    {op : Op Unit} (h : Op.Keeps R op) : Op.Keeps R (Machine.noValue op) :=
  Op.Keeps.bind tr h fun _ => Op.Keeps.pure rf _

theorem Op.Keeps.repeatOp {R : State → State → Prop} (rf : ∀ a, R a a) (tr : ∀ a b c, R a b → R b c → R a c)
    {op : Op Unit} (h : Op.Keeps R op) : ∀ n, Op.Keeps R (Machine.repeatOp op n)
  | 0 => Op.Keeps.pure rf _
  | n + 1 => Op.Keeps.bind tr h fun _ => Op.Keeps.repeatOp rf tr h n

theorem Op.Keeps.forEachByte {R : State → State → Prop} (rf : ∀ a, R a a) (tr : ∀ a b c, R a b → R b c → R a c)
    (hr : Op.Keeps R srcRead) {f : Byte → Op Unit} (h : ∀ b, Op.Keeps R (f b)) :
    ∀ n, Op.Keeps R (Machine.forEachByte f n)
  | 0 => Op.Keeps.stuck rf
  | n + 1 => by
    refine Op.Keeps.bind tr hr fun x => ?_
    cases x with
    | none => exact Op.Keeps.pure rf _
    | some b => exact Op.Keeps.bind tr (h b) fun _ => Op.Keeps.forEachByte rf tr hr h n

theorem Op.Keeps.forSource {R : State → State → Prop} (rf : ∀ a, R a a) (tr : ∀ a b c, R a b → R b c → R a c)
    (hr : Op.Keeps R srcRead) {f : Byte → Op Unit} (h : ∀ b, Op.Keeps R (f b)) : Op.Keeps R (Machine.forSource f) :=
  Op.Keeps.reading fun _ => Op.Keeps.forEachByte rf tr hr h _

theorem Op.Keeps.decodeLoop {R : State → State → Prop} (rf : ∀ a, R a a) (tr : ∀ a b c, R a b → R b c → R a c)
    (hw : ∀ b, Op.Keeps R (snkWrite b)) {d : Op Symbol} (h : Op.Keeps R d) :
    ∀ n, Op.Keeps R (Machine.decodeLoop d n)
  | 0 => Op.Keeps.stuck rf
  | n + 1 => by
    refine Op.Keeps.bind tr h fun x => ?_
    split
    · exact Op.Keeps.pure rf _
    · exact Op.Keeps.bind tr (hw _) fun _ => Op.Keeps.decodeLoop rf tr hw h n

/-! ## Commands (R280, R281) -/

theorem runCommand_refused {op : Op Reply} {s : State} (h : s.status ≠ 0) :
    runCommand op s = .next (s.answer .none) := by
  rw [runCommand, if_pos (by simpa [State.refusing] using h)]

theorem runCommand_ok {op : Op Reply} {s t : State} {r : Reply} (h : s.status = 0) (e : op s = .ok r t) :
    runCommand op s = .next (t.answer r) := by simp [runCommand, State.refusing, h, e]

theorem runCommand_raise {op : Op Reply} {s t : State} {k : ErrorKind} (h : s.status = 0)
    (e : op s = .error (.raise k) t) : runCommand op s = .next (t.takeError k) := by
  simp [runCommand, State.refusing, h, e]

/-- The only outcome of a command that is no next state. -/
theorem runCommand_stuck {op : Op Reply} {s t : State} (h : s.status = 0) (e : op s = .error .loopBound t) :
    runCommand op s = .fault .loopBound := by simp [runCommand, State.refusing, h, e]

/-- Everything a command can do. -/
theorem runCommand_next_iff {op : Op Reply} {s t : State} :
    runCommand op s = .next t ↔
      (s.status ≠ 0 ∧ t = s.answer .none)
        ∨ (s.status = 0 ∧ ∃ r u, op s = .ok r u ∧ t = u.answer r)
        ∨ (s.status = 0 ∧ ∃ k u, op s = .error (.raise k) u ∧ t = u.takeError k) := by
  by_cases h : s.status = 0
  · cases e : op s with
    | ok r u =>
      rw [runCommand_ok h e]
      constructor
      · intro x; injection x with x; exact .inr (.inl ⟨h, r, u, rfl, x.symm⟩)
      · rintro (⟨x, _⟩ | ⟨_, r', u', x, rfl⟩ | ⟨_, k, u', x, _⟩)
        · exact absurd h x
        · injection x with x y; rw [x, y]
        · cases x
    | error x u =>
      cases x with
      | raise k =>
        rw [runCommand_raise h e]
        constructor
        · intro x; injection x with x; exact .inr (.inr ⟨h, k, u, rfl, x.symm⟩)
        · rintro (⟨x, _⟩ | ⟨_, r', u', x, _⟩ | ⟨_, k', u', x, rfl⟩)
          · exact absurd h x
          · cases x
          · injection x with x y; injection x with x; rw [x, y]
      | loopBound =>
        rw [runCommand_stuck h e]
        constructor
        · intro x; cases x
        · rintro (⟨x, _⟩ | ⟨_, r', u', x, _⟩ | ⟨_, k', u', x, _⟩)
          · exact absurd h x
          · cases x
          · cases x
  · rw [runCommand_refused h]
    constructor
    · intro x; injection x with x; exact .inl ⟨h, x.symm⟩
    · rintro (⟨_, rfl⟩ | ⟨x, _⟩ | ⟨x, _⟩)
      · rfl
      · exact absurd x h
      · exact absurd x h

theorem State.answer_none_of_ok {s : State} (h : s.status = 0) : s.answer .none = { s with resp := answerNone } := by
  simp [State.answer, h, answerNone, Reply.tag, Reply.value]

theorem State.answer_val_of_ok {s : State} (h : s.status = 0) (v : Word) :
    s.answer (.val v) = { s with resp := answerVal v } := by
  simp [State.answer, h, answerVal, Reply.tag, Reply.value]

theorem State.answer_ceof_of_ok {s : State} (h : s.status = 0) : s.answer .ceof = { s with resp := answerCeof } := by
  simp [State.answer, h, answerCeof, Reply.tag, Reply.value]

theorem State.takeError_eq (s : State) (k : ErrorKind) : s.takeError k = s.failed k.code := rfl

/-! ## The source (R61, R63) -/

/-- `SrcRead` is decided by what the source still holds. -/
theorem srcRead_run (s : State) :
    srcRead s = match s.remaining with
      | [] => .ok none s
      | b :: _ => .ok (some b) (s.consumed 1) := by
  unfold srcRead State.remaining
  cases h : s.src.data[s.src.pos]? with
  | none =>
    rw [List.getElem?_eq_none_iff] at h
    rw [List.drop_eq_nil_of_le h]
  | some b =>
    obtain ⟨hl, hb⟩ := List.getElem?_eq_some_iff.mp h
    rw [List.drop_eq_getElem_cons hl, hb]
    rfl

theorem srcRead_of_nil {s : State} (h : s.remaining = []) : srcRead s = .ok none s := by rw [srcRead_run, h]

theorem srcRead_of_cons {s : State} {b : Byte} {l : List Byte} (h : s.remaining = b :: l) :
    srcRead s = .ok (some b) (s.consumed 1) := by rw [srcRead_run, h]

theorem State.remaining_of_cons {s : State} {b : Byte} {l : List Byte} (h : s.remaining = b :: l) :
    (s.consumed 1).remaining = l := by rw [State.remaining_consumed, h]; rfl

theorem srcLeft_eq (s : State) : srcLeft s = s.remaining.length := by simp [srcLeft, State.remaining]

@[simp] theorem srcSeek_run (p : Nat) (s : State) : srcSeek p s = .ok () (s.setSrc { s.src with pos := p }) := rfl
@[simp] theorem srcPos_run (s : State) : srcPos s = .ok s.src.pos s := rfl

/-! ## The sink (R62) -/

theorem snkWrite_of_room {s : State} (b : Byte) (h : s.hasRoom 1 = true) : snkWrite b s = .ok () (s.wrote [b]) := by
  unfold snkWrite snkFull State.hasRoom at *
  cases hc : s.snk.cap with
  | none => simp [State.wrote, State.setSnk, hc]
  | some c =>
    rw [hc] at h
    have : s.snk.data.length ≠ c := by have := of_decide_eq_true h; omega
    simp [State.wrote, State.setSnk, this]

theorem snkWrite_of_full {s : State} (b : Byte) (h : s.snk.cap = some s.snk.data.length) :
    snkWrite b s = .error (.raise .sinkFailure) s := by simp [snkWrite, snkFull, h]

/-- Everything `SnkWrite` can do. -/
theorem snkWrite_run (b : Byte) (s : State) :
    (s.snk.cap = some s.snk.data.length ∧ snkWrite b s = .error (.raise .sinkFailure) s)
      ∨ (s.snk.cap ≠ some s.snk.data.length ∧ snkWrite b s = .ok () (s.wrote [b])) := by
  by_cases h : s.snk.cap = some s.snk.data.length
  · exact .inl ⟨h, snkWrite_of_full b h⟩
  · refine .inr ⟨h, ?_⟩
    unfold snkWrite snkFull
    cases hc : s.snk.cap with
    | none => simp [State.wrote, State.setSnk, hc]
    | some c =>
      have : s.snk.data.length ≠ c := fun e => h (by rw [hc, e])
      simp [State.wrote, State.setSnk, this]

theorem State.hasRoom_wrote {s : State} {n : Nat} {bs : List Byte} (h : s.hasRoom (bs.length + n) = true) :
    (s.wrote bs).hasRoom n = true := by
  unfold State.hasRoom at *
  simp only [State.wrote_snk]
  cases hc : s.snk.cap with
  | none => rfl
  | some c =>
    rw [hc] at h
    have := of_decide_eq_true h
    simp only [List.length_append, decide_eq_true_eq]; omega

theorem State.hasRoom_mono {s : State} {m n : Nat} (h : s.hasRoom n = true) (hm : m ≤ n) : s.hasRoom m = true := by
  unfold State.hasRoom at *
  cases hc : s.snk.cap with
  | none => rfl
  | some c =>
    rw [hc] at h
    have := of_decide_eq_true h
    simp only [decide_eq_true_eq]; omega

theorem State.hasRoom_of_none {s : State} (n : Nat) (h : s.snk.cap = none) : s.hasRoom n = true := by
  simp [State.hasRoom, h]

/-- Enough room: every byte is written. -/
theorem writeBytes_of_room : ∀ (bs : List Byte) (s : State), s.hasRoom bs.length = true →
    writeBytes bs s = .ok () (s.wrote bs)
  | [], s, _ => by simp [writeBytes]
  | b :: bs, s, h => by
    rw [writeBytes, Op.bind_of_ok (snkWrite_of_room b (State.hasRoom_mono h (by simp)))]
    rw [writeBytes_of_room bs _ (State.hasRoom_wrote (by simpa [Nat.add_comm] using h)), State.wrote_wrote]
    rfl

/-- Too little room: the bytes that fit are written, the next one raises `SinkFailure`. -/
theorem writeBytes_of_short : ∀ (bs : List Byte) (m : Nat) (s : State), s.roomOnlyFor m bs.length →
    writeBytes bs s = .error (.raise .sinkFailure) (s.wrote (bs.take m))
  | [], m, s, h => by have := h.2; simp at this
  | b :: bs, 0, s, h => by
    rw [writeBytes, Op.bind_of_error (snkWrite_of_full b (by simpa using h.1))]
    simp
  | b :: bs, m + 1, s, h => by
    have hr : s.hasRoom 1 = true := by
      unfold State.hasRoom; rw [h.1]; simp only [decide_eq_true_eq]; omega
    rw [writeBytes, Op.bind_of_ok (snkWrite_of_room b hr)]
    rw [writeBytes_of_short bs m _ ⟨by simp [h.1]; omega, by have := h.2; simp at this; omega⟩, State.wrote_wrote]
    rfl

theorem writeCopies_eq (v : Byte) : ∀ n, writeCopies n v = writeBytes (List.replicate n v)
  | 0 => rfl
  | n + 1 => by rw [writeCopies, List.replicate_succ, writeBytes, writeCopies_eq v n]

theorem writeBytes_append (a b : List Byte) (s : State) :
    writeBytes (a ++ b) s = (writeBytes a >>= fun _ => writeBytes b) s := by
  induction a generalizing s with
  | nil => rfl
  | cons x a ih =>
    simp only [List.cons_append, writeBytes, Op.bind_run]
    cases snkWrite x s with
    | ok u t => simp only [ih, Op.bind_run]
    | error e t => rfl

/-! ## Reading to the end of the source -/

theorem forEachByte_nil {f : Byte → Op Unit} {n : Nat} {s : State} (h : s.remaining = []) :
    forEachByte f (n + 1) s = .ok () s := by
  rw [forEachByte, Op.bind_of_ok (srcRead_of_nil h)]; rfl

theorem forEachByte_cons {f : Byte → Op Unit} {n : Nat} {s : State} {b : Byte} {l : List Byte}
    (h : s.remaining = b :: l) :
    forEachByte f (n + 1) s = (f b >>= fun _ => forEachByte f n) (s.consumed 1) := by
  rw [forEachByte, Op.bind_of_ok (srcRead_of_cons h)]

/-! ## The streams stay well formed (R60, R62) -/

theorem Memory.wf_iff (src : Src) (snk : Snk) :
    Memory.wf src snk = true ↔ src.pos ≤ src.data.length ∧ ∀ c, snk.cap = some c → snk.data.length ≤ c := by
  unfold Memory.wf
  cases h : snk.cap <;> simp

theorem Memory.wf_srcRead {s t : State} {r : Option Byte} (h : Memory.wf s.src s.snk = true)
    (e : srcRead s = .ok r t) : Memory.wf t.src t.snk = true := by
  rw [srcRead_run] at e
  cases hr : s.remaining with
  | nil => rw [hr] at e; cases e; exact h
  | cons b l =>
    rw [hr] at e
    cases e
    have hl : s.src.pos < s.src.data.length := by
      have := congrArg List.length hr
      simp [State.remaining] at this; omega
    rw [Memory.wf_iff] at h ⊢
    exact ⟨hl, h.2⟩

theorem Memory.wf_srcSeek {s t : State} {p : Nat} (h : Memory.wf s.src s.snk = true) (hp : p ≤ s.src.data.length)
    (e : srcSeek p s = .ok () t) : Memory.wf t.src t.snk = true := by
  cases e
  rw [Memory.wf_iff] at h ⊢
  exact ⟨hp, h.2⟩

theorem Memory.wf_snkWrite {s t : State} {b : Byte} (h : Memory.wf s.src s.snk = true)
    (e : snkWrite b s = .ok () t) : Memory.wf t.src t.snk = true := by
  obtain ⟨_, h1⟩ | ⟨hc, h1⟩ := snkWrite_run b s
  · rw [h1] at e; cases e
  · rw [h1] at e
    cases e
    rw [Memory.wf_iff] at h ⊢
    refine ⟨h.1, fun c hcap => ?_⟩
    have := h.2 c hcap
    have hne : s.snk.data.length ≠ c := fun e => hc (by rw [show s.snk.cap = some c from hcap, e])
    simp only [State.wrote_snk, List.length_append, List.length_singleton]
    omega

/-- A read at the end, a refused write and a raised error leave the streams as they are. -/
theorem Memory.wf_raise {α : Type} {s t : State} {k : ErrorKind} {e : Stop} (h : Memory.wf s.src s.snk = true)
    (er : (raise k : Op α) s = .error e t) : Memory.wf t.src t.snk = true := by
  cases er; exact h

theorem Memory.wf_reset : Memory.wf State.reset.src State.reset.snk = true := by decide

end Sys2Proof.Machine
end

