-- ==== Sys2Proof/Laws/BitIO.lean ====
section
/-! SUPPORT. One lemma for each procedure of Machine/BitIO.lean and of the operand forms: everything it can do. -/

namespace Sys2Proof.Machine

open Sys2Proof

/-! ## Operands (R99) -/

theorem symbolOperand_run (v : BitVec 16) (s : State) :
    (∃ x : Symbol, x.val = v.toNat ∧ symbolOperand v s = .ok x s)
      ∨ (256 < v.toNat ∧ symbolOperand v s = .error (.raise .badCommand) s) := by
  unfold symbolOperand
  by_cases h : v.toNat ≤ 256
  · exact .inl ⟨⟨v.toNat, by omega⟩, rfl, by rw [dif_pos h]; rfl⟩
  · exact .inr ⟨by omega, by rw [dif_neg h]; rfl⟩

theorem symbolOperand_of_le {v : BitVec 16} {x : Symbol} (h : v.toNat = x.val) (s : State) :
    symbolOperand v s = .ok x s := by
  obtain ⟨y, hy, e⟩ | ⟨hl, _⟩ := symbolOperand_run v s
  · rw [e, show y = x from Fin.ext (by omega)]
  · have := x.isLt; omega

/-! ## Bit writer (R120 to R122) -/

@[simp] theorem bwInit_run (s : State) : bwInit s = .ok () (s.setBw ⟨0, 0⟩) := rfl

theorem bwWbit_of_lt {s : State} (b : Bool) (h : s.bw.cnt.val < 7) :
    bwWbit b s = .ok () (s.setBw ⟨s.bw.shiftIn b, s.bw.cnt + 1⟩) := by
  unfold bwWbit
  rw [dif_neg (by omega)]
  congr 2
  simp only [BW.mk.injEq, true_and]
  apply Fin.ext
  have : (s.bw.cnt + 1).val = s.bw.cnt.val + 1 := by
    rw [Fin.val_add]; simp; omega
  exact this.symm

theorem bwWbit_of_eq {s : State} (b : Bool) (h : s.bw.cnt.val = 7) :
    bwWbit b s = snkWrite (s.bw.shiftIn b) (s.setBw ⟨0, 0⟩) := by
  unfold bwWbit; rw [dif_pos (by omega)]

theorem bwFlush_run (s : State) :
    (s.bw.cnt.val = 0 ∧ bwFlush s = .ok () s)
      ∨ (0 < s.bw.cnt.val ∧ bwFlush s = snkWrite s.bw.padded (s.setBw ⟨0, 0⟩)) := by
  unfold bwFlush
  by_cases h : s.bw.cnt.val > 0
  · exact .inr ⟨h, by rw [if_pos h]⟩
  · exact .inl ⟨by omega, by rw [if_neg h]⟩

theorem writeBits_append (a b : List Bool) (s : State) :
    writeBits (a ++ b) s = (writeBits a >>= fun _ => writeBits b) s := by
  induction a generalizing s with
  | nil => rfl
  | cons x a ih =>
    simp only [List.cons_append, writeBits, Op.bind_run]
    cases bwWbit x s with
    | ok u t => simp only [ih, Op.bind_run]
    | error e t => rfl

/-! ## Bit reader (R124, R125) -/

@[simp] theorem brInit_run (s : State) : brInit s = .ok () (s.setBr ⟨0, 0, false⟩) := rfl
@[simp] theorem brEofSeen_run (s : State) : brEofSeen s = .ok s.br.eof s := rfl

theorem brRbit_of_eof {s : State} (h : s.br.eof = true) : brRbit s = .ok false s := by simp [brRbit, h]

theorem brRbit_of_rem {s : State} (r : Fin 8) (h : s.br.eof = false) (hr : s.br.rem.val = r.val + 1) :
    brRbit s = .ok (s.br.cur.getLsbD r.val) (s.setBr ⟨s.br.cur, r.castSucc, false⟩) := by
  unfold brRbit
  rw [if_neg (by simp [h]), dif_neg (by omega)]
  simp only [brTake, hr, Nat.add_sub_cancel]
  rw [h]
  rfl

theorem brRbit_of_load {s : State} {x : Byte} {l : List Byte} (h : s.br.eof = false) (hr : s.br.rem.val = 0)
    (hx : s.remaining = x :: l) :
    brRbit s = .ok (x.getLsbD 7) ((s.consumed 1).setBr ⟨x, 7, false⟩) := by
  unfold brRbit
  rw [if_neg (by simp [h]), dif_pos hr, srcRead_of_cons hx]
  simp only [brTake, State.consumed_br, h]
  rfl

theorem brRbit_of_end {s : State} (h : s.br.eof = false) (hr : s.br.rem.val = 0) (hx : s.remaining = []) :
    brRbit s = .ok false (s.setBr { s.br with eof := true }) := by
  unfold brRbit
  rw [if_neg (by simp [h]), dif_pos hr, srcRead_of_nil hx]

/-- The reader never raises. -/
theorem brRbit_ok (s : State) : ∃ b t, brRbit s = .ok b t := by
  by_cases h : s.br.eof = true
  · exact ⟨_, _, brRbit_of_eof h⟩
  · rw [Bool.not_eq_true] at h
    by_cases hr : s.br.rem.val = 0
    · cases hx : s.remaining with
      | nil => exact ⟨_, _, brRbit_of_end h hr hx⟩
      | cons x l => exact ⟨_, _, brRbit_of_load h hr hx⟩
    · have := s.br.rem.isLt
      exact ⟨_, _, brRbit_of_rem ⟨s.br.rem.val - 1, by omega⟩ h (by simp; omega)⟩

/-! ## Little-endian words (R128, R129) -/

theorem readByteOrTruncation_run (s : State) :
    readByteOrTruncation s = match s.remaining with
      | [] => .error (.raise .truncation) s
      | b :: _ => .ok b (s.consumed 1) := by
  rw [readByteOrTruncation, Op.bind_run, srcRead_run]
  cases s.remaining <;> rfl

theorem leRd32_run (s : State) :
    leRd32 s = match s.remaining with
      | [] => .ok none s
      | [_] => .error (.raise .truncation) (s.consumed 1)
      | [_, _] => .error (.raise .truncation) (s.consumed 2)
      | [_, _, _] => .error (.raise .truncation) (s.consumed 3)
      | b0 :: b1 :: b2 :: b3 :: _ => .ok (some (ofLeBytes32 b0 b1 b2 b3)) (s.consumed 4) := by
  have step : ∀ n, (s.consumed n).consumed 1 = s.consumed (n + 1) := fun n => s.consumed_consumed n 1
  rw [leRd32, Op.bind_run, srcRead_run]
  rcases h : s.remaining with _ | ⟨b0, _ | ⟨b1, _ | ⟨b2, _ | ⟨b3, l⟩⟩⟩⟩ <;>
    simp only [Op.bind_run, readByteOrTruncation_run, State.remaining_consumed, h, List.drop_succ_cons, List.drop_zero,
      List.drop_nil, step, Op.pure_run]

theorem ofLeBytes32_toNat (b0 b1 b2 b3 : Byte) :
    (ofLeBytes32 b0 b1 b2 b3).toNat = b0.toNat + 2 ^ 8 * b1.toNat + 2 ^ 16 * b2.toNat + 2 ^ 24 * b3.toNat := by
  have join : ∀ (a : Nat) (b : Byte), a * 2 ^ 8 ||| b.toNat = 2 ^ 8 * a + b.toNat := fun a b => by
    rw [Nat.mul_comm, Nat.two_pow_add_eq_or_of_lt b.isLt]
  simp only [ofLeBytes32, BitVec.toNat_append, Nat.shiftLeft_eq, join]
  omega

theorem ofLeBytes32_byteOf (v : Word) : ofLeBytes32 (byteOf v 0) (byteOf v 1) (byteOf v 2) (byteOf v 3) = v := by
  apply BitVec.eq_of_getLsbD_eq
  intro i hi
  simp only [ofLeBytes32, byteOf, BitVec.getLsbD_append, BitVec.getLsbD_extractLsb']
  split
  · simp [*]
  · split
    · simp only [show i - 8 < 8 by omega, decide_true, Bool.true_and]; congr 1; omega
    · split
      · simp only [show i - 8 - 8 < 8 by omega, decide_true, Bool.true_and]; congr 1; omega
      · simp only [show i - 8 - 8 - 8 < 8 by omega, decide_true, Bool.true_and]; congr 1; omega

theorem ofLeBytes16_bytes (v : BitVec 16) : ofLeBytes16 (v.extractLsb' 0 8) (v.extractLsb' 8 8) = v := by
  apply BitVec.eq_of_getLsbD_eq
  intro i hi
  simp only [ofLeBytes16, BitVec.getLsbD_append, BitVec.getLsbD_extractLsb']
  split
  · simp [*]
  · simp only [show i - 8 < 8 by omega, decide_true, Bool.true_and]; congr 1; omega

@[simp] theorem leBytes32_length (v : Word) : (leBytes32 v).length = 4 := rfl

theorem leWr32_of_room {s : State} (v : Word) (h : s.hasRoom 4 = true) :
    leWr32 v s = .ok () (s.wrote (leBytes32 v)) := writeBytes_of_room _ _ h

theorem leWr32_of_short {s : State} (v : Word) {m : Nat} (h : s.roomOnlyFor m 4) :
    leWr32 v s = .error (.raise .sinkFailure) (s.wrote ((leBytes32 v).take m)) := writeBytes_of_short _ _ _ h

end Sys2Proof.Machine
end

