-- ==== Sys2Proof/Laws/Model.lean ====
section
/-! SUPPORT. One lemma for each procedure of Machine/Model.lean: what it does to the tables, and when it raises. -/

namespace Sys2Proof.Machine

open Sys2Proof

/-! ## Counts (R140 to R142) -/

@[simp] theorem fmClr_run (s : State) :
    fmClr s = .ok () (s.setFm { s.fm with freq := Vector.replicate 257 0 }) := rfl
@[simp] theorem fmAcc_run (b : Byte) (s : State) : fmAcc b s = .ok () (s.setFm (s.fm.accumulate b)) := rfl
@[simp] theorem fmEos_run (s : State) : fmEos s = .ok () (s.setFm { s.fm with freq := s.fm.freq.set 256 1 }) := rfl
@[simp] theorem fmScale_run (s : State) : fmScale s = .ok () (s.setFm { s.fm with freq := s.fm.scaled }) := rfl
@[simp] theorem loadFreq_run (f : Vector Word 257) (s : State) :
    loadFreq f s = .ok () (s.setFm { s.fm with freq := f }) := rfl

@[simp] theorem FM.accumulate_cum (m : FM) (b : Byte) : (m.accumulate b).cum = m.cum := rfl

theorem FM.freqAt_accumulate (m : FM) (b : Byte) (x : Symbol) :
    (m.accumulate b).freqAt x = if x.val = b.toNat then (m.freqAt x + 1) % 2 ^ 32 else m.freqAt x := by
  simp only [FM.freqAt, FM.accumulate, Fin.getElem_fin]
  rw [Vector.getElem_set]
  by_cases h : x.val = b.toNat
  · simp [h, BitVec.toNat_add]
  · simp [h, Ne.symm h]

/-! ## Sums of counts -/

theorem FM.prefixSum_zero (m : FM) : m.prefixSum 0 = 0 := rfl

theorem FM.prefixSum_total (m : FM) : m.prefixSum 257 = m.total := by
  unfold FM.prefixSum FM.total
  rw [List.take_of_length_le (by simp)]

theorem FM.prefixSum_succ (m : FM) (x : Symbol) : m.prefixSum (x.val + 1) = m.prefixSum x.val + m.freqAt x := by
  unfold FM.prefixSum FM.freqAt
  rw [List.take_add_one, List.getElem?_eq_getElem (by simp), Option.toList_some, List.map_append, List.sum_append]
  simp

theorem FM.prefixSum_le_succ (m : FM) (i : Nat) : m.prefixSum i ≤ m.prefixSum (i + 1) := by
  by_cases h : i < 257
  · rw [FM.prefixSum_succ m ⟨i, h⟩]; exact Nat.le_add_right _ _
  · unfold FM.prefixSum
    rw [List.take_of_length_le (by simp; omega), List.take_of_length_le (by simp; omega)]

theorem FM.prefixSum_mono (m : FM) {i j : Nat} (h : i ≤ j) : m.prefixSum i ≤ m.prefixSum j :=
  monotone_nat_of_le_succ (fun i => m.prefixSum_le_succ i) h

theorem FM.prefixSum_le_total (m : FM) (i : Nat) : m.prefixSum i ≤ m.total := by
  rw [← m.prefixSum_total]
  by_cases h : i ≤ 257
  · exact m.prefixSum_mono h
  · unfold FM.prefixSum
    rw [List.take_of_length_le (by simp; omega), List.take_of_length_le (by simp)]

/-! ## The cumulative table (R146) -/

theorem fmCum_run (s : State) :
    (2 ^ 32 - 1 < s.fm.total ∧ fmCum s = .error (.raise .badHeader) s)
      ∨ (s.fm.total ≤ 2 ^ 32 - 1 ∧ fmCum s = .ok () (s.setFm { s.fm with cum := s.fm.cumTable })) := by
  unfold fmCum
  by_cases h : s.fm.total > Config.rlMax
  · exact .inl ⟨h, by rw [if_pos h]⟩
  · exact .inr ⟨Nat.not_lt.mp h, by rw [if_neg h]⟩

/-- The entries written by `FM.CUM`. -/
theorem FM.cumAt_cumTable (m : FM) (h : m.total ≤ 2 ^ 32 - 1) {i : Nat} (hi : i ≤ 257) :
    FM.cumAt { m with cum := m.cumTable } i = if m.total = 0 then i else m.prefixSum i := by
  unfold FM.cumAt FM.cumTable
  rw [Vector.getElem?_eq_getElem (by omega)]
  simp only [Vector.getElem_ofFn, BitVec.toNat_ofNat]
  apply Nat.mod_eq_of_lt
  split
  · omega
  · have := m.prefixSum_le_total i; omega

/-! ## The search (R147) -/

/-- The invariant `C[lo] ≤ v < C[hi]` leads to the symbol. -/
theorem findLoop_spec (m : FM) (v : Nat) : ∀ (k lo hi : Nat), lo < hi → hi - lo ≤ 2 ^ k →
    m.cumAt lo ≤ v → v < m.cumAt hi →
    lo ≤ findLoop m v k lo hi ∧ findLoop m v k lo hi < hi
      ∧ m.cumAt (findLoop m v k lo hi) ≤ v ∧ v < m.cumAt (findLoop m v k lo hi + 1)
  | 0, lo, hi, h, hk, hl, hh => by
    have : hi = lo + 1 := by simp at hk; omega
    subst this
    simpa [findLoop] using ⟨hl, hh⟩
  | k + 1, lo, hi, h, hk, hl, hh => by
    have hp : 2 ^ (k + 1) = 2 * 2 ^ k := by omega
    unfold findLoop
    split
    · split
      · have := findLoop_spec m v k ((lo + hi) / 2) hi (by omega) (by omega) (by assumption) hh
        omega
      · have := findLoop_spec m v k lo ((lo + hi) / 2) (by omega) (by omega) hl (by omega)
        omega
    · have : hi = lo + 1 := by omega
      subst this
      exact ⟨Nat.le_refl _, Nat.lt_succ_self _, hl, hh⟩

theorem FM.cumAt_mono {m : FM} (h : m.cumLegal) {i j : Nat} (hij : i ≤ j) (hj : j ≤ 257) : m.cumAt i ≤ m.cumAt j := by
  induction j with
  | zero => rw [Nat.le_zero.mp hij]
  | succ j ih =>
    by_cases e : i = j + 1
    · rw [e]
    · exact Nat.le_trans (ih (by omega) (by omega)) (h.2 j (by omega))

/-- Everything `FM.FIND` can do with a legal table. -/
theorem fmFind_run {s : State} (hc : s.fm.cumLegal) (v : Nat) :
    (s.fm.cumAt 257 ≤ v ∧ fmFind v s = .error (.raise .corruptStream) s)
      ∨ ∃ x : Symbol, fmFind v s = .ok x s ∧ s.fm.cumAt x.val ≤ v ∧ v < s.fm.cumAt (x.val + 1) := by
  unfold fmFind
  by_cases h : v ≥ s.fm.cumAt 257
  · exact .inl ⟨h, by rw [if_pos h]⟩
  · right
    have := findLoop_spec s.fm v Config.findTurns 0 257 (by omega) (by decide) (by rw [hc.1]; exact Nat.zero_le _)
      (by omega)
    refine ⟨⟨findLoop s.fm v Config.findTurns 0 257, this.2.1⟩, ?_, this.2.2⟩
    rw [if_neg h]
    congr 1
    exact Fin.ext (Nat.mod_eq_of_lt this.2.1)

/-! ## The header (R148, R149) -/

theorem writeWords_run (vs : List Word) (s : State) : writeWords vs s = writeBytes (vs.flatMap leBytes32) s := by
  induction vs generalizing s with
  | nil => rfl
  | cons v vs ih =>
    rw [writeWords, List.flatMap_cons, writeBytes_append, leWr32, Op.bind_run, Op.bind_run]
    cases writeBytes (leBytes32 v) s with
    | ok u t => exact ih t
    | error e t => rfl

/-- A write changes nothing but the sink. -/
theorem writeBytes_sink : ∀ (bs : List Byte) (s : State),
    (∃ w, writeBytes bs s = .ok () (s.setSnk w)) ∨ ∃ e w, writeBytes bs s = .error e (s.setSnk w)
  | [], s => .inl ⟨s.snk, rfl⟩
  | b :: bs, s => by
    obtain ⟨_, h⟩ | ⟨_, h⟩ := snkWrite_run b s
    · exact .inr ⟨_, s.snk, by rw [writeBytes, Op.bind_of_error h]; rfl⟩
    · rw [writeBytes, Op.bind_of_ok h]
      obtain ⟨w, h⟩ | ⟨e, w, h⟩ := writeBytes_sink bs (s.wrote [b])
      · exact .inl ⟨w, h⟩
      · exact .inr ⟨e, w, h⟩

theorem fmWhdr_run (tag : Word) (s : State) : fmWhdr tag s = writeBytes (headerBytes tag s.fm.freq) s := by
  rw [fmWhdr, headerBytes, List.append_assoc, writeBytes_append, leWr32, Op.bind_run, Op.bind_run]
  obtain ⟨w, h⟩ | ⟨e, w, h⟩ := writeBytes_sink (leBytes32 tag) s
  · rw [h]
    dsimp only
    rw [writeBytes_append, leWr32, Op.bind_run, Op.bind_run]
    obtain ⟨w', h⟩ | ⟨e, w', h⟩ := writeBytes_sink (leBytes32 257) (s.setSnk w)
    · rw [h]; exact writeWords_run _ _
    · rw [h]
  · rw [h]

theorem flatMap_leBytes32_length (vs : List Word) : (vs.flatMap leBytes32).length = 4 * vs.length := by
  induction vs with
  | nil => rfl
  | cons v vs ih => rw [List.flatMap_cons, List.length_append, ih, leBytes32_length, List.length_cons]; omega

theorem headerBytes_length (tag : Word) (f : Vector Word 257) : (headerBytes tag f).length = 1036 := by
  rw [headerBytes, List.length_append, List.length_append, flatMap_leBytes32_length, Vector.length_toList]
  rfl

theorem readWordOrTruncation_run (s : State) :
    readWordOrTruncation s = match s.remaining with
      | [] => .error (.raise .truncation) s
      | [_] => .error (.raise .truncation) (s.consumed 1)
      | [_, _] => .error (.raise .truncation) (s.consumed 2)
      | [_, _, _] => .error (.raise .truncation) (s.consumed 3)
      | b0 :: b1 :: b2 :: b3 :: _ => .ok (ofLeBytes32 b0 b1 b2 b3) (s.consumed 4) := by
  rw [readWordOrTruncation, Op.bind_run, leRd32_run]
  rcases s.remaining with _ | ⟨b0, _ | ⟨b1, _ | ⟨b2, _ | ⟨b3, l⟩⟩⟩⟩ <;> rfl

/-- Fewer than four bytes left: they are consumed. -/
theorem readWordOrTruncation_of_short {s : State} (h : s.remaining.length < 4) :
    readWordOrTruncation s = .error (.raise .truncation) (s.consumed s.remaining.length) := by
  rw [readWordOrTruncation_run]
  rcases e : s.remaining with _ | ⟨b0, _ | ⟨b1, _ | ⟨b2, _ | ⟨b3, l⟩⟩⟩⟩ <;> simp [e] at h ⊢
  omega

theorem readWordOrTruncation_of_le {s : State} {v : Word} {rest : List Byte} (h : s.remaining = leBytes32 v ++ rest) :
    readWordOrTruncation s = .ok v (s.consumed 4) := by
  rw [readWordOrTruncation_run, h]
  simp only [leBytes32, List.cons_append, ofLeBytes32_byteOf]

theorem readWords_of_le : ∀ (n : Nat) (f : Vector Word n) (s : State) (rest : List Byte),
    s.remaining = f.toList.flatMap leBytes32 ++ rest → readWords n s = .ok f (s.consumed (4 * n))
  | 0, f, s, rest, _ => by
    have : f = #v[] := by ext i hi; omega
    rw [this]; rfl
  | n + 1, f, s, rest, h => by
    have hp : f = f.pop.push f.back := by simp
    have hl : f.toList = f.pop.toList ++ [f.back] := by
      have := congrArg Vector.toList hp
      rwa [Vector.toList_push] at this
    rw [hl, List.flatMap_append, List.append_assoc] at h
    rw [readWords, Op.bind_of_ok (readWords_of_le n f.pop s _ h)]
    have hr : (s.consumed (4 * n)).remaining = leBytes32 f.back ++ rest := by
      rw [State.remaining_consumed, h, List.drop_left' (by simp [Nat.mul_comm])]
      simp
    rw [Op.bind_of_ok (readWordOrTruncation_of_le hr), State.consumed_consumed]
    conv => rhs; rw [hp]
    rfl

theorem readWords_of_short : ∀ (n : Nat) (s : State), s.remaining.length < 4 * n →
    readWords n s = .error (.raise .truncation) (s.consumed s.remaining.length)
  | 0, s, h => by omega
  | n + 1, s, h => by
    rw [readWords]
    by_cases hn : s.remaining.length < 4 * n
    · rw [Op.bind_of_error (readWords_of_short n s hn)]
    · have key : ∀ (m : Nat) (u : State), 4 * m ≤ u.remaining.length →
          ∃ f : Vector Word m, readWords m u = .ok f (u.consumed (4 * m)) := by
        intro m
        induction m with
        | zero => intro u _; exact ⟨_, rfl⟩
        | succ m ih =>
          intro u hu
          obtain ⟨f, hf⟩ := ih u (by omega)
          rw [readWords, Op.bind_of_ok hf, Op.bind_run, readWordOrTruncation_run]
          have hl : 4 ≤ (u.consumed (4 * m)).remaining.length := by
            rw [State.remaining_consumed, List.length_drop]; omega
          rcases e : (u.consumed (4 * m)).remaining with _ | ⟨b0, _ | ⟨b1, _ | ⟨b2, _ | ⟨b3, l⟩⟩⟩⟩ <;>
            rw [e] at hl <;> simp at hl
          dsimp only
          rw [State.consumed_consumed]
          exact ⟨_, rfl⟩
      obtain ⟨f, hf⟩ := key n s (by omega)
      rw [Op.bind_of_ok hf]
      have hl : (s.consumed (4 * n)).remaining.length = s.remaining.length - 4 * n := by
        rw [State.remaining_consumed, List.length_drop]
      rw [Op.bind_of_error (readWordOrTruncation_of_short (by omega)), State.consumed_consumed, hl]
      congr 2; omega

theorem headerHasEos_run (s : State) :
    (s.fm.total ≠ 0 ∧ s.fm.freqAt eosSymbol = 0 ∧ headerHasEos s = .error (.raise .badHeader) s)
      ∨ ((s.fm.total = 0 ∨ s.fm.freqAt eosSymbol ≠ 0) ∧ headerHasEos s = .ok () s) := by
  unfold headerHasEos
  by_cases h : s.fm.total ≠ 0 ∧ s.fm.freqAt eosSymbol = 0
  · exact .inl ⟨h.1, h.2, by rw [if_pos h]⟩
  · exact .inr ⟨by tauto, by rw [if_neg h]⟩

end Sys2Proof.Machine
end

