-- ==== Sys2Proof/Laws/Coders.lean ====
section
/-! SUPPORT. One lemma for each procedure of Machine/Interval.lean, Arith.lean and Range.lean: everything it can do; and the
arithmetic of R191 and R202(c). -/

namespace Sys2Proof.Machine

open Sys2Proof

/-! ## The interval update (R191) -/

theorem intervalUpdate_ac_run (x : Symbol) (s : State) :
    (¬ s.fm.hasShare s.ac.low s.ac.high x.val ∧ intervalUpdate .ac x s = .error (.raise .domainFault) s)
      ∨ (s.fm.hasShare s.ac.low s.ac.high x.val ∧ intervalUpdate .ac x s = .ok () (s.setAc { s.ac with
          low := BitVec.ofNat 32 (s.fm.newLow s.ac.low s.ac.high x.val),
          high := BitVec.ofNat 32 (s.fm.newHigh s.ac.low s.ac.high x.val) })) := by
  unfold intervalUpdate FM.hasShare FM.newLow FM.newHigh FM.share State.rangeOf State.lowOf State.highOf
  dsimp only
  have e : s.ac.high.toNat + 1 - s.ac.low.toNat = rangeSize s.ac.low s.ac.high := rfl
  simp only [e]
  by_cases h0 : s.fm.cumAt 257 = 0 ∨ rangeSize s.ac.low s.ac.high = 0
  · left
    rw [if_pos h0]
    refine ⟨fun hs => ?_, rfl⟩
    rcases h0 with h | h
    · exact hs.1 h
    · have := hs.2; rw [h] at this; simp at this
  · rw [if_neg h0]
    by_cases h1 : rangeSize s.ac.low s.ac.high * s.fm.cumAt (x.val + 1) / s.fm.cumAt 257
        ≤ rangeSize s.ac.low s.ac.high * s.fm.cumAt x.val / s.fm.cumAt 257
    · exact .inl ⟨fun hs => by have := hs.2; omega, by rw [if_pos h1]⟩
    · exact .inr ⟨⟨fun h => h0 (.inl h), by omega⟩, by rw [if_neg h1]; rfl⟩

theorem intervalUpdate_rc_run (x : Symbol) (s : State) :
    (¬ s.fm.hasShare s.rc.low s.rc.high x.val ∧ intervalUpdate .rc x s = .error (.raise .domainFault) s)
      ∨ (s.fm.hasShare s.rc.low s.rc.high x.val ∧ intervalUpdate .rc x s = .ok () (s.setRc { s.rc with
          low := BitVec.ofNat 32 (s.fm.newLow s.rc.low s.rc.high x.val),
          high := BitVec.ofNat 32 (s.fm.newHigh s.rc.low s.rc.high x.val) })) := by
  unfold intervalUpdate FM.hasShare FM.newLow FM.newHigh FM.share State.rangeOf State.lowOf State.highOf
  dsimp only
  have e : s.rc.high.toNat + 1 - s.rc.low.toNat = rangeSize s.rc.low s.rc.high := rfl
  simp only [e]
  by_cases h0 : s.fm.cumAt 257 = 0 ∨ rangeSize s.rc.low s.rc.high = 0
  · left
    rw [if_pos h0]
    refine ⟨fun hs => ?_, rfl⟩
    rcases h0 with h | h
    · exact hs.1 h
    · have := hs.2; rw [h] at this; simp at this
  · rw [if_neg h0]
    by_cases h1 : rangeSize s.rc.low s.rc.high * s.fm.cumAt (x.val + 1) / s.fm.cumAt 257
        ≤ rangeSize s.rc.low s.rc.high * s.fm.cumAt x.val / s.fm.cumAt 257
    · exact .inl ⟨fun hs => by have := hs.2; omega, by rw [if_pos h1]⟩
    · exact .inr ⟨⟨fun h => h0 (.inl h), by omega⟩, by rw [if_neg h1]; rfl⟩

/-- R191: "the new interval lies inside the old one". -/
theorem FM.interval_inside {m : FM} {low high : Word} {x : Symbol} (hc : m.cumLegal) (hs : m.hasShare low high x.val) :
    low.toNat ≤ m.newLow low high x.val ∧ m.newLow low high x.val ≤ m.newHigh low high x.val
      ∧ m.newHigh low high x.val ≤ high.toNat := by
  obtain ⟨h0, h1⟩ := hs
  have hx := x.isLt
  have ht : m.cumAt (x.val + 1) ≤ m.cumAt 257 := FM.cumAt_mono hc (by omega) (Nat.le_refl _)
  have hu : rangeSize low high * m.cumAt (x.val + 1) / m.cumAt 257 ≤ rangeSize low high := by
    apply Nat.div_le_of_le_mul
    rw [Nat.mul_comm (m.cumAt 257)]
    exact Nat.mul_le_mul_left _ ht
  unfold FM.newLow FM.newHigh
  generalize ha : rangeSize low high * m.cumAt (x.val + 1) / m.cumAt 257 = a at *
  generalize hb : rangeSize low high * m.cumAt x.val / m.cumAt 257 = b at *
  have hr : rangeSize low high = high.toNat + 1 - low.toNat := rfl
  omega

/-! ## The target value (R198, R202(c)) -/

theorem targetValue_ac_run {s : State} (hle : s.ac.low.toNat ≤ s.ac.high.toNat) :
    (s.fm.cumAt 257 = 0 ∧ targetValue .ac s = .error (.raise .domainFault) s)
      ∨ (s.fm.cumAt 257 ≠ 0 ∧ (s.ac.code.toNat < s.ac.low.toNat ∨ s.ac.high.toNat < s.ac.code.toNat)
          ∧ targetValue .ac s = .error (.raise .corruptStream) s)
      ∨ (s.fm.cumAt 257 ≠ 0 ∧ s.ac.low.toNat ≤ s.ac.code.toNat ∧ s.ac.code.toNat ≤ s.ac.high.toNat
          ∧ targetValue .ac s = .ok (((s.ac.code.toNat - s.ac.low.toNat + 1) * s.fm.cumAt 257 - 1)
              / rangeSize s.ac.low s.ac.high) s) := by
  unfold targetValue State.rangeOf State.lowOf State.highOf State.codeOf
  dsimp only
  by_cases h0 : s.fm.cumAt 257 = 0
  · exact .inl ⟨h0, by rw [if_pos (.inl h0)]⟩
  · right
    rw [if_neg (by omega)]
    by_cases h1 : s.ac.code.toNat < s.ac.low.toNat ∨ s.ac.high.toNat < s.ac.code.toNat
    · exact .inl ⟨h0, h1, by rw [if_pos h1]⟩
    · exact .inr ⟨h0, by omega, by omega, by rw [if_neg h1]; rfl⟩

theorem targetValue_rc_run {s : State} (hle : s.rc.low.toNat ≤ s.rc.high.toNat) :
    (s.fm.cumAt 257 = 0 ∧ targetValue .rc s = .error (.raise .domainFault) s)
      ∨ (s.fm.cumAt 257 ≠ 0 ∧ (s.rc.code.toNat < s.rc.low.toNat ∨ s.rc.high.toNat < s.rc.code.toNat)
          ∧ targetValue .rc s = .error (.raise .corruptStream) s)
      ∨ (s.fm.cumAt 257 ≠ 0 ∧ s.rc.low.toNat ≤ s.rc.code.toNat ∧ s.rc.code.toNat ≤ s.rc.high.toNat
          ∧ targetValue .rc s = .ok (((s.rc.code.toNat - s.rc.low.toNat + 1) * s.fm.cumAt 257 - 1)
              / rangeSize s.rc.low s.rc.high) s) := by
  unfold targetValue State.rangeOf State.lowOf State.highOf State.codeOf
  dsimp only
  by_cases h0 : s.fm.cumAt 257 = 0
  · exact .inl ⟨h0, by rw [if_pos (.inl h0)]⟩
  · right
    rw [if_neg (by omega)]
    by_cases h1 : s.rc.code.toNat < s.rc.low.toNat ∨ s.rc.high.toNat < s.rc.code.toNat
    · exact .inl ⟨h0, h1, by rw [if_pos h1]⟩
    · exact .inr ⟨h0, by omega, by omega, by rw [if_neg h1]; rfl⟩

/-- R198: "`0 ≤ value ≤ total − 1`". -/
theorem target_lt_total {range offset total : Nat} (ho : offset < range) (ht : total ≠ 0) :
    ((offset + 1) * total - 1) / range < total := by
  rw [Nat.div_lt_iff_lt_mul (by omega)]
  have : (offset + 1) * total ≤ range * total := Nat.mul_le_mul_right _ ho
  have h2 : 0 < (offset + 1) * total := Nat.mul_pos (by omega) (by omega)
  rw [Nat.mul_comm total]
  omega

/-- R202(c): the target value is the largest `v` whose lower share bound is at most the offset. -/
theorem share_le_offset_iff {range offset total v : Nat} (hr : 0 < range) (ht : 0 < total) :
    range * v / total ≤ offset ↔ v ≤ ((offset + 1) * total - 1) / range := by
  rw [Nat.le_div_iff_mul_le hr, Nat.mul_comm v]
  have h2 : 0 < (offset + 1) * total := Nat.mul_pos (by omega) ht
  rw [← Nat.lt_succ_iff, Nat.div_lt_iff_lt_mul ht, Nat.succ_eq_add_one]
  omega

/-- R202(c): the symbol found for the target value has a share, and the code lies in it. -/
theorem share_of_target {m : FM} {low high code : Word} {x : Symbol} (ht : m.cumAt 257 ≠ 0)
    (hl : low.toNat ≤ code.toNat) (hh : code.toNat ≤ high.toNat)
    (h1 : m.cumAt x.val ≤ ((code.toNat - low.toNat + 1) * m.cumAt 257 - 1) / rangeSize low high)
    (h2 : ((code.toNat - low.toNat + 1) * m.cumAt 257 - 1) / rangeSize low high < m.cumAt (x.val + 1)) :
    m.hasShare low high x.val ∧ m.newLow low high x.val ≤ code.toNat ∧ code.toNat ≤ m.newHigh low high x.val := by
  have hr : 0 < rangeSize low high := by unfold rangeSize; omega
  have ht' : 0 < m.cumAt 257 := by omega
  have k1 := (share_le_offset_iff hr ht').mpr h1
  have k2 : ¬ rangeSize low high * m.cumAt (x.val + 1) / m.cumAt 257 ≤ code.toNat - low.toNat :=
    fun h => by have := (share_le_offset_iff hr ht').mp h; omega
  refine ⟨⟨ht, by omega⟩, ?_, ?_⟩
  · unfold FM.newLow; omega
  · unfold FM.newHigh; omega

/-! ## The arithmetic coder (R193, R194, R196, R199) -/

@[simp] theorem acEinit_run (s : State) :
    acEinit s = .ok () (s.setAc { s.ac with low := 0, high := 0xFFFFFFFF, pend := 0 }) := rfl

/-- The four cases of a turn. -/
theorem AC.renorm_cases (a : AC) :
    (a.high.toNat < 2 ^ 31 ∧ a.renorm = .lower)
      ∨ (2 ^ 31 ≤ a.high.toNat ∧ 2 ^ 31 ≤ a.low.toNat ∧ a.renorm = .upper)
      ∨ (2 ^ 31 ≤ a.high.toNat ∧ a.low.toNat < 2 ^ 31 ∧ 2 ^ 30 ≤ a.low.toNat ∧ a.high.toNat < 3 * 2 ^ 30
          ∧ a.renorm = .middle)
      ∨ (a.renormalized ∧ a.renorm = .done) := by
  unfold AC.renorm AC.renormalized
  simp only [Config.half, Config.q1, Config.q3]
  split
  · left; exact ⟨by omega, rfl⟩
  · split
    · right; left; exact ⟨by omega, by omega, rfl⟩
    · split
      · right; right; left; exact ⟨by omega, by omega, by omega, by omega, rfl⟩
      · right; right; right; exact ⟨⟨by omega, by omega, by omega⟩, rfl⟩

theorem acEncLoop_succ (k : Nat) (s : State) : acEncLoop (k + 1) s =
    match s.ac.renorm with
    | .done => .ok () s
    | r =>
      (do
        acEmitFor r
        modAc fun a => a.rescale r.bias
        acEncLoop k : Op Unit) s := rfl

theorem acEncLoop_done {k : Nat} {s : State} (h : s.ac.renorm = .done) : acEncLoop (k + 1) s = .ok () s := by
  rw [acEncLoop_succ, h]

theorem acEncLoop_turn {k : Nat} {s : State} {r : Renorm} (h : s.ac.renorm = r) (hr : r ≠ .done) :
    acEncLoop (k + 1) s = (do
      acEmitFor r
      modAc fun a => a.rescale r.bias
      acEncLoop k) s := by
  rw [acEncLoop_succ, h]
  cases r <;> first | rfl | exact absurd rfl hr

theorem acDecLoop_succ (k : Nat) (s : State) : acDecLoop (k + 1) s =
    match s.ac.renorm with
    | .done => .ok () s
    | r =>
      (do
        modAc fun a => a.rescaleDec r.bias
        acShiftIn
        acDecLoop k : Op Unit) s := rfl

theorem acDecLoop_done {k : Nat} {s : State} (h : s.ac.renorm = .done) : acDecLoop (k + 1) s = .ok () s := by
  rw [acDecLoop_succ, h]

theorem acDecLoop_turn {k : Nat} {s : State} {r : Renorm} (h : s.ac.renorm = r) (hr : r ≠ .done) :
    acDecLoop (k + 1) s = (do
      modAc fun a => a.rescaleDec r.bias
      acShiftIn
      acDecLoop k) s := by
  rw [acDecLoop_succ, h]
  cases r <;> first | rfl | exact absurd rfl hr

/-- A turn of the registers, as numbers: nothing is lost in 32 bits. -/
theorem AC.rescale_toNat {a : AC} {b : Nat} (hb : b ≤ a.low.toNat) (hle : a.low.toNat ≤ a.high.toNat)
    (hh : a.high.toNat - b < 2 ^ 31) :
    (a.rescale b).low.toNat = 2 * (a.low.toNat - b) ∧ (a.rescale b).high.toNat = 2 * (a.high.toNat - b) + 1 := by
  unfold AC.rescale
  simp only [BitVec.toNat_ofNat]
  omega

theorem acCountFill_run (s : State) :
    acCountFill s = .ok () (if s.br.eof = true then s.setAc s.ac.countFill else s) := by
  unfold acCountFill; split <;> rfl

@[simp] theorem AC.countFill_zfill (a : AC) : a.countFill.zfill.val = min 32 (a.zfill.val + 1) := rfl
@[simp] theorem AC.countFill_low (a : AC) : a.countFill.low = a.low := rfl
@[simp] theorem AC.countFill_high (a : AC) : a.countFill.high = a.high := rfl
@[simp] theorem AC.countFill_code (a : AC) : a.countFill.code = a.code := rfl
@[simp] theorem AC.countFill_pend (a : AC) : a.countFill.pend = a.pend := rfl

theorem acNeedInput_run (s : State) :
    (s.ac.zfill.val = 32 ∧ acNeedInput s = .error (.raise .truncation) s)
      ∨ (s.ac.zfill.val < 32 ∧ acNeedInput s = .ok () s) := by
  have := s.ac.zfill.isLt
  unfold acNeedInput
  by_cases h : s.ac.zfill.val ≥ Config.acZfillMax
  · exact .inl ⟨by have : (32 : Nat) ≤ s.ac.zfill.val := h; omega, by rw [if_pos h]⟩
  · exact .inr ⟨Nat.lt_of_not_le h, by rw [if_neg h]⟩

/-! ## The range coder (R222, R224, R226) -/

@[simp] theorem rcEinit_run (s : State) :
    rcEinit s = .ok () (s.setRc { s.rc with low := 0, high := 0xFFFFFFFF }) := rfl

theorem rcEncLoop_succ (k : Nat) (s : State) : rcEncLoop (k + 1) s =
    if s.rc.sameTop then
      (do
        snkWrite s.rc.topByte
        modRc RC.shiftOut
        rcEncLoop k : Op Unit) s
    else .ok () s := rfl

theorem rcEncLoop_done {k : Nat} {s : State} (h : s.rc.sameTop = false) : rcEncLoop (k + 1) s = .ok () s := by
  rw [rcEncLoop_succ, if_neg (by simp [h])]

theorem rcEncLoop_turn {k : Nat} {s : State} (h : s.rc.sameTop = true) :
    rcEncLoop (k + 1) s = (do
      snkWrite s.rc.topByte
      modRc RC.shiftOut
      rcEncLoop k) s := by
  rw [rcEncLoop_succ, if_pos h]

theorem rcDecLoop_succ (k : Nat) (s : State) : rcDecLoop (k + 1) s =
    if s.rc.sameTop then
      (do
        modRc RC.shiftOut
        rcShiftIn
        rcDecLoop k : Op Unit) s
    else .ok () s := rfl

theorem rcDecLoop_done {k : Nat} {s : State} (h : s.rc.sameTop = false) : rcDecLoop (k + 1) s = .ok () s := by
  rw [rcDecLoop_succ, if_neg (by simp [h])]

theorem rcDecLoop_turn {k : Nat} {s : State} (h : s.rc.sameTop = true) :
    rcDecLoop (k + 1) s = (do
      modRc RC.shiftOut
      rcShiftIn
      rcDecLoop k) s := by
  rw [rcDecLoop_succ, if_pos h]

theorem rcFill_run (s : State) :
    rcFill s = match s.remaining with
      | [] => .ok 0 (s.setRc s.rc.countFill)
      | b :: _ => .ok b (s.consumed 1) := by
  rw [rcFill, Op.bind_run, srcRead_run]
  cases s.remaining <;> rfl

@[simp] theorem RC.countFill_zfill (r : RC) : r.countFill.zfill.val = min 4 (r.zfill.val + 1) := rfl
@[simp] theorem RC.countFill_low (r : RC) : r.countFill.low = r.low := rfl
@[simp] theorem RC.countFill_high (r : RC) : r.countFill.high = r.high := rfl
@[simp] theorem RC.countFill_code (r : RC) : r.countFill.code = r.code := rfl

theorem rcNeedInput_run (s : State) :
    (s.rc.zfill.val = 4 ∧ rcNeedInput s = .error (.raise .truncation) s)
      ∨ (s.rc.zfill.val < 4 ∧ rcNeedInput s = .ok () s) := by
  have := s.rc.zfill.isLt
  unfold rcNeedInput
  by_cases h : s.rc.zfill.val ≥ Config.rcZfillMax
  · exact .inl ⟨by have : (4 : Nat) ≤ s.rc.zfill.val := h; omega, by rw [if_pos h]⟩
  · exact .inr ⟨Nat.lt_of_not_le h, by rw [if_neg h]⟩

end Sys2Proof.Machine
end

