-- ==== Sys2Proof/Laws/Huffman.lean ====
section
/-! SUPPORT. One lemma for each procedure of Machine/Huffman.lean: the removal order of R161 and the queue, the leaves, the
emitter, the walker. -/

namespace Sys2Proof.Machine

open Sys2Proof

/-! ## The removal order (R161) -/

theorem removedBefore_iff (x : Node) (i : Nat) (y : Node) (j : Nat) :
    removedBefore x i y j = true ↔
      x.freq < y.freq
        ∨ (x.freq = y.freq ∧ (y.sym.toNat < x.sym.toNat ∨ (x.sym.toNat = y.sym.toNat ∧ i < j))) := by
  simp [removedBefore, BitVec.toNat_inj]

/-- The order is total on different indices. -/
theorem removedBefore_total {x y : Node} {i j : Nat} (h : i ≠ j) (hn : ¬ removedBefore x i y j = true) :
    removedBefore y j x i = true := by
  rw [removedBefore_iff] at *
  omega

theorem removedBefore_trans {x y z : Node} {i j k : Nat} (h1 : removedBefore x i y j = true)
    (h2 : removedBefore y j z k = true) : removedBefore x i z k = true := by
  rw [removedBefore_iff] at *
  omega

theorem removedBefore_irrefl (x : Node) (i : Nat) : ¬ removedBefore x i x i = true := by
  rw [removedBefore_iff]; omega

/-- The earliest of an index and a queue. -/
theorem foldl_earlier_spec (nodes : List Node) : ∀ (q : List Nat) (i : Nat),
    q.foldl (earlier nodes) i ∈ i :: q
      ∧ ∀ j ∈ i :: q, j ≠ q.foldl (earlier nodes) i →
        removedBefore (nodeIn nodes (q.foldl (earlier nodes) i)) (q.foldl (earlier nodes) i) (nodeIn nodes j) j = true
  | [], i => by simp
  | a :: q, i => by
    obtain ⟨hm, hb⟩ := foldl_earlier_spec nodes q (earlier nodes i a)
    rw [List.foldl_cons]
    generalize hr : q.foldl (earlier nodes) (earlier nodes i a) = r at *
    have key : ∀ j, (j = i ∨ j = a) → j ≠ r → removedBefore (nodeIn nodes r) r (nodeIn nodes j) j = true := by
      intro j hj hne
      by_cases he : j = earlier nodes i a
      · exact hb j (by simp [he]) hne
      · have hej : removedBefore (nodeIn nodes (earlier nodes i a)) (earlier nodes i a) (nodeIn nodes j) j = true := by
          unfold earlier at he ⊢
          split
          · next h =>
            rw [if_pos h] at he
            rcases hj with rfl | rfl
            · exact h
            · exact absurd rfl he
          · next h =>
            rw [if_neg h] at he
            rcases hj with rfl | rfl
            · exact absurd rfl he
            · exact removedBefore_total he h
        by_cases h2 : earlier nodes i a = r
        · rw [← h2]; exact hej
        · exact removedBefore_trans (hb _ (by simp) h2) hej
    refine ⟨?_, ?_⟩
    · rcases List.mem_cons.mp hm with h | h
      · rw [h]; unfold earlier; split <;> simp
      · simp [h]
    · intro j hj hne
      rcases List.mem_cons.mp hj with h | h
      · exact key j (.inl h) hne
      · rcases List.mem_cons.mp h with h | h
        · exact key j (.inr h) hne
        · exact hb j (by simp [h]) hne

/-- R162: "the element of Q first in the order of rule R161; remove it from Q". -/
theorem popFirst_spec {nodes : List Node} {q : List Nat} (h : q ≠ []) :
    ∃ a, popFirst nodes q = some (a, q.erase a) ∧ a ∈ q
      ∧ ∀ j ∈ q, j ≠ a → removedBefore (nodeIn nodes a) a (nodeIn nodes j) j = true := by
  cases q with
  | nil => exact absurd rfl h
  | cons i q => exact ⟨_, rfl, (foldl_earlier_spec nodes q i).1, (foldl_earlier_spec nodes q i).2⟩

/-! ## The leaves (R160, R162) -/

/-- One leaf per coded symbol, in ascending order. -/
theorem FM.leaves_eq (m : FM) : m.leaves =
    m.coded.map fun x => ⟨m.freqAt x, BitVec.ofNat 9 x.val, Config.null, Config.null⟩ := by
  have hz : m.freq.toList.zipIdx = (List.finRange 257).map fun x => (m.freq[x], x.val) := by
    apply List.ext_getElem
    · simp
    · intro i h1 h2
      simp
  rw [FM.leaves, hz, List.filterMap_map, FM.coded, ← List.filterMap_eq_filter, List.map_filterMap]
  congr 1
  funext x
  simp only [Function.comp_apply]
  by_cases h : m.freq[x] = 0
  · have h0 : ¬ m.freqAt x ≠ 0 := by simp [FM.freqAt, h]
    rw [if_pos h, Option.guard, if_neg (by simpa using h0)]
    rfl
  · have h1 : m.freqAt x ≠ 0 := fun e => h (BitVec.eq_of_toNat_eq e)
    rw [if_neg h, Option.guard, if_pos (decide_eq_true h1)]
    rfl

theorem hfBuild_run (s : State) : hfBuild s = .ok () (s.setHf (s.hf.built s.fm.tree)) := by
  simp only [hfBuild, reading_run, modHf_run]

theorem HF.built_len (h : HF) (t : List Node × Nat) : (h.built t).len = h.len := by simp only [HF.built]
theorem HF.built_bits (h : HF) (t : List Node × Nat) : (h.built t).bits = h.bits := by simp only [HF.built]

theorem HF.nodeAt_built (h : HF) (t : List Node × Nat) {i : NodeIdx} (hi : i.toNat < t.1.length)
    (hl : t.1.length ≤ 513) : (h.built t).nodeAt i = t.1[i.toNat] := by
  have h513 : i.toNat < 513 := by omega
  simp [HF.nodeAt, HF.built, overlay, Vector.getD, h513, List.getD, hi]

/-! ## The emitter (R165) -/

theorem writeCodeBits_run (c : BitVec 256) : ∀ (k : Nat) (s : State),
    writeCodeBits c k s = writeBits ((List.range k).map fun i => c.getLsbD (k - 1 - i)) s
  | 0, _ => rfl
  | k + 1, s => by
    have : (List.range (k + 1)).map (fun i => c.getLsbD (k + 1 - 1 - i))
        = c.getLsbD k :: (List.range k).map fun i => c.getLsbD (k - 1 - i) := by
      rw [List.range_succ_eq_map, List.map_cons, List.map_map]
      congr 1
      apply List.map_congr_left
      intro i hi
      simp only [Function.comp_apply]
      congr 1; omega
    rw [this, writeCodeBits, writeBits, Op.bind_run, Op.bind_run]
    cases bwWbit (c.getLsbD k) s with
    | ok u t => exact writeCodeBits_run c k t
    | error e t => rfl

/-- `HF.ESYM` writes the code, first bit first. -/
theorem hfEsym_run (x : Symbol) (s : State) :
    (s.hf.len[x] = 0 ∧ hfEsym x s = .error (.raise .domainFault) s)
      ∨ (s.hf.len[x] ≠ 0 ∧ hfEsym x s = writeBits (s.hf.codeWord x) s) := by
  unfold hfEsym
  by_cases h : s.hf.len[x] = 0
  · exact .inl ⟨h, by rw [if_pos h]⟩
  · exact .inr ⟨h, by rw [if_neg h, writeCodeBits_run]; rfl⟩

/-! ## The walker (R164, R166) -/

theorem needTree_run (s : State) :
    (s.hf.root = Config.null ∧ needTree s = .error (.raise .domainFault) s)
      ∨ (s.hf.root ≠ Config.null ∧ needTree s = .ok () s) := by
  unfold needTree
  by_cases h : s.hf.root = Config.null
  · exact .inl ⟨h, by rw [if_pos h]⟩
  · exact .inr ⟨h, by rw [if_neg h]⟩

theorem HF.descend_root {h : HF} (b : Bool) (hr : (h.nodeAt h.root).isLeaf = true) :
    h.descend b = if b then .error .corruptStream else .ok (h, some (h.nodeAt h.root).symbol) := by
  rw [HF.descend, if_pos hr]

theorem HF.descend_child {h : HF} {b : Bool} {c : NodeIdx} (hr : (h.nodeAt h.root).isLeaf = false)
    (hc : c = if b then (h.nodeAt h.walk).right else (h.nodeAt h.walk).left) :
    h.descend b =
      if c = Config.null then .error .corruptStream
      else if (h.nodeAt c).isLeaf then .ok ({ h with walk := h.root }, some (h.nodeAt c).symbol)
      else .ok ({ h with walk := c }, none) := by
  rw [HF.descend, if_neg (by simp [hr]), hc]

theorem walkBit_run (b : Bool) (s : State) :
    walkBit b s = match s.hf.descend b with
      | .ok (h, r) => .ok r (s.setHf h)
      | .error k => .error (.raise k) s := rfl

/-- The order of the checks of `HF.STEP`. -/
theorem hfStep_run (s : State) : hfStep s =
    if s.hf.root = Config.null then .error (.raise .domainFault) s
    else match brRbit s with
      | .ok b t => if t.br.eof then .error (.raise .truncation) t else walkBit b t
      | .error e t => .error e t := by
  obtain ⟨h, e⟩ | ⟨h, e⟩ := needTree_run s
  · rw [hfStep, Op.bind_of_error e, if_pos h]
  · rw [hfStep, Op.bind_of_ok e, if_neg h, Op.bind_run]
    obtain ⟨b, t, hb⟩ := brRbit_ok s
    rw [hb]
    dsimp only
    rw [Op.bind_of_ok (brEofSeen_run t)]
    by_cases he : t.br.eof = true <;> simp [he]

theorem symbolValue_symbol {x : Node} (h : x.sym.toNat ≤ 256) : symbolValue x.symbol = x.sym.setWidth 32 := by
  apply BitVec.eq_of_toNat_eq
  have : x.symbol.val = x.sym.toNat := Nat.mod_eq_of_lt (by omega)
  simp [symbolValue, this]

end Sys2Proof.Machine
end

