-- ==== Sys2Proof/Laws/PerInstr.lean ====
section
/-! SUPPORT. Families of statements about every instruction as syntax, one lemma per constructor. -/

namespace Sys2Proof.Laws

open Sys2Proof

/-- R99: "The opcode alone determines the format and so the length": the encoding of a command is as long as its opcode byte
says. -/
def EncodedLength.Statement (i : Instr) : Prop := (encode i).length = commandLength ((encode i).headD 0)

theorem EncodedLength.coreNop : EncodedLength.Statement .coreNop := rfl
theorem EncodedLength.coreReset : EncodedLength.Statement .coreReset := rfl
theorem EncodedLength.coreStatus : EncodedLength.Statement .coreStatus := rfl
theorem EncodedLength.coreRewind : EncodedLength.Statement .coreRewind := rfl
theorem EncodedLength.leWr32 (imm32 : BitVec 32) : EncodedLength.Statement (.leWr32 imm32) := rfl
theorem EncodedLength.leRd32 : EncodedLength.Statement .leRd32 := rfl
theorem EncodedLength.bwInit : EncodedLength.Statement .bwInit := rfl
theorem EncodedLength.bwWbit (imm8 : BitVec 8) : EncodedLength.Statement (.bwWbit imm8) := rfl
theorem EncodedLength.bwFlush : EncodedLength.Statement .bwFlush := rfl
theorem EncodedLength.brInit : EncodedLength.Statement .brInit := rfl
theorem EncodedLength.brRbit : EncodedLength.Statement .brRbit := rfl
theorem EncodedLength.brEof : EncodedLength.Statement .brEof := rfl
theorem EncodedLength.fmClr : EncodedLength.Statement .fmClr := rfl
theorem EncodedLength.fmAcc (imm8 : BitVec 8) : EncodedLength.Statement (.fmAcc imm8) := rfl
theorem EncodedLength.fmEos : EncodedLength.Statement .fmEos := rfl
theorem EncodedLength.fmScale : EncodedLength.Statement .fmScale := rfl
theorem EncodedLength.fmCum : EncodedLength.Statement .fmCum := rfl
theorem EncodedLength.fmFind (imm32 : BitVec 32) : EncodedLength.Statement (.fmFind imm32) := rfl
theorem EncodedLength.fmWhdr (imm32 : BitVec 32) : EncodedLength.Statement (.fmWhdr imm32) := rfl
theorem EncodedLength.fmRhdr (imm32 : BitVec 32) : EncodedLength.Statement (.fmRhdr imm32) := rfl
theorem EncodedLength.fmScan : EncodedLength.Statement .fmScan := rfl
theorem EncodedLength.hfBuild : EncodedLength.Statement .hfBuild := rfl
theorem EncodedLength.hfCodes : EncodedLength.Statement .hfCodes := rfl
theorem EncodedLength.hfEsym (imm16 : BitVec 16) : EncodedLength.Statement (.hfEsym imm16) := rfl
theorem EncodedLength.hfStep : EncodedLength.Statement .hfStep := rfl
theorem EncodedLength.hfDsym : EncodedLength.Statement .hfDsym := rfl
theorem EncodedLength.hfEnc : EncodedLength.Statement .hfEnc := rfl
theorem EncodedLength.hfDec : EncodedLength.Statement .hfDec := rfl
theorem EncodedLength.acEinit : EncodedLength.Statement .acEinit := rfl
theorem EncodedLength.acEsym (imm16 : BitVec 16) : EncodedLength.Statement (.acEsym imm16) := rfl
theorem EncodedLength.acEfin : EncodedLength.Statement .acEfin := rfl
theorem EncodedLength.acDinit : EncodedLength.Statement .acDinit := rfl
theorem EncodedLength.acDsym : EncodedLength.Statement .acDsym := rfl
theorem EncodedLength.acEnc : EncodedLength.Statement .acEnc := rfl
theorem EncodedLength.acDec : EncodedLength.Statement .acDec := rfl
theorem EncodedLength.rcEinit : EncodedLength.Statement .rcEinit := rfl
theorem EncodedLength.rcEsym (imm16 : BitVec 16) : EncodedLength.Statement (.rcEsym imm16) := rfl
theorem EncodedLength.rcEfin : EncodedLength.Statement .rcEfin := rfl
theorem EncodedLength.rcDinit : EncodedLength.Statement .rcDinit := rfl
theorem EncodedLength.rcDsym : EncodedLength.Statement .rcDsym := rfl
theorem EncodedLength.rcEnc : EncodedLength.Statement .rcEnc := rfl
theorem EncodedLength.rcDec : EncodedLength.Statement .rcDec := rfl
theorem EncodedLength.rlEinit : EncodedLength.Statement .rlEinit := rfl
theorem EncodedLength.rlEbyte (imm8 : BitVec 8) : EncodedLength.Statement (.rlEbyte imm8) := rfl
theorem EncodedLength.rlEfin : EncodedLength.Statement .rlEfin := rfl
theorem EncodedLength.rlDrec : EncodedLength.Statement .rlDrec := rfl
theorem EncodedLength.rlEnc : EncodedLength.Statement .rlEnc := rfl
theorem EncodedLength.rlDec : EncodedLength.Statement .rlDec := rfl

end Sys2Proof.Laws
end

