-- ==== Sys2Proof/Laws/Rle.lean ====
section
/-! SUPPORT. One lemma for each procedure of Machine/Rle.lean: everything it can do. -/

namespace Sys2Proof.Machine

open Sys2Proof

@[simp] theorem rlEinit_run (s : State) : rlEinit s = .ok () (s.setRl ⟨0, 0⟩) := rfl

/-- R94: the five bytes of a record. -/
theorem writeRecord_run (n : Word) (c : Byte) (s : State) : writeRecord n c s = writeBytes (leBytes32 n ++ [c]) s := by
  rw [writeRecord, writeBytes_append, leWr32, Op.bind_run, Op.bind_run]
  cases writeBytes (leBytes32 n) s with
  | ok u t =>
    dsimp only
    rw [writeBytes, Op.bind_run]
    cases snkWrite c t <;> rfl
  | error e t => rfl

theorem rlEbyte_run (b : Byte) (s : State) :
    (s.rl.cnt = 0 ∧ rlEbyte b s = .ok () (s.setRl ⟨b, 1⟩))
      ∨ (s.rl.cnt ≠ 0 ∧ b = s.rl.cur ∧ s.rl.cnt.toNat < 2 ^ 32 - 1
          ∧ rlEbyte b s = .ok () (s.setRl { s.rl with cnt := s.rl.cnt + 1 }))
      ∨ (s.rl.cnt ≠ 0 ∧ (b ≠ s.rl.cur ∨ s.rl.cnt.toNat = 2 ^ 32 - 1)
          ∧ rlEbyte b s = writeBytes (leBytes32 s.rl.cnt ++ [s.rl.cur]) (s.setRl ⟨b, 1⟩)) := by
  unfold rlEbyte
  by_cases h0 : s.rl.cnt = 0
  · exact .inl ⟨h0, by rw [if_pos h0]⟩
  · right
    rw [if_neg h0]
    by_cases h1 : b = s.rl.cur ∧ s.rl.cnt.toNat < Config.rlMax
    · exact .inl ⟨h0, h1.1, h1.2, by rw [if_pos h1]⟩
    · refine .inr ⟨h0, ?_, by rw [if_neg h1, writeRecord_run]⟩
      by_cases hb : b = s.rl.cur
      · right
        have h2 : ¬ s.rl.cnt.toNat < 4294967295 := fun h => h1 ⟨hb, h⟩
        have := s.rl.cnt.isLt
        omega
      · exact .inl hb

theorem rlEfin_run (s : State) :
    (s.rl.cnt = 0 ∧ rlEfin s = .ok () s)
      ∨ (s.rl.cnt ≠ 0
          ∧ rlEfin s = writeBytes (leBytes32 s.rl.cnt ++ [s.rl.cur]) (s.setRl { s.rl with cnt := 0 })) := by
  unfold rlEfin
  by_cases h : s.rl.cnt.toNat > 0
  · refine .inr ⟨fun e => ?_, by rw [if_pos h, writeRecord_run]⟩
    rw [e] at h; simp at h
  · refine .inl ⟨BitVec.eq_of_toNat_eq ?_, by rw [if_neg h]⟩
    exact Nat.eq_zero_of_not_pos h

/-- `RL.DREC` by what the source holds (R277 item 5). -/
theorem rlDrec_run (s : State) : rlDrec s = match s.remaining with
    | [] => .ok false s
    | [_] => .error (.raise .truncation) (s.consumed 1)
    | [_, _] => .error (.raise .truncation) (s.consumed 2)
    | [_, _, _] => .error (.raise .truncation) (s.consumed 3)
    | b0 :: b1 :: b2 :: b3 :: l =>
      if ofLeBytes32 b0 b1 b2 b3 = 0 then .error (.raise .corruptStream) (s.consumed 4)
      else match l with
        | [] => .error (.raise .truncation) (s.consumed 4)
        | v :: _ =>
          (do
            writeBytes (List.replicate (ofLeBytes32 b0 b1 b2 b3).toNat v)
            pure true : Op Bool) (s.consumed 5) := by
  rw [rlDrec, Op.bind_run, leRd32_run]
  rcases h : s.remaining with _ | ⟨b0, _ | ⟨b1, _ | ⟨b2, _ | ⟨b3, l⟩⟩⟩⟩
  · rfl
  · rfl
  · rfl
  · rfl
  · dsimp only
    by_cases h0 : ofLeBytes32 b0 b1 b2 b3 = 0
    · rw [if_pos h0, if_pos h0]; rfl
    · rw [if_neg h0, if_neg h0, Op.bind_run, readByteOrTruncation_run, State.remaining_consumed, h]
      simp only [List.drop_succ_cons, List.drop_zero]
      cases l with
      | nil => rfl
      | cons v l => simp only [State.consumed_consumed, writeCopies_eq]

theorem rlDecLoop_run (k : Nat) (s : State) : rlDecLoop (k + 1) s =
    match rlDrec s with
      | .ok true t => rlDecLoop k t
      | .ok false t => .ok () t
      | .error e t => .error e t := by
  rw [rlDecLoop, Op.bind_run]
  rcases rlDrec s with ⟨_ | _, t⟩ | ⟨e, t⟩ <;> rfl

end Sys2Proof.Machine
end

