-- ==== Sys2Proof/Machine/Assembler.lean ====
section
/-! DEFINITION. The assembler syntax of 30_encoding.md R102 and the spelling of the pseudo-operations of R103: from text to
the commands it stands for. The block itself sees only the commands' bytes. -/

namespace Sys2Proof

/-! ## Numbers and tags -/

/-- A digit of a base. -/
def digitValue (base : Nat) (c : Char) : Option Nat :=
  let n := c.toNat
  let v := if 48 ≤ n ∧ n ≤ 57 then n - 48
    else if 97 ≤ n ∧ n ≤ 102 then n - 87
    else if 65 ≤ n ∧ n ≤ 70 then n - 55
    else base
  if v < base then some v else none

/-- The digits of a number, the most significant first, after those that have given `acc`. -/
def digitsValue (base : Nat) : Nat → List Char → Option Nat
  | acc, [] => some acc
  | acc, c :: cs =>
    match digitValue base c with
    | some d => digitsValue base (acc * base + d) cs
    | none => none

/-- R102: "a decimal number, a hexadecimal number `0x..`". -/
def numberOf : List Char → Option Nat
  | [] => none
  | '0' :: 'x' :: c :: cs => digitsValue 16 0 (c :: cs)
  | cs => digitsValue 10 0 cs

/-- A number that fits a field of n bits; a larger one has no encoding (R99). -/
def fieldOf (n : Nat) (cs : List Char) : Option (BitVec n) :=
  match numberOf cs with
  | some v => if v < 2 ^ n then some (BitVec.ofNat n v) else none
  | none => none

/-- R102: "four letters in single quotes (`'HFMN'`, meaning the little-endian value of 20_memory.md rule R68)". -/
def tagOf : List Char → Option Word
  | ['\'', c0, c1, c2, c3, '\''] =>
    some (ofLeBytes32 (BitVec.ofNat 8 c0.toNat) (BitVec.ofNat 8 c1.toNat) (BitVec.ofNat 8 c2.toNat)
      (BitVec.ofNat 8 c3.toNat))
  | _ => none

/-- R102: the operations whose operand is a tag (R100). -/
def hasTagOperand (name : String) : Bool := name == "FM.WHDR" || name == "FM.RHDR"

/-! ## One command -/

/-- R100: the mnemonic of a row of the operation table. -/
def formatMnemonic : Format → String
  | .op0 i => mnemonic i
  | .op8 mk => mnemonic (mk 0)
  | .op16 mk => mnemonic (mk 0)
  | .op32 mk => mnemonic (mk 0)

/-- The operation a mnemonic names. -/
def formatNamed (name : String) : Option Format :=
  (opcodeTable.find? fun row => formatMnemonic row.2 == name).map (·.2)

/-- R102: `UNIT.FUNC` or `UNIT.FUNC operand`, by the operation's format. -/
def commandOfWords (name : String) (operands : List (List Char)) : Option Instr :=
  match formatNamed name, operands with
  | some (.op0 i), [] => some i
  | some (.op8 mk), [o] => (fieldOf 8 o).map mk
  | some (.op16 mk), [o] => (fieldOf 16 o).map mk
  | some (.op32 mk), [o] =>
    if hasTagOperand name then ((tagOf o).orElse fun _ => fieldOf 32 o).map mk else (fieldOf 32 o).map mk
  | _, _ => none

/-! ## One pseudo-operation (R103) -/

/-- The bits of a bit string, up to its closing quote. -/
def bitStringOf : List Char → Option (List Bool)
  | ['"'] => some []
  | '0' :: cs => (bitStringOf cs).map (false :: ·)
  | '1' :: cs => (bitStringOf cs).map (true :: ·)
  | _ => none

/-- The bytes of `FM.ACCS`. -/
def bytesOfWords : List (List Char) → Option (List Byte)
  | [] => some []
  | o :: os =>
    match fieldOf 8 o, bytesOfWords os with
    | some x, some xs => some (x :: xs)
    | _, _ => none

/-- R103: the spelling of each pseudo-operation. A bit string may have spaces between its bits. -/
def pseudoOfWords (name : String) (operands : List (List Char)) : Option Pseudo :=
  match name, operands with
  | "BW.WBITS", os =>
    match os.flatten with
    | '"' :: cs => (bitStringOf cs).map .wbits
    | _ => none
  | "FM.ACCS", os => (bytesOfWords os).map .accs
  | "WSYM.HF", [o] => (fieldOf 16 o).map (.wsym .hf)
  | "WSYM.AC", [o] => (fieldOf 16 o).map (.wsym .ac)
  | "WSYM.RC", [o] => (fieldOf 16 o).map (.wsym .rc)
  | "RSYM.HF", [] => some (.rsym .hf)
  | "RSYM.AC", [] => some (.rsym .ac)
  | "RSYM.RC", [] => some (.rsym .rc)
  | "FINISH.HF", [] => some (.finish .hf)
  | "FINISH.AC", [] => some (.finish .ac)
  | "FINISH.RC", [] => some (.finish .rc)
  | _, _ => none

/-! ## A program's text -/

/-- Text cut at a character. -/
def splitAt (sep : Char) : List Char → List (List Char)
  | [] => [[]]
  | c :: cs =>
    match splitAt sep cs with
    | [] => if c = sep then [[], []] else [[c]]
    | w :: ws => if c = sep then [] :: w :: ws else (c :: w) :: ws

/-- R102: one line: nothing, a command or a pseudo-operation; "A `;` starts a comment". -/
def assembleLine (line : List Char) : Option (List Instr) :=
  match (splitAt ' ' (line.takeWhile (· ≠ ';'))).filter (· ≠ []) with
  | [] => some []
  | w :: os =>
    let name := String.ofList w
    match commandOfWords name os with
    | some i => some [i]
    | none => (pseudoOfWords name os).map Pseudo.expand

/-- The lines in order. -/
def assembleLines : List (List Char) → Option (List Instr)
  | [] => some []
  | l :: ls =>
    match assembleLine l, assembleLines ls with
    | some is, some js => some (is ++ js)
    | _, _ => none

/-- R102: "One command per line". Nothing where a line is neither a command, a pseudo-operation nor a comment. -/
def assemble (text : String) : Option (List Instr) := assembleLines (splitAt '\n' text.toList)

/-- The bytes to give on the command port for a program's text. -/
def assembleBytes (text : String) : Option (List Byte) := (assemble text).map fun is => is.flatMap encode

end Sys2Proof
end

