-- ==== Sys2Proof/Tests/Slice0.lean ====
section
/-! SUPPORT. The session's own tests: the well-formedness smoke test, every constructor's decoding from a word written out from
30_encoding.md R99 and R100, one or two single steps for each instruction with values from the worked examples of the rules
named beside them, and a witness of the hypotheses of each statement. -/

-- One theorem after another: each waits for the kernel, and waiting threads take memory.
set_option Elab.async false

namespace Sys2Proof.Tests

open Sys2Proof Sys2Proof.Machine

/-- One field of the next state. -/
def look {α : Type} (o : Host.Outcome State Fault Refusal) (f : State → α) : Option α :=
  match o with
  | .next t => some (f t)
  | .fault _ => none
  | .refused _ => none

/-- A source with these bytes, an unbounded sink. -/
def src (d : List Byte) : State := State.attach d none

/-! ## The assembler (R102, R103), on lines of V21, V25, V30 and V35 -/

theorem test_assemble_tag : assembleBytes "FM.WHDR 'HFMN' ; a comment" = some [0x46, 0x48, 0x46, 0x4D, 0x4E] := by
  decide +kernel
theorem test_assemble_numbers :
    assemble "BW.WBIT 0xFF\nLE.WR32 257\n\nHF.DEC" = some [.bwWbit 0xFF, .leWr32 257, .hfDec] := by decide +kernel
theorem test_assemble_pseudo :
    assemble "FM.ACCS 0x41 0x41 0x42\nBW.WBITS \"101\"\nFINISH.AC" =
      some [.fmAcc 0x41, .fmAcc 0x41, .fmAcc 0x42, .bwWbit 1, .bwWbit 0, .bwWbit 1, .acEfin] := by decide +kernel
theorem test_assemble_refuses : assemble "BW.WBIT 256" = none := by decide +kernel

/-! ## Well-formedness -/

theorem test_illFormed_hfEsym : (Instr.hfEsym 257).wellFormed = false := by decide
theorem test_illFormed_acEsym : (Instr.acEsym 0xFFFF).wellFormed = false := by decide
theorem test_illFormed_rcEsym : (Instr.rcEsym 257).wellFormed = false := by decide
theorem test_wellFormed_eos : (Instr.hfEsym 256).wellFormed = true := by decide

/-! ## Decoding (R99, R100, R101) -/

theorem test_decode_core :
    decodeTableWord 8 0b00000000 = some .coreNop ∧ decodeTableWord 8 0b00000001 = some .coreReset
      ∧ decodeTableWord 8 0b00000010 = some .coreStatus ∧ decodeTableWord 8 0b00000011 = some .coreRewind := by decide

theorem test_decode_le :
    decodeTableWord 40 0b0000000000000000000000010000000100010000 = some (.leWr32 257)
      ∧ decodeTableWord 8 0b00010001 = some .leRd32 := by decide +kernel

theorem test_decode_bw :
    decodeTableWord 8 0b00100000 = some .bwInit ∧ decodeTableWord 16 0b0000000100100001 = some (.bwWbit 1)
      ∧ decodeTableWord 8 0b00100010 = some .bwFlush := by decide +kernel

theorem test_decode_br :
    decodeTableWord 8 0b00110000 = some .brInit ∧ decodeTableWord 8 0b00110001 = some .brRbit
      ∧ decodeTableWord 8 0b00110010 = some .brEof := by decide +kernel

theorem test_decode_fm :
    decodeTableWord 8 0b01000000 = some .fmClr ∧ decodeTableWord 16 0b0100001001000001 = some (.fmAcc 0x42)
      ∧ decodeTableWord 8 0b01000010 = some .fmEos ∧ decodeTableWord 8 0b01000011 = some .fmScale
      ∧ decodeTableWord 8 0b01000100 = some .fmCum
      ∧ decodeTableWord 40 0b0000000100000010000000110000010001000101 = some (.fmFind 0x01020304)
      ∧ decodeTableWord 40 0b0100111001001101010001100100100001000110 = some (.fmWhdr 0x4E4D4648)
      ∧ decodeTableWord 40 0b0100001101001110010001010100000101000111 = some (.fmRhdr 0x434E4541)
      ∧ decodeTableWord 8 0b01001000 = some .fmScan := by decide +kernel

theorem test_decode_hf :
    decodeTableWord 8 0b01010000 = some .hfBuild ∧ decodeTableWord 8 0b01010001 = some .hfCodes
      ∧ decodeTableWord 24 0b000000010000000001010010 = some (.hfEsym 256)
      ∧ decodeTableWord 8 0b01010011 = some .hfStep ∧ decodeTableWord 8 0b01010100 = some .hfDsym
      ∧ decodeTableWord 8 0b01011110 = some .hfEnc ∧ decodeTableWord 8 0b01011111 = some .hfDec := by decide +kernel

theorem test_decode_ac :
    decodeTableWord 8 0b01100000 = some .acEinit
      ∧ decodeTableWord 24 0b000000000100000101100001 = some (.acEsym 0x41)
      ∧ decodeTableWord 8 0b01100010 = some .acEfin ∧ decodeTableWord 8 0b01100011 = some .acDinit
      ∧ decodeTableWord 8 0b01100100 = some .acDsym ∧ decodeTableWord 8 0b01101110 = some .acEnc
      ∧ decodeTableWord 8 0b01101111 = some .acDec := by decide +kernel

theorem test_decode_rc :
    decodeTableWord 8 0b01110000 = some .rcEinit
      ∧ decodeTableWord 24 0b000000010000000101110001 = some (.rcEsym 257)
      ∧ decodeTableWord 8 0b01110010 = some .rcEfin ∧ decodeTableWord 8 0b01110011 = some .rcDinit
      ∧ decodeTableWord 8 0b01110100 = some .rcDsym ∧ decodeTableWord 8 0b01111110 = some .rcEnc
      ∧ decodeTableWord 8 0b01111111 = some .rcDec := by decide +kernel

theorem test_decode_rl :
    decodeTableWord 8 0b10000000 = some .rlEinit ∧ decodeTableWord 16 0b0100000110000001 = some (.rlEbyte 0x41)
      ∧ decodeTableWord 8 0b10000010 = some .rlEfin ∧ decodeTableWord 8 0b10000011 = some .rlDrec
      ∧ decodeTableWord 8 0b10001110 = some .rlEnc ∧ decodeTableWord 8 0b10001111 = some .rlDec := by decide +kernel

theorem test_decode_reserved :
    decodeTableWord 8 0b00000100 = none ∧ decodeTableWord 8 0b10010000 = none
      ∧ decode [0x10, 1, 2, 3] = .error (.operandMissing 0x10) := by decide +kernel

theorem test_step_fetches :
    look (step ((State.reset).withFetchWord 40 0x0000010110)) (fun t => (t.snk.data, t.cmd))
      = some ([0x01, 0x01, 0x00, 0x00], []) := by decide +kernel

/-! ## CORE (examples of R291, R292, R293) -/

theorem test_coreNop_reset : exec .coreNop State.reset = .next (State.reset.answer .none) := rfl

theorem test_coreReset_leaves_error :
    look (exec .coreReset ((src [1]).failed 4)) (fun t => (t.status, t.resp)) = some (0, answerNone) := by
  decide +kernel

theorem test_coreStatus_badMagic :
    look (exec .coreStatus ((src []).failed 2)) (fun t => (t.status, t.resp)) = some (2, answerError 2) := by
  decide +kernel

theorem test_coreRewind :
    look (exec .coreRewind ((src [0x41, 0x42]).consumed 2)) (fun t => (t.src, t.resp))
      = some (⟨[0x41, 0x42], 0⟩, answerNone) := by decide +kernel

/-! ## LE (examples of R128, R129, R62) -/

theorem test_leWr32_full :
    look (exec (.leWr32 257) (State.attach [] (some 2))) (fun t => (t.status, t.snk.data)) = some (5, [0x01, 0x01]) := by
  decide +kernel

theorem test_leRd32 :
    look (exec .leRd32 (src [0x04, 0x00, 0x00, 0x00])) (fun t => (t.src.pos, t.resp)) = some (4, answerVal 4) := by
  decide +kernel

theorem test_leRd32_partial :
    look (exec .leRd32 (src [0x04, 0x00])) (fun t => (t.src.pos, t.resp)) = some (2, answerError 1) := by
  decide +kernel

/-! ## BW, BR (examples of R120 to R126) -/

theorem test_bwInit : look (exec .bwInit ((src []).setBw ⟨1, 1⟩)) (fun t => (t.bw, t.snk.data)) = some (⟨0, 0⟩, []) := by
  decide +kernel

theorem test_bwWbit_eighth :
    look (exec (.bwWbit 1) ((src []).setBw ⟨0x20, 7⟩)) (fun t => (t.bw, t.snk.data)) = some (⟨0, 0⟩, [0x41]) := by
  decide +kernel

theorem test_bwWbit_ignores_high_bits :
    look (exec (.bwWbit 0xFE) ((src []).setBw ⟨3, 2⟩)) (fun t => t.bw) = some ⟨6, 3⟩ := by decide +kernel

theorem test_bwFlush :
    look (exec .bwFlush ((src []).setBw ⟨3, 3⟩)) (fun t => (t.bw, t.snk.data)) = some (⟨0, 0⟩, [0x60]) := by
  decide +kernel

theorem test_brInit :
    look (exec .brInit ((src []).setBr ⟨7, 3, true⟩)) (fun t => t.br) = some ⟨0, 0, false⟩ := by decide +kernel

theorem test_brRbit_first :
    look (exec .brRbit (src [0xA0])) (fun t => (t.br.rem.val, t.src.pos, t.resp)) = some (7, 1, answerVal 1) := by
  decide +kernel

theorem test_brRbit_end :
    look (exec .brRbit (src [])) (fun t => (t.br.eof, t.resp)) = some (true, answerVal 0) := by decide +kernel

theorem test_brEof : look (exec .brEof ((src []).setBr ⟨0, 0, true⟩)) (fun t => t.resp) = some (answerVal 1) := by
  decide +kernel

/-! ## FM (examples of R140 to R149) -/

/-- A frequency table with these entries. -/
def table (es : List (Symbol × Word)) : FM :=
  ⟨es.foldl (fun v e => v.set e.1.val e.2) (Vector.replicate 257 0), Vector.replicate 258 0⟩

/-- The same with its cumulative table. -/
def coded (es : List (Symbol × Word)) : FM := { table es with cum := (table es).cumTable }

theorem test_fmClr : look (exec .fmClr ((src []).setFm (table [(65, 9)]))) (fun t => t.fm.freqAt 65) = some 0 := by
  decide +kernel

theorem test_fmAcc_wraps :
    look (exec (.fmAcc 65) ((src []).setFm (table [(65, 0xFFFFFFFF), (66, 1)])))
      (fun t => (t.fm.freqAt 65, t.fm.freqAt 66)) = some (0, 1) := by decide +kernel

theorem test_fmEos : look (exec .fmEos ((src []).setFm (table [(256, 9)]))) (fun t => t.fm.freqAt 256) = some 1 := by
  decide +kernel

theorem test_fmScale :
    look (exec .fmScale ((src []).setFm (table [(65, 30000000), (66, 3), (256, 1)])))
      (fun t => (t.fm.freqAt 65, t.fm.freqAt 66, t.fm.freqAt 256, t.fm.total))
      = some (16777213, 1, 1, 16777215) := by decide +kernel

theorem test_fmCum :
    look (exec .fmCum ((src []).setFm (table [(0, 4), (1, 2), (256, 1)])))
      (fun t => (t.fm.cumAt 0, t.fm.cumAt 1, t.fm.cumAt 2, t.fm.cumAt 256, t.fm.cumAt 257))
      = some (0, 4, 6, 6, 7) := by decide +kernel

theorem test_fmFind :
    look (exec (.fmFind 6) ((src []).setFm (coded [(0, 4), (1, 2), (256, 1)]))) (fun t => t.resp)
      = some (answerVal 256) := by decide +kernel

theorem test_fmFind_above :
    look (exec (.fmFind 7) ((src []).setFm (coded [(0, 4), (1, 2), (256, 1)]))) (fun t => t.resp)
      = some (answerError 4) := by decide +kernel

theorem test_fmWhdr :
    look (exec (.fmWhdr 0x4E4D4648) ((src []).setFm (table [(256, 1)])))
      (fun t => (t.snk.data.take 8, t.snk.data.drop 1032, t.snk.data.length))
      = some ([0x48, 0x46, 0x4D, 0x4E, 0x01, 0x01, 0x00, 0x00], [0x01, 0x00, 0x00, 0x00], 1036) := by decide +kernel

theorem test_fmRhdr_badMagic :
    look (exec (.fmRhdr 0x434E4541) (src [0x41, 0x45, 0x4E, 0x58])) (fun t => (t.status, t.src.pos)) = some (2, 4) := by
  decide +kernel

theorem test_fmScan :
    look (exec .fmScan (src [0x61, 0x62, 0x72, 0x61])) (fun t =>
      (t.fm.freqAt 0x61, t.fm.freqAt 0x62, t.fm.freqAt 0x72, t.fm.freqAt 256, t.src.pos)) = some (2, 1, 1, 1, 4) := by
  decide +kernel

/-! ## HF (examples of R162 to R169) -/

/-- Counts 0x41:1, 256:1. -/
def pair : FM := table [(0x41, 1), (256, 1)]

/-- A unit with these arena entries, the last one the root, and a source. -/
def treeOf (ns : List Node) (d : List Byte) : State :=
  (src d).setHf { HF.reset with
    node := ns.zipIdx.foldl (fun v e => v.setIfInBounds e.2 e.1) HF.reset.node, n := BitVec.ofNat 10 ns.length,
    root := BitVec.ofNat 10 (ns.length - 1), walk := BitVec.ofNat 10 (ns.length - 1) }

/-- The tree of counts 0x41:1, 256:1 (R162's example). -/
def pairTree : List Node := [⟨1, 0x41, Config.null, Config.null⟩, ⟨1, 256, Config.null, Config.null⟩, ⟨2, 0, 1, 0⟩]

/-- The tree of counts 0x41:1, 0x42:1, 256:1: 256 and 0x42 are joined first (R161). -/
def threeTree : List Node :=
  [⟨1, 0x41, Config.null, Config.null⟩, ⟨1, 0x42, Config.null, Config.null⟩, ⟨1, 256, Config.null, Config.null⟩,
   ⟨2, 0, 2, 1⟩, ⟨3, 0, 0, 3⟩]

theorem test_hfBuild :
    look (exec .hfBuild ((src []).setFm pair)) (fun t => (t.hf.n, t.hf.root, t.hf.walk, t.hf.nodeAt 1, t.hf.nodeAt 2))
      = some (3, 2, 2, ⟨1, 256, Config.null, Config.null⟩, ⟨2, 0, 1, 0⟩) := by decide +kernel

theorem test_hfCodes :
    look (exec .hfCodes (treeOf pairTree [])) (fun t => (t.hf.codeWord 256, t.hf.codeWord 0x41, t.hf.codeWord 0))
      = some ([false], [true], []) := by decide +kernel

theorem test_hfCodes_noTree : look (exec .hfCodes (src [])) (fun t => t.resp) = some (answerError 6) := by
  decide +kernel

/-- The code `"110"` for symbol 0x62 (R164's second example). -/
def codeState : State :=
  (src []).setHf { HF.reset with len := HF.reset.len.set 0x62 3, bits := HF.reset.bits.set 0x62 6 }

theorem test_hfEsym : look (exec (.hfEsym 0x62) codeState) (fun t => t.bw) = some ⟨6, 3⟩ := by decide +kernel

theorem test_hfStep : look (exec .hfStep (treeOf pairTree [0x80])) (fun t => t.resp) = some (answerVal 0x41) := by
  decide +kernel

theorem test_hfStep_absent :
    look (exec .hfStep (treeOf [⟨1, 256, Config.null, Config.null⟩, ⟨1, 0, 0, Config.null⟩] [0x80])) (fun t => t.resp) = some (answerError 4) := by decide +kernel

theorem test_hfDsym :
    look (exec .hfDsym (treeOf threeTree [0x80])) (fun t => (t.resp, t.br.rem.val, t.hf.walk))
      = some (answerVal 256, 6, 4) := by decide +kernel

theorem test_hfEnc_empty :
    look (exec .hfEnc (src [])) (fun t => (t.resp, t.snk.data.drop 1032)) = some (answerNone, [1, 0, 0, 0, 0x00]) := by
  decide +kernel

theorem test_hfDec_badMagic :
    look (exec .hfDec (src [0x41, 0x45, 0x4E, 0x43])) (fun t => (t.resp, t.src.pos)) = some (answerError 2, 4) := by
  decide +kernel

/-! ## AC (examples of R192 to R201) -/

theorem test_acEinit :
    look (exec .acEinit ((src []).setAc ⟨1, 2, 3, 4, 5⟩)) (fun t => t.ac) = some ⟨0, 0xFFFFFFFF, 3, 0, 5⟩ := by
  decide +kernel

/-- Counts 0x41:1, 256:1 with the cumulative table. -/
def half : State := (src []).setFm (coded [(0x41, 1), (256, 1)])

theorem test_acEsym_upper :
    look (exec (.acEsym 256) half) (fun t => (t.bw, t.ac)) = some (⟨1, 1⟩, ⟨0, 0xFFFFFFFF, 0, 0, 0⟩) := by
  decide +kernel

theorem test_acEsym_noTable : look (exec (.acEsym 0) (src [])) (fun t => t.resp) = some (answerError 6) := by
  decide +kernel

theorem test_acEfin : look (exec .acEfin ((src []).setBw ⟨1, 2⟩)) (fun t => (t.snk.data, t.ac.pend)) = some ([0x50], 0) := by
  decide +kernel

theorem test_acDinit :
    look (exec .acDinit (src [0x5A, 0x00])) (fun t => (t.ac.code, t.ac.zfill.val, t.br.eof))
      = some (0x5A000000, 16, true) := by decide +kernel

theorem test_acDsym :
    look (exec .acDsym (((src []).setFm (coded [(0, 4), (1, 2), (256, 1)])).setAc ⟨0, 0xFFFFFFFF, 0x5A000000, 0, 16⟩))
      (fun t => (t.resp, t.ac.low, t.ac.high)) = some (answerVal 0, 0, 0x92492491) := by decide +kernel

theorem test_acDsym_exhausted :
    look (exec .acDsym ((src []).setAc ⟨0, 0xFFFFFFFF, 0, 0, 32⟩)) (fun t => t.resp) = some (answerError 1) := by
  decide +kernel

theorem test_acEnc_empty :
    look (exec .acEnc (src [])) (fun t => (t.resp, t.snk.data.drop 1032)) = some (answerNone, [1, 0, 0, 0, 0x40]) := by
  decide +kernel

theorem test_acDec_badMagic :
    look (exec .acDec (src [0x41, 0x45, 0x4E, 0x58])) (fun t => (t.resp, t.snk.data)) = some (answerError 2, []) := by
  decide +kernel

/-! ## RC (examples of R221 to R229) -/

theorem test_rcEinit :
    look (exec .rcEinit ((src []).setRc ⟨1, 2, 3, 4⟩)) (fun t => t.rc) = some ⟨0, 0xFFFFFFFF, 3, 4⟩ := by decide +kernel

theorem test_rcEsym :
    look (exec (.rcEsym 256) (half.setRc ⟨0, 0x7FFFFFFF, 0, 0⟩)) (fun t => (t.rc.low, t.rc.high, t.snk.data))
      = some (0x40000000, 0x7FFFFFFF, []) := by decide +kernel

theorem test_rcEsym_collapse :
    look (exec (.rcEsym 1) (((src []).setFm (coded [(0, 196607), (1, 2), (256, 50135039)])).setRc
      ⟨0x00FFFFAA, 0x01000054, 0, 0⟩)) (fun t => t.resp) = some (answerError 6) := by decide +kernel

theorem test_rcEfin :
    look (exec .rcEfin ((src []).setRc ⟨0x40ABCDEF, 0x7FFFFFFF, 0, 0⟩)) (fun t => (t.snk.data, t.rc.low))
      = some ([0x40, 0xAB, 0xCD, 0xEF], 0) := by decide +kernel

theorem test_rcDinit :
    look (exec .rcDinit (src [0x59, 0xF5])) (fun t => (t.rc.code, t.rc.zfill.val)) = some (0x59F50000, 2) := by
  decide +kernel

theorem test_rcDsym :
    look (exec .rcDsym (half.setRc ⟨0, 0x7FFFFFFF, 0x40000000, 0⟩)) (fun t => t.resp) = some (answerVal 256) := by
  decide +kernel

theorem test_rcEnc_empty :
    look (exec .rcEnc (src [])) (fun t => (t.status, t.resp, t.snk.data.drop 1032))
      = some (0, answerNone, [1, 0, 0, 0, 0x00, 0x00, 0x00, 0x00]) := by decide +kernel

theorem test_rcDec_empty : look (exec .rcDec (src [])) (fun t => (t.resp, t.snk.data)) = some (answerError 1, []) := by
  decide +kernel

/-! ## RL (examples of R251 to R256) -/

theorem test_rlEinit : look (exec .rlEinit ((src []).setRl ⟨9, 9⟩)) (fun t => t.rl) = some ⟨0, 0⟩ := by decide +kernel

theorem test_rlEbyte_restarts :
    look (exec (.rlEbyte 1) ((src []).setRl ⟨0, 4⟩)) (fun t => (t.snk.data, t.rl)) = some ([4, 0, 0, 0, 0], ⟨1, 1⟩) := by
  decide +kernel

theorem test_rlEbyte_splits :
    look (exec (.rlEbyte 7) ((src []).setRl ⟨7, 0xFFFFFFFF⟩)) (fun t => (t.snk.data, t.rl))
      = some ([0xFF, 0xFF, 0xFF, 0xFF, 7], ⟨7, 1⟩) := by decide +kernel

theorem test_rlEfin : look (exec .rlEfin ((src []).setRl ⟨1, 1⟩)) (fun t => (t.snk.data, t.rl.cnt)) = some ([1, 0, 0, 0, 1], 0) := by
  decide +kernel

theorem test_rlDrec_zero :
    look (exec .rlDrec (src [0, 0, 0, 0, 0x41])) (fun t => (t.resp, t.src.pos, t.snk.data)) = some (answerError 4, 4, []) := by
  decide +kernel

theorem test_rlDrec :
    look (exec .rlDrec (src [4, 0, 0, 0, 0])) (fun t => (t.resp, t.snk.data)) = some (answerVal 1, [0, 0, 0, 0]) := by
  decide +kernel

theorem test_rlEnc :
    look (exec .rlEnc (src [0, 0, 0, 0, 1])) (fun t => t.snk.data) = some [4, 0, 0, 0, 0, 1, 0, 0, 0, 1] := by
  decide +kernel

theorem test_rlDec :
    look (exec .rlDec (src [4, 0, 0, 0, 0, 1, 0, 0, 0, 1])) (fun t => (t.resp, t.snk.data))
      = some (answerNone, [0, 0, 0, 0, 1]) := by decide +kernel

/-! ## Witnesses: the hypotheses of the statements can be met, each clause at the edge of its range -/

/-- A sink with one byte, and this capacity. -/
def sink (d : List Byte) (cap : Nat) : State := (State.attach d (some cap)).wrote [0xEE]

theorem witness_StepPerformsTheDecodedCommand :
    decode ((src []).setCmd [0x21, 1, 9]).cmd = .ok (.bwWbit 1, [9]) := by decide +kernel

theorem witness_IdleCommandPortKeepsTheState : State.reset.cmd = [] := rfl

theorem witness_ReservedOpcodesAndLargeSymbolsAreBadCommands :
    ((src []).setCmd [0x04]).cmd = 0x04 :: [] ∧ (0x04 : Byte) ∉ definedOpcodes ∧ (0x90 : Byte) ∉ definedOpcodes
      ∧ 256 < (257 : BitVec 16).toNat ∧ ((src []).setCmd [0x04]).status = 0 := by decide +kernel

theorem witness_IncompleteCommandIsBadCommand :
    ((src []).setCmd [0x10, 1, 2, 3]).cmd = 0x10 :: [1, 2, 3] ∧ (0x10 : Byte) ∈ definedOpcodes
      ∧ [1, 2, 3].length + 1 < commandLength 0x10 ∧ (0x21 : Byte) ∈ definedOpcodes
      ∧ ([] : List Byte).length + 1 < commandLength 0x21 ∧ ((src []).setCmd [0x10, 1, 2, 3]).status = 0 := by
  decide +kernel

theorem witness_NonzeroStatusRefusesAllButReset :
    ((src []).failed 1).status ≠ 0 ∧ ((src []).failed 7).status ≠ 0 ∧ Instr.coreNop ≠ .coreReset
      ∧ (((src []).failed 1).setCmd [0x90]).cmd = 0x90 :: [] ∧ (0x90 : Byte) ≠ 0x01 := by decide +kernel

theorem witness_NopStatusAndRewind : (src [1]).status = 0 ∧ ((src [1]).failed 3).status ≠ 0 := by decide +kernel

theorem witness_EveryAnswerFollowsTheResultPortRule : ∃ t, exec .coreNop State.reset = .next t := ⟨_, rfl⟩

theorem witness_StepsKeepTheStreamsWellFormed :
    (∃ t, step State.reset = .next t) ∧ Memory.wf State.reset.src State.reset.snk = true := ⟨⟨_, rfl⟩, by decide⟩

theorem legal_of_reset : State.reset.hf.legal :=
  ⟨by decide, by decide, fun h => absurd rfl h, fun _ h => absurd h (Nat.not_lt_zero _)⟩

theorem registersLegal_of_reset : State.reset.registersLegal := by
  refine ⟨by unfold BW.legal; decide, ⟨?_, ?_⟩, legal_of_reset, by decide, fun _ => by decide⟩
  · simp [State.reset, State.attach, FM.reset, FM.cumAt]
  · intro i hi
    have h : ∀ j, j < 258 → State.reset.fm.cumAt j = 0 := fun j hj => by
      simp [State.reset, State.attach, FM.reset, FM.cumAt, hj]
    rw [h i (by omega), h (i + 1) (by omega)]

theorem codesLegal_of_reset : HF.reset.codesLegal := fun x => by simp [HF.reset]

theorem legal_reset : State.reset.Legal :=
  ⟨registersLegal_of_reset,
    ⟨by decide, fun h => absurd rfl h, fun _ h => absurd h (Nat.not_lt_zero _), fun _ _ h => absurd h (Nat.not_lt_zero _),
      fun _ h => absurd h (Nat.not_lt_zero _)⟩,
    fun _ => rfl, codesLegal_of_reset⟩

theorem witness_StepsKeepTheRegistersLegal : State.reset.Legal ∧ ∃ t, step State.reset = .next t := ⟨legal_reset, ⟨_, rfl⟩⟩

theorem witness_EveryCommandEnds : ∃ s : State, s.registersLegal := ⟨_, registersLegal_of_reset⟩

theorem witness_WordsAreWrittenLittleEndian :
    (sink [] 5).status = 0 ∧ (sink [] 5).hasRoom 4 = true ∧ (sink [] 4).roomOnlyFor 3 4 ∧ (sink [] 1).roomOnlyFor 0 4 := by
  unfold State.roomOnlyFor; decide +kernel

theorem witness_WordsAreReadLittleEndian :
    (src []).remaining = [] ∧ (src [1]).remaining.length = 1 ∧ (src [1, 2, 3]).remaining.length = 3
      ∧ (src [1, 2, 3, 4]).remaining = 1 :: 2 :: 3 :: 4 :: [] ∧ (src []).status = 0 := by decide +kernel

theorem witness_BitWriterCommands :
    ((src []).setBw ⟨0, 0⟩).bw.cnt.val = 0 ∧ ((src []).setBw ⟨3, 6⟩).bw.cnt.val < 7
      ∧ ((sink [] 2).setBw ⟨3, 7⟩).bw.cnt.val = 7 ∧ ((sink [] 2).setBw ⟨3, 7⟩).hasRoom 1 = true
      ∧ ((sink [] 1).setBw ⟨3, 7⟩).roomOnlyFor 0 1 ∧ 0 < ((sink [] 1).setBw ⟨1, 1⟩).bw.cnt.val
      ∧ ((sink [] 1).setBw ⟨1, 1⟩).status = 0 := by unfold State.roomOnlyFor; decide +kernel

theorem witness_BitsWrittenArePacked :
    (sink [] 2).status = 0 ∧ (sink [] 2).hasRoom (([true, false, true].length + 7) / 8) = true := by decide +kernel

theorem witness_BitReaderCommands :
    ((src []).setBr ⟨0, 0, true⟩).br.eof = true ∧ (src []).br.eof = false ∧ (src []).br.rem.val = 0
      ∧ (src []).remaining = [] ∧ (src [7]).remaining = 7 :: [] ∧ (src [7]).br.rem.val = 0
      ∧ ((src []).setBr ⟨5, 1, false⟩).br.rem.val = (0 : Fin 8).val + 1
      ∧ ((src []).setBr ⟨5, 8, false⟩).br.rem.val = (7 : Fin 8).val + 1 ∧ (src []).status = 0 := by decide +kernel

theorem packed_example : IsPacked [false, true, true] [0x60] := by unfold IsPacked; decide +kernel

theorem witness_BitsReadAreTheBitsWritten :
    IsPacked [false, true, true] [0x60] ∧ (src [0x60]).remaining = [0x60] ∧ (src [0x60]).status = 0 :=
  ⟨packed_example, rfl, rfl⟩

theorem witness_CountsAreClearedCountedAndMarked : (src []).status = 0 := rfl
theorem witness_ScanCountsTheRestOfTheSource :
    (src [1]).status = 0 ∧ ((src [1]).consumed 1).src.pos ≤ ((src [1]).consumed 1).src.data.length := by decide +kernel
theorem witness_ScalingOfEveryCount : ((src []).setFm (table [(1, 1)])).status = 0 := rfl
theorem witness_ScalingBoundsTheTotal : 0 < ((src []).setFm (table [(1, 1)])).fm.freqAt 1 ∧ (src []).status = 0 := by
  decide +kernel

theorem witness_CumulativeTableIsThePrefixSum :
    ((src []).setFm (table [(1, 0xFFFFFFFF), (2, 1)])).fm.total = 2 ^ 32
      ∧ ((src []).setFm (table [(1, 0xFFFFFFFF)])).fm.total = 2 ^ 32 - 1 ∧ (src []).status = 0 := by decide +kernel

/-- The cumulative table of counts 0x41:1, 256:1. -/
def halves : FM :=
  ⟨Vector.replicate 257 0, Vector.ofFn fun i : Fin 258 => if i.val ≤ 0x41 then 0 else if i.val ≤ 256 then 1 else 2⟩

theorem halves_cumAt {i : Nat} (h : i < 258) : halves.cumAt i = if i ≤ 0x41 then 0 else if i ≤ 256 then 1 else 2 := by
  unfold FM.cumAt halves
  rw [Vector.getElem?_eq_getElem h]
  simp only [Vector.getElem_ofFn]
  split
  · rfl
  · split <;> rfl

theorem halves_legal : halves.cumLegal ∧ halves.cumAt 257 ≠ 0 := by
  refine ⟨⟨by rw [halves_cumAt (by omega)]; rfl, fun i hi => ?_⟩, by rw [halves_cumAt (by omega)]; decide⟩
  rw [halves_cumAt (by omega), halves_cumAt (by omega)]
  split_ifs <;> omega

theorem witness_FindGivesTheUniqueSymbol :
    ((src []).setFm halves).fm.cumLegal ∧ ((src []).setFm halves).fm.cumAt 257 ≤ (2 : Word).toNat
      ∧ (1 : Word).toNat < ((src []).setFm halves).fm.cumAt 257 ∧ ((src []).setFm halves).status = 0 := by
  have h : ((src []).setFm halves).fm.cumAt 257 = 2 := halves_cumAt (by omega)
  exact ⟨halves_legal.1, by rw [h]; decide, by rw [h]; decide, rfl⟩

theorem witness_HeaderIsWritten :
    (sink [] 1037).hasRoom 1036 = true ∧ (sink [] 1036).roomOnlyFor 1035 1036 ∧ (sink [] 1).roomOnlyFor 0 1036
      ∧ (sink [] 1).status = 0 := by unfold State.roomOnlyFor; decide +kernel

theorem witness_HeaderIsReadAndChecked :
    (src [1, 2, 3]).remaining.length < 4
      ∧ 4 ≤ (src [1, 2, 3, 4]).remaining.length ∧ (src [1, 2, 3, 4]).remaining.take 4 ≠ leBytes32 0x434E4541
      ∧ (src [0x41, 0x45, 0x4E, 0x43, 1, 1, 0]).remaining.take 4 = leBytes32 0x434E4541
      ∧ (src [0x41, 0x45, 0x4E, 0x43, 1, 1, 0]).remaining.length < 8
      ∧ 8 ≤ (src [0x41, 0x45, 0x4E, 0x43, 0, 1, 0, 0]).remaining.length
      ∧ ((src [0x41, 0x45, 0x4E, 0x43, 0, 1, 0, 0]).remaining.drop 4).take 4 ≠ [0x01, 0x01, 0x00, 0x00]
      ∧ (src [0x41, 0x45, 0x4E, 0x43, 1, 1, 0, 0]).remaining.take 8 = leBytes32 0x434E4541 ++ [0x01, 0x01, 0x00, 0x00]
      ∧ (src [0x41, 0x45, 0x4E, 0x43, 1, 1, 0, 0]).remaining.length < 1036 ∧ (src []).status = 0 := by decide +kernel

theorem witness_HeaderIsReadAndChecked_whole (f : Vector Word 257) :
    (src (headerBytes 0x434E4541 f)).remaining = headerBytes 0x434E4541 f ++ [] := (List.append_nil _).symm

theorem witness_HeaderIsReadAndChecked_tables :
    ((table [(65, 1)]).freq[65] ≠ 0 ∧ (table [(65, 1)]).freq[256] = 0) ∧ (table [(256, 1)]).freq[256] ≠ 0
      ∧ ∀ x : Symbol, (table []).freq[x] = 0 := by
  refine ⟨by decide +kernel, by decide +kernel, fun x => ?_⟩
  simp [table]

theorem witness_DegenerateTreesAreBuilt :
    (src []).fm.coded = [] ∧ ((src []).setFm (table [(256, 1)])).fm.coded = [256] ∧ (src []).status = 0 := by
  decide +kernel

theorem witness_HuffmanTreeIsBuilt : ((src []).setFm pair).fm.coded.length = 2 ∧ ((src []).setFm pair).status = 0 := by
  decide +kernel

theorem witness_CodesNeedATree :
    (src []).hf.root = 0x3FF#10 ∧ (treeOf pairTree []).hf.root ≠ 0x3FF#10 ∧ (treeOf pairTree []).status = 0 := by
  decide +kernel

theorem witness_CodesArePathsAndPrefixFree :
    (src []).fm.freqAt 0 = 0 ∧ (src []).fm.total = 0 ∧ pair.total ≠ 0 ∧ pair.freqAt 0x41 ≠ 0 ∧ (src []).status = 0 := by
  decide +kernel

theorem witness_SymbolsAreEmittedAsTheirCodes :
    256 < (257 : BitVec 16).toNat ∧ (256 : BitVec 16).toNat = (256 : Symbol).val ∧ codeState.hf.len[(256 : Symbol)] = 0
      ∧ (0x62 : BitVec 16).toNat = (0x62 : Symbol).val ∧ codeState.hf.len[(0x62 : Symbol)] ≠ 0 ∧ codeState.status = 0 := by
  decide +kernel

theorem below_three {i : NodeIdx} (hi : i.toNat < 3) : i = 0 ∨ i = 1 ∨ i = 2 := by
  have : i.toNat = 0 ∨ i.toNat = 1 ∨ i.toNat = 2 := by omega
  rcases this with h | h | h
  · exact .inl (BitVec.eq_of_toNat_eq h)
  · exact .inr (.inl (BitVec.eq_of_toNat_eq h))
  · exact .inr (.inr (BitVec.eq_of_toNat_eq h))

theorem pairTree_legal : (treeOf pairTree []).hf.legal := by
  refine ⟨by decide +kernel, by decide +kernel, fun _ => ⟨by decide +kernel, by decide +kernel, .inl rfl⟩, ?_⟩
  change ∀ i : NodeIdx, i.toNat < 3 → _
  intro i hi
  rcases below_three hi with rfl | rfl | rfl <;> refine ⟨?_, ?_, ?_⟩ <;> decide +kernel

theorem pairTree_strict : (treeOf pairTree []).hf.strictTree := by
  refine ⟨by decide +kernel, by decide +kernel, ?_, ?_, ?_⟩
  · change ∀ i : NodeIdx, i.toNat < 3 → _
    intro i hi
    rcases below_three hi with rfl | rfl | rfl
    · exact fun _ => ⟨2, true, by decide, by decide +kernel⟩
    · exact fun _ => ⟨2, false, by decide, by decide +kernel⟩
    · exact fun h => absurd (by decide +kernel) h
  · change ∀ p q : NodeIdx, p.toNat < 3 → q.toNat < 3 → _
    intro p q hp hq
    rcases below_three hp with rfl | rfl | rfl <;> rcases below_three hq with rfl | rfl | rfl <;> decide +kernel
  · change ∀ p : NodeIdx, p.toNat < 3 → _
    intro p hp
    rcases below_three hp with rfl | rfl | rfl <;> decide +kernel

theorem treeOf_codesLegal (ns : List Node) (d : List Byte) : (treeOf ns d).hf.codesLegal := fun x => by
  change (HF.reset.len[x]).toNat ≤ 256 ∧ (HF.reset.bits[x]).toNat < 2 ^ (HF.reset.len[x]).toNat
  exact codesLegal_of_reset x

/-- A legal state with a tree and a walker. -/
theorem witness_StepsKeepTheRegistersLegal_tree :
    (treeOf pairTree []).Legal ∧ (treeOf pairTree []).hf.root ≠ Config.null ∧ ∃ t, step (treeOf pairTree []) = .next t :=
  ⟨⟨⟨registersLegal_of_reset.1, registersLegal_of_reset.2.1, pairTree_legal, by decide, fun _ => by decide⟩,
      pairTree_strict, fun _ => by decide +kernel, treeOf_codesLegal _ _⟩, by decide +kernel, ⟨_, rfl⟩⟩

theorem witness_WalkerStepsByOneBit :
    (treeOf pairTree [0x80]).hf.legal ∧ (treeOf pairTree [0x80]).hf.root ≠ 0x3FF#10
      ∧ (treeOf pairTree []).bitStream = [] ∧ (treeOf pairTree [0x80]).bitStream = true :: List.replicate 7 false
      ∧ (src []).hf.root = 0x3FF#10 ∧ (treeOf pairTree []).status = 0 :=
  ⟨pairTree_legal, by decide +kernel, by decide +kernel, by decide +kernel, by decide +kernel, rfl⟩

theorem witness_SymbolReadRepeatsTheStep :
    (treeOf pairTree [0x80]).hf.legal ∧ (treeOf pairTree [0x80]).hf.walkerAtLeafRoot
      ∧ (treeOf pairTree [0x80]).hf.root ≠ 0x3FF#10
      ∧ (treeOf pairTree [0x80]).bitStream = [true] ++ List.replicate 7 false
      ∧ (treeOf pairTree [0x80]).hf.reaches (treeOf pairTree [0x80]).hf.walk [true] 0
      ∧ ((treeOf pairTree [0x80]).hf.nodeAt 0).isLeaf = true ∧ (treeOf pairTree []).status = 0
      ∧ ∃ t, exec .hfStep (src []) = .next t := by
  refine ⟨pairTree_legal, fun _ => rfl, by decide +kernel, by decide +kernel, ⟨by decide +kernel, ?_⟩, by decide +kernel, rfl,
    ⟨_, rfl⟩⟩
  change (if true = true then _ else _) = _
  decide +kernel

/-- The tree of R163's first case: one leaf, of EOS. -/
def leafTree : List Node := [⟨1, 256, Config.null, Config.null⟩]

theorem witness_SymbolReadRepeatsTheStep_leafRoot :
    (treeOf leafTree [0x7F]).hf.legal ∧ (treeOf leafTree [0x7F]).hf.root ≠ 0x3FF#10
      ∧ ((treeOf leafTree [0x7F]).hf.nodeAt (treeOf leafTree [0x7F]).hf.root).isLeaf = true
      ∧ (treeOf leafTree [0x7F]).bitStream = false :: List.replicate 7 true ∧ (treeOf leafTree [0x7F]).status = 0 := by
  refine ⟨⟨by decide +kernel, by decide +kernel, fun _ => ⟨by decide +kernel, by decide +kernel, .inl rfl⟩, ?_⟩,
    by decide +kernel, by decide +kernel, by decide +kernel, rfl⟩
  change ∀ i : NodeIdx, i.toNat < 1 → _
  intro i hi
  obtain rfl : i = 0 := BitVec.eq_of_toNat_eq (by simpa using hi)
  refine ⟨?_, ?_, ?_⟩ <;> decide +kernel

theorem witness_HuffmanEncoderWritesTheStream :
    (src []).status = 0 ∧ (src []).snk.cap = none ∧ fewOccurrences (src []).remaining :=
  ⟨rfl, rfl, fun b => by
    change [].count b < 2 ^ 32
    rw [List.count_nil]; omega⟩

theorem witness_EmptyInputIsEncoded :
    (src []).status = 0 ∧ (src []).snk.cap = none ∧ (src []).remaining = [] ∧ (src [0xFF]).remaining = [0xFF] :=
  ⟨rfl, rfl, rfl, rfl⟩

theorem witness_EosOnlyStreamsDecodeToNothing (tag : Word) :
    (src (headerBytes tag eosOnly ++ [])).remaining = headerBytes tag eosOnly ++ []
      ∧ (src (headerBytes tag eosOnly ++ [0x7F])).remaining = headerBytes tag eosOnly ++ [0x7F]
      ∧ (0x7F : Byte).getLsbD 7 = false ∧ (src []).status = 0 := ⟨rfl, rfl, rfl, rfl⟩

theorem witness_HuffmanRoundTrip : fewOccurrences [0x41] := fun b => by
  have : [0x41].count b ≤ 1 := by simpa using List.count_le_length (a := b) (l := [0x41])
  omega

theorem witness_EncodersAreInitialised : (src []).status = 0 := rfl

theorem witness_ArithmeticSymbolIsEncoded :
    256 < (257 : BitVec 16).toNat ∧ (256 : BitVec 16).toNat = (256 : Symbol).val
      ∧ ¬ (src []).fm.hasShare (src []).ac.low (src []).ac.high 256
      ∧ ((src []).setFm halves).fm.cumLegal ∧ (src []).ac.low.toNat ≤ (src []).ac.high.toNat
      ∧ ((src []).setFm halves).fm.hasShare (src []).ac.low (src []).ac.high 256 ∧ ((src []).setFm halves).status = 0 := by
  refine ⟨by decide, by decide, fun h => h.1 (by decide +kernel), halves_legal.1, by decide, ⟨?_, ?_⟩, rfl⟩ <;>
    decide +kernel

theorem witness_ArithmeticCoderFinishes : (src []).status = 0 ∧ (src []).snk.cap = none := ⟨rfl, rfl⟩
theorem witness_ArithmeticDecoderStarts : (src [0x5A, 0x00]).status = 0 := rfl

theorem witness_DecodersCheckInOrder :
    ((src []).setAc ⟨0, 0xFFFFFFFF, 0, 0, 32⟩).ac.zfill.val = 32 ∧ ((src []).setAc ⟨0, 0xFFFFFFFF, 0, 0, 31⟩).ac.zfill.val < 32
      ∧ (src []).fm.cumAt 257 = 0 ∧ ((src []).setFm halves).fm.cumAt 257 ≠ 0
      ∧ ((src []).setAc ⟨1, 5, 0, 0, 31⟩).ac.code.toNat < ((src []).setAc ⟨1, 5, 0, 0, 31⟩).ac.low.toNat
      ∧ ((src []).setAc ⟨1, 5, 6, 0, 31⟩).ac.high.toNat < ((src []).setAc ⟨1, 5, 6, 0, 31⟩).ac.code.toNat
      ∧ ((src []).setRc ⟨0, 1, 0, 4⟩).rc.zfill.val = 4 ∧ ((src []).setRc ⟨0, 1, 0, 3⟩).rc.zfill.val < 4
      ∧ ((src []).setRc ⟨1, 5, 0, 3⟩).rc.code.toNat < ((src []).setRc ⟨1, 5, 0, 3⟩).rc.low.toNat
      ∧ ((src []).setRc ⟨1, 5, 6, 3⟩).rc.high.toNat < ((src []).setRc ⟨1, 5, 6, 3⟩).rc.code.toNat := by decide +kernel

theorem witness_ArithmeticSymbolIsDecoded :
    ((src []).setFm halves).fm.cumLegal ∧ ((src []).setFm halves).fm.cumAt 257 ≠ 0 ∧ (src []).ac.zfill.val < 32
      ∧ (src []).ac.low.toNat ≤ (src []).ac.code.toNat ∧ (src []).ac.code.toNat ≤ (src []).ac.high.toNat
      ∧ ((src []).setFm halves).status = 0 := ⟨halves_legal.1, halves_legal.2, by decide, by decide, by decide, rfl⟩

theorem witness_RangeSymbolIsEncoded :
    256 < (257 : BitVec 16).toNat ∧ (256 : BitVec 16).toNat = (256 : Symbol).val
      ∧ ¬ (src []).fm.hasShare (src []).rc.low (src []).rc.high 256
      ∧ ((src []).setFm halves).fm.cumLegal ∧ (src []).rc.low.toNat ≤ (src []).rc.high.toNat
      ∧ ((src []).setFm halves).fm.hasShare (src []).rc.low (src []).rc.high 256 ∧ (sink [] 1).roomOnlyFor 0 1
      ∧ ((src []).setFm halves).status = 0 := by
  refine ⟨by decide, by decide, fun h => h.1 (by decide +kernel), halves_legal.1, by decide, ⟨?_, ?_⟩, ⟨?_, ?_⟩, rfl⟩ <;>
    decide +kernel

theorem witness_RangeCoderFinishes :
    (sink [] 5).hasRoom 4 = true ∧ (sink [] 4).roomOnlyFor 3 4 ∧ (sink [] 1).roomOnlyFor 0 4 ∧ (sink [] 1).status = 0 := by
  unfold State.roomOnlyFor; decide +kernel

theorem witness_RangeDecoderStarts : (src [0x59, 0xF5]).status = 0 := rfl

theorem witness_RangeSymbolIsDecoded :
    ((src []).setFm halves).fm.cumLegal ∧ ((src []).setFm halves).fm.cumAt 257 ≠ 0 ∧ (src []).rc.zfill.val < 4
      ∧ (src []).rc.low.toNat ≤ (src []).rc.code.toNat ∧ (src []).rc.code.toNat ≤ (src []).rc.high.toNat
      ∧ ((src []).setFm halves).status = 0 := ⟨halves_legal.1, halves_legal.2, by decide, by decide, by decide, rfl⟩

theorem witness_EncodersAreTheirExpansions :
    (src [1]).status = 0 ∧ (src [1]).src.pos = 0 ∧ ((src [1]).consumed 1).src.pos ≠ 0
      ∧ (encoderExpansions (src [1]).remaining).map (fun e => (e.1, e.2.2.length))
        = [(.hfEnc, 7), (.acEnc, 8), (.rcEnc, 7), (.rlEnc, 3)]
      ∧ (Instr.rlEnc, [], [Instr.rlEinit, .rlEbyte 1, .rlEfin]) ∈ encoderExpansions (src [1]).remaining := by decide +kernel

theorem witness_DecodersReadSymbolsUntilEos :
    (src []).status = 0 ∧ Memory.wf (src []).src (src []).snk = true
      ∧ (Instr.hfDec, Instr.hfDsym, [Instr.fmRhdr 0x4E4D4648#32, .hfBuild, .brInit]) ∈ decoderExpansions
      ∧ (Instr.acDec, Instr.acDsym, [Instr.fmRhdr 0x434E4541#32, .fmCum, .brInit, .acDinit]) ∈ decoderExpansions
      ∧ (Instr.rcDec, Instr.rcDsym, [Instr.fmRhdr 0x434E4352#32, .fmCum, .rcDinit]) ∈ decoderExpansions := by decide +kernel

theorem witness_DecodersEndWithANamedStatus : (src [1]).status = 0 := rfl
theorem witness_ArithmeticRoundTrip : fewOccurrences [0x41] := witness_HuffmanRoundTrip

theorem witness_RangeRoundTrip : ∃ t, exec .rcEnc (State.attach [] none) = .next t ∧ t.status = 0 := by
  have h := test_rcEnc_empty
  change look (exec .rcEnc (State.attach [] none)) _ = _ at h
  generalize exec .rcEnc (State.attach [] none) = o at h ⊢
  cases o with
  | next t => exact ⟨t, rfl, congrArg Prod.fst (Option.some.inj h)⟩
  | fault r => cases h
  | refused r => cases h

theorem witness_RunsAreFramed :
    ((src []).setRl ⟨7, 0⟩).rl.cnt = 0 ∧ ((src []).setRl ⟨7, 0xFFFFFFFE⟩).rl.cnt.toNat < 2 ^ 32 - 1
      ∧ ((src []).setRl ⟨7, 0xFFFFFFFF⟩).rl.cnt.toNat = 2 ^ 32 - 1 ∧ ((src []).setRl ⟨7, 1⟩).rl.cnt ≠ 0
      ∧ (sink [] 6).hasRoom 5 = true ∧ (sink [] 5).roomOnlyFor 4 5 ∧ (sink [] 1).roomOnlyFor 0 5
      ∧ (sink [] 1).status = 0 := by unfold State.roomOnlyFor; decide +kernel

theorem witness_RecordsAreExpanded :
    (src []).remaining = [] ∧ (src [1]).remaining.length = 1 ∧ (src [1, 0, 0]).remaining.length = 3
      ∧ (src [0, 0, 0, 0]).remaining = leBytes32 0 ++ [] ∧ (src [1, 0, 0, 0]).remaining = leBytes32 1
      ∧ (src [1, 0, 0, 0, 9]).remaining = leBytes32 1 ++ 9 :: [] ∧ (src []).snk.cap = none ∧ (src []).status = 0 := by
  decide +kernel

theorem witness_RecordsAreExpanded_room :
    (sink [1, 0, 0, 0, 9] 2).hasRoom (1 : Word).toNat = true ∧ (sink [1, 0, 0, 0, 9] 1).roomOnlyFor 0 (1 : Word).toNat
      ∧ (1 : Word) ≠ 0 := ⟨rfl, ⟨rfl, by decide⟩, by decide⟩

theorem witness_RecordsAreExpanded_records :
    (src [1, 0, 0, 0, 9]).remaining = recordBytes [(1, 9)] ∧ ∀ r ∈ [((1 : Word), (9 : Byte))], r.1 ≠ 0 := by
  refine ⟨rfl, fun r h => ?_⟩
  rw [List.mem_singleton.mp h]; decide

theorem witness_RecordsAreExpanded_step : ∃ t, exec .rlDrec (src []) = .next t := ⟨_, rfl⟩

/-- A stream that can be cut (R257(d)'s example). -/
theorem witness_RunLengthRoundTrip :
    look (exec .rlEnc (src [0, 0, 0, 0, 1])) (fun t => t.snk.data) = some [4, 0, 0, 0, 0, 1, 0, 0, 0, 1] := by decide +kernel

theorem witness_RunLengthEncoderWritesMaximalRuns : (src [0, 0, 1]).status = 0 ∧ (src [0, 0, 1]).snk.cap = none :=
  ⟨rfl, rfl⟩

end Sys2Proof.Tests
end

/-! SUPPORT. Invariants of the pseudocode: a predicate on states that every run of an operation keeps, however the run ends,
and the rules for composing such operations; then the state's own invariant, `State.Sound`, with one lemma per update of
the state. -/

namespace Sys2Proof.Machine

open Sys2Proof

/-! ## Invariants of an operation -/

/-- The state a run ends in, by a `return` or early (R279: what the pseudocode had assigned stays). -/
def endState {α : Type} : EStateM.Result Stop State α → State
  | .ok _ t => t
  | .error _ t => t

theorem endState_bind {α β : Type} {Q : State → Prop} {x : Op α} {f : α → Op β} {s : State}
    (herr : ∀ e t, x s = .error e t → Q t) (hok : ∀ a t, x s = .ok a t → Q (endState (f a t))) :
    Q (endState ((x >>= f) s)) := by
  rw [Op.bind_run]
  cases e : x s with
  | ok a t => exact hok a t e
  | error k t => exact herr k t e

/-- A run of the operation from a state with the property ends in a state with the property. -/
def Op.Preserves {α : Type} (P : State → Prop) (op : Op α) : Prop := ∀ s, P s → P (endState (op s))

theorem Op.preserves_iff_keeps {α : Type} {P : State → Prop} {op : Op α} :
    Op.Preserves P op ↔ Op.Keeps (fun s t => P s → P t) op := by
  refine forall_congr' fun s => ?_
  cases op s <;> rfl

section
variable {α β : Type} {P : State → Prop}

theorem Op.Preserves.of_ok {op : Op α} (h : Op.Preserves P op) {s t : State} {a : α} (hs : P s)
    (e : op s = .ok a t) : P t := by
  have := h s hs
  rwa [e] at this

theorem Op.Preserves.of_error {op : Op α} (h : Op.Preserves P op) {s t : State} {k : Stop} (hs : P s)
    (e : op s = .error k t) : P t := by
  have := h s hs
  rwa [e] at this

theorem Op.Preserves.bind {x : Op α} {f : α → Op β} (hx : Op.Preserves P x) (hf : ∀ a, Op.Preserves P (f a)) :
    Op.Preserves P (x >>= f) := fun _ hs =>
  endState_bind (fun _ _ e => hx.of_error hs e) fun a _ e => hf a _ (hx.of_ok hs e)

theorem Op.Preserves.pure (a : α) : Op.Preserves P (Pure.pure a : Op α) := fun _ hs => hs

theorem Op.Preserves.raise (k : ErrorKind) : Op.Preserves P (Machine.raise k : Op α) := fun _ hs => hs

theorem Op.Preserves.stuck : Op.Preserves P (Machine.stuck : Op α) := fun _ hs => hs

theorem Op.Preserves.reading {f : State → Op α} (h : ∀ s, Op.Preserves P (f s)) : Op.Preserves P (Machine.reading f) :=
  fun s => h s s

theorem Op.Preserves.noValue {op : Op Unit} (h : Op.Preserves P op) : Op.Preserves P (Machine.noValue op) :=
  h.bind fun _ => .pure _

theorem Op.Preserves.repeatOp {op : Op Unit} (h : Op.Preserves P op) (n : Nat) :
    Op.Preserves P (Machine.repeatOp op n) :=
  Op.preserves_iff_keeps.mpr
    (Op.Keeps.repeatOp (R := fun s t => P s → P t) (fun _ => id) (fun _ _ _ f g => g ∘ f) (Op.preserves_iff_keeps.mp h) n)

theorem Op.Preserves.forSource (hr : Op.Preserves P srcRead) {f : Byte → Op Unit} (h : ∀ b, Op.Preserves P (f b)) :
    Op.Preserves P (Machine.forSource f) :=
  Op.preserves_iff_keeps.mpr
    (Op.Keeps.forSource (R := fun s t => P s → P t) (fun _ => id) (fun _ _ _ f g => g ∘ f) (Op.preserves_iff_keeps.mp hr)
      fun b => Op.preserves_iff_keeps.mp (h b))

theorem Op.Preserves.decodeLoop (hw : ∀ b, Op.Preserves P (snkWrite b)) {d : Op Symbol} (h : Op.Preserves P d)
    (n : Nat) : Op.Preserves P (Machine.decodeLoop d n) :=
  Op.preserves_iff_keeps.mpr
    (Op.Keeps.decodeLoop (R := fun s t => P s → P t) (fun _ => id) (fun _ _ _ f g => g ∘ f)
      (fun b => Op.preserves_iff_keeps.mp (hw b)) (Op.preserves_iff_keeps.mp h) n)

end

/-! ## The invariant -/

/-- R160, R163, R166: the part of a legal `HF` that speaks of the tree and its walker. -/
def HF.TreeSound (h : HF) : Prop := h.legal ∧ h.strictTree ∧ h.walkerAtLeafRoot

/-- R202(a): the interval of the arithmetic coder is not empty. -/
def AC.Ordered (a : AC) : Prop := a.low.toNat ≤ a.high.toNat

/-- R230(a): the interval of the range coder is not empty. -/
def RC.Ordered (r : RC) : Prop := r.low.toNat ≤ r.high.toNat

/-- What a legal state satisfies whatever its status: everything but the order of the range coder. -/
def State.SoundButRc (s : State) : Prop :=
  s.bw.legal ∧ s.fm.cumLegal ∧ s.hf.TreeSound ∧ s.hf.codesLegal ∧ s.ac.Ordered

/-- What a legal state satisfies while its status is 0. Unlike `State.Legal` it does not mention the status, which only the
end of a command changes. -/
def State.Sound (s : State) : Prop := s.SoundButRc ∧ s.rc.Ordered

theorem State.legal_iff (s : State) : s.Legal ↔ s.SoundButRc ∧ (s.status = 0 → s.rc.Ordered) := by
  unfold State.Legal State.registersLegal State.SoundButRc HF.TreeSound AC.Ordered RC.Ordered
  tauto

theorem State.Legal.sound {s : State} (h : s.Legal) (h0 : s.status = 0) : s.Sound :=
  have ⟨hb, hr⟩ := s.legal_iff.mp h
  ⟨hb, hr h0⟩

theorem State.Sound.legal {s : State} (h : s.Sound) : s.Legal := s.legal_iff.mpr ⟨h.1, fun _ => h.2⟩

theorem ErrorKind.code_ne_zero (k : ErrorKind) : k.code ≠ 0 := by cases k <;> decide

theorem State.SoundButRc.takeError_legal {s : State} (h : s.SoundButRc) (k : ErrorKind) : (s.takeError k).Legal :=
  (State.legal_iff _).mpr ⟨h, fun e => absurd e k.code_ne_zero⟩

/-! ### The updates of the state

`setBr`, `setRl`, `setSrc`, `setSnk`, `wrote` and `consumed` change nothing that `State.Sound` speaks of. -/

section
variable {s : State}

theorem State.Sound.setBw (h : s.Sound) {v : BW} (hv : v.legal) : (s.setBw v).Sound := ⟨⟨hv, h.1.2⟩, h.2⟩

theorem State.Sound.setFm (h : s.Sound) {v : FM} (hv : v.cumLegal) : (s.setFm v).Sound :=
  have ⟨⟨hbw, _, hrest⟩, hrc⟩ := h
  ⟨⟨hbw, hv, hrest⟩, hrc⟩

theorem State.Sound.setHf (h : s.Sound) {v : HF} (ht : v.TreeSound) (hc : v.codesLegal) : (s.setHf v).Sound :=
  have ⟨⟨hbw, hfm, _, _, hac⟩, hrc⟩ := h
  ⟨⟨hbw, hfm, ht, hc, hac⟩, hrc⟩

theorem State.Sound.setAc (h : s.Sound) {v : AC} (hv : v.Ordered) : (s.setAc v).Sound :=
  have ⟨⟨hbw, hfm, ht, hc, _⟩, hrc⟩ := h
  ⟨⟨hbw, hfm, ht, hc, hv⟩, hrc⟩

theorem State.Sound.setRc (h : s.Sound) {v : RC} (hv : v.Ordered) : (s.setRc v).Sound := ⟨h.1, hv⟩

theorem State.Sound.bwLegal (h : s.Sound) : s.bw.legal := h.1.1

theorem State.Sound.cumLegal (h : s.Sound) : s.fm.cumLegal :=
  have ⟨⟨_, hfm, _⟩, _⟩ := h
  hfm

theorem State.Sound.treeSound (h : s.Sound) : s.hf.TreeSound :=
  have ⟨⟨_, _, ht, _⟩, _⟩ := h
  ht

theorem State.Sound.codesLegal (h : s.Sound) : s.hf.codesLegal :=
  have ⟨⟨_, _, _, hc, _⟩, _⟩ := h
  hc

theorem State.Sound.acOrdered (h : s.Sound) : s.ac.Ordered :=
  have ⟨⟨_, _, _, _, hac⟩, _⟩ := h
  hac

theorem State.Sound.rcOrdered (h : s.Sound) : s.rc.Ordered := h.2

end

/-! ### The reset values (R39) -/

theorem BW.reset_legal : BW.reset.legal := by unfold BW.legal; decide

theorem BW.legal_zero : BW.legal ⟨0, 0⟩ := BW.reset_legal

theorem FM.reset_cumAt (i : Nat) : FM.reset.cumAt i = 0 := by
  unfold FM.cumAt FM.reset
  by_cases h : i < 258 <;> simp [h]

theorem FM.reset_cumLegal : FM.reset.cumLegal := by simp [FM.cumLegal, FM.reset_cumAt]

/-- With no entry in use there is nothing to say of the tree. -/
theorem HF.reset_treeSound : HF.reset.TreeSound :=
  ⟨⟨by decide, by decide, fun h => absurd rfl h, fun _ h => absurd h (Nat.not_lt_zero _)⟩,
    ⟨by decide, fun h => absurd rfl h, fun _ h => absurd h (Nat.not_lt_zero _),
      fun _ _ h => absurd h (Nat.not_lt_zero _), fun _ h => absurd h (Nat.not_lt_zero _)⟩,
    fun _ => rfl⟩

theorem HF.codesLegal_of_zero {h : HF} (hl : h.len = Vector.replicate 257 0) (hb : h.bits = Vector.replicate 257 0) :
    h.codesLegal := fun x => by simp [hl, hb]

theorem State.resetBlock_sound (s : State) : s.resetBlock.Sound :=
  ⟨⟨BW.reset_legal, FM.reset_cumLegal, HF.reset_treeSound, HF.codesLegal_of_zero rfl rfl, Nat.zero_le _⟩, Nat.zero_le _⟩

theorem State.attach_sound (data : List Byte) (cap : Option Nat) : (State.attach data cap).Sound :=
  State.resetBlock_sound (State.attach data cap)

/-! ## What a command does to it -/

/-- A command whose pseudocode, from a sound state, ends in one; where it raises, the order of the range coder may be lost
(R282). -/
def Op.EndsSound {α : Type} (op : Op α) : Prop :=
  ∀ s, s.Sound → (∀ a t, op s = .ok a t → t.Sound) ∧ ∀ k t, op s = .error k t → t.SoundButRc

theorem Op.Preserves.endsSound {α : Type} {op : Op α} (h : Op.Preserves State.Sound op) : Op.EndsSound op :=
  fun _ hs => ⟨fun _ _ e => h.of_ok hs e, fun _ _ e => (h.of_error hs e).1⟩

theorem Op.EndsSound.bind {α β : Type} {x : Op α} {f : α → Op β} (hx : Op.EndsSound x) (hf : ∀ a, Op.EndsSound (f a)) :
    Op.EndsSound (x >>= f) := by
  intro s hs
  obtain ⟨hok, herr⟩ := hx s hs
  constructor
  · intro b t e
    obtain ⟨a, u, ea, eb⟩ := Op.bind_eq_ok.mp e
    exact (hf a u (hok a u ea)).1 b t eb
  · intro k t e
    obtain e | ⟨a, u, ea, eb⟩ := Op.bind_eq_error.mp e
    · exact herr k t e
    · exact (hf a u (hok a u ea)).2 k t eb

theorem Op.EndsSound.noValue {op : Op Unit} (h : Op.EndsSound op) : Op.EndsSound (Machine.noValue op) :=
  h.bind fun _ => Op.Preserves.endsSound (.pure _)

/-- A command, refused, answered or raised, leaves a legal state legal when its pseudocode ends soundly. -/
theorem runCommand_legal_of_endsSound {op : Op Reply} (h : Op.EndsSound op) {s t : State} (hs : s.Legal)
    (e : runCommand op s = .next t) : t.Legal := by
  rcases runCommand_next_iff.mp e with ⟨_, rfl⟩ | ⟨h0, r, u, er, rfl⟩ | ⟨h0, k, u, ek, rfl⟩
  · exact hs
  · exact ((h s (hs.sound h0)).1 r u er).legal
  · exact ((h s (hs.sound h0)).2 _ u ek).takeError_legal k

theorem runCommand_legal {op : Op Reply} (h : Op.Preserves State.Sound op) {s t : State} (hs : s.Legal)
    (e : runCommand op s = .next t) : t.Legal := runCommand_legal_of_endsSound h.endsSound hs e

end Sys2Proof.Machine

/-! SUPPORT. Every procedure of the units keeps `State.Sound`: the bit writer's range (R27), the cumulative table (R30), the
intervals of the two coders (R202, R230). -/

namespace Sys2Proof.Machine

open Sys2Proof

/-! ## The streams -/

theorem srcRead_sound : Op.Preserves State.Sound srcRead := fun s hs => by
  rw [srcRead_run]
  cases s.remaining <;> exact hs

theorem srcSeek_sound (p : Nat) : Op.Preserves State.Sound (srcSeek p) := fun _ hs => hs

theorem srcPos_sound : Op.Preserves State.Sound srcPos := fun _ hs => hs

/-- A write changes nothing but the sink, and keeps what does not speak of the sink. -/
theorem snkWrite_preserves {P : State → Prop} (hP : ∀ s w, P s → P (s.setSnk w)) (b : Byte) :
    Op.Preserves P (snkWrite b) := fun s hs => by
  obtain ⟨_, e⟩ | ⟨_, e⟩ := snkWrite_run b s
  · rw [e]; exact hs
  · rw [e]; exact hP s _ hs

theorem snkWrite_sound (b : Byte) : Op.Preserves State.Sound (snkWrite b) := snkWrite_preserves (fun _ _ hs => hs) b

theorem writeBytes_sound : ∀ bs : List Byte, Op.Preserves State.Sound (writeBytes bs)
  | [] => .pure _
  | b :: bs => (snkWrite_sound b).bind fun _ => writeBytes_sound bs

/-! ## Bits and words -/

/-- One bit more below a value of at most k bits gives at most k + 1 bits. -/
theorem shiftIn_lt {w k : Nat} {v : BitVec w} (b : Bool) (h : v.toNat < 2 ^ k) :
    ((v <<< 1) ||| (if b then 1 else 0)).toNat < 2 ^ (k + 1) := by
  rw [BitVec.toNat_or]
  apply Nat.or_lt_two_pow
  · rw [BitVec.toNat_shiftLeft, Nat.shiftLeft_eq, Nat.pow_succ]
    exact Nat.lt_of_le_of_lt (Nat.mod_le _ _) (by omega)
  · have h1 : (1 : BitVec w).toNat ≤ 1 := by simpa using Nat.mod_le 1 (2 ^ w)
    have h2 : 1 < 2 ^ (k + 1) := Nat.one_lt_two_pow (by omega)
    cases b
    · simp
    · exact Nat.lt_of_le_of_lt h1 h2

/-- R121: all that writing a bit changes is the packer, which stays in its range, and the sink. -/
theorem bwWbit_endState {s : State} (b : Bool) (h : s.bw.legal) :
    ∃ v w, v.legal ∧ endState (bwWbit b s) = (s.setBw v).setSnk w := by
  have hc := s.bw.cnt.isLt
  by_cases h7 : s.bw.cnt.val = 7
  · rw [bwWbit_of_eq b h7]
    obtain ⟨_, e⟩ | ⟨_, e⟩ := snkWrite_run (s.bw.shiftIn b) (s.setBw ⟨0, 0⟩)
    · rw [e]; exact ⟨_, s.snk, BW.legal_zero, rfl⟩
    · rw [e]; exact ⟨_, _, BW.legal_zero, rfl⟩
  · refine ⟨⟨s.bw.shiftIn b, s.bw.cnt + 1⟩, s.snk, ?_, by rw [bwWbit_of_lt b (by omega)]; rfl⟩
    have hcnt : (s.bw.cnt + 1).val = s.bw.cnt.val + 1 := by rw [Fin.val_add]; simp; omega
    rw [BW.legal, hcnt]
    exact shiftIn_lt b h

theorem bwWbit_preserves {P : State → Prop} (hl : ∀ s, P s → s.bw.legal)
    (hP : ∀ s v w, P s → v.legal → P ((s.setBw v).setSnk w)) (b : Bool) : Op.Preserves P (bwWbit b) := fun s hs => by
  obtain ⟨v, w, hv, e⟩ := bwWbit_endState b (hl s hs)
  rw [e]
  exact hP s v w hs hv

theorem bwWbit_sound (b : Bool) : Op.Preserves State.Sound (bwWbit b) :=
  bwWbit_preserves (fun _ => State.Sound.bwLegal) (fun _ _ _ hs hv => hs.setBw hv) b

theorem bwInit_sound : Op.Preserves State.Sound bwInit := fun _ hs => hs.setBw BW.legal_zero

theorem bwFlush_sound : Op.Preserves State.Sound bwFlush := fun s hs => by
  obtain ⟨_, e⟩ | ⟨_, e⟩ := bwFlush_run s
  · rw [e]; exact hs
  · rw [e]; exact snkWrite_sound _ _ (hs.setBw BW.legal_zero)

theorem brInit_sound : Op.Preserves State.Sound brInit := fun _ hs => hs

theorem brRbit_sound : Op.Preserves State.Sound brRbit := fun s hs => by
  cases he : s.br.eof with
  | true => rw [brRbit_of_eof he]; exact hs
  | false =>
    have hrem := s.br.rem.isLt
    rcases Nat.eq_zero_or_pos s.br.rem.val with hr | hr
    · cases hx : s.remaining with
      | nil => rw [brRbit_of_end he hr hx]; exact hs
      | cons x l => rw [brRbit_of_load he hr hx]; exact hs
    · rw [brRbit_of_rem ⟨s.br.rem.val - 1, by omega⟩ he (by simp; omega)]; exact hs

theorem brEofSeen_sound : Op.Preserves State.Sound brEofSeen := fun _ hs => hs

theorem leWr32_sound (v : Word) : Op.Preserves State.Sound (leWr32 v) := writeBytes_sound _

theorem readByteOrTruncation_sound : Op.Preserves State.Sound readByteOrTruncation :=
  srcRead_sound.bind fun
    | some _ => .pure _
    | none => .raise _

theorem leRd32_sound : Op.Preserves State.Sound leRd32 :=
  srcRead_sound.bind fun
    | none => .pure _
    | some _ => readByteOrTruncation_sound.bind fun _ => readByteOrTruncation_sound.bind fun _ =>
        readByteOrTruncation_sound.bind fun _ => .pure _

theorem symbolOperand_sound (v : BitVec 16) : Op.Preserves State.Sound (symbolOperand v) := fun s hs => by
  obtain ⟨_, _, e⟩ | ⟨_, e⟩ := symbolOperand_run v s <;> rw [e] <;> exact hs

/-! ## The tables of FM -/

theorem FM.cumLegal_of_cum_eq {m n : FM} (h : m.cumLegal) (e : n.cum = m.cum) : n.cumLegal := by
  have hat : ∀ i, n.cumAt i = m.cumAt i := fun i => by rw [FM.cumAt, FM.cumAt, e]
  simpa only [FM.cumLegal, hat] using h

/-- A change of the counts leaves the cumulative table as it is. -/
theorem modFm_sound {f : FM → FM} (hf : ∀ m, (f m).cum = m.cum) : Op.Preserves State.Sound (modFm f) :=
  fun s hs => hs.setFm (FM.cumLegal_of_cum_eq hs.cumLegal (hf s.fm))

theorem fmClr_sound : Op.Preserves State.Sound fmClr := modFm_sound fun _ => rfl
theorem fmAcc_sound (b : Byte) : Op.Preserves State.Sound (fmAcc b) := modFm_sound fun m => m.accumulate_cum b
theorem fmEos_sound : Op.Preserves State.Sound fmEos := modFm_sound fun _ => rfl
theorem fmScale_sound : Op.Preserves State.Sound fmScale := modFm_sound fun _ => rfl
theorem loadFreq_sound (f : Vector Word 257) : Op.Preserves State.Sound (loadFreq f) := modFm_sound fun _ => rfl

theorem fmScan_sound : Op.Preserves State.Sound fmScan :=
  fmClr_sound.bind fun _ => (Op.Preserves.forSource srcRead_sound fmAcc_sound).bind fun _ => fmEos_sound

/-- R146: sums of counts start at 0 and do not fall. -/
theorem FM.cumTable_cumLegal {m : FM} (h : m.total ≤ 2 ^ 32 - 1) : FM.cumLegal { m with cum := m.cumTable } := by
  constructor
  · rw [m.cumAt_cumTable h (by omega), FM.prefixSum_zero, ite_self]
  · intro i hi
    rw [m.cumAt_cumTable h (by omega), m.cumAt_cumTable h (by omega)]
    have := m.prefixSum_le_succ i
    split <;> omega

theorem fmCum_sound : Op.Preserves State.Sound fmCum := fun s hs => by
  obtain ⟨_, e⟩ | ⟨ht, e⟩ := fmCum_run s
  · rw [e]; exact hs
  · rw [e]; exact hs.setFm (FM.cumTable_cumLegal ht)

theorem fmFind_sound (v : Nat) : Op.Preserves State.Sound (fmFind v) := fun s hs => by
  obtain ⟨_, e⟩ | ⟨_, e, _⟩ := fmFind_run hs.cumLegal v <;> rw [e] <;> exact hs

theorem fmWhdr_sound (tag : Word) : Op.Preserves State.Sound (fmWhdr tag) := fun s hs => by
  rw [fmWhdr_run]
  exact writeBytes_sound _ s hs

theorem readWordOrTruncation_sound : Op.Preserves State.Sound readWordOrTruncation :=
  leRd32_sound.bind fun
    | some _ => .pure _
    | none => .raise _

theorem readWords_sound : ∀ n : Nat, Op.Preserves State.Sound (readWords n)
  | 0 => .pure _
  | n + 1 => (readWords_sound n).bind fun _ => readWordOrTruncation_sound.bind fun _ => .pure _

theorem headerHasEos_sound : Op.Preserves State.Sound headerHasEos := fun s hs => by
  obtain ⟨_, _, e⟩ | ⟨_, e⟩ := headerHasEos_run s <;> rw [e] <;> exact hs

theorem fmRhdr_sound (tag : Word) : Op.Preserves State.Sound (fmRhdr tag) := by
  refine readByteOrTruncation_sound.bind fun m0 => readByteOrTruncation_sound.bind fun m1 =>
    readByteOrTruncation_sound.bind fun m2 => readByteOrTruncation_sound.bind fun m3 => ?_
  split
  · exact .raise _
  · refine readWordOrTruncation_sound.bind fun n => ?_
    split
    · exact .raise _
    · exact (readWords_sound 257).bind fun f => (loadFreq_sound f).bind fun _ => headerHasEos_sound

/-! ## The intervals (R191, R198) -/

/-- R191: "the new interval lies inside the old one", so its bounds are values of 32 bits in order. -/
theorem FM.interval_toNat {m : FM} {low high : Word} {x : Symbol} (hc : m.cumLegal) (hs : m.hasShare low high x.val) :
    (BitVec.ofNat 32 (m.newLow low high x.val)).toNat ≤ (BitVec.ofNat 32 (m.newHigh low high x.val)).toNat := by
  obtain ⟨_, hle, hhigh⟩ := FM.interval_inside hc hs
  have := high.isLt
  rw [BitVec.toNat_ofNat, BitVec.toNat_ofNat, Nat.mod_eq_of_lt (by omega), Nat.mod_eq_of_lt (by omega)]
  exact hle

theorem intervalUpdate_sound (u : Coder) (x : Symbol) : Op.Preserves State.Sound (intervalUpdate u x) := fun s hs => by
  cases u with
  | ac =>
    obtain ⟨_, e⟩ | ⟨hx, e⟩ := intervalUpdate_ac_run x s
    · rw [e]; exact hs
    · rw [e]; exact hs.setAc (FM.interval_toNat hs.cumLegal hx)
  | rc =>
    obtain ⟨_, e⟩ | ⟨hx, e⟩ := intervalUpdate_rc_run x s
    · rw [e]; exact hs
    · rw [e]; exact hs.setRc (FM.interval_toNat hs.cumLegal hx)

theorem targetValue_sound (u : Coder) : Op.Preserves State.Sound (targetValue u) := fun s hs => by
  cases u with
  | ac => obtain ⟨_, e⟩ | ⟨_, _, e⟩ | ⟨_, _, _, e⟩ := targetValue_ac_run hs.acOrdered <;> rw [e] <;> exact hs
  | rc => obtain ⟨_, e⟩ | ⟨_, _, e⟩ | ⟨_, _, _, e⟩ := targetValue_rc_run hs.rcOrdered <;> rw [e] <;> exact hs

/-! ## The arithmetic coder -/

theorem modAc_sound {f : AC → AC} (hf : ∀ a, a.Ordered → (f a).Ordered) : Op.Preserves State.Sound (modAc f) :=
  fun s hs => hs.setAc (hf s.ac hs.acOrdered)

theorem acEinit_sound : Op.Preserves State.Sound acEinit := modAc_sound fun _ _ => Nat.zero_le _

/-- R194: in each of the three cases the doubled interval is in order. -/
theorem AC.rescale_ordered {a : AC} (h : a.Ordered) (hr : a.renorm ≠ .done) : (a.rescale a.renorm.bias).Ordered := by
  have key : ∀ b, b ≤ a.low.toNat → a.high.toNat - b < 2 ^ 31 → (a.rescale b).Ordered := fun b hb hh => by
    obtain ⟨hlow, hhigh⟩ := AC.rescale_toNat hb h hh
    rw [AC.Ordered, hlow, hhigh]
    unfold AC.Ordered at h
    omega
  have := a.high.isLt
  obtain ⟨h1, e⟩ | ⟨_, h2, e⟩ | ⟨_, _, h3, h4, e⟩ | ⟨_, e⟩ := a.renorm_cases
  · rw [e]; exact key 0 (Nat.zero_le _) (by omega)
  · rw [e]; exact key Config.half h2 (by rw [Config.half]; omega)
  · rw [e]; exact key Config.q1 h3 (by rw [Config.q1]; omega)
  · exact absurd e hr

/-- Sound, with the interval at a given place: what the output of a turn of the encoder leaves as it is. -/
def State.SoundAt (low high : Word) (s : State) : Prop := s.Sound ∧ s.ac.low = low ∧ s.ac.high = high

theorem bwWbit_soundAt {l h : Word} (b : Bool) : Op.Preserves (State.SoundAt l h) (bwWbit b) :=
  bwWbit_preserves (fun _ hs => hs.1.bwLegal) (fun _ _ _ hs hv => ⟨hs.1.setBw hv, hs.2⟩) b

theorem setPend_soundAt {l h : Word} (f : Nat → Nat) :
    Op.Preserves (State.SoundAt l h) (modAc fun a => { a with pend := f a.pend }) :=
  fun _ hs => ⟨hs.1.setAc hs.1.acOrdered, hs.2⟩

theorem emitPending_soundAt {l h : Word} (b : Bool) : ∀ k, Op.Preserves (State.SoundAt l h) (emitPending b k)
  | 0 => .pure _
  | k + 1 => (bwWbit_soundAt b).bind fun _ => (setPend_soundAt fun _ => k).bind fun _ => emitPending_soundAt b k

theorem acEmit_soundAt {l h : Word} (b : Bool) : Op.Preserves (State.SoundAt l h) (acEmit b) :=
  (bwWbit_soundAt b).bind fun _ => .reading fun _ => emitPending_soundAt _ _

theorem acEmit_sound (b : Bool) : Op.Preserves State.Sound (acEmit b) := fun _ hs => (acEmit_soundAt b _ ⟨hs, rfl, rfl⟩).1

theorem acEmitFor_soundAt {l h : Word} : ∀ r : Renorm, Op.Preserves (State.SoundAt l h) (acEmitFor r)
  | .lower => acEmit_soundAt false
  | .upper => acEmit_soundAt true
  | .middle => setPend_soundAt (· + 1)
  | .done => .pure _

theorem AC.renorm_congr {a b : AC} (hl : b.low = a.low) (hh : b.high = a.high) : b.renorm = a.renorm := by
  rw [AC.renorm, AC.renorm, hl, hh]

theorem acEncLoop_sound : ∀ k, Op.Preserves State.Sound (acEncLoop k)
  | 0 => .stuck
  | k + 1 => fun s hs => by
    by_cases hr : s.ac.renorm = .done
    · rw [acEncLoop_done hr]; exact hs
    · rw [acEncLoop_turn rfl hr]
      have hemit := acEmitFor_soundAt (l := s.ac.low) (h := s.ac.high) s.ac.renorm
      refine endState_bind (fun _ _ e => (hemit.of_error ⟨hs, rfl, rfl⟩ e).1) fun _ t e => ?_
      obtain ⟨ht, hl, hh⟩ := hemit.of_ok ⟨hs, rfl, rfl⟩ e
      rw [← AC.renorm_congr hl hh] at hr ⊢
      rw [Op.bind_of_ok (modAc_run _ t)]
      exact acEncLoop_sound k _ (ht.setAc (AC.rescale_ordered ht.acOrdered hr))

theorem acEsym_sound (x : Symbol) : Op.Preserves State.Sound (acEsym x) :=
  (intervalUpdate_sound .ac x).bind fun _ => acEncLoop_sound _

theorem acEfin_sound : Op.Preserves State.Sound acEfin :=
  Op.Preserves.bind (modAc_sound fun _ h => h) fun _ =>
    Op.Preserves.bind (.reading fun _ => acEmit_sound _) fun _ => bwFlush_sound

theorem acCountFill_sound : Op.Preserves State.Sound acCountFill := fun s hs => by
  rw [acCountFill_run]
  split
  · exact hs.setAc hs.acOrdered
  · exact hs

theorem acFill_sound : Op.Preserves State.Sound acFill :=
  brRbit_sound.bind fun _ => acCountFill_sound.bind fun _ => .pure _

theorem acShiftIn_sound : Op.Preserves State.Sound acShiftIn := acFill_sound.bind fun _ => modAc_sound fun _ h => h

theorem acDinit_sound : Op.Preserves State.Sound acDinit :=
  (modAc_sound fun _ _ => Nat.zero_le _).bind fun _ => acShiftIn_sound.repeatOp 32

theorem acDecLoop_sound : ∀ k, Op.Preserves State.Sound (acDecLoop k)
  | 0 => .stuck
  | k + 1 => fun s hs => by
    by_cases hr : s.ac.renorm = .done
    · rw [acDecLoop_done hr]; exact hs
    · rw [acDecLoop_turn rfl hr, Op.bind_of_ok (modAc_run _ s)]
      exact (acShiftIn_sound.bind fun _ => acDecLoop_sound k) _ (hs.setAc (AC.rescale_ordered hs.acOrdered hr))

theorem acNeedInput_sound : Op.Preserves State.Sound acNeedInput := fun s hs => by
  obtain ⟨_, e⟩ | ⟨_, e⟩ := acNeedInput_run s <;> rw [e] <;> exact hs

theorem acDsym_sound : Op.Preserves State.Sound acDsym :=
  acNeedInput_sound.bind fun _ => (targetValue_sound .ac).bind fun v => (fmFind_sound v).bind fun x =>
    (intervalUpdate_sound .ac x).bind fun _ => (acDecLoop_sound _).bind fun _ => .pure _

theorem acEnc_sound : Op.Preserves State.Sound acEnc :=
  srcPos_sound.bind fun m => fmScan_sound.bind fun _ => (srcSeek_sound m).bind fun _ => fmScale_sound.bind fun _ =>
    (fmWhdr_sound _).bind fun _ => fmCum_sound.bind fun _ => acEinit_sound.bind fun _ => bwInit_sound.bind fun _ =>
    (Op.Preserves.forSource srcRead_sound fun b => acEsym_sound (byteSymbol b)).bind fun _ =>
    (acEsym_sound _).bind fun _ => acEfin_sound

theorem acDec_sound : Op.Preserves State.Sound acDec :=
  (fmRhdr_sound _).bind fun _ => fmCum_sound.bind fun _ => brInit_sound.bind fun _ => acDinit_sound.bind fun _ =>
    .reading fun _ => .decodeLoop snkWrite_sound acDsym_sound _

/-! ## The range coder -/

theorem modRc_sound {f : RC → RC} (hf : ∀ r, r.Ordered → (f r).Ordered) : Op.Preserves State.Sound (modRc f) :=
  fun s hs => hs.setRc (hf s.rc hs.rcOrdered)

theorem rcEinit_sound : Op.Preserves State.Sound rcEinit := modRc_sound fun _ _ => Nat.zero_le _

/-- R220: `low` and `high` have the same top byte. -/
theorem RC.div_eq_of_sameTop {r : RC} (h : r.sameTop = true) : r.low.toNat / 2 ^ 24 = r.high.toNat / 2 ^ 24 := by
  have hx : r.low.toNat ^^^ r.high.toNat < 2 ^ 24 := by simpa [RC.sameTop] using h
  have hs : (r.low.toNat ^^^ r.high.toNat) >>> 24 = 0 := by
    rw [Nat.shiftRight_eq_div_pow]; exact Nat.div_eq_of_lt hx
  rw [Nat.shiftRight_xor_distrib, Nat.xor_eq_zero_iff] at hs
  simpa only [Nat.shiftRight_eq_div_pow] using hs

/-- R222: shifting the common top byte out keeps the order. -/
theorem RC.shiftOut_ordered {r : RC} (h : r.Ordered) (ht : r.sameTop = true) : r.shiftOut.Ordered := by
  have hd := RC.div_eq_of_sameTop ht
  have hlow : r.shiftOut.low.toNat = r.low.toNat * 2 ^ 8 % 2 ^ 32 := by
    simp only [RC.shiftOut, BitVec.toNat_shiftLeft, Nat.shiftLeft_eq]
  have hhigh : r.high.toNat * 2 ^ 8 % 2 ^ 32 ≤ r.shiftOut.high.toNat := by
    simp only [RC.shiftOut, BitVec.toNat_or, BitVec.toNat_shiftLeft, Nat.shiftLeft_eq]
    exact Nat.left_le_or
  unfold RC.Ordered at h ⊢
  omega

theorem rcEncLoop_sound : ∀ k, Op.Preserves State.Sound (rcEncLoop k)
  | 0 => .stuck
  | k + 1 => fun s hs => by
    cases ht : s.rc.sameTop with
    | false => rw [rcEncLoop_done ht]; exact hs
    | true =>
      rw [rcEncLoop_turn ht]
      obtain ⟨_, e⟩ | ⟨_, e⟩ := snkWrite_run s.rc.topByte s
      · rw [Op.bind_of_error e]; exact hs
      · rw [Op.bind_of_ok e, Op.bind_of_ok (modRc_run _ _)]
        exact rcEncLoop_sound k _ (hs.setRc (RC.shiftOut_ordered hs.rcOrdered ht))

theorem rcEsym_sound (x : Symbol) : Op.Preserves State.Sound (rcEsym x) :=
  (intervalUpdate_sound .rc x).bind fun _ => rcEncLoop_sound _

theorem rcFill_sound : Op.Preserves State.Sound rcFill :=
  srcRead_sound.bind fun
    | some _ => .pure _
    | none => Op.Preserves.bind (modRc_sound fun _ h => h) fun _ => .pure _

theorem rcShiftIn_sound : Op.Preserves State.Sound rcShiftIn := rcFill_sound.bind fun _ => modRc_sound fun _ h => h

theorem rcDinit_sound : Op.Preserves State.Sound rcDinit :=
  (modRc_sound fun _ _ => Nat.zero_le _).bind fun _ => rcShiftIn_sound.repeatOp 4

theorem rcDecLoop_sound : ∀ k, Op.Preserves State.Sound (rcDecLoop k)
  | 0 => .stuck
  | k + 1 => fun s hs => by
    cases ht : s.rc.sameTop with
    | false => rw [rcDecLoop_done ht]; exact hs
    | true =>
      rw [rcDecLoop_turn ht, Op.bind_of_ok (modRc_run _ s)]
      exact (rcShiftIn_sound.bind fun _ => rcDecLoop_sound k) _ (hs.setRc (RC.shiftOut_ordered hs.rcOrdered ht))

theorem rcNeedInput_sound : Op.Preserves State.Sound rcNeedInput := fun s hs => by
  obtain ⟨_, e⟩ | ⟨_, e⟩ := rcNeedInput_run s <;> rw [e] <;> exact hs

theorem rcDsym_sound : Op.Preserves State.Sound rcDsym :=
  rcNeedInput_sound.bind fun _ => (targetValue_sound .rc).bind fun v => (fmFind_sound v).bind fun x =>
    (intervalUpdate_sound .rc x).bind fun _ => (rcDecLoop_sound _).bind fun _ => .pure _

theorem rcDec_sound : Op.Preserves State.Sound rcDec :=
  (fmRhdr_sound _).bind fun _ => fmCum_sound.bind fun _ => rcDinit_sound.bind fun _ =>
    .reading fun _ => .decodeLoop snkWrite_sound rcDsym_sound _

/-! ### The tail (R223)

`low` is shifted while `high` stands still, so the order is lost inside the tail; after four bytes `low` is 0. -/

theorem rcTailByte_soundButRc : Op.Preserves State.SoundButRc rcTailByte :=
  Op.Preserves.bind (.reading fun _ => snkWrite_preserves (fun _ _ hs => hs) _) fun _ _ hs => hs

theorem rcTailByte_low {s t : State} (e : rcTailByte s = .ok () t) : t.rc.low = s.rc.low <<< 8 := by
  obtain ⟨_, u, eu, et⟩ := Op.bind_eq_ok.mp e
  rw [reading_run] at eu
  obtain ⟨_, ew⟩ | ⟨_, ew⟩ := snkWrite_run s.rc.topByte s
  · rw [ew] at eu; cases eu
  · rw [ew] at eu
    cases eu
    cases et
    rfl

theorem repeat_rcTailByte_low : ∀ (n : Nat) {s t : State}, repeatOp rcTailByte n s = .ok () t →
    t.rc.low = s.rc.low <<< (8 * n)
  | 0, s, t, e => by cases e; simp
  | n + 1, s, t, e => by
    obtain ⟨_, u, eu, et⟩ := Op.bind_eq_ok.mp e
    rw [repeat_rcTailByte_low n et, rcTailByte_low eu, ← BitVec.shiftLeft_add]
    congr 1; omega

theorem rcEfin_endsSound : Op.EndsSound rcEfin := by
  intro s hs
  have hbut : Op.Preserves State.SoundButRc rcEfin := rcTailByte_soundButRc.repeatOp 4
  refine ⟨fun _ t e => ⟨hbut.of_ok hs.1 e, ?_⟩, fun _ _ e => hbut.of_error hs.1 e⟩
  have hlow : t.rc.low = 0 := (repeat_rcTailByte_low 4 e).trans (BitVec.shiftLeft_eq_zero (by decide))
  rw [RC.Ordered, hlow]
  exact Nat.zero_le _

theorem rcEnc_endsSound : Op.EndsSound rcEnc :=
  srcPos_sound.endsSound.bind fun m => fmScan_sound.endsSound.bind fun _ => (srcSeek_sound m).endsSound.bind fun _ =>
    fmScale_sound.endsSound.bind fun _ => (fmWhdr_sound _).endsSound.bind fun _ => fmCum_sound.endsSound.bind fun _ =>
    rcEinit_sound.endsSound.bind fun _ =>
    (Op.Preserves.forSource srcRead_sound fun b => rcEsym_sound (byteSymbol b)).endsSound.bind fun _ =>
    (rcEsym_sound _).endsSound.bind fun _ => rcEfin_endsSound

/-! ## The run-length codec -/

theorem rlEinit_sound : Op.Preserves State.Sound rlEinit := fun _ hs => hs

theorem rlEbyte_sound (b : Byte) : Op.Preserves State.Sound (rlEbyte b) := fun s hs => by
  obtain ⟨_, e⟩ | ⟨_, _, _, e⟩ | ⟨_, _, e⟩ := rlEbyte_run b s
  · rw [e]; exact hs
  · rw [e]; exact hs
  · rw [e]; exact writeBytes_sound _ (s.setRl ⟨b, 1⟩) hs

theorem rlEfin_sound : Op.Preserves State.Sound rlEfin := fun s hs => by
  obtain ⟨_, e⟩ | ⟨_, e⟩ := rlEfin_run s
  · rw [e]; exact hs
  · rw [e]; exact writeBytes_sound _ (s.setRl _) hs

theorem rlDrec_sound : Op.Preserves State.Sound rlDrec := by
  refine leRd32_sound.bind fun
    | none => .pure _
    | some n => ?_
  dsimp only
  split
  · exact .raise _
  · refine readByteOrTruncation_sound.bind fun v => Op.Preserves.bind ?_ fun _ => .pure _
    rw [writeCopies_eq]
    exact writeBytes_sound _

theorem rlDecLoop_sound : ∀ k, Op.Preserves State.Sound (rlDecLoop k)
  | 0 => .stuck
  | k + 1 => rlDrec_sound.bind fun
    | true => rlDecLoop_sound k
    | false => .pure _

theorem rlEnc_sound : Op.Preserves State.Sound rlEnc :=
  rlEinit_sound.bind fun _ => (Op.Preserves.forSource srcRead_sound rlEbyte_sound).bind fun _ => rlEfin_sound

theorem rlDec_sound : Op.Preserves State.Sound rlDec := .reading fun _ => rlDecLoop_sound _

end Sys2Proof.Machine

/-! SUPPORT. `HF.BUILD` makes a strict tree (R160 to R163): the merge loop works on a forest whose roots are the queue, and
ends with one root. -/

namespace Sys2Proof.Machine

open Sys2Proof

/-! ## Forests -/

/-- The child field of entry p on a side, `true` for the right: `HF.child` for a list of entries. -/
def kid (nodes : List Node) (p : Nat) (b : Bool) : NodeIdx :=
  if b then (nodeIn nodes p).right else (nodeIn nodes p).left

/-- R160, R162: entries in which every child is below its parent and no entry is named by two child fields, and the queue of
those that no child field names. -/
structure Forest (nodes : List Node) (q : List Nat) : Prop where
  size : nodes.length + q.length ≤ 514
  nodup : q.Nodup
  kid_lt : ∀ p, p < nodes.length → ∀ b, kid nodes p b = Config.null ∨ (kid nodes p b).toNat < p
  sym_le : ∀ p, p < nodes.length → (nodeIn nodes p).sym.toNat ≤ 256
  mem_iff : ∀ i, i ∈ q ↔ i < nodes.length ∧ ∀ p, p < nodes.length → ∀ b, (kid nodes p b).toNat ≠ i
  inj : ∀ p p', p < nodes.length → p' < nodes.length → ∀ a b,
    kid nodes p a ≠ Config.null → kid nodes p a = kid nodes p' b → p = p' ∧ a = b

/-- R160: a leaf, or a parent of two. -/
def Node.Full (x : Node) : Prop :=
  (x.left = Config.null ∧ x.right = Config.null) ∨ (x.left ≠ Config.null ∧ x.right ≠ Config.null)

/-- Every entry is a leaf or a parent of two. -/
def AllFull (nodes : List Node) : Prop := ∀ p, p < nodes.length → (nodeIn nodes p).Full

theorem ofNat_ne_null {a : Nat} (h : a < 514) : (BitVec.ofNat 10 a : NodeIdx) ≠ Config.null := by
  intro e
  have := congrArg BitVec.toNat e
  simp only [BitVec.toNat_ofNat] at this
  omega

theorem toNat_ofNat_idx {a : Nat} (h : a < 514) : (BitVec.ofNat 10 a : NodeIdx).toNat = a :=
  Nat.mod_eq_of_lt (by omega)

theorem nodeIn_of_lt {nodes : List Node} {p : Nat} (h : p < nodes.length) : nodeIn nodes p = nodes[p] := by
  simp [nodeIn, List.getD, h]

theorem nodeIn_append_left {nodes ms : List Node} {p : Nat} (h : p < nodes.length) :
    nodeIn (nodes ++ ms) p = nodeIn nodes p := by
  simp [nodeIn, List.getD, List.getElem?_append_left h]

theorem nodeIn_append_length (nodes : List Node) (x : Node) : nodeIn (nodes ++ [x]) nodes.length = x := by
  simp [nodeIn, List.getD]

theorem lt_length_append {nodes : List Node} {x : Node} {p : Nat} :
    p < (nodes ++ [x]).length ↔ p < nodes.length ∨ p = nodes.length := by
  rw [List.length_append, List.length_singleton]; omega

theorem kid_append_left {nodes ms : List Node} {p : Nat} (h : p < nodes.length) (b : Bool) :
    kid (nodes ++ ms) p b = kid nodes p b := by rw [kid, kid, nodeIn_append_left h]

theorem kid_append_parent (nodes : List Node) (i j : Nat) (b : Bool) :
    kid (nodes ++ [parentOf nodes i j]) nodes.length b = BitVec.ofNat 10 (if b then j else i) := by
  rw [kid, nodeIn_append_length]
  cases b <;> rfl

/-! ## The leaves -/

/-- R162: the leaves alone, all of them in the queue. -/
theorem forest_of_leaves {nodes : List Node} (hlen : nodes.length ≤ 257)
    (hleaf : ∀ x ∈ nodes, x.left = Config.null ∧ x.right = Config.null ∧ x.sym.toNat ≤ 256) :
    Forest nodes (List.range nodes.length) := by
  have hat : ∀ p, p < nodes.length → (nodeIn nodes p).left = Config.null ∧ (nodeIn nodes p).right = Config.null
      ∧ (nodeIn nodes p).sym.toNat ≤ 256 := fun p hp => by
    rw [nodeIn_of_lt hp]; exact hleaf _ (List.getElem_mem hp)
  have hkid : ∀ p, p < nodes.length → ∀ b, kid nodes p b = Config.null := fun p hp b => by
    obtain ⟨hl, hr, _⟩ := hat p hp
    cases b
    · exact hl
    · exact hr
  exact {
    size := by rw [List.length_range]; omega
    nodup := List.nodup_range
    kid_lt := fun p hp b => .inl (hkid p hp b)
    sym_le := fun p hp => have ⟨_, _, hs⟩ := hat p hp; hs
    mem_iff := fun i => by
      rw [List.mem_range]
      refine ⟨fun hi => ⟨hi, fun p hp b e => ?_⟩, And.left⟩
      have h1023 : (Config.null : NodeIdx).toNat = 1023 := rfl
      rw [hkid p hp b] at e
      omega
    inj := fun p _ hp _ a _ h => absurd (hkid p hp a) h }

theorem FM.leaves_length_le (m : FM) : m.leaves.length ≤ 257 := by
  rw [FM.leaves_eq, List.length_map, FM.coded]
  exact (List.length_filter_le _ _).trans_eq List.length_finRange

theorem FM.leaves_isLeaf (m : FM) : ∀ x ∈ m.leaves,
    x.left = Config.null ∧ x.right = Config.null ∧ x.sym.toNat ≤ 256 := by
  intro x hx
  rw [FM.leaves_eq] at hx
  obtain ⟨y, _, rfl⟩ := List.mem_map.mp hx
  have := y.isLt
  exact ⟨rfl, rfl, by simp only [BitVec.toNat_ofNat]; omega⟩

theorem allFull_of_leaves {nodes : List Node}
    (hleaf : ∀ x ∈ nodes, x.left = Config.null ∧ x.right = Config.null ∧ x.sym.toNat ≤ 256) : AllFull nodes :=
  fun p hp => by
    obtain ⟨hl, hr, _⟩ := hleaf _ (List.getElem_mem hp)
    rw [nodeIn_of_lt hp]
    exact .inl ⟨hl, hr⟩

/-! ## One merge -/

section
variable {nodes : List Node} {q : List Nat}

theorem Forest.lt_of_mem (F : Forest nodes q) {i : Nat} (h : i ∈ q) : i < nodes.length := ((F.mem_iff i).mp h).1

theorem Forest.length_lt (F : Forest nodes q) (hq : q ≠ []) : nodes.length < 514 := by
  have := List.length_pos_of_ne_nil hq
  have := F.size
  omega

/-- A queued entry is no child. -/
theorem Forest.kid_ne (F : Forest nodes q) {i p : Nat} (h : i ∈ q) (hp : p < nodes.length) (b : Bool) :
    (kid nodes p b).toNat ≠ i := ((F.mem_iff i).mp h).2 p hp b

/-- The entry after the last is no child. -/
theorem Forest.kid_ne_length (F : Forest nodes q) (hq : q ≠ []) {p : Nat} (hp : p < nodes.length) (b : Bool) :
    (kid nodes p b).toNat ≠ nodes.length := by
  have h1023 : (Config.null : NodeIdx).toNat = 1023 := rfl
  have := F.length_lt hq
  rcases F.kid_lt p hp b with e | h
  · rw [e]; omega
  · omega

theorem Forest.mem_erase_erase (F : Forest nodes q) {i j k : Nat} :
    k ∈ (q.erase i).erase j ↔ k ≠ j ∧ k ≠ i ∧ k ∈ q := by
  rw [(F.nodup.erase i).mem_erase_iff, F.nodup.mem_erase_iff]

theorem Forest.length_erase_erase (F : Forest nodes q) {i j : Nat} (hi : i ∈ q) (hj : j ∈ q) (hij : i ≠ j) :
    ((q.erase i).erase j).length + 2 = q.length := by
  have hj' : j ∈ q.erase i := F.nodup.mem_erase_iff.mpr ⟨hij.symm, hj⟩
  have h1 := List.length_erase_of_mem hj'
  have h2 := List.length_erase_of_mem hi
  have h3 := List.length_pos_of_mem hj'
  omega

/-- R162: the children of the new parent. -/
theorem Forest.kid_parent_toNat (F : Forest nodes q) {i j : Nat} (hi : i ∈ q) (hj : j ∈ q) (b : Bool) :
    (kid (nodes ++ [parentOf nodes i j]) nodes.length b).toNat = if b then j else i := by
  have hlen := F.length_lt (List.ne_nil_of_mem hi)
  rw [kid_append_parent, toNat_ofNat_idx]
  cases b
  · exact (F.lt_of_mem hi).trans hlen
  · exact (F.lt_of_mem hj).trans hlen

/-- After a merge the entries that are no child are those queued before, the two merged taken out, and the new parent. -/
theorem Forest.merge_mem_iff (F : Forest nodes q) {i j : Nat} (hi : i ∈ q) (hj : j ∈ q) (k : Nat) :
    k ∈ (q.erase i).erase j ++ [nodes.length] ↔ k < (nodes ++ [parentOf nodes i j]).length
      ∧ ∀ p, p < (nodes ++ [parentOf nodes i j]).length → ∀ b, (kid (nodes ++ [parentOf nodes i j]) p b).toNat ≠ k := by
  have hnew : ∀ b : Bool, (if b then j else i) < nodes.length := fun b => by
    cases b
    · exact F.lt_of_mem hi
    · exact F.lt_of_mem hj
  rw [List.mem_append, List.mem_singleton, F.mem_erase_erase]
  constructor
  · rintro (⟨hkj, hki, hk⟩ | rfl)
    · refine ⟨lt_length_append.mpr (.inl (F.lt_of_mem hk)), fun p hp b => ?_⟩
      rcases lt_length_append.mp hp with hp | rfl
      · rw [kid_append_left hp]; exact F.kid_ne hk hp b
      · rw [F.kid_parent_toNat hi hj]
        cases b
        · exact hki.symm
        · exact hkj.symm
    · refine ⟨lt_length_append.mpr (.inr rfl), fun p hp b => ?_⟩
      rcases lt_length_append.mp hp with hp | rfl
      · rw [kid_append_left hp]; exact F.kid_ne_length (List.ne_nil_of_mem hi) hp b
      · rw [F.kid_parent_toNat hi hj]; exact (hnew b).ne
  · rintro ⟨hk, hno⟩
    rcases lt_length_append.mp hk with hk | hk
    · have hkid := hno nodes.length (lt_length_append.mpr (.inr rfl))
      simp only [F.kid_parent_toNat hi hj] at hkid
      refine .inl ⟨(hkid true).symm, (hkid false).symm, (F.mem_iff k).mpr ⟨hk, fun p hp b => ?_⟩⟩
      rw [← kid_append_left (ms := [parentOf nodes i j]) hp]
      exact hno p (lt_length_append.mpr (.inl hp)) b
    · exact .inr hk

/-- After a merge no two child fields name the same entry: the two merged were no children before. -/
theorem Forest.merge_inj (F : Forest nodes q) {i j : Nat} (hi : i ∈ q) (hj : j ∈ q) (hij : i ≠ j) {p p' : Nat}
    (hp : p < (nodes ++ [parentOf nodes i j]).length) (hp' : p' < (nodes ++ [parentOf nodes i j]).length) {a b : Bool}
    (hne : kid (nodes ++ [parentOf nodes i j]) p a ≠ Config.null)
    (he : kid (nodes ++ [parentOf nodes i j]) p a = kid (nodes ++ [parentOf nodes i j]) p' b) : p = p' ∧ a = b := by
  have cross : ∀ p, p < nodes.length → ∀ a b, kid nodes p a ≠ kid (nodes ++ [parentOf nodes i j]) nodes.length b := by
    intro p hp a b e
    have hmem : (if b then j else i) ∈ q := by cases b <;> assumption
    exact F.kid_ne hmem hp a (by rw [e, F.kid_parent_toNat hi hj])
  rcases lt_length_append.mp hp with hp | rfl <;> rcases lt_length_append.mp hp' with hp' | rfl
  · rw [kid_append_left hp] at hne he
    rw [kid_append_left hp'] at he
    exact F.inj p p' hp hp' a b hne he
  · rw [kid_append_left hp] at he
    exact absurd he (cross p hp a b)
  · rw [kid_append_left hp'] at he
    exact absurd he.symm (cross p' hp' b a)
  · have hn := congrArg BitVec.toNat he
    rw [F.kid_parent_toNat hi hj, F.kid_parent_toNat hi hj] at hn
    refine ⟨rfl, ?_⟩
    cases a <;> cases b <;> simp at hn ⊢ <;> omega

/-- R162: a parent for two entries of the queue takes their place in it. -/
theorem Forest.merge (F : Forest nodes q) {i j : Nat} (hi : i ∈ q) (hj : j ∈ q) (hij : i ≠ j) :
    Forest (nodes ++ [parentOf nodes i j]) ((q.erase i).erase j ++ [nodes.length]) where
  size := by
    have := F.size
    have := F.length_erase_erase hi hj hij
    simp only [List.length_append, List.length_singleton]
    omega
  nodup := by
    refine ((F.nodup.erase i).erase j).append (List.nodup_singleton _) ?_
    rw [List.disjoint_singleton, F.mem_erase_erase]
    rintro ⟨_, _, h⟩
    exact absurd (F.lt_of_mem h) (Nat.lt_irrefl _)
  kid_lt p hp b := by
    rcases lt_length_append.mp hp with hp | rfl
    · rw [kid_append_left hp]; exact F.kid_lt p hp b
    · right
      rw [F.kid_parent_toNat hi hj]
      cases b
      · exact F.lt_of_mem hi
      · exact F.lt_of_mem hj
  sym_le p hp := by
    rcases lt_length_append.mp hp with hp | rfl
    · rw [nodeIn_append_left hp]; exact F.sym_le p hp
    · rw [nodeIn_append_length]; exact Nat.zero_le _
  mem_iff := F.merge_mem_iff hi hj
  inj _ _ hp hp' _ _ := F.merge_inj hi hj hij hp hp'

theorem AllFull.merge (h : AllFull nodes) {i j : Nat} (hi : i < 514) (hj : j < 514) :
    AllFull (nodes ++ [parentOf nodes i j]) := by
  intro p hp
  rcases lt_length_append.mp hp with hp | rfl
  · rw [nodeIn_append_left hp]
    exact h p hp
  · rw [nodeIn_append_length]
    exact .inr ⟨ofNat_ne_null hi, ofNat_ne_null hj⟩

end

/-! ## The merge loop -/

theorem mergeLoop_single (k : Nat) (nodes : List Node) (r : Nat) : mergeLoop k nodes [r] = (nodes, [r]) := by
  cases k <;> simp [mergeLoop, popFirst]

theorem mergeLoop_turn {k : Nat} {nodes : List Node} {q q₁ q₂ : List Nat} {i j : Nat}
    (ei : popFirst nodes q = some (i, q₁)) (ej : popFirst nodes q₁ = some (j, q₂)) :
    mergeLoop (k + 1) nodes q = mergeLoop k (nodes ++ [parentOf nodes i j]) (q₂ ++ [nodes.length]) := by
  simp only [mergeLoop, ei, ej]

/-- R162: the loop ends with one entry in the queue. -/
theorem mergeLoop_spec : ∀ (k : Nat) {nodes : List Node} {q : List Nat}, Forest nodes q → AllFull nodes → q ≠ [] →
    q.length ≤ k + 1 →
    ∃ r, (mergeLoop k nodes q).2 = [r] ∧ Forest (mergeLoop k nodes q).1 [r] ∧ AllFull (mergeLoop k nodes q).1 := by
  intro k nodes q F hfull hq hk
  have hpos := List.length_pos_of_ne_nil hq
  by_cases h1 : q.length = 1
  · obtain ⟨r, rfl⟩ := List.length_eq_one_iff.mp h1
    rw [mergeLoop_single]
    exact ⟨r, rfl, F, hfull⟩
  · cases k with
    | zero => omega
    | succ k =>
      obtain ⟨i, ei, hi, _⟩ := popFirst_spec (nodes := nodes) hq
      have hlen := List.length_erase_of_mem hi
      obtain ⟨j, ej, hj, _⟩ := popFirst_spec (nodes := nodes) (q := q.erase i) (List.ne_nil_of_length_pos (by omega))
      have hlen' := List.length_erase_of_mem hj
      obtain ⟨hne, hjq⟩ := F.nodup.mem_erase_iff.mp hj
      have hlt := F.length_lt hq
      rw [mergeLoop_turn ei ej]
      exact mergeLoop_spec k (F.merge hi hjq hne.symm)
        (hfull.merge ((F.lt_of_mem hi).trans hlt) ((F.lt_of_mem hjq).trans hlt)) (by simp)
        (by rw [List.length_append, List.length_singleton]; omega)

/-! ## The tree -/

/-- R163: the parent that wraps a single leaf, the last of two entries. -/
def WrapsLeaf (nodes : List Node) (p : Nat) : Prop :=
  nodes.length = 2 ∧ p = 1 ∧ (nodeIn nodes p).left = 0 ∧ (nodeIn nodes p).right = Config.null

/-- R160: a forest with one root, every entry a leaf or a parent of two, but for the parent that wraps a single leaf. -/
structure OneTree (nodes : List Node) (r : Nat) : Prop where
  forest : Forest nodes [r]
  full : ∀ p, p < nodes.length → (nodeIn nodes p).Full ∨ WrapsLeaf nodes p

/-- Nothing but the root is outside the children, so the last entry is the root. -/
theorem Forest.root_eq {nodes : List Node} {r : Nat} (F : Forest nodes [r]) : r + 1 = nodes.length := by
  have hr := F.lt_of_mem (List.mem_singleton_self r)
  have hsize := F.size
  have h1023 : (Config.null : NodeIdx).toNat = 1023 := rfl
  rw [List.length_singleton] at hsize
  have hlast : nodes.length - 1 ∈ [r] := (F.mem_iff _).mpr ⟨by omega, fun p hp b => by
    rcases F.kid_lt p hp b with e | h
    · rw [e]; omega
    · omega⟩
  have := List.mem_singleton.mp hlast
  omega

theorem forest_of_leaf {x : Node} (hleaf : x.left = Config.null ∧ x.right = Config.null ∧ x.sym.toNat ≤ 256) :
    Forest [x] [0] :=
  forest_of_leaves (nodes := [x]) (by simp) fun y hy => List.mem_singleton.mp hy ▸ hleaf

theorem oneTree_of_leaf {x : Node} (hleaf : x.left = Config.null ∧ x.right = Config.null ∧ x.sym.toNat ≤ 256) :
    OneTree [x] 0 :=
  ⟨forest_of_leaf hleaf, fun p hp => .inl (allFull_of_leaves (fun _ hy => List.mem_singleton.mp hy ▸ hleaf) p hp)⟩

/-- R163: "a single leaf is wrapped". -/
theorem oneTree_of_wrap {x : Node} (hleaf : x.left = Config.null ∧ x.right = Config.null ∧ x.sym.toNat ≤ 256) :
    OneTree [x, ⟨x.freq, 0, 0, Config.null⟩] 1 := by
  obtain ⟨hl, hr, hs⟩ := hleaf
  have two : ∀ p, p < [x, (⟨x.freq, 0, 0, Config.null⟩ : Node)].length → p = 0 ∨ p = 1 := fun p hp => by
    simp at hp; omega
  have leafKid : ∀ b, kid [x, ⟨x.freq, 0, 0, Config.null⟩] 0 b = Config.null := fun b => by
    cases b
    · exact hl
    · exact hr
  have rootLeft : kid [x, ⟨x.freq, 0, 0, Config.null⟩] 1 false = 0 := rfl
  have rootRight : kid [x, ⟨x.freq, 0, 0, Config.null⟩] 1 true = Config.null := rfl
  refine ⟨⟨by simp, List.nodup_singleton _, fun p hp b => ?_, fun p hp => ?_, fun i => ?_, fun p p' hp hp' a b hne he => ?_⟩,
    fun p hp => ?_⟩
  · rcases two p hp with rfl | rfl
    · exact .inl (leafKid b)
    · cases b
      · right; rw [rootLeft]; decide
      · exact .inl rootRight
  · rcases two p hp with rfl | rfl
    · exact hs
    · exact Nat.zero_le _
  · rw [List.mem_singleton]
    constructor
    · rintro rfl
      refine ⟨by simp, fun p hp b => ?_⟩
      rcases two p hp with rfl | rfl
      · rw [leafKid]; decide
      · cases b
        · rw [rootLeft]; decide
        · rw [rootRight]; decide
    · rintro ⟨hi, hno⟩
      rcases two i hi with rfl | rfl
      · exact absurd (by rw [rootLeft]; rfl) (hno 1 (by simp) false)
      · rfl
  · rcases two p hp with rfl | rfl
    · exact absurd (leafKid a) hne
    · rcases two p' hp' with rfl | rfl
      · rw [leafKid] at he; exact absurd he hne
      · refine ⟨rfl, ?_⟩
        cases a with
        | true => exact absurd rootRight hne
        | false =>
          cases b with
          | false => rfl
          | true => rw [rootLeft, rootRight] at he; exact absurd he (by decide)
  · rcases two p hp with rfl | rfl
    · exact .inl (.inl ⟨hl, hr⟩)
    · exact .inr ⟨rfl, rfl, rfl, rfl⟩

/-- R162, R163: whatever the counts, the entries built are one tree. -/
theorem FM.tree_oneTree (m : FM) : OneTree m.tree.1 m.tree.2 := by
  have hleaf := m.leaves_isLeaf
  have hlen := m.leaves_length_le
  unfold FM.tree
  split
  · exact oneTree_of_leaf ⟨rfl, rfl, by decide⟩
  · next l e => exact oneTree_of_wrap (hleaf l (by simp [e]))
  · next hnil _ =>
    have hne : List.range m.leaves.length ≠ [] := by simpa using hnil
    obtain ⟨r, hr, F, hfull⟩ := mergeLoop_spec m.leaves.length (forest_of_leaves hlen hleaf) (allFull_of_leaves hleaf) hne
      (by rw [List.length_range]; omega)
    dsimp only
    rw [hr]
    exact ⟨F, fun p hp => .inl (hfull p hp)⟩

/-! ## The tree in the arena -/

section
variable {h : HF} {t : List Node × Nat}

theorem HF.built_root_toNat (T : OneTree t.1 t.2) : (h.built t).root.toNat + 1 = t.1.length := by
  have hr := T.forest.root_eq
  have hlt := T.forest.length_lt (List.cons_ne_nil _ _)
  have : (h.built t).root.toNat = t.2 := toNat_ofNat_idx (by omega)
  omega

theorem HF.built_n_toNat (T : OneTree t.1 t.2) : (h.built t).n.toNat = t.1.length :=
  toNat_ofNat_idx (T.forest.length_lt (List.cons_ne_nil _ _))

theorem HF.built_root_ne_null (T : OneTree t.1 t.2) : (h.built t).root ≠ Config.null := by
  have hr := T.forest.root_eq
  have hlt := T.forest.length_lt (List.cons_ne_nil _ _)
  exact ofNat_ne_null (by omega)

theorem HF.built_nodeAt (T : OneTree t.1 t.2) {i : NodeIdx} (hi : i.toNat < (h.built t).n.toNat) :
    (h.built t).nodeAt i = nodeIn t.1 i.toNat := by
  rw [HF.built_n_toNat T] at hi
  have hlt := T.forest.length_lt (List.cons_ne_nil _ _)
  rw [HF.nodeAt_built h t hi (by omega), nodeIn_of_lt hi]

theorem HF.built_child (T : OneTree t.1 t.2) {i : NodeIdx} (hi : i.toNat < (h.built t).n.toNat) (b : Bool) :
    (h.built t).child i b = kid t.1 i.toNat b := by rw [HF.child, HF.built_nodeAt T hi, kid]

theorem HF.built_legal (T : OneTree t.1 t.2) : (h.built t).legal := by
  have hn : (h.built t).n.toNat = t.1.length := HF.built_n_toNat T
  have hroot : (h.built t).root.toNat + 1 = t.1.length := HF.built_root_toNat T
  have hlt := T.forest.length_lt (List.cons_ne_nil _ _)
  refine ⟨by omega, Iff.rfl, fun _ => ⟨by omega, ?_, .inl rfl⟩, fun i hi => ?_⟩
  · change (h.built t).root.toNat < _; omega
  · rw [HF.built_nodeAt T hi]
    rw [hn] at hi
    exact ⟨T.forest.kid_lt _ hi false, T.forest.kid_lt _ hi true, T.forest.sym_le _ hi⟩

theorem HF.built_strictTree (T : OneTree t.1 t.2) : (h.built t).strictTree := by
  have hn : (h.built t).n.toNat = t.1.length := HF.built_n_toNat T
  have hroot : (h.built t).root.toNat + 1 = t.1.length := HF.built_root_toNat T
  have hlast := T.forest.root_eq
  have hlt := T.forest.length_lt (List.cons_ne_nil _ _)
  refine ⟨⟨fun e => absurd e (HF.built_root_ne_null T), fun e => ?_⟩, fun _ => by omega, fun i hi hne => ?_,
    fun p p' hp hp' a b hnull he => ?_, fun p hp => ?_⟩
  · rw [e] at hn; simp at hn; omega
  · have hni : i.toNat ≠ t.2 := fun e => hne (BitVec.eq_of_toNat_eq (by omega))
    have horphan := mt (T.forest.mem_iff i.toNat).mpr (by simpa using hni)
    rw [← hn] at horphan
    push Not at horphan
    obtain ⟨p, hp, b, e⟩ := horphan hi
    have hp' : (BitVec.ofNat 10 p : NodeIdx).toNat = p := toNat_ofNat_idx (by omega)
    refine ⟨BitVec.ofNat 10 p, b, by omega, ?_⟩
    rw [HF.built_child T (by omega), hp']
    exact BitVec.eq_of_toNat_eq e
  · rw [HF.built_child T hp] at hnull he
    rw [HF.built_child T hp'] at he
    rw [hn] at hp hp'
    obtain ⟨e, eb⟩ := T.forest.inj _ _ hp hp' a b hnull he
    exact ⟨BitVec.eq_of_toNat_eq e, eb⟩
  · rw [HF.built_nodeAt T hp]
    rw [hn] at hp
    rcases T.full _ hp with (⟨hl, hr⟩ | htwo) | ⟨h2, h1, hl, hr⟩
    · exact .inl (by simp [Node.isLeaf, hl, hr])
    · exact .inr (.inl htwo)
    · exact .inr (.inr ⟨BitVec.eq_of_toNat_eq (by rw [hn, h2]; rfl), BitVec.eq_of_toNat_eq (by omega), hl, hr⟩)

theorem HF.built_treeSound (T : OneTree t.1 t.2) : (h.built t).TreeSound :=
  ⟨HF.built_legal T, HF.built_strictTree T, fun _ => rfl⟩

end

theorem HF.codesLegal_congr {h v : HF} (hc : h.codesLegal) (hl : v.len = h.len) (hb : v.bits = h.bits) :
    v.codesLegal := fun x => by
  rw [hl, hb]
  exact hc x

theorem hfBuild_sound : Op.Preserves State.Sound hfBuild := fun s hs => by
  have ht : (s.hf.built s.fm.tree).TreeSound := HF.built_treeSound s.fm.tree_oneTree
  rw [hfBuild_run]
  exact hs.setHf ht (HF.codesLegal_congr hs.codesLegal (HF.built_len _ _) (HF.built_bits _ _))

end Sys2Proof.Machine

/-! SUPPORT. `HF.CODES` gives every symbol a legal code (R32, R164), and the walker stays in its place (R166): in a strict tree
of at most 513 entries no path from the root is longer than 256. -/

namespace Sys2Proof.Machine

open Sys2Proof

section
variable {h : HF}

/-! ## The depth of a strict tree -/

/-- A child is in the arena, below its parent. -/
theorem HF.legal.child_lt (hl : h.legal) {p : NodeIdx} (hp : p.toNat < h.n.toNat) {b : Bool}
    (hne : h.child p b ≠ Config.null) : (h.child p b).toNat < p.toNat := by
  obtain ⟨_, _, _, hkids⟩ := hl
  obtain ⟨hleft, hright, _⟩ := hkids p hp
  cases b
  · exact hleft.resolve_left hne
  · exact hright.resolve_left hne

/-- A measure that falls from a parent to its children bounds the paths of R164. -/
theorem leafPaths_length_le {f : NodeIdx → Nat} (hl : h.legal)
    (hf : ∀ p b, p.toNat < h.n.toNat → h.child p b ≠ Config.null → f (h.child p b) < f p) :
    ∀ (k : Nat) (i : NodeIdx) (path : List Bool), i.toNat < h.n.toNat →
      ∀ e ∈ leafPaths h k i path, e.2.length ≤ path.length + f i
  | 0, _, _, _, _, he => absurd he (List.not_mem_nil)
  | k + 1, i, path, hi, e, he => by
    have side : ∀ b, e ∈ (if h.child i b = Config.null then [] else leafPaths h k (h.child i b) (path ++ [b])) →
        e.2.length ≤ path.length + f i := fun b hb => by
      split at hb
      · exact absurd hb List.not_mem_nil
      · next hne =>
        have hfall := hf i b hi hne
        have hrec := leafPaths_length_le hl hf k _ _ ((hl.child_lt hi hne).trans hi) e hb
        rw [List.length_append, List.length_singleton] at hrec
        omega
    rw [leafPaths] at he
    split at he
    · rw [List.mem_singleton.mp he]; exact Nat.le_add_right _ _
    · rcases List.mem_append.mp he with he | he
      · exact side false he
      · exact side true he

/-- The parents of two among the entries up to i. -/
def HF.parents (h : HF) (i : NodeIdx) : Finset NodeIdx :=
  Finset.univ.filter fun p => p.toNat ≤ i.toNat ∧ ∀ b, h.child p b ≠ Config.null

theorem HF.mem_parents {i p : NodeIdx} :
    p ∈ h.parents i ↔ p.toNat ≤ i.toNat ∧ ∀ b, h.child p b ≠ Config.null := by simp [HF.parents]

/-- Two values below n for each member of a set, all of them different. -/
theorem two_mul_card_le {α : Type} {S : Finset α} {n : Nat} {f : α → Bool → Nat} (hlt : ∀ p ∈ S, ∀ b, f p b < n)
    (hinj : ∀ p ∈ S, ∀ q ∈ S, ∀ a b, f p a = f q b → p = q ∧ a = b) : 2 * S.card ≤ n := by
  have hle : (S ×ˢ (Finset.univ : Finset Bool)).card ≤ (Finset.range n).card := by
    refine Finset.card_le_card_of_injOn (fun e => f e.1 e.2) (fun e he => ?_) (fun e he e' he' heq => ?_)
    · exact Finset.mem_coe.mpr (Finset.mem_range.mpr (hlt _ (Finset.mem_product.mp he).1 _))
    · obtain ⟨h1, h2⟩ := hinj _ (Finset.mem_product.mp he).1 _ (Finset.mem_product.mp he').1 _ _ heq
      exact Prod.ext h1 h2
  rw [Finset.card_product, Finset.card_range, Finset.card_univ, Fintype.card_bool] at hle
  omega

/-- The two children of each parent up to i are different entries below i. -/
theorem HF.two_mul_card_parents_le (hl : h.legal) (ht : h.strictTree) {i : NodeIdx} (hi : i.toNat < h.n.toNat) :
    2 * (h.parents i).card ≤ i.toNat := by
  obtain ⟨_, _, _, hinj, _⟩ := ht
  refine two_mul_card_le (f := fun p b => (h.child p b).toNat) (fun p hp b => ?_) (fun p hp q hq a b heq => ?_)
  · obtain ⟨hle, hne⟩ := HF.mem_parents.mp hp
    exact (hl.child_lt (hle.trans_lt hi) (hne b)).trans_le hle
  · obtain ⟨hle, hne⟩ := HF.mem_parents.mp hp
    obtain ⟨hle', _⟩ := HF.mem_parents.mp hq
    exact hinj p q (hle.trans_lt hi) (hle'.trans_lt hi) a b (hne a) (BitVec.eq_of_toNat_eq heq)

/-- R160: an entry with a child has two, unless the tree is the wrapped single leaf. -/
theorem HF.strictTree.two_children (ht : h.strictTree) (hn : h.n ≠ 2) {p : NodeIdx} (hp : p.toNat < h.n.toNat) {b : Bool}
    (hne : h.child p b ≠ Config.null) : ∀ b, h.child p b ≠ Config.null := by
  obtain ⟨_, _, _, _, hfull⟩ := ht
  rcases hfull p hp with hleaf | ⟨hleft, hright⟩ | ⟨h2, _⟩
  · obtain ⟨hleft, hright⟩ : (h.nodeAt p).left = Config.null ∧ (h.nodeAt p).right = Config.null := by
      simpa [Node.isLeaf] using hleaf
    cases b
    · exact absurd hleft hne
    · exact absurd hright hne
  · intro b
    cases b
    · exact hleft
    · exact hright
  · exact absurd h2 hn

theorem HF.card_parents_child_lt (hl : h.legal) (ht : h.strictTree) (hn : h.n ≠ 2) {p : NodeIdx} {b : Bool}
    (hp : p.toNat < h.n.toNat) (hne : h.child p b ≠ Config.null) :
    (h.parents (h.child p b)).card < (h.parents p).card := by
  have hlt := hl.child_lt hp hne
  refine Finset.card_lt_card (Finset.ssubset_iff_of_subset (fun q hq => ?_) |>.mpr ⟨p, ?_, fun hmem => ?_⟩)
  · obtain ⟨hle, htwo⟩ := HF.mem_parents.mp hq
    exact HF.mem_parents.mpr ⟨by omega, htwo⟩
  · exact HF.mem_parents.mpr ⟨le_rfl, ht.two_children hn hp hne⟩
  · have := (HF.mem_parents.mp hmem).1
    omega

/-- R32: no path from the root is longer than 256. -/
theorem HF.TreeSound.path_length_le (ht : h.TreeSound) (hroot : h.root ≠ Config.null) (k : Nat) :
    ∀ e ∈ leafPaths h k h.root [], e.2.length ≤ 256 := by
  obtain ⟨hl, hs, _⟩ := ht
  obtain ⟨hn, _, huse, _⟩ := id hl
  obtain ⟨hr, _⟩ := huse hroot
  intro e he
  by_cases h2 : h.n = 2
  · have := leafPaths_length_le (f := BitVec.toNat) hl (fun _ _ hp hne => hl.child_lt hp hne) k _ _ hr e he
    have : h.n.toNat = 2 := congrArg BitVec.toNat h2
    simp only [List.length_nil] at *
    omega
  · have := leafPaths_length_le (f := fun i => (h.parents i).card) hl
      (fun _ _ hp hne => HF.card_parents_child_lt hl hs h2 hp hne) k _ _ hr e he
    have := HF.two_mul_card_parents_le hl hs hr
    simp only [List.length_nil] at *
    omega

/-! ## The codes (R164) -/

/-- A code read as a number has no bit at or above its length. -/
theorem codeBits_lt (c : List Bool) : (codeBits c).toNat < 2 ^ c.length := by
  have key : ∀ (c : List Bool) (v : BitVec 256) (k : Nat), v.toNat < 2 ^ k →
      (c.foldl (fun (v : BitVec 256) b => (v <<< 1) ||| (if b then 1 else 0)) v).toNat < 2 ^ (k + c.length) := by
    intro c
    induction c with
    | nil => exact fun _ _ hv => hv
    | cons b c ih =>
      intro v k hv
      rw [List.foldl_cons, List.length_cons, show k + (c.length + 1) = k + 1 + c.length by omega]
      exact ih _ _ (shiftIn_lt b hv)
  have := key c 0 0 (by decide)
  rwa [Nat.zero_add] at this

theorem codeOfPath_length_le {p : List Bool} (hp : p.length ≤ 256) : (codeOfPath p).length ≤ 256 := by
  unfold codeOfPath
  split
  · decide
  · exact hp

theorem HF.record_codesLegal (hc : h.codesLegal) {e : Symbol × List Bool} (he : e.2.length ≤ 256) :
    (h.record e).codesLegal := by
  have hlen : (BitVec.ofNat 9 (codeOfPath e.2).length).toNat = (codeOfPath e.2).length :=
    Nat.mod_eq_of_lt (by have := codeOfPath_length_le he; omega)
  intro x
  simp only [HF.record, Fin.getElem_fin, Vector.getElem_set]
  split
  · rw [hlen]; exact ⟨codeOfPath_length_le he, codeBits_lt _⟩
  · exact hc x

/-- Recording codes leaves the tree and the walker as they are. -/
theorem HF.foldl_record_sound : ∀ {es : List (Symbol × List Bool)} {v : HF}, v.TreeSound → v.codesLegal →
    (∀ e ∈ es, e.2.length ≤ 256) → (es.foldl HF.record v).TreeSound ∧ (es.foldl HF.record v).codesLegal
  | [], _, ht, hc, _ => ⟨ht, hc⟩
  | e :: es, v, ht, hc, hes =>
    have htv : (v.record e).TreeSound := ht
    HF.foldl_record_sound (es := es) htv (HF.record_codesLegal hc (hes e List.mem_cons_self))
      fun e' he' => hes e' (List.mem_cons_of_mem _ he')

theorem HF.coded_sound (ht : h.TreeSound) (hroot : h.root ≠ Config.null) :
    h.coded.TreeSound ∧ h.coded.codesLegal :=
  have htc : h.clearCodes.TreeSound := ht
  HF.foldl_record_sound htc (HF.codesLegal_of_zero rfl rfl) (ht.path_length_le hroot _)

theorem hfCodes_sound : Op.Preserves State.Sound hfCodes := fun s hs => by
  obtain ⟨_, e⟩ | ⟨hroot, e⟩ := needTree_run s
  · rw [hfCodes, Op.bind_of_error e]; exact hs
  · obtain ⟨ht, hc⟩ := HF.coded_sound hs.treeSound hroot
    rw [hfCodes, Op.bind_of_ok e, modHf_run]
    exact hs.setHf ht hc

theorem writeCodeBits_sound (c : BitVec 256) : ∀ k, Op.Preserves State.Sound (writeCodeBits c k)
  | 0 => .pure _
  | k + 1 => (bwWbit_sound _).bind fun _ => writeCodeBits_sound c k

theorem hfEsym_sound (x : Symbol) : Op.Preserves State.Sound (hfEsym x) := fun s hs => by
  unfold hfEsym
  split
  · exact hs
  · exact writeCodeBits_sound _ _ s hs

/-! ## The walker (R166) -/

/-- With no root there is no entry to read: the blank one is a leaf. -/
theorem HF.root_ne_null_of_not_leaf (hr : (h.nodeAt h.root).isLeaf = false) : h.root ≠ Config.null := by
  intro e
  rw [e] at hr
  simp [HF.nodeAt, Vector.getD, Node.isLeaf, Node.blank] at hr

/-- R166: the walker may stand at an entry in use that is the root or no leaf. -/
theorem HF.TreeSound.moveWalk (ht : h.TreeSound) (hr : (h.nodeAt h.root).isLeaf = false) {c : NodeIdx}
    (hc : c.toNat < h.n.toNat) (hnull : c ≠ Config.null) (hplace : c = h.root ∨ (h.nodeAt c).isLeaf = false) :
    HF.TreeSound { h with walk := c } := by
  obtain ⟨⟨hn, _, huse, hkids⟩, hstrict, _⟩ := ht
  have hroot := HF.root_ne_null_of_not_leaf hr
  obtain ⟨hlt, _, _⟩ := huse hroot
  exact ⟨⟨hn, ⟨fun e => absurd e hroot, fun e => absurd e hnull⟩, fun _ => ⟨hlt, hc, hplace⟩, hkids⟩, hstrict,
    fun e => absurd (hr.symm.trans e) Bool.false_ne_true⟩

theorem HF.descend_treeSound (ht : h.TreeSound) {b : Bool} {v : HF} {r : Option Symbol} (e : h.descend b = .ok (v, r)) :
    v.TreeSound ∧ v.len = h.len ∧ v.bits = h.bits := by
  cases hr : (h.nodeAt h.root).isLeaf with
  | true =>
    rw [HF.descend_root b hr] at e
    split at e
    · cases e
    · cases e; exact ⟨ht, rfl, rfl⟩
  | false =>
    have hroot := HF.root_ne_null_of_not_leaf hr
    obtain ⟨_, _, huse, _⟩ := ht.1
    obtain ⟨hrlt, hwlt, _⟩ := huse hroot
    rw [HF.descend_child hr (c := h.child h.walk b) rfl] at e
    split at e
    · cases e
    · next hnull =>
      split at e
      · cases e; exact ⟨ht.moveWalk hr hrlt hroot (.inl rfl), rfl, rfl⟩
      · next hleaf =>
        have hclt := (ht.1.child_lt hwlt hnull).trans hwlt
        cases e; exact ⟨ht.moveWalk hr hclt hnull (.inr (by simpa using hleaf)), rfl, rfl⟩

end

theorem walkBit_sound (b : Bool) : Op.Preserves State.Sound (walkBit b) := fun s hs => by
  rw [walkBit_run]
  cases e : s.hf.descend b with
  | error k => exact hs
  | ok p =>
    obtain ⟨ht, hl, hb⟩ := HF.descend_treeSound hs.treeSound e
    exact hs.setHf ht (HF.codesLegal_congr hs.codesLegal hl hb)

theorem needTree_sound : Op.Preserves State.Sound needTree := fun s hs => by
  obtain ⟨_, e⟩ | ⟨_, e⟩ := needTree_run s <;> rw [e] <;> exact hs

theorem hfStep_sound : Op.Preserves State.Sound hfStep := by
  refine needTree_sound.bind fun _ => brRbit_sound.bind fun b => brEofSeen_sound.bind fun eof => ?_
  split
  · exact .raise _
  · exact walkBit_sound b

theorem dsymLoop_sound : ∀ k, Op.Preserves State.Sound (dsymLoop k)
  | 0 => .stuck
  | k + 1 => hfStep_sound.bind fun
    | some _ => .pure _
    | none => dsymLoop_sound k

theorem hfDsym_sound : Op.Preserves State.Sound hfDsym := .reading fun _ => dsymLoop_sound _

theorem hfEnc_sound : Op.Preserves State.Sound hfEnc :=
  srcPos_sound.bind fun m => fmScan_sound.bind fun _ => (srcSeek_sound m).bind fun _ => (fmWhdr_sound _).bind fun _ =>
    hfBuild_sound.bind fun _ => hfCodes_sound.bind fun _ => bwInit_sound.bind fun _ =>
    (Op.Preserves.forSource srcRead_sound fun b => hfEsym_sound (byteSymbol b)).bind fun _ =>
    (hfEsym_sound _).bind fun _ => bwFlush_sound

theorem hfDec_sound : Op.Preserves State.Sound hfDec :=
  (fmRhdr_sound _).bind fun _ => hfBuild_sound.bind fun _ => brInit_sound.bind fun _ =>
    .reading fun _ => .decodeLoop snkWrite_sound hfDsym_sound _

end Sys2Proof.Machine

/-! SUPPORT. Every step keeps a legal state legal (R27, R30 to R32, R160, R163, R166, R202, R230), and the state the environment
makes is legal (R301). -/

namespace Sys2Proof.Machine

open Sys2Proof

/-- Every command leaves a legal state legal. -/
theorem exec_legal (i : Instr) {s t : State} (hs : s.Legal) (e : exec i s = .next t) : t.Legal := by
  cases i with
  | coreNop => exact runCommand_legal (.pure _) hs e
  | coreReset => cases e; exact (s.resetBlock_sound).legal
  | coreStatus => exact runCommand_legal (.pure _) hs e
  | coreRewind => exact runCommand_legal (srcSeek_sound 0).noValue hs e
  | leWr32 v => exact runCommand_legal (leWr32_sound v).noValue hs e
  | leRd32 =>
    exact runCommand_legal (leRd32_sound.bind fun
      | some _ => .pure _
      | none => .pure _) hs e
  | bwInit => exact runCommand_legal bwInit_sound.noValue hs e
  | bwWbit b => exact runCommand_legal (bwWbit_sound _).noValue hs e
  | bwFlush => exact runCommand_legal bwFlush_sound.noValue hs e
  | brInit => exact runCommand_legal brInit_sound.noValue hs e
  | brRbit => exact runCommand_legal (brRbit_sound.bind fun _ => .pure _) hs e
  | brEof => exact runCommand_legal (op := fun t => .ok (.val t.eofFlag) t) (fun _ h => h) hs e
  | fmClr => exact runCommand_legal fmClr_sound.noValue hs e
  | fmAcc b => exact runCommand_legal (fmAcc_sound b).noValue hs e
  | fmEos => exact runCommand_legal fmEos_sound.noValue hs e
  | fmScale => exact runCommand_legal fmScale_sound.noValue hs e
  | fmCum => exact runCommand_legal fmCum_sound.noValue hs e
  | fmFind v => exact runCommand_legal ((fmFind_sound _).bind fun _ => .pure _) hs e
  | fmWhdr tag => exact runCommand_legal (fmWhdr_sound tag).noValue hs e
  | fmRhdr tag => exact runCommand_legal (fmRhdr_sound tag).noValue hs e
  | fmScan => exact runCommand_legal fmScan_sound.noValue hs e
  | hfBuild => exact runCommand_legal hfBuild_sound.noValue hs e
  | hfCodes => exact runCommand_legal hfCodes_sound.noValue hs e
  | hfEsym v => exact runCommand_legal ((symbolOperand_sound v).bind hfEsym_sound).noValue hs e
  | hfStep =>
    exact runCommand_legal (hfStep_sound.bind fun
      | some _ => .pure _
      | none => .pure _) hs e
  | hfDsym => exact runCommand_legal (hfDsym_sound.bind fun _ => .pure _) hs e
  | hfEnc => exact runCommand_legal hfEnc_sound.noValue hs e
  | hfDec => exact runCommand_legal hfDec_sound.noValue hs e
  | acEinit => exact runCommand_legal acEinit_sound.noValue hs e
  | acEsym v => exact runCommand_legal ((symbolOperand_sound v).bind acEsym_sound).noValue hs e
  | acEfin => exact runCommand_legal acEfin_sound.noValue hs e
  | acDinit => exact runCommand_legal acDinit_sound.noValue hs e
  | acDsym => exact runCommand_legal (acDsym_sound.bind fun _ => .pure _) hs e
  | acEnc => exact runCommand_legal acEnc_sound.noValue hs e
  | acDec => exact runCommand_legal acDec_sound.noValue hs e
  | rcEinit => exact runCommand_legal rcEinit_sound.noValue hs e
  | rcEsym v => exact runCommand_legal ((symbolOperand_sound v).bind rcEsym_sound).noValue hs e
  | rcEfin => exact runCommand_legal_of_endsSound rcEfin_endsSound.noValue hs e
  | rcDinit => exact runCommand_legal rcDinit_sound.noValue hs e
  | rcDsym => exact runCommand_legal (rcDsym_sound.bind fun _ => .pure _) hs e
  | rcEnc => exact runCommand_legal_of_endsSound rcEnc_endsSound.noValue hs e
  | rcDec => exact runCommand_legal rcDec_sound.noValue hs e
  | rlEinit => exact runCommand_legal rlEinit_sound.noValue hs e
  | rlEbyte b => exact runCommand_legal (rlEbyte_sound b).noValue hs e
  | rlEfin => exact runCommand_legal rlEfin_sound.noValue hs e
  | rlDrec =>
    exact runCommand_legal (rlDrec_sound.bind fun
      | true => .pure _
      | false => .pure _) hs e
  | rlEnc => exact runCommand_legal rlEnc_sound.noValue hs e
  | rlDec => exact runCommand_legal rlDec_sound.noValue hs e

/-- What a step can be: idle, a command or a bad command, with bytes taken off the port (R98, R101, R289). -/
theorem step_cases {s t : State} (e : step s = .next t) :
    t = s ∨ ∃ c, (∃ i, exec i (s.setCmd c) = .next t) ∨ rejectCommand (s.setCmd c) = .next t := by
  unfold step fetch at e
  cases hd : decode s.cmd with
  | ok p => rw [hd] at e; exact .inr ⟨p.2, .inl ⟨p.1, e⟩⟩
  | error k =>
    rw [hd] at e
    cases k with
    | noCommand => cases e; exact .inl rfl
    | reservedOpcode op => exact .inr ⟨_, .inr e⟩
    | operandMissing op => exact .inr ⟨_, .inr e⟩

/-- The command port is no part of what is legal. -/
theorem State.Legal.setCmd {s : State} (h : s.Legal) (c : List Byte) : (s.setCmd c).Legal := h

/-- Settles O14: each command's pseudocode keeps `State.Sound`, which is legality while the status is 0; only the range
coder's tail can break it, and then the command ends in an error. -/
theorem stepsKeepTheRegistersLegal : Obligations.StepsKeepTheRegistersLegal := by
  intro s t hs e
  rcases step_cases e with rfl | ⟨c, ⟨i, e⟩ | e⟩
  · exact hs
  · exact exec_legal i (hs.setCmd c) e
  · exact runCommand_legal (.raise _) (hs.setCmd c) e

/-- Settles O15: `State.attach` puts the reset value in every register, so `CORE.RESET` gives the same registers again. -/
theorem newInstanceIsLegal : Obligations.NewInstanceIsLegal := by
  intro data cap
  have wf : Memory.wf (State.attach data cap).src (State.attach data cap).snk = true := by
    rw [Memory.wf_iff]
    exact ⟨Nat.zero_le _, fun _ _ => Nat.zero_le _⟩
  exact ⟨(State.attach_sound data cap).legal, wf, rfl, rfl, rfl⟩

end Sys2Proof.Machine

/-! SUPPORT. What the pseudocode does outside the units: it reads the source, writes the sink and moves the cursor, and
changes nothing else but registers. A property kept by those few is kept by every procedure. -/

namespace Sys2Proof.Machine

open Sys2Proof

/-- The part of the state that is no unit's register: the status, the streams and the ports. -/
def State.outside (s : State) : StatusCode × Src × Snk × List Byte × Option Response :=
  (s.status, s.src, s.snk, s.cmd, s.resp)

/-- A property that no change of the units' registers touches, and that reading, writing and rewinding keep (R61 to R63). The
cursor of a state with the property can be taken again: the second pass of an encoder begins so (R168, R200, R227). -/
structure StreamInvariant (P : State → Prop) : Prop where
  regs : ∀ {s t : State}, t.outside = s.outside → P s → P t
  read : Op.Preserves P srcRead
  write : ∀ b, Op.Preserves P (snkWrite b)
  rewind : Op.Preserves P (srcSeek 0)
  restore : ∀ {u : State}, P u → Op.Preserves P (srcSeek u.src.pos)

theorem Op.Preserves.savedCursor {P : State → Prop} {α : Type} {f : Nat → Op α}
    (h : ∀ u, P u → Op.Preserves P (f u.src.pos)) : Op.Preserves P (srcPos >>= f) := fun s hs => h s hs s hs

/-! ## Procedures that only look at the state -/

section
variable {P : State → Prop}

theorem symbolOperand_preserves (v : BitVec 16) : Op.Preserves P (symbolOperand v) := fun s hs => by
  obtain ⟨_, _, e⟩ | ⟨_, e⟩ := symbolOperand_run v s <;> rw [e] <;> exact hs

theorem brEofSeen_preserves : Op.Preserves P brEofSeen := fun _ hs => hs

theorem fmFind_preserves (v : Nat) : Op.Preserves P (fmFind v) := fun s hs => by
  unfold fmFind
  split
  · exact hs
  · exact hs

theorem headerHasEos_preserves : Op.Preserves P headerHasEos := fun s hs => by
  obtain ⟨_, _, e⟩ | ⟨_, e⟩ := headerHasEos_run s <;> rw [e] <;> exact hs

theorem needTree_preserves : Op.Preserves P needTree := fun s hs => by
  obtain ⟨_, e⟩ | ⟨_, e⟩ := needTree_run s <;> rw [e] <;> exact hs

theorem targetValue_preserves (u : Coder) : Op.Preserves P (targetValue u) := fun s hs => by
  unfold targetValue
  split
  · exact hs
  · split
    · exact hs
    · exact hs

theorem acNeedInput_preserves : Op.Preserves P acNeedInput := fun s hs => by
  obtain ⟨_, e⟩ | ⟨_, e⟩ := acNeedInput_run s <;> rw [e] <;> exact hs

theorem rcNeedInput_preserves : Op.Preserves P rcNeedInput := fun s hs => by
  obtain ⟨_, e⟩ | ⟨_, e⟩ := rcNeedInput_run s <;> rw [e] <;> exact hs

end

namespace StreamInvariant

section
variable {P : State → Prop} (hP : StreamInvariant P)
include hP

/-! ## Registers -/

section
variable {s : State}

theorem setBw (hs : P s) (v : BW) : P (s.setBw v) := hP.regs (by rfl) hs
theorem setBr (hs : P s) (v : BR) : P (s.setBr v) := hP.regs (by rfl) hs
theorem setFm (hs : P s) (v : FM) : P (s.setFm v) := hP.regs (by rfl) hs
theorem setHf (hs : P s) (v : HF) : P (s.setHf v) := hP.regs (by rfl) hs
theorem setAc (hs : P s) (v : AC) : P (s.setAc v) := hP.regs (by rfl) hs
theorem setRc (hs : P s) (v : RC) : P (s.setRc v) := hP.regs (by rfl) hs
theorem setRl (hs : P s) (v : RL) : P (s.setRl v) := hP.regs (by rfl) hs

end

theorem keeps_modFm (f : FM → FM) : Op.Preserves P (modFm f) := fun _ hs => hP.setFm hs _
theorem keeps_modHf (f : HF → HF) : Op.Preserves P (modHf f) := fun _ hs => hP.setHf hs _
theorem keeps_modAc (f : AC → AC) : Op.Preserves P (modAc f) := fun _ hs => hP.setAc hs _
theorem keeps_modRc (f : RC → RC) : Op.Preserves P (modRc f) := fun _ hs => hP.setRc hs _

/-! ## Bytes, bits and words -/

theorem keeps_writeBytes : ∀ bs : List Byte, Op.Preserves P (writeBytes bs)
  | [] => .pure _
  | b :: bs => (hP.write b).bind fun _ => keeps_writeBytes bs

theorem keeps_bwInit : Op.Preserves P bwInit := fun _ hs => hP.setBw hs _

theorem keeps_bwWbit (b : Bool) : Op.Preserves P (bwWbit b) := fun s hs => by
  have := s.bw.cnt.isLt
  by_cases h7 : s.bw.cnt.val = 7
  · rw [bwWbit_of_eq b h7]; exact hP.write _ _ (hP.setBw hs _)
  · rw [bwWbit_of_lt b (by omega)]; exact hP.setBw hs _

theorem keeps_bwFlush : Op.Preserves P bwFlush := fun s hs => by
  obtain ⟨_, e⟩ | ⟨_, e⟩ := bwFlush_run s
  · rw [e]; exact hs
  · rw [e]; exact hP.write _ _ (hP.setBw hs _)

theorem keeps_brInit : Op.Preserves P brInit := fun _ hs => hP.setBr hs _

theorem keeps_brRbit : Op.Preserves P brRbit := fun s hs => by
  cases he : s.br.eof with
  | true => rw [brRbit_of_eof he]; exact hs
  | false =>
    have hrem := s.br.rem.isLt
    rcases Nat.eq_zero_or_pos s.br.rem.val with hr | hr
    · cases hx : s.remaining with
      | nil => rw [brRbit_of_end he hr hx]; exact hP.setBr hs _
      | cons x l =>
        have hread : P (s.consumed 1) := hP.read.of_ok hs (srcRead_of_cons hx)
        rw [brRbit_of_load he hr hx]; exact hP.setBr hread _
    · rw [brRbit_of_rem ⟨s.br.rem.val - 1, by omega⟩ he (by simp; omega)]; exact hP.setBr hs _

theorem keeps_leWr32 (v : Word) : Op.Preserves P (leWr32 v) := hP.keeps_writeBytes _

theorem keeps_readByteOrTruncation : Op.Preserves P readByteOrTruncation :=
  hP.read.bind fun
    | some _ => .pure _
    | none => .raise _

theorem keeps_leRd32 : Op.Preserves P leRd32 :=
  hP.read.bind fun
    | none => .pure _
    | some _ => hP.keeps_readByteOrTruncation.bind fun _ => hP.keeps_readByteOrTruncation.bind fun _ =>
        hP.keeps_readByteOrTruncation.bind fun _ => .pure _

/-! ## The frequency model -/

theorem keeps_fmClr : Op.Preserves P fmClr := hP.keeps_modFm _
theorem keeps_fmAcc (b : Byte) : Op.Preserves P (fmAcc b) := hP.keeps_modFm _
theorem keeps_fmEos : Op.Preserves P fmEos := hP.keeps_modFm _
theorem keeps_fmScale : Op.Preserves P fmScale := hP.keeps_modFm _

theorem keeps_fmScan : Op.Preserves P fmScan :=
  hP.keeps_fmClr.bind fun _ => (Op.Preserves.forSource hP.read hP.keeps_fmAcc).bind fun _ => hP.keeps_fmEos

theorem keeps_fmCum : Op.Preserves P fmCum := fun s hs => by
  obtain ⟨_, e⟩ | ⟨_, e⟩ := fmCum_run s
  · rw [e]; exact hs
  · rw [e]; exact hP.setFm hs _

theorem keeps_fmWhdr (tag : Word) : Op.Preserves P (fmWhdr tag) := fun s hs => by
  rw [fmWhdr_run]
  exact hP.keeps_writeBytes _ s hs

theorem keeps_readWordOrTruncation : Op.Preserves P readWordOrTruncation :=
  hP.keeps_leRd32.bind fun
    | some _ => .pure _
    | none => .raise _

theorem keeps_readWords : ∀ n : Nat, Op.Preserves P (readWords n)
  | 0 => .pure _
  | n + 1 => (keeps_readWords n).bind fun _ => hP.keeps_readWordOrTruncation.bind fun _ => .pure _

theorem keeps_fmRhdr (tag : Word) : Op.Preserves P (fmRhdr tag) := by
  have hbyte := hP.keeps_readByteOrTruncation
  refine hbyte.bind fun m0 => hbyte.bind fun m1 => hbyte.bind fun m2 => hbyte.bind fun m3 => ?_
  split
  · exact .raise _
  · refine hP.keeps_readWordOrTruncation.bind fun n => ?_
    split
    · exact .raise _
    · exact (hP.keeps_readWords 257).bind fun f => (hP.keeps_modFm _).bind fun _ => headerHasEos_preserves

/-! ## The Huffman coder -/

theorem keeps_hfBuild : Op.Preserves P hfBuild := .reading fun _ => hP.keeps_modHf _

theorem keeps_hfCodes : Op.Preserves P hfCodes := needTree_preserves.bind fun _ => hP.keeps_modHf _

theorem keeps_writeCodeBits (c : BitVec 256) : ∀ k, Op.Preserves P (writeCodeBits c k)
  | 0 => .pure _
  | k + 1 => (hP.keeps_bwWbit _).bind fun _ => keeps_writeCodeBits c k

theorem keeps_hfEsym (x : Symbol) : Op.Preserves P (hfEsym x) := fun s hs => by
  unfold hfEsym
  split
  · exact hs
  · exact hP.keeps_writeCodeBits _ _ s hs

theorem keeps_walkBit (b : Bool) : Op.Preserves P (walkBit b) := fun s hs => by
  rw [walkBit_run]
  cases s.hf.descend b with
  | error k => exact hs
  | ok p => exact hP.setHf hs _

theorem keeps_hfStep : Op.Preserves P hfStep := by
  refine needTree_preserves.bind fun _ => hP.keeps_brRbit.bind fun b => brEofSeen_preserves.bind fun eof => ?_
  split
  · exact .raise _
  · exact hP.keeps_walkBit b

theorem keeps_dsymLoop : ∀ k, Op.Preserves P (dsymLoop k)
  | 0 => .stuck
  | k + 1 => hP.keeps_hfStep.bind fun
    | some _ => .pure _
    | none => keeps_dsymLoop k

theorem keeps_hfDsym : Op.Preserves P hfDsym := .reading fun _ => hP.keeps_dsymLoop _

theorem keeps_hfEnc : Op.Preserves P hfEnc :=
  .savedCursor fun _ hu => hP.keeps_fmScan.bind fun _ => (hP.restore hu).bind fun _ => (hP.keeps_fmWhdr _).bind fun _ =>
    hP.keeps_hfBuild.bind fun _ => hP.keeps_hfCodes.bind fun _ => hP.keeps_bwInit.bind fun _ =>
    (Op.Preserves.forSource hP.read fun _ => hP.keeps_hfEsym _).bind fun _ =>
    (hP.keeps_hfEsym _).bind fun _ => hP.keeps_bwFlush

theorem keeps_hfDec : Op.Preserves P hfDec :=
  (hP.keeps_fmRhdr _).bind fun _ => hP.keeps_hfBuild.bind fun _ => hP.keeps_brInit.bind fun _ =>
    .reading fun _ => .decodeLoop hP.write hP.keeps_hfDsym _

/-! ## The interval of a coder -/

theorem keeps_intervalUpdate (u : Coder) (x : Symbol) : Op.Preserves P (intervalUpdate u x) := fun s hs => by
  cases u with
  | ac =>
    obtain ⟨_, e⟩ | ⟨_, e⟩ := intervalUpdate_ac_run x s
    · rw [e]; exact hs
    · rw [e]; exact hP.setAc hs _
  | rc =>
    obtain ⟨_, e⟩ | ⟨_, e⟩ := intervalUpdate_rc_run x s
    · rw [e]; exact hs
    · rw [e]; exact hP.setRc hs _

/-! ## The arithmetic coder -/

theorem keeps_acEinit : Op.Preserves P acEinit := hP.keeps_modAc _

theorem keeps_emitPending (b : Bool) : ∀ k, Op.Preserves P (emitPending b k)
  | 0 => .pure _
  | k + 1 => (hP.keeps_bwWbit b).bind fun _ => (hP.keeps_modAc _).bind fun _ => keeps_emitPending b k

theorem keeps_acEmit (b : Bool) : Op.Preserves P (acEmit b) :=
  (hP.keeps_bwWbit b).bind fun _ => .reading fun _ => hP.keeps_emitPending _ _

theorem keeps_acEmitFor : ∀ r : Renorm, Op.Preserves P (acEmitFor r)
  | .lower => hP.keeps_acEmit false
  | .upper => hP.keeps_acEmit true
  | .middle => hP.keeps_modAc fun a => { a with pend := a.pend + 1 }
  | .done => .pure _

theorem keeps_acEncLoop : ∀ k, Op.Preserves P (acEncLoop k)
  | 0 => .stuck
  | k + 1 => fun s hs => by
    by_cases hr : s.ac.renorm = .done
    · rw [acEncLoop_done hr]; exact hs
    · rw [acEncLoop_turn rfl hr]
      exact ((hP.keeps_acEmitFor _).bind fun _ => (hP.keeps_modAc _).bind fun _ => keeps_acEncLoop k) s hs

theorem keeps_acEsym (x : Symbol) : Op.Preserves P (acEsym x) :=
  (hP.keeps_intervalUpdate .ac x).bind fun _ => hP.keeps_acEncLoop _

theorem keeps_acEfin : Op.Preserves P acEfin :=
  (hP.keeps_modAc _).bind fun _ => Op.Preserves.bind (.reading fun _ => hP.keeps_acEmit _) fun _ => hP.keeps_bwFlush

theorem keeps_acCountFill : Op.Preserves P acCountFill := fun s hs => by
  rw [acCountFill_run]
  split
  · exact hP.setAc hs _
  · exact hs

theorem keeps_acShiftIn : Op.Preserves P acShiftIn :=
  (hP.keeps_brRbit.bind fun _ => hP.keeps_acCountFill.bind fun _ => .pure _).bind fun _ => hP.keeps_modAc _

theorem keeps_acDinit : Op.Preserves P acDinit := (hP.keeps_modAc _).bind fun _ => hP.keeps_acShiftIn.repeatOp 32

theorem keeps_acDecLoop : ∀ k, Op.Preserves P (acDecLoop k)
  | 0 => .stuck
  | k + 1 => fun s hs => by
    by_cases hr : s.ac.renorm = .done
    · rw [acDecLoop_done hr]; exact hs
    · rw [acDecLoop_turn rfl hr]
      exact ((hP.keeps_modAc _).bind fun _ => hP.keeps_acShiftIn.bind fun _ => keeps_acDecLoop k) s hs

theorem keeps_acDsym : Op.Preserves P acDsym :=
  acNeedInput_preserves.bind fun _ => (targetValue_preserves .ac).bind fun v => (fmFind_preserves v).bind fun x =>
    (hP.keeps_intervalUpdate .ac x).bind fun _ => (hP.keeps_acDecLoop _).bind fun _ => .pure _

theorem keeps_acEnc : Op.Preserves P acEnc :=
  .savedCursor fun _ hu => hP.keeps_fmScan.bind fun _ => (hP.restore hu).bind fun _ => hP.keeps_fmScale.bind fun _ =>
    (hP.keeps_fmWhdr _).bind fun _ => hP.keeps_fmCum.bind fun _ => hP.keeps_acEinit.bind fun _ =>
    hP.keeps_bwInit.bind fun _ => (Op.Preserves.forSource hP.read fun _ => hP.keeps_acEsym _).bind fun _ =>
    (hP.keeps_acEsym _).bind fun _ => hP.keeps_acEfin

theorem keeps_acDec : Op.Preserves P acDec :=
  (hP.keeps_fmRhdr _).bind fun _ => hP.keeps_fmCum.bind fun _ => hP.keeps_brInit.bind fun _ =>
    hP.keeps_acDinit.bind fun _ => .reading fun _ => .decodeLoop hP.write hP.keeps_acDsym _

/-! ## The range coder -/

theorem keeps_rcEinit : Op.Preserves P rcEinit := hP.keeps_modRc _

theorem keeps_rcEncLoop : ∀ k, Op.Preserves P (rcEncLoop k)
  | 0 => .stuck
  | k + 1 => fun s hs => by
    cases ht : s.rc.sameTop with
    | false => rw [rcEncLoop_done ht]; exact hs
    | true =>
      rw [rcEncLoop_turn ht]
      exact ((hP.write _).bind fun _ => (hP.keeps_modRc _).bind fun _ => keeps_rcEncLoop k) s hs

theorem keeps_rcEsym (x : Symbol) : Op.Preserves P (rcEsym x) :=
  (hP.keeps_intervalUpdate .rc x).bind fun _ => hP.keeps_rcEncLoop _

theorem keeps_rcTailByte : Op.Preserves P rcTailByte :=
  Op.Preserves.bind (.reading fun _ => hP.write _) fun _ => hP.keeps_modRc _

theorem keeps_rcEfin : Op.Preserves P rcEfin := hP.keeps_rcTailByte.repeatOp 4

theorem keeps_rcFill : Op.Preserves P rcFill :=
  hP.read.bind fun
    | some _ => .pure _
    | none => (hP.keeps_modRc _).bind fun _ => .pure _

theorem keeps_rcShiftIn : Op.Preserves P rcShiftIn := hP.keeps_rcFill.bind fun _ => hP.keeps_modRc _

theorem keeps_rcDinit : Op.Preserves P rcDinit := (hP.keeps_modRc _).bind fun _ => hP.keeps_rcShiftIn.repeatOp 4

theorem keeps_rcDecLoop : ∀ k, Op.Preserves P (rcDecLoop k)
  | 0 => .stuck
  | k + 1 => fun s hs => by
    cases ht : s.rc.sameTop with
    | false => rw [rcDecLoop_done ht]; exact hs
    | true =>
      rw [rcDecLoop_turn ht]
      exact ((hP.keeps_modRc _).bind fun _ => hP.keeps_rcShiftIn.bind fun _ => keeps_rcDecLoop k) s hs

theorem keeps_rcDsym : Op.Preserves P rcDsym :=
  rcNeedInput_preserves.bind fun _ => (targetValue_preserves .rc).bind fun v => (fmFind_preserves v).bind fun x =>
    (hP.keeps_intervalUpdate .rc x).bind fun _ => (hP.keeps_rcDecLoop _).bind fun _ => .pure _

theorem keeps_rcEnc : Op.Preserves P rcEnc :=
  .savedCursor fun _ hu => hP.keeps_fmScan.bind fun _ => (hP.restore hu).bind fun _ => hP.keeps_fmScale.bind fun _ =>
    (hP.keeps_fmWhdr _).bind fun _ => hP.keeps_fmCum.bind fun _ => hP.keeps_rcEinit.bind fun _ =>
    (Op.Preserves.forSource hP.read fun _ => hP.keeps_rcEsym _).bind fun _ =>
    (hP.keeps_rcEsym _).bind fun _ => hP.keeps_rcEfin

theorem keeps_rcDec : Op.Preserves P rcDec :=
  (hP.keeps_fmRhdr _).bind fun _ => hP.keeps_fmCum.bind fun _ => hP.keeps_rcDinit.bind fun _ =>
    .reading fun _ => .decodeLoop hP.write hP.keeps_rcDsym _

/-! ## The run-length codec -/

theorem keeps_rlEinit : Op.Preserves P rlEinit := fun _ hs => hP.setRl hs _

theorem keeps_rlEbyte (b : Byte) : Op.Preserves P (rlEbyte b) := fun s hs => by
  obtain ⟨_, e⟩ | ⟨_, _, _, e⟩ | ⟨_, _, e⟩ := rlEbyte_run b s
  · rw [e]; exact hP.setRl hs _
  · rw [e]; exact hP.setRl hs _
  · rw [e]; exact hP.keeps_writeBytes _ _ (hP.setRl hs _)

theorem keeps_rlEfin : Op.Preserves P rlEfin := fun s hs => by
  obtain ⟨_, e⟩ | ⟨_, e⟩ := rlEfin_run s
  · rw [e]; exact hs
  · rw [e]; exact hP.keeps_writeBytes _ _ (hP.setRl hs _)

theorem keeps_rlDrec : Op.Preserves P rlDrec := by
  refine hP.keeps_leRd32.bind fun
    | none => .pure _
    | some n => ?_
  dsimp only
  split
  · exact .raise _
  · refine hP.keeps_readByteOrTruncation.bind fun v => Op.Preserves.bind ?_ fun _ => .pure _
    rw [writeCopies_eq]
    exact hP.keeps_writeBytes _

theorem keeps_rlDecLoop : ∀ k, Op.Preserves P (rlDecLoop k)
  | 0 => .stuck
  | k + 1 => hP.keeps_rlDrec.bind fun
    | true => keeps_rlDecLoop k
    | false => .pure _

theorem keeps_rlEnc : Op.Preserves P rlEnc :=
  hP.keeps_rlEinit.bind fun _ => (Op.Preserves.forSource hP.read hP.keeps_rlEbyte).bind fun _ => hP.keeps_rlEfin

theorem keeps_rlDec : Op.Preserves P rlDec := .reading fun _ => hP.keeps_rlDecLoop _

end

end StreamInvariant

/-- Every command but the reset runs pseudocode that keeps every `StreamInvariant`. -/
theorem exec_eq_runCommand {i : Instr} (hi : i ≠ .coreReset) :
    ∃ op : Op Reply, (∀ P, StreamInvariant P → Op.Preserves P op) ∧ ∀ s, exec i s = runCommand op s := by
  cases i with
  | coreNop => exact ⟨_, fun _ _ => .pure _, fun _ => rfl⟩
  | coreReset => exact absurd rfl hi
  | coreStatus => exact ⟨_, fun _ _ => .pure _, fun _ => rfl⟩
  | coreRewind => exact ⟨_, fun _ hP => hP.rewind.noValue, fun _ => rfl⟩
  | leWr32 v => exact ⟨_, fun _ hP => (hP.keeps_leWr32 v).noValue, fun _ => rfl⟩
  | leRd32 =>
    refine ⟨_, fun _ hP => hP.keeps_leRd32.bind ?_, fun _ => rfl⟩
    rintro (_ | _)
    · exact .pure _
    · exact .pure _
  | bwInit => exact ⟨_, fun _ hP => hP.keeps_bwInit.noValue, fun _ => rfl⟩
  | bwWbit b => exact ⟨_, fun _ hP => (hP.keeps_bwWbit _).noValue, fun _ => rfl⟩
  | bwFlush => exact ⟨_, fun _ hP => hP.keeps_bwFlush.noValue, fun _ => rfl⟩
  | brInit => exact ⟨_, fun _ hP => hP.keeps_brInit.noValue, fun _ => rfl⟩
  | brRbit => exact ⟨_, fun _ hP => hP.keeps_brRbit.bind fun _ => .pure _, fun _ => rfl⟩
  | brEof => exact ⟨fun t => .ok (.val t.eofFlag) t, fun _ _ _ hs => hs, fun _ => rfl⟩
  | fmClr => exact ⟨_, fun _ hP => hP.keeps_fmClr.noValue, fun _ => rfl⟩
  | fmAcc b => exact ⟨_, fun _ hP => (hP.keeps_fmAcc b).noValue, fun _ => rfl⟩
  | fmEos => exact ⟨_, fun _ hP => hP.keeps_fmEos.noValue, fun _ => rfl⟩
  | fmScale => exact ⟨_, fun _ hP => hP.keeps_fmScale.noValue, fun _ => rfl⟩
  | fmCum => exact ⟨_, fun _ hP => hP.keeps_fmCum.noValue, fun _ => rfl⟩
  | fmFind v => exact ⟨_, fun _ hP => (fmFind_preserves _).bind fun _ => .pure _, fun _ => rfl⟩
  | fmWhdr tag => exact ⟨_, fun _ hP => (hP.keeps_fmWhdr tag).noValue, fun _ => rfl⟩
  | fmRhdr tag => exact ⟨_, fun _ hP => (hP.keeps_fmRhdr tag).noValue, fun _ => rfl⟩
  | fmScan => exact ⟨_, fun _ hP => hP.keeps_fmScan.noValue, fun _ => rfl⟩
  | hfBuild => exact ⟨_, fun _ hP => hP.keeps_hfBuild.noValue, fun _ => rfl⟩
  | hfCodes => exact ⟨_, fun _ hP => hP.keeps_hfCodes.noValue, fun _ => rfl⟩
  | hfEsym v => exact ⟨_, fun _ hP => ((symbolOperand_preserves v).bind hP.keeps_hfEsym).noValue, fun _ => rfl⟩
  | hfStep =>
    refine ⟨_, fun _ hP => hP.keeps_hfStep.bind ?_, fun _ => rfl⟩
    rintro (_ | _)
    · exact .pure _
    · exact .pure _
  | hfDsym => exact ⟨_, fun _ hP => hP.keeps_hfDsym.bind fun _ => .pure _, fun _ => rfl⟩
  | hfEnc => exact ⟨_, fun _ hP => hP.keeps_hfEnc.noValue, fun _ => rfl⟩
  | hfDec => exact ⟨_, fun _ hP => hP.keeps_hfDec.noValue, fun _ => rfl⟩
  | acEinit => exact ⟨_, fun _ hP => hP.keeps_acEinit.noValue, fun _ => rfl⟩
  | acEsym v => exact ⟨_, fun _ hP => ((symbolOperand_preserves v).bind hP.keeps_acEsym).noValue, fun _ => rfl⟩
  | acEfin => exact ⟨_, fun _ hP => hP.keeps_acEfin.noValue, fun _ => rfl⟩
  | acDinit => exact ⟨_, fun _ hP => hP.keeps_acDinit.noValue, fun _ => rfl⟩
  | acDsym => exact ⟨_, fun _ hP => hP.keeps_acDsym.bind fun _ => .pure _, fun _ => rfl⟩
  | acEnc => exact ⟨_, fun _ hP => hP.keeps_acEnc.noValue, fun _ => rfl⟩
  | acDec => exact ⟨_, fun _ hP => hP.keeps_acDec.noValue, fun _ => rfl⟩
  | rcEinit => exact ⟨_, fun _ hP => hP.keeps_rcEinit.noValue, fun _ => rfl⟩
  | rcEsym v => exact ⟨_, fun _ hP => ((symbolOperand_preserves v).bind hP.keeps_rcEsym).noValue, fun _ => rfl⟩
  | rcEfin => exact ⟨_, fun _ hP => hP.keeps_rcEfin.noValue, fun _ => rfl⟩
  | rcDinit => exact ⟨_, fun _ hP => hP.keeps_rcDinit.noValue, fun _ => rfl⟩
  | rcDsym => exact ⟨_, fun _ hP => hP.keeps_rcDsym.bind fun _ => .pure _, fun _ => rfl⟩
  | rcEnc => exact ⟨_, fun _ hP => hP.keeps_rcEnc.noValue, fun _ => rfl⟩
  | rcDec => exact ⟨_, fun _ hP => hP.keeps_rcDec.noValue, fun _ => rfl⟩
  | rlEinit => exact ⟨_, fun _ hP => hP.keeps_rlEinit.noValue, fun _ => rfl⟩
  | rlEbyte b => exact ⟨_, fun _ hP => (hP.keeps_rlEbyte b).noValue, fun _ => rfl⟩
  | rlEfin => exact ⟨_, fun _ hP => hP.keeps_rlEfin.noValue, fun _ => rfl⟩
  | rlDrec =>
    refine ⟨_, fun _ hP => hP.keeps_rlDrec.bind ?_, fun _ => rfl⟩
    rintro (_ | _)
    · exact .pure _
    · exact .pure _
  | rlEnc => exact ⟨_, fun _ hP => hP.keeps_rlEnc.noValue, fun _ => rfl⟩
  | rlDec => exact ⟨_, fun _ hP => hP.keeps_rlDec.noValue, fun _ => rfl⟩

end Sys2Proof.Machine

/-! SUPPORT. What a step leaves of the streams and the command port (R60 to R63, R74): the source's bytes, the bytes already in
the sink, and the bounds. -/

namespace Sys2Proof.Machine

open Sys2Proof

/-! ## The streams of a later state -/

/-- The streams and the command port of t are those of s after some reading and writing. -/
structure State.StreamsFrom (s t : State) : Prop where
  src_data : t.src.data = s.src.data
  snk_cap : t.snk.cap = s.snk.cap
  snk_grows : s.snk.data <+: t.snk.data
  cmd_eq : t.cmd = s.cmd
  wf : Memory.wf s.src s.snk = true → Memory.wf t.src t.snk = true

theorem State.StreamsFrom.refl (s : State) : s.StreamsFrom s := ⟨rfl, rfl, List.prefix_rfl, rfl, id⟩

/-- Nothing else of the later state matters. -/
theorem State.StreamsFrom.congr {s t u : State} (h : s.StreamsFrom t) (hsrc : u.src = t.src) (hsnk : u.snk = t.snk)
    (hcmd : u.cmd = t.cmd) : s.StreamsFrom u := by
  obtain ⟨hdata, hcap, hpre, hq, hwf⟩ := h
  exact ⟨by rw [hsrc, hdata], by rw [hsnk, hcap], by rwa [hsnk], by rw [hcmd, hq], by rwa [hsrc, hsnk]⟩

theorem State.StreamsFrom.keeps_srcRead {s : State} : Op.Preserves s.StreamsFrom srcRead := fun t ht => by
  cases hr : t.remaining with
  | nil => rw [srcRead_of_nil hr]; exact ht
  | cons b l =>
    have e := srcRead_of_cons hr
    rw [e]
    exact ⟨ht.src_data, ht.snk_cap, ht.snk_grows, ht.cmd_eq, fun h => Memory.wf_srcRead (ht.wf h) e⟩

theorem State.StreamsFrom.keeps_snkWrite {s : State} (b : Byte) : Op.Preserves s.StreamsFrom (snkWrite b) := fun t ht => by
  obtain ⟨_, e⟩ | ⟨_, e⟩ := snkWrite_run b t
  · rw [e]; exact ht
  · rw [e]
    exact ⟨ht.src_data, ht.snk_cap, ht.snk_grows.trans (List.prefix_append _ _), ht.cmd_eq,
      fun h => Memory.wf_snkWrite (ht.wf h) e⟩

/-- R63: a seek to a place within the source. -/
theorem State.StreamsFrom.keeps_srcSeek {s : State} {p : Nat}
    (hp : Memory.wf s.src s.snk = true → p ≤ s.src.data.length) : Op.Preserves s.StreamsFrom (srcSeek p) := fun _ ht =>
  ⟨ht.src_data, ht.snk_cap, ht.snk_grows, ht.cmd_eq,
    fun h => Memory.wf_srcSeek (ht.wf h) ((hp h).trans_eq (congrArg List.length ht.src_data.symm)) rfl⟩

/-- The cursor of a state whose streams are kept is within the same source. -/
theorem State.StreamsFrom.pos_le {s u : State} (hu : s.StreamsFrom u) (h : Memory.wf s.src s.snk = true) :
    u.src.pos ≤ s.src.data.length := by
  obtain ⟨hpos, _⟩ := (Memory.wf_iff _ _).mp (hu.wf h)
  rwa [hu.src_data] at hpos

theorem State.streamsFrom_invariant (s : State) : StreamInvariant s.StreamsFrom where
  regs h hs := by
    simp only [State.outside, Prod.mk.injEq] at h
    obtain ⟨_, hsrc, hsnk, hcmd, _⟩ := h
    exact hs.congr hsrc hsnk hcmd
  read := .keeps_srcRead
  write := .keeps_snkWrite
  rewind := .keeps_srcSeek fun _ => Nat.zero_le _
  restore hu := .keeps_srcSeek hu.pos_le

/-! ## A command and a step -/

/-- R281, R280: a refusal, an answer and an error leave the streams as the pseudocode has left them. -/
theorem runCommand_streamsFrom {op : Op Reply} (hop : ∀ P, StreamInvariant P → Op.Preserves P op) {s t : State}
    (e : runCommand op s = .next t) : s.StreamsFrom t := by
  have h := hop _ s.streamsFrom_invariant
  rcases runCommand_next_iff.mp e with ⟨_, rfl⟩ | ⟨_, r, u, er, rfl⟩ | ⟨_, k, u, ek, rfl⟩
  · exact (State.StreamsFrom.refl s).congr rfl rfl rfl
  · exact (h.of_ok (.refl s) er).congr rfl rfl rfl
  · exact (h.of_error (.refl s) ek).congr rfl rfl rfl

/-- R301: the reset too leaves the streams to the environment. -/
theorem exec_streamsFrom {i : Instr} {s t : State} (e : exec i s = .next t) : s.StreamsFrom t := by
  by_cases hi : i = .coreReset
  · subst hi
    cases e
    exact (State.StreamsFrom.refl s).congr rfl rfl rfl
  · obtain ⟨op, hop, heq⟩ := exec_eq_runCommand hi
    exact runCommand_streamsFrom hop (heq s ▸ e)

/-- R99: a command is taken from the front of the bytes. -/
theorem decode_suffix {bs rest : List Byte} {i : Instr} (e : decode bs = .ok (i, rest)) : rest <:+ bs := by
  unfold decode at e
  split at e
  · cases e
  next op l =>
  refine List.IsSuffix.trans ?_ (List.suffix_cons op l)
  split at e
  · cases e
  · cases e; exact List.suffix_rfl
  · split at e
    · cases e; exact List.suffix_append [_] _
    · cases e
  · split at e
    · cases e; exact List.suffix_append [_, _] _
    · cases e
  · split at e
    · cases e; exact List.suffix_append [_, _, _, _] _
    · cases e

/-- `step_cases` with the bytes left on the port, which it leaves open: they are the end of those that were there (R98, R101). -/
theorem step_cases_suffix {s t : State} (e : step s = .next t) :
    t = s ∨ ∃ c, c <:+ s.cmd ∧ ((∃ i, exec i (s.setCmd c) = .next t) ∨ rejectCommand (s.setCmd c) = .next t) := by
  unfold step fetch at e
  cases hd : decode s.cmd with
  | ok p => rw [hd] at e; exact .inr ⟨p.2, decode_suffix hd, .inl ⟨p.1, e⟩⟩
  | error k =>
    rw [hd] at e
    cases k with
    | noCommand => cases e; exact .inl rfl
    | reservedOpcode op => exact .inr ⟨_, List.tail_suffix _, .inr e⟩
    | operandMissing op => exact .inr ⟨_, List.nil_suffix, .inr e⟩

/-- Settles O13: the pseudocode of every command touches the streams by reads, writes and seeks within the source only, and the
command port is shortened from its front before the command runs. -/
theorem stepsKeepTheStreamsWellFormed : Obligations.StepsKeepTheStreamsWellFormed := by
  intro s t e
  rcases step_cases_suffix e with rfl | ⟨c, hc, hrun⟩
  · exact ⟨rfl, rfl, List.prefix_rfl, List.suffix_rfl, id⟩
  · have h : (s.setCmd c).StreamsFrom t := by
      rcases hrun with ⟨i, e⟩ | e
      · exact exec_streamsFrom e
      · exact runCommand_streamsFrom (fun _ _ => .raise _) e
    obtain ⟨hdata, hcap, hpre, hcmd, hwf⟩ := h
    exact ⟨hdata, hcap, hpre, hcmd ▸ hc, hwf⟩

end Sys2Proof.Machine

/-! SUPPORT. The command encoding (R99 to R101): the decoder by the format of the opcode byte, the encoder row by row of the
table of R100, and what a step makes of bytes that are no command. -/

namespace Sys2Proof

open Sys2Proof.Machine

/-! ## Operand bytes (R66, R99) -/

theorem leBytes16_ofLeBytes16 (b0 b1 : Byte) : leBytes16 (ofLeBytes16 b0 b1) = [b0, b1] := by
  simp only [leBytes16, ofLeBytes16, BitVec.extractLsb'_append_eq_right, BitVec.extractLsb'_append_eq_left]

/-- A byte of a value above the lowest byte is a byte of the rest. -/
theorem extractLsb'_append_byte {w : Nat} (k : Nat) (hi : BitVec w) (lo : Byte) :
    (hi ++ lo).extractLsb' (8 + k) 8 = hi.extractLsb' k 8 := by
  rw [BitVec.extractLsb'_append_eq_of_le (by omega), Nat.add_sub_cancel_left]

theorem leBytes32_ofLeBytes32 (b0 b1 b2 b3 : Byte) : leBytes32 (ofLeBytes32 b0 b1 b2 b3) = [b0, b1, b2, b3] := by
  have byte0 : ∀ {w : Nat} (hi : BitVec w) (lo : Byte), (hi ++ lo).extractLsb' 0 8 = lo :=
    fun _ _ => BitVec.extractLsb'_append_eq_right
  simp [leBytes32, byteOf, ofLeBytes32, byte0, extractLsb'_append_byte 0, extractLsb'_append_byte 8,
    extractLsb'_append_byte 16]

/-! ## The decoder, by the format of the opcode byte (R99) -/

section
variable {op : Byte} {rest : List Byte}

theorem decode_of_reserved (h : formatOf op = none) : decode (op :: rest) = .error (.reservedOpcode op) := by
  simp only [decode, h]

theorem decode_op0 {i : Instr} (h : formatOf op = some (.op0 i)) : decode (op :: rest) = .ok (i, rest) := by
  simp only [decode, h]

theorem decode_op8 {mk : BitVec 8 → Instr} (h : formatOf op = some (.op8 mk)) (b : Byte) :
    decode ([op, b] ++ rest) = .ok (mk b, rest) := by
  simp only [List.cons_append, List.nil_append, decode, h]

theorem decode_op16 {mk : BitVec 16 → Instr} (h : formatOf op = some (.op16 mk)) (v : BitVec 16) :
    decode (op :: leBytes16 v ++ rest) = .ok (mk v, rest) := by
  simp only [leBytes16, List.cons_append, List.nil_append, decode, h, ofLeBytes16_bytes]

theorem decode_op32 {mk : BitVec 32 → Instr} (h : formatOf op = some (.op32 mk)) (v : BitVec 32) :
    decode (op :: leBytes32 v ++ rest) = .ok (mk v, rest) := by
  simp only [leBytes32, List.cons_append, List.nil_append, decode, h, ofLeBytes32_byteOf]

/-- An opcode byte with fewer operand bytes than its format asks for. -/
theorem decode_of_short (h : rest.length + 1 < commandLength op) :
    decode (op :: rest) = .error (.operandMissing op) := by
  rw [commandLength] at h
  rcases hf : formatOf op with _ | i | mk | mk | mk <;> rw [hf] at h <;> dsimp only at h
  · omega
  · omega
  · rcases rest with _ | ⟨b0, r⟩
    · simp only [decode, hf]
    · simp at h
  · rcases rest with _ | ⟨b0, _ | ⟨b1, r⟩⟩
    · simp only [decode, hf]
    · simp only [decode, hf]
    · simp at h; omega
  · rcases rest with _ | ⟨b0, _ | ⟨b1, _ | ⟨b2, _ | ⟨b3, r⟩⟩⟩⟩
    · simp only [decode, hf]
    · simp only [decode, hf]
    · simp only [decode, hf]
    · simp only [decode, hf]
    · simp at h; omega

end

/-- Settles O5: each constructor's opcode byte has the format of its operand (R100), and the decoder of that format puts the
operand's bytes together again. -/
theorem encodedCommandsDecodeBack : Obligations.EncodedCommandsDecodeBack := by
  intro i rest
  cases i with
  | bwWbit b => exact decode_op8 rfl b
  | fmAcc b => exact decode_op8 rfl b
  | rlEbyte b => exact decode_op8 rfl b
  | hfEsym v => exact decode_op16 rfl v
  | acEsym v => exact decode_op16 rfl v
  | rcEsym v => exact decode_op16 rfl v
  | leWr32 v => exact decode_op32 rfl v
  | fmFind v => exact decode_op32 rfl v
  | fmWhdr v => exact decode_op32 rfl v
  | fmRhdr v => exact decode_op32 rfl v
  | _ => exact decode_op0 rfl

/-! ## The encoder, row by row of the table (R100) -/

/-- The instructions a row of the table makes are encoded as its opcode byte and the operand's bytes. -/
def Format.Encodes (op : Byte) : Format → Prop
  | .op0 i => encode i = [op]
  | .op8 mk => ∀ b, encode (mk b) = [op, b]
  | .op16 mk => ∀ v, encode (mk v) = op :: leBytes16 v
  | .op32 mk => ∀ v, encode (mk v) = op :: leBytes32 v

theorem opcodeTable_encodes : ∀ p ∈ opcodeTable, p.2.Encodes p.1 := by
  rw [← List.forall_iff_forall_mem]
  have coreLeBwBr : opcodesCoreLeBwBr.Forall fun p => p.2.Encodes p.1 :=
    ⟨rfl, rfl, rfl, rfl, fun _ => rfl, rfl, rfl, fun _ => rfl, rfl, rfl, rfl, rfl⟩
  have fm : opcodesFm.Forall fun p => p.2.Encodes p.1 :=
    ⟨rfl, fun _ => rfl, rfl, rfl, rfl, fun _ => rfl, fun _ => rfl, fun _ => rfl, rfl⟩
  have hf : opcodesHf.Forall fun p => p.2.Encodes p.1 := ⟨rfl, rfl, fun _ => rfl, rfl, rfl, rfl, rfl⟩
  have acRc : opcodesAcRc.Forall fun p => p.2.Encodes p.1 :=
    ⟨rfl, fun _ => rfl, rfl, rfl, rfl, rfl, rfl, rfl, fun _ => rfl, rfl, rfl, rfl, rfl, rfl⟩
  have rl : opcodesRl.Forall fun p => p.2.Encodes p.1 := ⟨rfl, fun _ => rfl, rfl, rfl, rfl, rfl⟩
  simp only [opcodeTable, List.forall_append, coreLeBwBr, fm, hf, acRc, rl, and_self]

theorem formatOf_encodes {op : Byte} {f : Format} (h : formatOf op = some f) : f.Encodes op := by
  obtain ⟨l₁, l₂, e, _⟩ := List.lookup_eq_some_iff.mp h
  exact opcodeTable_encodes (op, f) (by rw [e]; simp)

theorem formatOf_eq_none_iff (op : Byte) : formatOf op = none ↔ op ∉ definedOpcodes := by
  have e : definedOpcodes = opcodeTable.map Prod.fst := rfl
  simp only [e, formatOf, List.lookup_eq_none_iff, List.mem_map, bne_iff_ne]
  grind

/-- What the decoder has read is the encoding of the command it answers with. -/
theorem eq_encode_of_decode {bs rest : List Byte} {i : Instr} (h : decode bs = .ok (i, rest)) : bs = encode i ++ rest := by
  unfold decode at h
  split at h
  · cases h
  next op l =>
  split at h
  · cases h
  next j hf =>
    cases h
    rw [show encode i = [op] from formatOf_encodes hf]; rfl
  next mk hf =>
    split at h
    · cases h
      rw [formatOf_encodes hf]; rfl
    · cases h
  next mk hf =>
    split at h
    · cases h
      rw [formatOf_encodes hf, leBytes16_ofLeBytes16]; rfl
    · cases h
  next mk hf =>
    split at h
    · cases h
      rw [formatOf_encodes hf, leBytes32_ofLeBytes32]; rfl
    · cases h

theorem decode_eq_ok_iff (bs : List Byte) (i : Instr) (rest : List Byte) :
    decode bs = .ok (i, rest) ↔ bs = encode i ++ rest :=
  ⟨eq_encode_of_decode, fun h => h ▸ encodedCommandsDecodeBack i rest⟩

/-- Settles O6: the decoder answers exactly with the encodings, and an answer that is no command is an error. -/
theorem decodedBytesAreTheEncoding : Obligations.DecodedBytesAreTheEncoding := by
  refine fun bs => ⟨decode_eq_ok_iff bs, ?_⟩
  simp only [← decode_eq_ok_iff]
  cases decode bs with
  | ok p => obtain ⟨i, rest⟩ := p; simp
  | error e => simp

/-- Settles O7: each word is evaluated. -/
theorem writtenWordsDecodeToTheirCommands : Obligations.WrittenWordsDecodeToTheirCommands := by
  unfold Obligations.WrittenWordsDecodeToTheirCommands
  decide +kernel

end Sys2Proof

namespace Sys2Proof.Machine

open Sys2Proof

/-! ## A step, by what the decoder says of the command port (R98, R99, R101) -/

/-- Settles O1: this is how `fetch` hands a command to `exec`. -/
theorem stepPerformsTheDecodedCommand : Obligations.StepPerformsTheDecodedCommand := by
  intro s i rest h
  simp only [step, fetch, h]

theorem rejectCommand_of_ok {s : State} (h : s.status = 0) : rejectCommand s = .next (s.failed 7) :=
  runCommand_raise h rfl

theorem step_of_reserved {s : State} {op : Byte} {rest : List Byte} (hc : s.cmd = op :: rest) (h : formatOf op = none) :
    step s = rejectCommand (s.setCmd rest) := by
  simp only [step, fetch, hc, decode_of_reserved h, List.tail_cons]

theorem step_of_short {s : State} {op : Byte} {rest : List Byte} (hc : s.cmd = op :: rest)
    (h : rest.length + 1 < commandLength op) : step s = rejectCommand (s.setCmd []) := by
  simp only [step, fetch, hc, decode_of_short h]

/-! ## Symbol operands (R99, R277 item 1) -/

theorem symbolOperand_of_gt {v : BitVec 16} (h : 256 < v.toNat) (s : State) :
    symbolOperand v s = .error (.raise .badCommand) s := by
  obtain ⟨x, hx, _⟩ | ⟨_, e⟩ := symbolOperand_run v s
  · have := x.isLt; omega
  · exact e

/-- A command that reads its symbol operand first fails on one above 256, whatever it does with symbols. -/
theorem runCommand_symbolOperand_of_gt {v : BitVec 16} (h : 256 < v.toNat) (f : Symbol → Op Unit) {s : State}
    (h0 : s.status = 0) : runCommand (noValue (symbolOperand v >>= f)) s = .next (s.failed 7) :=
  runCommand_raise h0 (k := .badCommand) (by rw [noValue_run, Op.bind_of_error (symbolOperand_of_gt h s)])

/-- Settles O3: a reserved opcode is not in the table, so the step rejects it; a large operand is refused before the unit is
touched. -/
theorem reservedOpcodesAndLargeSymbolsAreBadCommands : Obligations.ReservedOpcodesAndLargeSymbolsAreBadCommands := by
  refine ⟨by decide, fun s op rest hc hop h0 => ?_, fun s v hv h0 => ⟨?_, ?_, ?_⟩⟩
  · have h0' : (s.setCmd rest).status = 0 := h0
    rw [step_of_reserved hc ((formatOf_eq_none_iff op).mpr hop), rejectCommand_of_ok h0']
  · exact runCommand_symbolOperand_of_gt hv hfEsym h0
  · exact runCommand_symbolOperand_of_gt hv acEsym h0
  · exact runCommand_symbolOperand_of_gt hv rcEsym h0

/-- Settles O4: an opcode byte of any format without all its operand bytes is no command, and `fetch` empties the port. -/
theorem incompleteCommandIsBadCommand : Obligations.IncompleteCommandIsBadCommand := by
  intro s op rest hc _ hl h0
  have h0' : (s.setCmd []).status = 0 := h0
  rw [step_of_short hc hl, rejectCommand_of_ok h0']

end Sys2Proof.Machine

/-! SUPPORT. The result port (R98): what the triple on it holds after a command, and which commands answer with a value or
with a clean end (R100). -/

namespace Sys2Proof.Machine

open Sys2Proof

/-! ## The triple (R98) -/

/-- The triple on the result port is the status, with no value under another tag than `VAL`, and no result with an error. -/
def State.PortRule (t : State) : Prop :=
  ∃ r, t.resp = some r ∧ r.status = t.status ∧ (r.tag ≠ .val → r.val = 0) ∧ (t.status ≠ 0 → r.tag = .none)

theorem Reply.value_eq_zero : ∀ r : Reply, r.tag ≠ .val → r.value = 0
  | .none, _ => rfl
  | .val _, h => absurd rfl h
  | .ceof, _ => rfl

theorem State.portRule_answer {s : State} {r : Reply} (h : s.status ≠ 0 → r = .none) : (s.answer r).PortRule :=
  ⟨_, s.answer_resp r, rfl, r.value_eq_zero, fun h0 => by rw [h h0]; rfl⟩

theorem State.portRule_takeError (s : State) (k : ErrorKind) : (s.takeError k).PortRule :=
  ⟨_, s.takeError_resp k, rfl, fun _ => rfl, fun _ => rfl⟩

/-! ## The status (R25) -/

/-- The pseudocode of a command does not touch the status; only its end does (R280). -/
theorem streamInvariant_status (c : StatusCode) : StreamInvariant fun t => t.status = c where
  regs h hs := by
    simp only [State.outside, Prod.mk.injEq] at h
    obtain ⟨hstatus, _⟩ := h
    rw [hstatus, hs]
  read s hs := by
    rw [srcRead_run]
    cases s.remaining <;> exact hs
  write b s hs := by obtain ⟨_, e⟩ | ⟨_, e⟩ := snkWrite_run b s <;> rw [e] <;> exact hs
  rewind _ hs := hs
  restore _ _ hs := hs

/-- A command refused, answered or raised leaves a triple as the port's rule says, and sets the status only from 0. -/
theorem runCommand_portRule {op : Op Reply} (hop : ∀ P, StreamInvariant P → Op.Preserves P op) {s t : State}
    (e : runCommand op s = .next t) : t.PortRule ∧ (t.status = s.status ∨ s.status = 0) := by
  rcases runCommand_next_iff.mp e with ⟨_, rfl⟩ | ⟨h0, r, u, er, rfl⟩ | ⟨h0, k, u, _, rfl⟩
  · exact ⟨State.portRule_answer fun _ => rfl, .inl rfl⟩
  · have hu : u.status = 0 := (hop _ (streamInvariant_status 0)).of_ok h0 er
    exact ⟨State.portRule_answer fun h => absurd hu h, .inr h0⟩
  · exact ⟨u.portRule_takeError k, .inr h0⟩

theorem exec_portRule {i : Instr} {s t : State} (e : exec i s = .next t) :
    t.PortRule ∧ (t.status = s.status ∨ s.status = 0 ∨ i = .coreReset ∧ t.status = 0) := by
  by_cases hi : i = .coreReset
  · subst hi
    cases e
    exact ⟨State.portRule_answer fun _ => rfl, .inr (.inr ⟨rfl, rfl⟩)⟩
  · obtain ⟨op, hop, heq⟩ := exec_eq_runCommand hi
    obtain ⟨hrule, hstatus⟩ := runCommand_portRule hop (heq s ▸ e)
    exact ⟨hrule, hstatus.imp_right .inl⟩

/-! ## Which commands answer with a result (R100) -/

/-- Whatever the operation returns has the property. -/
def Op.Answers (Q : Reply → Prop) (op : Op Reply) : Prop := ∀ s r t, op s = .ok r t → Q r

section
variable {Q : Reply → Prop}

theorem Op.Answers.pure {r : Reply} (h : Q r) : Op.Answers Q (Pure.pure r) := fun _ _ _ e => by cases e; exact h

theorem Op.Answers.bind {α : Type} {x : Op α} {f : α → Op Reply} (h : ∀ a, Op.Answers Q (f a)) :
    Op.Answers Q (x >>= f) := fun _ r t e =>
  have ⟨a, u, _, ea⟩ := Op.bind_eq_ok.mp e
  h a u r t ea

theorem Op.Answers.noValue (h : Q .none) {op : Op Unit} : Op.Answers Q (Machine.noValue op) := .bind fun _ => .pure h

/-- What a command leaves on the port: what its operation returns, or no result. -/
theorem runCommand_resp {op : Op Reply} (hop : Op.Answers Q op) (hnone : Q .none) {s t : State}
    (e : runCommand op s = .next t) : ∃ r c, Q r ∧ t.resp = some ⟨c, r.tag, r.value⟩ := by
  rcases runCommand_next_iff.mp e with ⟨_, rfl⟩ | ⟨_, r, u, er, rfl⟩ | ⟨_, k, u, _, rfl⟩
  · exact ⟨.none, s.status, hnone, rfl⟩
  · exact ⟨r, u.status, hop s r u er, rfl⟩
  · exact ⟨.none, k.code, hnone, rfl⟩

end

/-- R100: the commands whose row gives a value. -/
def GivesValue (i : Instr) : Prop :=
  i ∈ [Instr.leRd32, .brRbit, .brEof, .hfStep, .hfDsym, .acDsym, .rcDsym, .rlDrec] ∨ ∃ v, i = .fmFind v

/-- R100: the commands that may find the source at its end. -/
def GivesEnd (i : Instr) : Prop := i = .leRd32 ∨ i = .rlDrec

/-- R100: a result that the command's row allows. -/
def Reply.AllowedFor (i : Instr) : Reply → Prop
  | .none => True
  | .val _ => GivesValue i
  | .ceof => GivesEnd i

theorem exec_resp {i : Instr} {s t : State} (e : exec i s = .next t) :
    ∃ r c, Reply.AllowedFor i r ∧ t.resp = some ⟨c, r.tag, r.value⟩ := by
  have hnone : Reply.AllowedFor i .none := trivial
  have value {j : Instr} (v : Word)
      (h : j ∈ [Instr.leRd32, .brRbit, .brEof, .hfStep, .hfDsym, .acDsym, .rcDsym, .rlDrec] := by simp) :
      Reply.AllowedFor j (.val v) := .inl h
  have unit (op : Op Unit) (e : runCommand (noValue op) s = .next t) :
      ∃ r c, Reply.AllowedFor i r ∧ t.resp = some ⟨c, r.tag, r.value⟩ := runCommand_resp (.noValue hnone) hnone e
  cases i with
  | coreReset => cases e; exact ⟨.none, 0, hnone, rfl⟩
  | coreNop => exact runCommand_resp (.pure hnone) hnone e
  | coreStatus => exact runCommand_resp (.pure hnone) hnone e
  | leRd32 =>
    exact runCommand_resp (.bind fun
      | some v => .pure (value v)
      | none => .pure (.inl rfl)) hnone e
  | brRbit => exact runCommand_resp (.bind fun _ => .pure (value _)) hnone e
  | brEof =>
    refine runCommand_resp (op := fun t => .ok (.val t.eofFlag) t) (fun u r _ er => ?_) hnone e
    cases er
    exact value u.eofFlag
  | fmFind v => exact runCommand_resp (.bind fun _ => .pure (.inr ⟨v, rfl⟩)) hnone e
  | hfStep =>
    exact runCommand_resp (.bind fun
      | some x => .pure (value (symbolValue x))
      | none => .pure hnone) hnone e
  | hfDsym => exact runCommand_resp (.bind fun _ => .pure (value _)) hnone e
  | acDsym => exact runCommand_resp (.bind fun _ => .pure (value _)) hnone e
  | rcDsym => exact runCommand_resp (.bind fun _ => .pure (value _)) hnone e
  | rlDrec =>
    exact runCommand_resp (.bind fun
      | true => .pure (value 1)
      | false => .pure (.inr rfl)) hnone e
  | coreRewind => exact unit (srcSeek 0) e
  | bwInit => exact unit bwInit e
  | brInit => exact unit brInit e
  | fmClr => exact unit fmClr e
  | fmAcc b => exact unit (fmAcc b) e
  | fmEos => exact unit fmEos e
  | fmScale => exact unit fmScale e
  | hfBuild => exact unit hfBuild e
  | acEinit => exact unit acEinit e
  | rcEinit => exact unit rcEinit e
  | rlEinit => exact unit rlEinit e
  | _ => exact unit _ e

/-- Settles O12: the triple and the status are those of `runCommand` or of the reset; the results are read off the commands'
pseudocode, most of which return no value. -/
theorem everyAnswerFollowsTheResultPortRule : Obligations.EveryAnswerFollowsTheResultPortRule := by
  intro i s t e
  obtain ⟨⟨r, hr, hstatus, hzero, herror⟩, hset⟩ := exec_portRule e
  obtain ⟨reply, c, hallowed, hresp⟩ := exec_resp e
  obtain rfl : r = ⟨c, reply.tag, reply.value⟩ := Option.some.inj (hr.symm.trans hresp)
  refine ⟨⟨_, hr, hstatus, hzero, herror, fun hval => ?_, fun hceof => ?_⟩, hset⟩
  · cases reply with
    | val v => exact hallowed
    | none => cases hval
    | ceof => cases hval
  · cases reply with
    | ceof => exact hallowed
    | none => cases hceof
    | val v => cases hceof

end Sys2Proof.Machine

/-! SUPPORT. Operations that work on the units and the sink only: they neither look at nor change the status, the source and
the ports, and they end. The commands of an encoder's second pass are such operations (R168, R200, R227, R255). -/

namespace Sys2Proof.Machine

open Sys2Proof

/-! ## The surroundings of the units -/

/-- The units and the sink of `s`, with the status, the source and the ports of `o`. -/
def State.within (s o : State) : State :=
  { s with status := o.status, src := o.src, cmd := o.cmd, resp := o.resp }

@[simp] theorem State.within_self (s : State) : s.within s = s := rfl
@[simp] theorem State.within_within (s o p : State) : (s.within o).within p = s.within p := rfl

/-- A change of the state a run ends in. -/
def mapState {α : Type} (g : State → State) : EStateM.Result Stop State α → EStateM.Result Stop State α
  | .ok a t => .ok a (g t)
  | .error e t => .error e (g t)

@[simp] theorem mapState_ok {α : Type} (g : State → State) (a : α) (t : State) :
    mapState g (.ok a t) = .ok a (g t) := rfl
@[simp] theorem mapState_error {α : Type} (g : State → State) (e : Stop) (t : State) :
    mapState g (.error e t : EStateM.Result Stop State α) = .error e (g t) := rfl

theorem mapState_mapState {α : Type} (g h : State → State) (r : EStateM.Result Stop State α) :
    mapState g (mapState h r) = mapState (g ∘ h) r := by cases r <;> rfl

/-- The operation does the same whatever the status, the source and the ports are, and leaves them as they are. -/
def Op.Blind {α : Type} (op : Op α) : Prop := ∀ s o : State, op (s.within o) = mapState (·.within o) (op s)

section
variable {α β : Type}

theorem Op.Blind.within_endState {op : Op α} (h : op.Blind) (s : State) : (endState (op s)).within s = endState (op s) := by
  have := congrArg endState (h s s)
  rw [State.within_self] at this
  cases e : op s <;> rw [e] at this <;> exact this.symm

theorem Op.Blind.within_of_ok {op : Op α} (h : op.Blind) {s t : State} {a : α} (e : op s = .ok a t) : t.within s = t := by
  have := h.within_endState s
  rwa [e] at this

/-- Two changes of the end state are one where they agree on the states with the surroundings of the start. -/
theorem Op.Blind.mapState_congr {op : Op α} (h : op.Blind) {s : State} {g g' : State → State}
    (hg : ∀ t : State, t.within s = t → g t = g' t) : mapState g (op s) = mapState g' (op s) := by
  have hend := h.within_endState s
  cases e : op s with
  | ok a t => rw [e] at hend; exact congrArg _ (hg t hend)
  | error k t => rw [e] at hend; exact congrArg _ (hg t hend)

theorem Op.Blind.consumed {op : Op α} (h : op.Blind) (s : State) (n : Nat) :
    op (s.consumed n) = mapState (·.consumed n) (op s) := by
  rw [show s.consumed n = s.within (s.consumed n) from rfl, h]
  refine h.mapState_congr fun t ht => ?_
  rw [← ht, State.within_within]
  rfl

theorem Op.Blind.pure (a : α) : Op.Blind (Pure.pure a : Op α) := fun _ _ => rfl

theorem Op.Blind.bind {x : Op α} {f : α → Op β} (hx : x.Blind) (hf : ∀ a, (f a).Blind) : Op.Blind (x >>= f) := by
  intro s o
  rw [Op.bind_run, Op.bind_run, hx s o]
  cases x s with
  | ok a t => exact hf a t o
  | error e t => rfl

theorem Op.Blind.stuck : Op.Blind (Machine.stuck : Op α) := fun _ _ => rfl

/-! ## Operations that are blind and end -/

/-- The operation neither sees the surroundings of the units nor uses up a bound on its turns. -/
structure Op.Plain (op : Op α) : Prop where
  blind : op.Blind
  ends : ∀ s t, op s ≠ .error .loopBound t

theorem Op.Plain.pure (a : α) : Op.Plain (Pure.pure a : Op α) := ⟨.pure a, fun _ _ e => by cases e⟩

theorem Op.Plain.bind {x : Op α} {f : α → Op β} (hx : x.Plain) (hf : ∀ a, (f a).Plain) : Op.Plain (x >>= f) where
  blind := hx.blind.bind fun a => (hf a).blind
  ends s t e := by
    obtain e | ⟨a, u, _, e⟩ := Op.bind_eq_error.mp e
    · exact hx.ends s t e
    · exact (hf a).ends u t e

/-- An operation that looks at the units and the sink only. -/
theorem Op.Plain.reading {f : State → Op α} (hf : ∀ s, (f s).Plain) (hw : ∀ s o : State, f (s.within o) = f s) :
    Op.Plain (Machine.reading f) where
  blind s o := by rw [reading_run, reading_run, hw, (hf s).blind]
  ends s t e := (hf s).ends s t e

theorem Op.Plain.raise (k : ErrorKind) : Op.Plain (Machine.raise k : Op α) := ⟨fun _ _ => rfl, fun _ _ e => by cases e⟩

/-- A change of the units. -/
theorem Op.Plain.update {g : State → State} (hg : ∀ s o : State, g (s.within o) = (g s).within o) (a : α) :
    Op.Plain (fun s => .ok a (g s) : Op α) :=
  ⟨fun s o => congrArg _ (hg s o), fun _ _ e => by cases e⟩

/-- A change of the units, and then an operation. -/
theorem Op.Plain.after {op : Op α} (h : op.Plain) {g : State → State}
    (hg : ∀ s o : State, g (s.within o) = (g s).within o) : Op.Plain (fun s => op (g s) : Op α) where
  blind s o := by
    change op (g (s.within o)) = _
    rw [hg, h.blind]
  ends s t e := h.ends (g s) t e

/-- A choice by the units and the sink. -/
theorem Op.Plain.ite {c : State → Prop} {dec : DecidablePred c} {x y : Op α}
    (hc : ∀ s o : State, c (s.within o) ↔ c s) (hx : x.Plain) (hy : y.Plain) :
    Op.Plain (fun s => if c s then x s else y s : Op α) where
  blind s o := by
    dsimp only
    by_cases h : c s
    · rw [if_pos h, if_pos ((hc s o).mpr h), hx.blind]
    · rw [if_neg h, if_neg (h ∘ (hc s o).mp), hy.blind]
  ends s t e := by
    split at e
    · exact hx.ends s t e
    · exact hy.ends s t e

theorem Op.Plain.repeatOp {op : Op Unit} (h : op.Plain) : ∀ n, Op.Plain (Machine.repeatOp op n)
  | 0 => .pure _
  | n + 1 => h.bind fun _ => Op.Plain.repeatOp h n

end

/-! ### Registers, bytes and bits -/

theorem modFm_plain (f : FM → FM) : (modFm f).Plain := .update (fun _ _ => rfl) ()
theorem modHf_plain (f : HF → HF) : (modHf f).Plain := .update (fun _ _ => rfl) ()
theorem modAc_plain (f : AC → AC) : (modAc f).Plain := .update (fun _ _ => rfl) ()
theorem modRc_plain (f : RC → RC) : (modRc f).Plain := .update (fun _ _ => rfl) ()
theorem fmClr_plain : fmClr.Plain := modFm_plain _
theorem fmAcc_plain (b : Byte) : (fmAcc b).Plain := modFm_plain _
theorem fmEos_plain : fmEos.Plain := modFm_plain _
theorem fmScale_plain : fmScale.Plain := modFm_plain _
theorem acEinit_plain : acEinit.Plain := modAc_plain _
theorem rcEinit_plain : rcEinit.Plain := modRc_plain _
theorem bwInit_plain : bwInit.Plain := .update (fun _ _ => rfl) ()
theorem rlEinit_plain : rlEinit.Plain := .update (fun _ _ => rfl) ()

theorem snkWrite_plain (b : Byte) : (snkWrite b).Plain :=
  .ite (fun _ _ => .rfl) (.raise .sinkFailure) (.update (fun _ _ => rfl) ())

theorem writeBytes_plain : ∀ bs : List Byte, (writeBytes bs).Plain
  | [] => .pure _
  | b :: bs => (snkWrite_plain b).bind fun _ => writeBytes_plain bs

theorem bwWbit_eq (b : Bool) (s : State) : bwWbit b s =
    if s.bw.cnt.val = 7 then snkWrite (s.bw.shiftIn b) (s.setBw ⟨0, 0⟩)
    else .ok () (s.setBw ⟨s.bw.shiftIn b, s.bw.cnt + 1⟩) := by
  have := s.bw.cnt.isLt
  split
  next h => exact bwWbit_of_eq b h
  next h => exact bwWbit_of_lt b (by omega)

theorem bwWbit_plain (b : Bool) : (bwWbit b).Plain := by
  rw [show bwWbit b = _ from funext (bwWbit_eq b)]
  refine .ite (fun _ _ => .rfl) (.reading (f := fun s t => snkWrite (s.bw.shiftIn b) (t.setBw ⟨0, 0⟩)) (fun s => ?_)
    fun _ _ => rfl) (.update (fun _ _ => rfl) ())
  exact (snkWrite_plain _).after fun _ _ => rfl

theorem bwFlush_plain : bwFlush.Plain :=
  .ite (fun _ _ => .rfl)
    (.reading (f := fun s t => snkWrite s.bw.padded (t.setBw ⟨0, 0⟩)) (fun _ => (snkWrite_plain _).after fun _ _ => rfl)
      fun _ _ => rfl)
    (.pure ())

/-! ### The frequency model and the Huffman coder -/

theorem fmWhdr_plain (tag : Word) : (fmWhdr tag).Plain := by
  rw [show fmWhdr tag = _ from funext (fmWhdr_run tag)]
  exact .reading (f := fun s => writeBytes (headerBytes tag s.fm.freq)) (fun _ => writeBytes_plain _) fun _ _ => rfl

theorem fmCum_plain : fmCum.Plain := .ite (fun _ _ => .rfl) (.raise .badHeader) (.update (fun _ _ => rfl) ())

theorem hfBuild_plain : hfBuild.Plain := .reading (fun _ => modHf_plain _) fun _ _ => rfl

theorem needTree_plain : needTree.Plain := .ite (fun _ _ => .rfl) (.raise .domainFault) (.pure ())

theorem hfCodes_plain : hfCodes.Plain := needTree_plain.bind fun _ => modHf_plain _

theorem writeCodeBits_plain (c : BitVec 256) : ∀ k, (writeCodeBits c k).Plain
  | 0 => .pure _
  | k + 1 => (bwWbit_plain _).bind fun _ => writeCodeBits_plain c k

theorem hfEsym_plain (x : Symbol) : (hfEsym x).Plain :=
  .ite (fun _ _ => .rfl) (.raise .domainFault) (.reading (fun _ => writeCodeBits_plain _ _) fun _ _ => rfl)

/-! ### The two interval coders -/

theorem intervalUpdate_plain (u : Coder) (x : Symbol) : (intervalUpdate u x).Plain := by
  cases u with
  | ac =>
    exact .ite (fun _ _ => .rfl) (.raise .domainFault)
      (.ite (fun _ _ => .rfl) (.raise .domainFault) (.update (fun _ _ => rfl) ()))
  | rc =>
    exact .ite (fun _ _ => .rfl) (.raise .domainFault)
      (.ite (fun _ _ => .rfl) (.raise .domainFault) (.update (fun _ _ => rfl) ()))

theorem emitPending_plain (b : Bool) : ∀ k, (emitPending b k).Plain
  | 0 => .pure _
  | k + 1 => (bwWbit_plain b).bind fun _ => (modAc_plain _).bind fun _ => emitPending_plain b k

theorem acEmit_plain (b : Bool) : (acEmit b).Plain :=
  (bwWbit_plain b).bind fun _ => .reading (fun _ => emitPending_plain _ _) fun _ _ => rfl

theorem acEmitFor_plain : ∀ r : Renorm, (acEmitFor r).Plain
  | .lower => acEmit_plain false
  | .upper => acEmit_plain true
  | .middle => modAc_plain fun a => { a with pend := a.pend + 1 }
  | .done => .pure _

theorem acEncLoop_blind : ∀ k, (acEncLoop k).Blind
  | 0 => .stuck
  | k + 1 => fun s o => by
    by_cases hr : s.ac.renorm = .done
    · rw [acEncLoop_done hr, acEncLoop_done (s := s.within o) hr]; rfl
    · rw [acEncLoop_turn rfl hr, acEncLoop_turn (s := s.within o) rfl hr]
      exact ((acEmitFor_plain _).blind.bind fun _ => (modAc_plain _).blind.bind fun _ => acEncLoop_blind k) s o

theorem acEsym_blind (x : Symbol) : (acEsym x).Blind := (intervalUpdate_plain .ac x).blind.bind fun _ => acEncLoop_blind _

theorem acEfin_plain : acEfin.Plain :=
  Op.Plain.bind (modAc_plain fun a => { a with pend := a.pend + 1 }) fun _ =>
    Op.Plain.bind
      (.reading (f := fun s => acEmit (decide (Config.q1 ≤ s.ac.low.toNat))) (fun _ => acEmit_plain _) fun _ _ => rfl)
      fun _ => bwFlush_plain

theorem rcEncLoop_blind : ∀ k, (rcEncLoop k).Blind
  | 0 => .stuck
  | k + 1 => fun s o => by
    cases ht : s.rc.sameTop with
    | false => rw [rcEncLoop_done ht, rcEncLoop_done (s := s.within o) ht]; rfl
    | true =>
      rw [rcEncLoop_turn ht, rcEncLoop_turn (s := s.within o) ht]
      exact ((snkWrite_plain _).blind.bind fun _ => (modRc_plain _).blind.bind fun _ => rcEncLoop_blind k) s o

/-- The loop ends once enough turns would make the top bytes differ. -/
theorem rcEncLoop_ends : ∀ (k : Nat) (s t : State), (RC.shiftOut^[k] s.rc).sameTop = false →
    rcEncLoop (k + 1) s ≠ .error .loopBound t
  | 0, s, t, h => by rw [rcEncLoop_done h]; nofun
  | k + 1, s, t, h => by
    cases ht : s.rc.sameTop with
    | false => rw [rcEncLoop_done ht]; nofun
    | true =>
      rw [rcEncLoop_turn ht]
      obtain ⟨_, e⟩ | ⟨_, e⟩ := snkWrite_run s.rc.topByte s
      · rw [Op.bind_of_error e]; nofun
      · rw [Op.bind_of_ok e, Op.bind_of_ok (modRc_run _ _)]
        exact rcEncLoop_ends k _ t h

/-- R222: "The loop ends after at most 4 turns": then all of `low` is shifted out, and `high` is filled up. -/
theorem RC.sameTop_shiftOut_four (r : RC) : (RC.shiftOut^[4] r).sameTop = false := by
  have h : ((RC.shiftOut^[4] r).low ^^^ (RC.shiftOut^[4] r).high).toNat.testBit 24 = true := by
    rw [BitVec.testBit_toNat]
    simp [RC.shiftOut]
  exact decide_eq_false (Nat.not_lt.mpr (Nat.ge_two_pow_of_testBit h))

theorem rcEsym_plain (x : Symbol) : (rcEsym x).Plain where
  blind := (intervalUpdate_plain .rc x).blind.bind fun _ => rcEncLoop_blind _
  ends s t e := by
    obtain e | ⟨_, u, _, e⟩ := Op.bind_eq_error.mp e
    · exact (intervalUpdate_plain .rc x).ends s t e
    · exact rcEncLoop_ends 4 u t u.rc.sameTop_shiftOut_four e

theorem rcTailByte_plain : rcTailByte.Plain :=
  Op.Plain.bind (.reading (fun _ => snkWrite_plain _) fun _ _ => rfl) fun _ =>
    modRc_plain fun r => { r with low := r.low <<< 8 }

theorem rcEfin_plain : rcEfin.Plain := rcTailByte_plain.repeatOp 4

/-! ### The run-length encoder -/

theorem writeRecord_plain (n : Word) (c : Byte) : (writeRecord n c).Plain :=
  (writeBytes_plain _).bind fun _ => snkWrite_plain c

theorem rlEbyte_plain (b : Byte) : (rlEbyte b).Plain :=
  .ite (fun _ _ => .rfl) (.update (fun _ _ => rfl) ()) <| .ite (fun _ _ => .rfl) (.update (fun _ _ => rfl) ()) <|
    .reading (f := fun s t => writeRecord s.rl.cnt s.rl.cur (t.setRl ⟨b, 1⟩))
      (fun _ => (writeRecord_plain _ _).after fun _ _ => rfl) fun _ _ => rfl

theorem rlEfin_plain : rlEfin.Plain :=
  .ite (fun _ _ => .rfl)
    (.reading (f := fun s t => writeRecord s.rl.cnt s.rl.cur (t.setRl { s.rl with cnt := 0 }))
      (fun _ => (writeRecord_plain _ _).after fun _ _ => rfl) fun _ _ => rfl)
    (.pure ())

end Sys2Proof.Machine

/-! SUPPORT. The arithmetic encoder ends (R194, R319): what a command needs and leaves for the next, and the renormalization
loop, whose turns double an interval of at most `2^32` values. -/

namespace Sys2Proof.Machine

open Sys2Proof

/-! ## Operations that end under a condition -/

/-- From a state with P the operation does not use up a bound on its turns, and where it returns the state has Q. -/
def Op.Completes {α : Type} (P : State → Prop) (op : Op α) (Q : State → Prop) : Prop :=
  ∀ s, P s → (∀ a t, op s = .ok a t → Q t) ∧ ∀ t, op s ≠ .error .loopBound t

section
variable {α β : Type} {P Q R : State → Prop}

theorem Op.Completes.bind {x : Op α} {f : α → Op β} (hx : x.Completes P Q) (hf : ∀ a, (f a).Completes Q R) :
    Op.Completes P (x >>= f) R := fun s hs => by
  obtain ⟨hok, hend⟩ := hx s hs
  constructor
  · intro b t e
    obtain ⟨a, u, ea, eb⟩ := Op.bind_eq_ok.mp e
    exact (hf a u (hok a u ea)).1 b t eb
  · intro t e
    obtain e | ⟨a, u, ea, eb⟩ := Op.bind_eq_error.mp e
    · exact hend t e
    · exact (hf a u (hok a u ea)).2 t eb

theorem Op.Plain.completes {op : Op α} (h : op.Plain) : Op.Completes P op fun _ => True :=
  fun s _ => ⟨fun _ _ _ => trivial, h.ends s⟩

theorem Op.Plain.completes_of_preserves {op : Op α} (h : op.Plain) (hp : op.Preserves P) : Op.Completes P op P :=
  fun s hs => ⟨fun _ _ e => hp.of_ok hs e, h.ends s⟩

end

/-! ## The renormalization loop (R194) -/

/-- A property that the output of bits and the count of pending bits leave as it is. -/
structure OutputInvariant (P : State → Prop) : Prop where
  setBw : ∀ {s : State} (v : BW), P s → P (s.setBw v)
  setSnk : ∀ {s : State} (w : Snk), P s → P (s.setSnk w)
  setPend : ∀ {s : State} (n : Nat), P s → P (s.setAc { s.ac with pend := n })

section
variable {P : State → Prop} (hP : OutputInvariant P)
include hP

theorem OutputInvariant.bwWbit (b : Bool) : Op.Preserves P (bwWbit b) := fun s hs => by
  rw [bwWbit_eq]
  split
  · exact snkWrite_preserves (fun _ w h => hP.setSnk w h) _ _ (hP.setBw _ hs)
  · exact hP.setBw _ hs

theorem OutputInvariant.emitPending (b : Bool) : ∀ k, Op.Preserves P (emitPending b k)
  | 0 => .pure _
  | k + 1 => (hP.bwWbit b).bind fun _ => Op.Preserves.bind (fun _ hs => hP.setPend k hs) fun _ => emitPending b k

theorem OutputInvariant.acEmit (b : Bool) : Op.Preserves P (acEmit b) :=
  (hP.bwWbit b).bind fun _ => .reading fun _ => hP.emitPending _ _

theorem OutputInvariant.acEmitFor : ∀ r : Renorm, Op.Preserves P (acEmitFor r)
  | .lower => hP.acEmit false
  | .upper => hP.acEmit true
  | .middle => fun _ hs => hP.setPend _ hs
  | .done => .pure _

end

/-- R194: what a turn takes off the registers, so that they fit in 32 bits when doubled. -/
theorem AC.bias_le {a : AC} (hr : a.renorm ≠ .done) :
    a.renorm.bias ≤ a.low.toNat ∧ a.high.toNat - a.renorm.bias < 2 ^ 31 := by
  have := a.high.isLt
  obtain ⟨h1, e⟩ | ⟨_, h2, e⟩ | ⟨_, _, h3, h4, e⟩ | ⟨_, e⟩ := a.renorm_cases
  · rw [e, Renorm.bias]; omega
  · rw [e, Renorm.bias, Config.half]; omega
  · rw [e, Renorm.bias, Config.q1]; omega
  · exact absurd e hr

/-- R194: "each turn doubles the range". -/
theorem AC.rangeSize_rescale {a : AC} (h : a.Ordered) (hr : a.renorm ≠ .done) :
    rangeSize (a.rescale a.renorm.bias).low (a.rescale a.renorm.bias).high = 2 * rangeSize a.low a.high := by
  obtain ⟨hb, hh⟩ := AC.bias_le hr
  obtain ⟨hlow, hhigh⟩ := AC.rescale_toNat hb h hh
  rw [rangeSize, rangeSize, hlow, hhigh]
  unfold AC.Ordered at h
  omega

/-- R191, R202(a): what the interval of the arithmetic encoder rests on. -/
def State.AcReady (s : State) : Prop := s.fm.cumLegal ∧ s.ac.Ordered

/-- The arithmetic encoder with this table and this interval. -/
def State.AcAt (m : FM) (low high : Word) (s : State) : Prop := s.fm = m ∧ s.ac.low = low ∧ s.ac.high = high

theorem outputInvariant_acAt (m : FM) (low high : Word) : OutputInvariant (State.AcAt m low high) :=
  ⟨fun _ h => h, fun _ h => h, fun _ h => h⟩

/-- Ready, with an interval that k doublings would make too large for 32 bits. -/
def State.AcReadyFor (k : Nat) (s : State) : Prop := s.AcReady ∧ 2 ^ 32 < rangeSize s.ac.low s.ac.high * 2 ^ k

theorem State.AcReadyFor.rescale {k : Nat} {s t : State} (h : s.AcReadyFor (k + 1)) (hr : s.ac.renorm ≠ .done)
    (ht : t.AcAt s.fm s.ac.low s.ac.high) : (t.setAc (t.ac.rescale s.ac.renorm.bias)).AcReadyFor k := by
  obtain ⟨⟨hcum, hord⟩, hsize⟩ := h
  obtain ⟨hm, hl, hh⟩ := ht
  have low : (t.ac.rescale s.ac.renorm.bias).low = (s.ac.rescale s.ac.renorm.bias).low := by rw [AC.rescale, AC.rescale, hl]
  have high : (t.ac.rescale s.ac.renorm.bias).high = (s.ac.rescale s.ac.renorm.bias).high := by
    rw [AC.rescale, AC.rescale, hh]
  refine ⟨⟨by rw [State.setAc_fm, hm]; exact hcum, ?_⟩, ?_⟩
  · have := AC.rescale_ordered hord hr
    rwa [AC.Ordered, State.setAc_ac, low, high]
  · rw [State.setAc_ac, low, high, AC.rangeSize_rescale hord hr]
    calc 2 ^ 32 < rangeSize s.ac.low s.ac.high * 2 ^ (k + 1) := hsize
      _ = 2 * rangeSize s.ac.low s.ac.high * 2 ^ k := by ring

/-- R194: the loop ends, each turn doubling the interval. -/
theorem acEncLoop_completes : ∀ k, Op.Completes (State.AcReadyFor k) (acEncLoop k) State.AcReady
  | 0 => fun s ⟨_, hsize⟩ => by
    have := s.ac.high.isLt
    rw [rangeSize] at hsize
    omega
  | k + 1 => fun s hs => by
    by_cases hr : s.ac.renorm = .done
    · rw [acEncLoop_done hr]
      exact ⟨fun _ _ e => by cases e; exact hs.1, fun _ e => by cases e⟩
    · rw [acEncLoop_turn rfl hr]
      have emit := (acEmitFor_plain s.ac.renorm).completes_of_preserves
        ((outputInvariant_acAt s.fm s.ac.low s.ac.high).acEmitFor _)
      have double : Op.Completes (State.AcAt s.fm s.ac.low s.ac.high) (modAc fun a => a.rescale s.ac.renorm.bias)
          (State.AcReadyFor k) :=
        fun t ht => ⟨fun _ _ e => by cases e; exact hs.rescale hr ht, (modAc_plain _).ends t⟩
      exact (emit.bind fun _ => double.bind fun _ => acEncLoop_completes k) s ⟨rfl, rfl, rfl⟩

/-! ## The commands of the encoder -/

theorem State.AcReady.readyFor {s : State} (h : s.AcReady) : s.AcReadyFor Config.acTurns := by
  refine ⟨h, ?_⟩
  have hord := h.2
  rw [AC.Ordered] at hord
  rw [rangeSize, Config.acTurns]
  omega

theorem fmCum_completes : Op.Completes (fun _ => True) fmCum fun s => s.fm.cumLegal := fun s _ => by
  refine ⟨fun _ t e => ?_, fmCum_plain.ends s⟩
  obtain ⟨_, h⟩ | ⟨ht, h⟩ := fmCum_run s <;> rw [h] at e <;> cases e
  exact FM.cumTable_cumLegal ht

theorem acEinit_completes : Op.Completes (fun s => s.fm.cumLegal) acEinit State.AcReady := fun s hs =>
  ⟨fun _ _ e => by cases e; exact ⟨hs, Nat.zero_le _⟩, acEinit_plain.ends s⟩

theorem bwInit_completes : Op.Completes State.AcReady bwInit State.AcReady :=
  bwInit_plain.completes_of_preserves fun _ hs => hs

theorem intervalUpdate_completes (x : Symbol) : Op.Completes State.AcReady (intervalUpdate .ac x) State.AcReady := by
  refine (intervalUpdate_plain .ac x).completes_of_preserves fun s hs => ?_
  obtain ⟨_, e⟩ | ⟨hx, e⟩ := intervalUpdate_ac_run x s
  · rw [e]; exact hs
  · rw [e]; exact ⟨hs.1, FM.interval_toNat hs.1 hx⟩

theorem acEsym_completes (x : Symbol) : Op.Completes State.AcReady (acEsym x) State.AcReady :=
  (intervalUpdate_completes x).bind fun _ s hs => acEncLoop_completes Config.acTurns s hs.readyFor

end Sys2Proof.Machine

/-! SUPPORT. An encoder is its expansion into primitive commands (R103, R168, R200, R227, R255): a list of commands runs as
one piece of pseudocode, and a loop over the source does what the same commands do with its bytes as operands, but for the
cursor. -/

namespace Sys2Proof.Machine

open Sys2Proof

/-! ## Commands in a row -/

/-- Operations one after another. -/
def inOrder : List (Op Unit) → Op Unit
  | [] => pure ()
  | op :: ops => do
    op
    inOrder ops

theorem inOrder_append (a b : List (Op Unit)) : inOrder (a ++ b) = (do inOrder a; inOrder b) := by
  induction a with
  | nil => simp only [List.nil_append, inOrder, pure_bind]
  | cons op a ih => simp only [List.cons_append, inOrder, ih, bind_assoc]

theorem inOrder_blind : ∀ {ops : List (Op Unit)}, (∀ op ∈ ops, op.Blind) → (inOrder ops).Blind
  | [], _ => .pure ()
  | op :: _, h => (h op List.mem_cons_self).bind fun _ => inOrder_blind fun x hx => h x (List.mem_cons_of_mem _ hx)

theorem inOrder_completes {P : State → Prop} : ∀ {ops : List (Op Unit)}, (∀ op ∈ ops, op.Completes P P) →
    (inOrder ops).Completes P P
  | [], _ => (Op.Plain.pure ()).completes_of_preserves (.pure ())
  | op :: _, h =>
    (h op List.mem_cons_self).bind fun _ => inOrder_completes fun x hx => h x (List.mem_cons_of_mem _ hx)

theorem inOrder_plain : ∀ {ops : List (Op Unit)}, (∀ op ∈ ops, op.Plain) → (inOrder ops).Plain
  | [], _ => .pure ()
  | op :: _, h => (h op List.mem_cons_self).bind fun _ => inOrder_plain fun x hx => h x (List.mem_cons_of_mem _ hx)

theorem runInstrs_append (a b : List Instr) (s : State) {t : State} (h : runInstrs a s = .next t) :
    runInstrs (a ++ b) s = runInstrs b t := by
  induction a generalizing s with
  | nil => cases h; rfl
  | cons i a ih =>
    rw [List.cons_append, runInstrs]
    rw [runInstrs] at h
    cases e : exec i s with
    | next u => rw [e] at h; exact ih u h
    | fault r => rw [e] at h; cases h
    | refused r => rw [e] at h; cases h

/-- How a command without a value ends (R16, R280). -/
def finish : EStateM.Result Stop State Unit → Host.Outcome State Fault Refusal
  | .ok _ t => .next (t.answer .none)
  | .error (.raise k) t => .next (t.takeError k)
  | .error .loopBound _ => .fault .loopBound

theorem runCommand_noValue {s : State} (h0 : s.status = 0) (op : Op Unit) :
    runCommand (noValue op) s = finish (op s) := by
  cases e : op s with
  | ok a t => exact runCommand_ok h0 (r := .none) (by rw [noValue_run, e])
  | error k t =>
    cases k with
    | raise k => exact runCommand_raise h0 (by rw [noValue_run, e])
    | loopBound => exact runCommand_stuck h0 (t := t) (by rw [noValue_run, e])

/-- The answer of the command before is overwritten. -/
theorem Op.Blind.finish_answer {op : Op Unit} (h : op.Blind) (s : State) (r : Reply) :
    finish (op (s.answer r)) = finish (op s) := by
  rw [show s.answer r = s.within (s.answer r) from rfl, h]
  have hend := h.within_endState s
  rcases e : op s with ⟨_, t⟩ | ⟨_ | _, t⟩ <;> rw [e] at hend <;> rw [← show t.within s = t from hend] <;> rfl

/-- The command runs this operation, which sees the units and the sink only. -/
structure Performs (i : Instr) (op : Op Unit) : Prop where
  exec_eq : ∀ s, exec i s = runCommand (noValue op) s
  blind : op.Blind

section
variable {is : List Instr} {ops : List (Op Unit)} (h : List.Forall₂ Performs is ops)
include h

theorem inOrder_blind_of_performs : (inOrder ops).Blind := by
  induction h with
  | nil => exact .pure ()
  | cons hi _ ih => exact hi.blind.bind fun _ => ih

/-- R281: after an error every further command is refused, and answers as the error did. -/
theorem runInstrs_takeError (s : State) (k : ErrorKind) : runInstrs is (s.takeError k) = .next (s.takeError k) := by
  induction h with
  | nil => rfl
  | cons hi _ ih =>
    rw [runInstrs, hi.exec_eq, runCommand_refused k.code_ne_zero]
    exact ih

/-- Commands that see the units and the sink only run as one piece of pseudocode. With no command, nothing is answered. -/
theorem runInstrs_eq_finish {s : State} (h0 : s.status = 0) (hnil : is = [] → s.resp = answerNone) :
    runInstrs is s = finish (inOrder ops s) := by
  induction h generalizing s with
  | nil => rw [inOrder, Op.pure_run, finish, State.answer_none_of_ok h0, ← hnil rfl]; rfl
  | @cons i op is ops hi hrest ih =>
    rw [runInstrs, hi.exec_eq, runCommand_noValue h0, inOrder, Op.bind_run]
    rcases e : op s with ⟨_, u⟩ | ⟨k | _, u⟩
    · have hu : u.status = 0 := by rw [← hi.blind.within_of_ok e]; exact h0
      exact (ih (s := u.answer .none) hu fun _ => by rw [State.answer_none_of_ok hu]).trans
        ((inOrder_blind_of_performs hrest).finish_answer u .none)
    · exact runInstrs_takeError hrest u k
    · rfl

end

/-! ## A loop over the source -/

/-- The result is that of `x`, but for the cursor: n bytes on if the operation returned. -/
def Trails (n : Nat) (r x : EStateM.Result Stop State Unit) : Prop :=
  ∃ j, r = mapState (·.consumed j) x ∧ ∀ t, x = .ok () t → j = n

theorem Trails.error {n : Nat} (j : Nat) (k : Stop) (t : State) : Trails n (.error k (t.consumed j)) (.error k t) :=
  ⟨j, rfl, fun _ e => by cases e⟩

/-- R168, R255: reading the source to its end and doing `f` with each byte is doing `f` with each of its bytes in order. -/
theorem forEachByte_trails {f : Byte → Op Unit} (hf : ∀ b, (f b).Blind) : ∀ (bs : List Byte) (n : Nat) (s : State),
    s.remaining = bs → bs.length < n → Trails bs.length (forEachByte f n s) (inOrder (bs.map f) s)
  | [], n + 1, s, h, _ => ⟨0, by rw [forEachByte_nil h]; rfl, fun _ _ => rfl⟩
  | b :: bs, n + 1, s, h, hn => by
    have hx := (hf b).consumed s 1
    rw [forEachByte_cons h, List.map_cons, inOrder, Op.bind_run, Op.bind_run, hx]
    cases e : f b s with
    | error k t => exact .error 1 k t
    | ok u t =>
      have hrem : (t.consumed 1).remaining = bs := by
        rw [← (hf b).within_of_ok e]
        exact State.remaining_of_cons h
      obtain ⟨j, hj, hok⟩ := forEachByte_trails hf bs n (t.consumed 1) hrem (Nat.lt_of_succ_lt_succ hn)
      rw [(inOrder_blind (by simp [hf])).consumed] at hj hok
      refine ⟨1 + j, ?_, fun v ev => ?_⟩
      · dsimp only [mapState_ok]
        rw [hj, mapState_mapState]
        congr 1
        exact funext fun v => State.consumed_consumed v 1 j
      · dsimp only at ev
        rw [ev] at hok
        rw [hok _ rfl, List.length_cons, Nat.add_comm]

/-- The second pass of an encoder: commands, a loop over the source, commands. -/
def secondPass (before : List (Op Unit)) (f : Byte → Op Unit) (after : List (Op Unit)) : Op Unit := do
  inOrder before
  forSource f
  inOrder after

theorem secondPass_trails {before after : List (Op Unit)} {f : Byte → Op Unit} (s : State) (hb : (inOrder before).Blind)
    (hf : ∀ b, (f b).Blind) (ha : (inOrder after).Blind) :
    Trails s.remaining.length (secondPass before f after s) (inOrder (before ++ s.remaining.map f ++ after) s) := by
  simp only [inOrder_append, bind_assoc]
  rw [secondPass, Op.bind_run, Op.bind_run]
  cases e : inOrder before s with
  | error k t => exact .error 0 k t
  | ok _ t =>
    have hrem : t.remaining = s.remaining := by
      rw [← hb.within_of_ok e]
      rfl
    have hlen : s.remaining.length < srcLeft t + 1 := by rw [srcLeft_eq, hrem]; exact Nat.lt_succ_self _
    obtain ⟨j, hj, hok⟩ := forEachByte_trails hf s.remaining (srcLeft t + 1) t hrem hlen
    dsimp only
    rw [Op.bind_run, Op.bind_run, forSource, reading_run, hj]
    cases e' : inOrder (s.remaining.map f) t with
    | error k u => exact .error j k u
    | ok _ u => exact ⟨j, ha.consumed u j, fun _ _ => hok u e'⟩

/-- The second pass as its commands ends, if each of its commands does. -/
theorem inOrder_secondPass_completes {P Q R : State → Prop} {before after : List (Op Unit)} {f : Byte → Op Unit}
    (hb : (inOrder before).Completes P Q) (hf : ∀ b, (f b).Completes Q Q) (ha : (inOrder after).Completes Q R)
    (bs : List Byte) : (inOrder (before ++ bs.map f ++ after)).Completes P R := by
  have hloop : (inOrder (bs.map f)).Completes Q Q := inOrder_completes (by simpa using fun b _ => hf b)
  simp only [inOrder_append, bind_assoc]
  exact hb.bind fun _ => hloop.bind fun _ => ha

end Sys2Proof.Machine

/-! SUPPORT. The four encoders (R168, R200, R227, R255), each with the operations its expansion performs. -/

namespace Sys2Proof.Machine

open Sys2Proof

/-! ## The commands of the expansions -/

theorem performs_fmWhdr (tag : Word) : Performs (.fmWhdr tag) (fmWhdr tag) := ⟨fun _ => rfl, (fmWhdr_plain tag).blind⟩
theorem performs_fmScale : Performs .fmScale fmScale := ⟨fun _ => rfl, fmScale_plain.blind⟩
theorem performs_fmCum : Performs .fmCum fmCum := ⟨fun _ => rfl, fmCum_plain.blind⟩
theorem performs_bwInit : Performs .bwInit bwInit := ⟨fun _ => rfl, bwInit_plain.blind⟩
theorem performs_bwFlush : Performs .bwFlush bwFlush := ⟨fun _ => rfl, bwFlush_plain.blind⟩
theorem performs_hfBuild : Performs .hfBuild hfBuild := ⟨fun _ => rfl, hfBuild_plain.blind⟩
theorem performs_hfCodes : Performs .hfCodes hfCodes := ⟨fun _ => rfl, hfCodes_plain.blind⟩
theorem performs_acEinit : Performs .acEinit acEinit := ⟨fun _ => rfl, acEinit_plain.blind⟩
theorem performs_acEfin : Performs .acEfin acEfin := ⟨fun _ => rfl, acEfin_plain.blind⟩
theorem performs_rcEinit : Performs .rcEinit rcEinit := ⟨fun _ => rfl, rcEinit_plain.blind⟩
theorem performs_rcEfin : Performs .rcEfin rcEfin := ⟨fun _ => rfl, rcEfin_plain.blind⟩
theorem performs_rlEinit : Performs .rlEinit rlEinit := ⟨fun _ => rfl, rlEinit_plain.blind⟩
theorem performs_rlEbyte (b : Byte) : Performs (.rlEbyte b) (rlEbyte b) := ⟨fun _ => rfl, (rlEbyte_plain b).blind⟩
theorem performs_rlEfin : Performs .rlEfin rlEfin := ⟨fun _ => rfl, rlEfin_plain.blind⟩

/-- R99: a command with a symbol operand works on the symbol. -/
theorem noValue_symbolOperand {v : BitVec 16} {x : Symbol} (h : v.toNat = x.val) (f : Symbol → Op Unit) :
    noValue (symbolOperand v >>= f) = noValue (f x) := by
  funext s
  rw [noValue_run, noValue_run, Op.bind_of_ok (symbolOperand_of_le h s)]

section
variable {v : BitVec 16} {x : Symbol} (h : v.toNat = x.val)
include h

theorem performs_hfEsym : Performs (.hfEsym v) (hfEsym x) :=
  ⟨fun s => congrArg (runCommand · s) (noValue_symbolOperand h hfEsym), (hfEsym_plain x).blind⟩

theorem performs_acEsym : Performs (.acEsym v) (acEsym x) :=
  ⟨fun s => congrArg (runCommand · s) (noValue_symbolOperand h acEsym), acEsym_blind x⟩

theorem performs_rcEsym : Performs (.rcEsym v) (rcEsym x) :=
  ⟨fun s => congrArg (runCommand · s) (noValue_symbolOperand h rcEsym), (rcEsym_plain x).blind⟩

end

theorem byteOperand_toNat (b : Byte) : (byteOperand b).toNat = (byteSymbol b).val := by
  have := b.isLt
  rw [byteOperand, byteSymbol, BitVec.toNat_setWidth]
  exact Nat.mod_eq_of_lt (by omega)

/-- The commands of a loop over the source. -/
theorem performs_map {mk : Byte → Instr} {f : Byte → Op Unit} (h : ∀ b, Performs (mk b) (f b)) (bs : List Byte) :
    List.Forall₂ Performs (bs.map mk) (bs.map f) := by
  rw [List.forall₂_map_left_iff, List.forall₂_map_right_iff]
  exact List.forall₂_same.mpr fun b _ => h b

/-! ## The first pass (R143) -/

/-- R140 to R143: the counts of the bytes, and one end of stream. -/
def FM.scanned (m : FM) (bs : List Byte) : FM :=
  let counted := bs.foldl FM.accumulate { m with freq := Vector.replicate 257 0 }
  { counted with freq := counted.freq.set 256 1 }

/-- The state with the counts of what its source still holds. -/
def State.scanned (s : State) : State := s.setFm (s.fm.scanned s.remaining)

theorem inOrder_fmAcc (bs : List Byte) (s : State) :
    inOrder (bs.map fmAcc) s = .ok () (s.setFm (bs.foldl FM.accumulate s.fm)) := by
  induction bs generalizing s with
  | nil => rfl
  | cons b bs ih => rw [List.map_cons, inOrder, Op.bind_of_ok (fmAcc_run b s), ih]; rfl

theorem fmScan_run (s : State) : fmScan s = .ok () (s.scanned.consumed s.remaining.length) := by
  have hscan : fmScan = secondPass [fmClr] fmAcc [fmEos] := by
    simp only [fmScan, secondPass, inOrder, bind_pure_unit]
  have hrun : inOrder ([fmClr] ++ s.remaining.map fmAcc ++ [fmEos]) s = .ok () s.scanned := by
    simp only [inOrder_append, inOrder, bind_assoc, bind_pure_unit]
    rw [Op.bind_of_ok (fmClr_run s), Op.bind_of_ok (inOrder_fmAcc _ _)]
    rfl
  obtain ⟨j, hj, hok⟩ := secondPass_trails (before := [fmClr]) (after := [fmEos]) s
    (fmClr_plain.bind fun _ => .pure ()).blind (fun b => (fmAcc_plain b).blind) (fmEos_plain.bind fun _ => .pure ()).blind
  rw [hscan, hj, hrun, hok _ hrun]
  rfl

/-- R168: "`m <- src.pos`; call `FM.SCAN`; `SrcSeek(m)`". -/
theorem firstPass_run (k : Op Unit) (s : State) :
    (do let m ← srcPos; fmScan; srcSeek m; k : Op Unit) s = k s.scanned := by
  rw [Op.bind_of_ok (srcPos_run s), Op.bind_of_ok (fmScan_run s), Op.bind_of_ok (srcSeek_run _ _)]
  rfl

theorem runInstrs_firstPass {s : State} (h0 : s.status = 0) :
    runInstrs [.fmScan, .coreRewind] s
      = .next { s.scanned with src := { s.src with pos := 0 }, resp := answerNone } := by
  have scan : exec .fmScan s = .next ((s.scanned.consumed s.remaining.length).answer .none) := by
    change runCommand (noValue fmScan) s = _
    rw [runCommand_noValue h0, fmScan_run]; rfl
  have rewind : ∀ u : State, u.status = 0 →
      exec .coreRewind u = .next ((u.setSrc { u.src with pos := 0 }).answer .none) :=
    fun u hu => runCommand_noValue hu (srcSeek 0)
  rw [runInstrs, scan]
  dsimp only
  rw [runInstrs, rewind _ (by exact h0)]
  dsimp only
  rw [runInstrs, State.answer_none_of_ok (by exact h0)]
  rfl

/-! ## The expansion of an encoder -/

/-- What the statement says of an encoder and its second pass, from y, the state after the first pass with the cursor put
back. -/
def SecondPassGives (enc : Instr) (is : List Instr) (s y u : State) : Prop :=
  runInstrs is y = .next u
    ∧ (u.status = 0 → exec enc s = .next { u with src := { u.src with pos := s.src.pos + s.remaining.length } })
    ∧ (u.status ≠ 0 → ∃ t, exec enc s = .next t ∧ t.status = u.status ∧ t.resp = u.resp ∧ t.snk = u.snk)

/-- The encoder as an operation, `op`, does what the commands of the second pass do, but for the cursor. -/
theorem secondPassGives_of_trails {enc : Instr} {op : Op Unit} {is : List Instr} {ops : List (Op Unit)} {s y : State}
    (h0 : s.status = 0) (henc : exec enc s = runCommand (noValue op) s)
    (hy : y.status = s.status ∧ y.src = s.src ∧ y.cmd = s.cmd)
    (hop : Trails s.remaining.length (op s) (inOrder ops (y.within s))) (hperf : List.Forall₂ Performs is ops)
    (hne : is ≠ []) (hends : ∀ t, inOrder ops y ≠ .error .loopBound t) : ∃ u, SecondPassGives enc is s y u := by
  obtain ⟨hstatus, hsrc, hcmd⟩ := hy
  obtain ⟨j, hj, hok⟩ := hop
  have hb := inOrder_blind_of_performs hperf
  have hrun := runInstrs_eq_finish hperf (hstatus.trans h0) fun h => absurd h hne
  have hend := hb.within_endState y
  rw [hb y s] at hj hok
  rw [runCommand_noValue h0, hj] at henc
  unfold SecondPassGives
  rw [hrun, henc]
  rcases e : inOrder ops y with ⟨_, t⟩ | ⟨k | _, t⟩
  · rw [e] at hok hend
    have ht : t = t.within y := hend.symm
    refine ⟨_, rfl, fun _ => ?_, fun h => absurd (hstatus.trans h0) (by rw [ht] at h; exact h)⟩
    rw [hok _ rfl, ht]
    simp only [mapState_ok, finish, State.within, State.consumed, State.answer, hstatus, hsrc, hcmd]
  · exact ⟨_, rfl, fun h => absurd h k.code_ne_zero, fun _ => ⟨_, rfl, rfl, rfl, rfl⟩⟩
  · exact absurd e (hends t)

/-- An encoder whose second pass is commands, a loop over the source and commands. -/
theorem secondPassGives {enc : Instr} {op : Op Unit} {before after : List (Op Unit)} {f : Byte → Op Unit}
    {isB isA : List Instr} {mk : Byte → Instr} {s y : State} (h0 : s.status = 0)
    (henc : exec enc s = runCommand (noValue op) s) (hy : y.status = s.status ∧ y.src = s.src ∧ y.cmd = s.cmd)
    (hop : op s = secondPass before f after (y.within s)) (hB : List.Forall₂ Performs isB before) (hne : isB ≠ [])
    (hM : ∀ b, Performs (mk b) (f b)) (hA : List.Forall₂ Performs isA after)
    (hends : (inOrder (before ++ s.remaining.map f ++ after)).Completes (fun _ => True) fun _ => True) :
    ∃ u, SecondPassGives enc (isB ++ s.remaining.map mk ++ isA) s y u := by
  have htrails := secondPass_trails (y.within s) (inOrder_blind_of_performs hB) (fun b => (hM b).blind)
    (inOrder_blind_of_performs hA)
  have hrem : (y.within s).remaining = s.remaining := rfl
  rw [hrem, ← hop] at htrails
  have hperf := List.rel_append (List.rel_append hB (performs_map hM s.remaining)) hA
  exact secondPassGives_of_trails h0 henc hy htrails hperf (by simp [hne]) (hends y trivial).2

/-- What the statement says of an encoder. -/
def IsExpansion (enc : Instr) (scan is : List Instr) (s : State) : Prop :=
  ∃ v u, runInstrs scan s = .next v ∧ (s.src.pos = 0 → runInstrs (scan ++ is) s = .next u)
    ∧ SecondPassGives enc is s { v with src := s.src } u

/-- The encoders with a first pass: the second pass begins from the counts, with the cursor put back. -/
theorem isExpansion_of_scanned {enc : Instr} {is : List Instr} {s : State} (h0 : s.status = 0)
    (h : ∃ u, SecondPassGives enc is s { s.scanned with resp := answerNone } u) :
    IsExpansion enc [.fmScan, .coreRewind] is s := by
  obtain ⟨u, hrun, hrest⟩ := h
  refine ⟨_, u, runInstrs_firstPass h0, fun hpos => ?_, hrun, hrest⟩
  rw [runInstrs_append _ _ _ (runInstrs_firstPass h0), ← hpos]
  exact hrun

section
variable {s : State} (h0 : s.status = 0)
include h0

theorem hfEnc_isExpansion : IsExpansion .hfEnc [.fmScan, .coreRewind]
    ([Instr.fmWhdr 0x4E4D4648#32, .hfBuild, .hfCodes, .bwInit] ++ s.remaining.map (fun b => Instr.hfEsym (byteOperand b))
      ++ [Instr.hfEsym 256, .bwFlush]) s := by
  have before : (inOrder [fmWhdr Config.magicHF, hfBuild, hfCodes, bwInit]).Plain :=
    inOrder_plain (by simp [fmWhdr_plain, hfBuild_plain, hfCodes_plain, bwInit_plain])
  have after : (inOrder [hfEsym eosSymbol, bwFlush]).Plain := inOrder_plain (by simp [hfEsym_plain, bwFlush_plain])
  refine isExpansion_of_scanned h0 (secondPassGives h0 (enc := .hfEnc) (op := hfEnc) rfl ⟨rfl, rfl, rfl⟩ ?_
    (.cons (performs_fmWhdr _) (.cons performs_hfBuild (.cons performs_hfCodes (.cons performs_bwInit .nil)))) (by simp)
    (fun b => performs_hfEsym (byteOperand_toNat b))
    (.cons (performs_hfEsym (x := eosSymbol) rfl) (.cons performs_bwFlush .nil))
    (inOrder_secondPass_completes before.completes (fun b => (hfEsym_plain _).completes) after.completes _))
  rw [hfEnc, firstPass_run]
  simp only [secondPass, inOrder, bind_assoc, bind_pure_unit]
  rfl

theorem acEnc_isExpansion : IsExpansion .acEnc [.fmScan, .coreRewind]
    ([Instr.fmScale, .fmWhdr 0x434E4541#32, .fmCum, .acEinit, .bwInit]
      ++ s.remaining.map (fun b => Instr.acEsym (byteOperand b)) ++ [Instr.acEsym 256, .acEfin]) s := by
  have before : (inOrder [fmScale, fmWhdr Config.magicAC, fmCum, acEinit, bwInit]).Completes (fun _ => True)
      State.AcReady :=
    fmScale_plain.completes.bind fun _ => (fmWhdr_plain _).completes.bind fun _ => fmCum_completes.bind fun _ =>
      acEinit_completes.bind fun _ => bwInit_completes.bind fun _ => (Op.Plain.pure ()).completes_of_preserves (.pure ())
  have after : (inOrder [acEsym eosSymbol, acEfin]).Completes State.AcReady fun _ => True :=
    (acEsym_completes _).bind fun _ => (acEfin_plain.bind fun _ => .pure ()).completes
  refine isExpansion_of_scanned h0 (secondPassGives h0 (enc := .acEnc) (op := acEnc) rfl ⟨rfl, rfl, rfl⟩ ?_
    (.cons performs_fmScale (.cons (performs_fmWhdr _) (.cons performs_fmCum (.cons performs_acEinit
      (.cons performs_bwInit .nil))))) (by simp)
    (fun b => performs_acEsym (byteOperand_toNat b))
    (.cons (performs_acEsym (x := eosSymbol) rfl) (.cons performs_acEfin .nil))
    (inOrder_secondPass_completes before (fun b => acEsym_completes _) after _))
  rw [acEnc, firstPass_run]
  simp only [secondPass, inOrder, bind_assoc, bind_pure_unit]
  rfl

theorem rcEnc_isExpansion : IsExpansion .rcEnc [.fmScan, .coreRewind]
    ([Instr.fmScale, .fmWhdr 0x434E4352#32, .fmCum, .rcEinit] ++ s.remaining.map (fun b => Instr.rcEsym (byteOperand b))
      ++ [Instr.rcEsym 256, .rcEfin]) s := by
  have before : (inOrder [fmScale, fmWhdr Config.magicRC, fmCum, rcEinit]).Plain :=
    inOrder_plain (by simp [fmScale_plain, fmWhdr_plain, fmCum_plain, rcEinit_plain])
  have after : (inOrder [rcEsym eosSymbol, rcEfin]).Plain := inOrder_plain (by simp [rcEsym_plain, rcEfin_plain])
  refine isExpansion_of_scanned h0 (secondPassGives h0 (enc := .rcEnc) (op := rcEnc) rfl ⟨rfl, rfl, rfl⟩ ?_
    (.cons performs_fmScale (.cons (performs_fmWhdr _) (.cons performs_fmCum (.cons performs_rcEinit .nil)))) (by simp)
    (fun b => performs_rcEsym (byteOperand_toNat b))
    (.cons (performs_rcEsym (x := eosSymbol) rfl) (.cons performs_rcEfin .nil))
    (inOrder_secondPass_completes before.completes (fun b => (rcEsym_plain _).completes) after.completes _))
  rw [rcEnc, firstPass_run]
  simp only [secondPass, inOrder, bind_assoc, bind_pure_unit]
  rfl

theorem rlEnc_isExpansion : IsExpansion .rlEnc [] (Instr.rlEinit :: s.remaining.map Instr.rlEbyte ++ [Instr.rlEfin]) s := by
  have before : (inOrder [rlEinit]).Plain := inOrder_plain (by simp [rlEinit_plain])
  have after : (inOrder [rlEfin]).Plain := inOrder_plain (by simp [rlEfin_plain])
  have hop : rlEnc = secondPass [rlEinit] rlEbyte [rlEfin] := by
    simp only [rlEnc, secondPass, inOrder, bind_pure_unit]
  obtain ⟨u, hrun, hrest⟩ := secondPassGives h0 (enc := .rlEnc) (op := rlEnc) (y := s) rfl ⟨rfl, rfl, rfl⟩
    (by rw [hop, State.within_self]) (.cons performs_rlEinit .nil) (by simp) performs_rlEbyte (.cons performs_rlEfin .nil)
    (inOrder_secondPass_completes before.completes (fun b => (rlEbyte_plain b).completes) after.completes _)
  exact ⟨s, u, rfl, fun _ => hrun, hrun, hrest⟩

end

/-- Settles O52: the commands of the second pass neither see nor move the source, so that they may be given its bytes as
operands; with the cursor at the front `CORE.REWIND` puts it back. -/
theorem encodersAreTheirExpansions : Obligations.EncodersAreTheirExpansions := by
  refine ⟨⟨rfl, rfl, rfl⟩, fun s h0 enc scan is hmem => ?_⟩
  have h : IsExpansion enc scan is s := by
    simp only [encoderExpansions, List.mem_cons, List.not_mem_nil, or_false, Prod.mk.injEq] at hmem
    rcases hmem with ⟨rfl, rfl, rfl⟩ | ⟨rfl, rfl, rfl⟩ | ⟨rfl, rfl, rfl⟩ | ⟨rfl, rfl, rfl⟩
    · exact hfEnc_isExpansion h0
    · exact acEnc_isExpansion h0
    · exact rcEnc_isExpansion h0
    · exact rlEnc_isExpansion h0
  obtain ⟨v, u, hscan, hall, hrun, hok, herror⟩ := h
  exact ⟨v, u, hscan, hrun, hall, hok, herror⟩

end Sys2Proof.Machine

/-! SUPPORT. The commands of LE (R128, R129): how a command's answer follows from the run of its pseudocode, and the words. -/

namespace Sys2Proof.Machine

open Sys2Proof

/-! ## The answer of a command without a value (R16, R280) -/

section
variable {op : Op Unit} {s t : State} (h0 : s.status = 0)
include h0

theorem runCommand_noValue_ok (e : op s = .ok () t) (ht : t.status = 0) :
    runCommand (noValue op) s = .next { t with resp := answerNone } := by
  rw [runCommand_noValue h0, e, finish, State.answer_none_of_ok ht]

theorem runCommand_noValue_raise {k : ErrorKind} (e : op s = .error (.raise k) t) :
    runCommand (noValue op) s = .next (t.failed k.code) := by
  rw [runCommand_noValue h0, e]; rfl

end

/-! ## Little-endian words (R128, R129) -/

/-- Settles O17: the four bytes are written one after another, all of them or those that fit. -/
theorem wordsAreWrittenLittleEndian : Obligations.WordsAreWrittenLittleEndian := by
  refine fun s v h0 => ⟨rfl, fun hroom => ?_, fun m hshort => ?_⟩
  · exact runCommand_noValue_ok h0 (leWr32_of_room v hroom) h0
  · exact runCommand_noValue_raise h0 (leWr32_of_short v hshort)

section
variable {s : State}

theorem leRd32_of_nil (h : s.remaining = []) : leRd32 s = .ok none s := by rw [leRd32_run, h]

theorem leRd32_of_short (h1 : 1 ≤ s.remaining.length) (h3 : s.remaining.length ≤ 3) :
    leRd32 s = .error (.raise .truncation) (s.consumed s.remaining.length) := by
  rw [leRd32_run]
  match h : s.remaining with
  | [] => simp [h] at h1
  | [_] => rfl
  | [_, _] => rfl
  | [_, _, _] => rfl
  | _ :: _ :: _ :: _ :: _ => rw [h] at h3; simp only [List.length_cons] at h3; omega

theorem leRd32_of_four {b0 b1 b2 b3 : Byte} {rest : List Byte} (h : s.remaining = b0 :: b1 :: b2 :: b3 :: rest) :
    leRd32 s = .ok (some (ofLeBytes32 b0 b1 b2 b3)) (s.consumed 4) := by rw [leRd32_run, h]

end

theorem ofLeBytes32_eq_ofNat (b0 b1 b2 b3 : Byte) : ofLeBytes32 b0 b1 b2 b3 =
    BitVec.ofNat 32 (b0.toNat + 2 ^ 8 * b1.toNat + 2 ^ 16 * b2.toNat + 2 ^ 24 * b3.toNat) := by
  rw [← ofLeBytes32_toNat, BitVec.ofNat_toNat, BitVec.setWidth_eq]

/-- Settles O18: by how many bytes the four reads find. -/
theorem wordsAreReadLittleEndian : Obligations.WordsAreReadLittleEndian := by
  refine ⟨rfl, fun s h0 => ⟨fun hnil => ?_, fun h1 h3 => ?_, fun b0 b1 b2 b3 rest h => ?_⟩⟩
  · rw [← State.answer_ceof_of_ok h0]
    exact runCommand_ok h0 (Op.bind_of_ok (leRd32_of_nil hnil))
  · exact runCommand_raise h0 (Op.bind_of_error (leRd32_of_short h1 h3))
  · have hc : (s.consumed 4).status = 0 := h0
    rw [← ofLeBytes32_eq_ofNat, ← State.answer_val_of_ok hc]
    exact runCommand_ok h0 (Op.bind_of_ok (leRd32_of_four h))

end Sys2Proof.Machine

/-! SUPPORT. The bits of a register, and the bit streams of the packer and the unpacker (R27, R28): writing a bit appends it to
the bits that the sink and the packer hold, and reading one takes it off the front of the reader's stream. -/

namespace Sys2Proof.Machine

open Sys2Proof

/-! ## The low bits of a register, highest first -/

/-- The bits `v[n−1:0]`, highest first: what the packer and the unpacker hold in their byte (R27, R28). -/
def lowBits {w : Nat} (v : BitVec w) (n : Nat) : List Bool := (List.range n).map fun i => v.getLsbD (n - 1 - i)

section
variable {w : Nat} (v : BitVec w) (n : Nat)

@[simp] theorem lowBits_length : (lowBits v n).length = n := by simp [lowBits]

@[simp] theorem lowBits_zero : lowBits v 0 = [] := rfl

@[simp] theorem lowBits_getElem {i : Nat} (h : i < (lowBits v n).length) : (lowBits v n)[i] = v.getLsbD (n - 1 - i) := by
  simp [lowBits]

/-- R125: the highest of the bits comes first. -/
theorem lowBits_succ : lowBits v (n + 1) = v.getLsbD n :: lowBits v n := by
  simp [lowBits, List.range_succ_eq_map, Nat.sub_sub, Nat.add_comm 1]

/-- R122: shifted left, the bits have zeros below. -/
theorem lowBits_shiftLeft {k : Nat} (h : n + k ≤ w) : lowBits (v <<< k) (n + k) = lowBits v n ++ List.replicate k false := by
  refine List.ext_getElem (by simp) fun i hi _ => ?_
  rw [lowBits_length] at hi
  rw [lowBits_getElem, BitVec.getLsbD_shiftLeft, List.getElem_append]
  split
  next hlt =>
    rw [lowBits_length] at hlt
    have hlow : ¬ n + k - 1 - i < k := by omega
    have hin : n + k - 1 - i < w := by omega
    simp only [hlow, hin, lowBits_getElem, decide_true, decide_false, Bool.not_false, Bool.true_and]
    congr 1
    omega
  next hge =>
    rw [lowBits_length] at hge
    have hlow : n + k - 1 - i < k := by omega
    simp [hlow]

theorem getLsbD_shiftIn (b : Bool) {i : Nat} (h : i < w) :
    ((v <<< 1) ||| (if b then 1 else 0)).getLsbD i = if i = 0 then b else v.getLsbD (i - 1) := by
  cases i with
  | zero => cases b <;> simp [h]
  | succ i => cases b <;> simp [h, BitVec.getLsbD_eq_getElem (Nat.lt_of_succ_lt h)]

/-- R121: a bit shifted in is the last. -/
theorem lowBits_shiftIn (b : Bool) (h : n < w) :
    lowBits ((v <<< 1) ||| (if b then 1 else 0)) (n + 1) = lowBits v n ++ [b] := by
  rw [lowBits, List.range_succ, List.map_append, lowBits]
  congr 1
  · refine List.map_congr_left fun i hi => ?_
    rw [List.mem_range] at hi
    rw [getLsbD_shiftIn v b (by omega), if_neg (by omega)]
    congr 1
    omega
  · rw [List.map_singleton, getLsbD_shiftIn v b (by omega), if_pos (by omega)]

end

theorem byteBits_eq_lowBits (b : Byte) : byteBits b = lowBits b 8 := rfl

@[simp] theorem byteBits_length (b : Byte) : (byteBits b).length = 8 := lowBits_length b 8

theorem flatMap_byteBits_length (bs : List Byte) : (bs.flatMap byteBits).length = 8 * bs.length := by
  simp [List.length_flatMap, Nat.mul_comm 8]

/-- R67: the k-th bit of a stream is bit `7 − k mod 8` of byte `k / 8`. -/
theorem flatMap_byteBits_getD (bs : List Byte) (k : Nat) :
    (bs.flatMap byteBits).getD k false = (bs.getD (k / 8) 0).getLsbD (7 - k % 8) := by
  induction bs generalizing k with
  | nil => simp
  | cons b bs ih =>
    rw [List.flatMap_cons]
    by_cases hk : k < 8
    · rw [List.getD_append _ _ _ _ (by simpa using hk), Nat.div_eq_of_lt hk, Nat.mod_eq_of_lt hk]
      simp [byteBits, hk]
    · obtain ⟨j, rfl⟩ := Nat.exists_eq_add_of_le (Nat.le_of_not_lt hk)
      rw [List.getD_append_right _ _ _ _ (by simp), byteBits_length, Nat.add_sub_cancel_left, ih, Nat.add_mod_left,
        Nat.add_div_left j (by decide), List.getD_cons_succ]

/-- Zeros at the end of a stream are not seen by a reader to whom all bits past the end are 0. -/
theorem getD_append_replicate_false (bits : List Bool) (n k : Nat) :
    (bits ++ List.replicate n false).getD k false = bits.getD k false := by
  rcases Nat.lt_or_ge k bits.length with hk | hk
  · rw [List.getD_append _ _ _ _ hk]
  · rw [List.getD_append_right _ _ _ _ hk, List.getD_eq_default _ _ hk, List.getD_eq_getElem?_getD, List.getElem?_replicate]
    split <;> rfl

/-- R67: a packed stream is the bits with less than a byte of zeros after them. -/
theorem isPacked_iff (bits : List Bool) (out : List Byte) : IsPacked bits out ↔
    out.length = (bits.length + 7) / 8 ∧ ∀ k, (out.flatMap byteBits).getD k false = bits.getD k false := by
  refine and_congr_right fun hlen => ?_
  simp only [← flatMap_byteBits_getD]
  refine ⟨fun h k => ?_, fun h k _ => h k⟩
  by_cases hk : k < 8 * out.length
  · exact h k hk
  · rw [List.getD_eq_default _ _ (by rw [flatMap_byteBits_length]; omega), List.getD_eq_default _ _ (by omega)]

/-! ## Writing bits (R120 to R122) -/

/-- R27: the bits the packer holds, oldest first. -/
def BW.held (w : BW) : List Bool := lowBits w.acc w.cnt.val

@[simp] theorem BW.held_length (w : BW) : w.held.length = w.cnt.val := lowBits_length _ _

theorem BW.held_shiftIn {w : BW} (b : Bool) (h : w.cnt.val < 7) : BW.held ⟨w.shiftIn b, w.cnt + 1⟩ = w.held ++ [b] := by
  have hlt : w.cnt < Fin.last 7 := h
  have hcnt : (w.cnt + 1).val = w.cnt.val + 1 := Fin.val_add_one_of_lt hlt
  rw [BW.held, hcnt]
  exact lowBits_shiftIn _ _ b (by omega)

theorem BW.byteBits_shiftIn {w : BW} (b : Bool) (h : w.cnt.val = 7) : byteBits (w.shiftIn b) = w.held ++ [b] := by
  rw [BW.held, h]
  exact lowBits_shiftIn w.acc 7 b (by decide)

theorem BW.byteBits_padded (w : BW) : byteBits w.padded = w.held ++ List.replicate (8 - w.cnt.val) false := by
  have hcnt : w.cnt.val + (8 - w.cnt.val) = 8 := by omega
  rw [BW.held, ← lowBits_shiftLeft _ _ hcnt.le, hcnt]
  rfl

/-- R27: an empty packer is the reset one. -/
theorem BW.legal.eq_zero {w : BW} (h : w.legal) (hc : w.cnt.val = 0) : w = ⟨0, 0⟩ := by
  obtain ⟨acc, cnt⟩ := w
  have hcnt : cnt = 0 := Fin.ext hc
  subst hcnt
  have hacc : acc.toNat < 1 := h
  rw [show acc = 0 from BitVec.eq_of_toNat_eq (Nat.lt_one_iff.mp hacc)]

/-- The full sink's answer to the packer's byte comes after the packer has been emptied. -/
theorem snkWrite_emptied_of_full {s : State} (b : Byte) (h : s.roomOnlyFor 0 1) :
    snkWrite b (s.setBw ⟨0, 0⟩) = .error (.raise .sinkFailure) (s.setBw ⟨0, 0⟩) := snkWrite_of_full b h.1

theorem snkWrite_emptied_of_room {s : State} (b : Byte) (h : s.hasRoom 1 = true) :
    snkWrite b (s.setBw ⟨0, 0⟩) = .ok () ((s.wrote [b]).setBw ⟨0, 0⟩) := snkWrite_of_room (s := s.setBw ⟨0, 0⟩) b h

/-- What writing bits does when the sink has room: full bytes go to the sink, and with the bits then held they are the bits held
before and the new ones. -/
def WritesBits (op : Op Unit) (s : State) (bits : List Bool) : Prop :=
  ∃ out w, op s = .ok () ((s.wrote out).setBw w) ∧ w.legal ∧ out.flatMap byteBits ++ w.held = s.bw.held ++ bits

theorem length_of_written {out : List Byte} {w : BW} {bits : List Bool} (h : out.flatMap byteBits ++ w.held = bits) :
    8 * out.length + w.cnt.val = bits.length := by
  rw [← h, List.length_append, flatMap_byteBits_length, BW.held_length]

theorem bwWbit_writesBits {s : State} (b : Bool) (hl : s.bw.legal) (hr : s.hasRoom ((s.bw.cnt.val + 1) / 8) = true) :
    WritesBits (bwWbit b) s [b] := by
  have keeps := bwWbit_preserves (P := fun t => t.bw.legal) (fun _ h => h) (fun _ _ _ _ h => h) b
  by_cases h7 : s.bw.cnt.val = 7
  · rw [h7] at hr
    have e : bwWbit b s = .ok () ((s.wrote [s.bw.shiftIn b]).setBw ⟨0, 0⟩) := by
      rw [bwWbit_of_eq b h7, snkWrite_emptied_of_room _ hr]
    refine ⟨_, _, e, BW.legal_zero, ?_⟩
    rw [List.flatMap_singleton, BW.byteBits_shiftIn b h7]
    exact List.append_nil _
  · have h : s.bw.cnt.val < 7 := by omega
    have e := bwWbit_of_lt b h
    exact ⟨[], ⟨s.bw.shiftIn b, s.bw.cnt + 1⟩, by rw [e, State.wrote_nil], keeps.of_ok hl e, BW.held_shiftIn b h⟩

theorem writeBits_writesBits (bits : List Bool) (s : State) (hl : s.bw.legal)
    (hr : s.hasRoom ((s.bw.cnt.val + bits.length) / 8) = true) : WritesBits (writeBits bits) s bits := by
  induction bits generalizing s with
  | nil => exact ⟨[], s.bw, by rw [State.wrote_nil]; rfl, hl, (List.append_nil _).symm⟩
  | cons b bits ih =>
    rw [List.length_cons] at hr
    obtain ⟨out, w, e, hw, hb⟩ := bwWbit_writesBits b hl (State.hasRoom_mono hr (by omega))
    have hlen := length_of_written hb
    rw [List.length_append, BW.held_length, List.length_singleton] at hlen
    have hroom : (s.wrote out).hasRoom ((w.cnt.val + bits.length) / 8) = true :=
      State.hasRoom_wrote (State.hasRoom_mono hr (by omega))
    obtain ⟨out', w', e', hw', hb'⟩ := ih ((s.wrote out).setBw w) hw hroom
    refine ⟨out ++ out', w', ?_, hw', ?_⟩
    · rw [writeBits, Op.bind_of_ok e, e', ← State.wrote_wrote]
      rfl
    · rw [List.flatMap_append, List.append_assoc, hb', State.setBw_bw, ← List.append_assoc, hb, List.append_assoc]
      rfl

/-- R122: the bits held are written with zeros below; an empty packer writes nothing. -/
theorem bwFlush_writes {s : State} (hl : s.bw.legal) (hr : s.hasRoom ((s.bw.cnt.val + 7) / 8) = true) :
    ∃ out n, bwFlush s = .ok () ((s.wrote out).setBw ⟨0, 0⟩) ∧ out.length = (s.bw.cnt.val + 7) / 8
      ∧ out.flatMap byteBits = s.bw.held ++ List.replicate n false := by
  obtain ⟨hc, e⟩ | ⟨hc, e⟩ := bwFlush_run s
  · have h0 : s.bw = ⟨0, 0⟩ := hl.eq_zero hc
    refine ⟨[], 0, by rw [e, State.wrote_nil, ← h0]; rfl, by rw [hc]; rfl, by rw [h0]; rfl⟩
  · have h1 : (s.bw.cnt.val + 7) / 8 = 1 := by omega
    rw [h1] at hr
    refine ⟨[s.bw.padded], 8 - s.bw.cnt.val, e.trans (snkWrite_emptied_of_room _ hr), h1.symm, ?_⟩
    rw [List.flatMap_singleton, BW.byteBits_padded]

/-- R123: writing bits to an empty packer, and flushing it. -/
theorem writeBits_bwFlush_isPacked (bits : List Bool) {s : State} (h0 : s.bw = ⟨0, 0⟩)
    (hr : s.hasRoom ((bits.length + 7) / 8) = true) :
    ∃ out, (do writeBits bits; bwFlush : Op Unit) s = .ok () ((s.wrote out).setBw ⟨0, 0⟩) ∧ IsPacked bits out := by
  have hheld : s.bw.held = [] := by rw [h0]; rfl
  have hcnt : s.bw.cnt.val = 0 := by rw [h0]; rfl
  obtain ⟨full, w, ew, hw, hb⟩ := writeBits_writesBits bits s (by rw [h0]; exact BW.legal_zero)
    (State.hasRoom_mono hr (by omega))
  rw [hheld, List.nil_append] at hb
  have hlen := length_of_written hb
  have hroom : (s.wrote full).hasRoom ((w.cnt.val + 7) / 8) = true :=
    State.hasRoom_wrote (State.hasRoom_mono hr (by omega))
  obtain ⟨last, n, ef, hl, hf⟩ := bwFlush_writes (s := (s.wrote full).setBw w) hw hroom
  rw [State.setBw_bw] at hl hf
  refine ⟨full ++ last, ?_, (isPacked_iff _ _).mpr ⟨by rw [List.length_append]; omega, fun k => ?_⟩⟩
  · rw [Op.bind_of_ok ew, ef, ← State.wrote_wrote]
    rfl
  · rw [List.flatMap_append, hf, ← List.append_assoc, hb, getD_append_replicate_false]

/-! ## The commands of the packer -/

/-- R99, R121: only bit 0 of the operand is used. -/
theorem BW.shiftIn_bitOperand (w : BW) (imm8 : BitVec 8) : w.shiftIn (bitOperand imm8) = (w.acc <<< 1) ||| (imm8 &&& 1) := by
  have h : imm8 &&& 1 = if bitOperand imm8 then 1 else 0 := by
    change imm8 &&& 1#8 = _
    rw [BitVec.and_one_eq_setWidth_ofBool_getLsbD, bitOperand]
    cases imm8.getLsbD 0 <;> rfl
  rw [BW.shiftIn, h]

@[simp] theorem bitOperand_ite (b : Bool) : bitOperand (if b then 1 else 0) = b := by cases b <;> rfl

theorem performs_bwWbit (imm8 : BitVec 8) : Performs (.bwWbit imm8) (bwWbit (bitOperand imm8)) :=
  ⟨fun _ => rfl, (bwWbit_plain _).blind⟩

theorem bwFlush_of_zero {s : State} (h : s.bw.cnt.val = 0) : bwFlush s = .ok () s := if_neg (Nat.not_lt.mpr h.le)

theorem bwFlush_of_pos {s : State} (h : 0 < s.bw.cnt.val) : bwFlush s = snkWrite s.bw.padded (s.setBw ⟨0, 0⟩) :=
  if_pos h

/-- Settles O19: the cases of the packer's procedures, the write of a byte done or refused. -/
theorem bitWriterCommands : Obligations.BitWriterCommands := by
  refine ⟨⟨rfl, fun _ => rfl, rfl⟩, fun s h0 => ⟨?_, fun imm8 => ⟨fun hc => ?_, fun hc hr => ?_, fun hc hf => ?_⟩,
    fun hc => ?_, fun hc hr => ?_, fun hc hf => ?_⟩⟩
  · exact runCommand_noValue_ok h0 (bwInit_run s) h0
  · rw [← BW.shiftIn_bitOperand]
    exact runCommand_noValue_ok h0 (bwWbit_of_lt _ hc) h0
  · rw [← BW.shiftIn_bitOperand]
    exact runCommand_noValue_ok h0 ((bwWbit_of_eq _ hc).trans (snkWrite_emptied_of_room _ hr)) h0
  · exact runCommand_noValue_raise h0 ((bwWbit_of_eq _ hc).trans (snkWrite_emptied_of_full _ hf))
  · exact runCommand_noValue_ok h0 (bwFlush_of_zero hc) h0
  · exact runCommand_noValue_ok h0 ((bwFlush_of_pos hc).trans (snkWrite_emptied_of_room _ hr)) h0
  · exact runCommand_noValue_raise h0 ((bwFlush_of_pos hc).trans (snkWrite_emptied_of_full _ hf))

theorem inOrder_bwWbit (bits : List Bool) : inOrder (bits.map bwWbit) = writeBits bits := by
  induction bits with
  | nil => rfl
  | cons b bits ih => rw [List.map_cons, inOrder, ih]; rfl

/-- R103: the commands of `BW.WBITS` perform the writing of the bits. -/
theorem performs_wbits (bits : List Bool) : List.Forall₂ Performs (wbits bits) (bits.map bwWbit) := by
  rw [show wbits bits = bits.map fun b => .bwWbit (if b then 1 else 0) from rfl, List.forall₂_map_left_iff,
    List.forall₂_map_right_iff]
  refine List.forall₂_same.mpr fun b _ => ?_
  have h := performs_bwWbit (if b then 1 else 0)
  rwa [bitOperand_ite] at h

/-- Settles O20: the commands run as one piece of pseudocode, in which writing the bits keeps them all in the sink and the
packer, and flushing puts the rest into the sink. -/
theorem bitsWrittenArePacked : Obligations.BitsWrittenArePacked := by
  intro s bits h0 hr
  obtain ⟨out, e, hp⟩ := writeBits_bwFlush_isPacked bits (s := s.setBw ⟨0, 0⟩) rfl hr
  refine ⟨out, ?_, hp⟩
  have hperf : List.Forall₂ Performs (.bwInit :: wbits bits ++ [.bwFlush]) (bwInit :: bits.map bwWbit ++ [bwFlush]) :=
    .cons performs_bwInit (List.rel_append (performs_wbits bits) (.cons performs_bwFlush .nil))
  have hops : inOrder (bwInit :: bits.map bwWbit ++ [bwFlush]) = (do bwInit; writeBits bits; bwFlush) := by
    simp only [List.cons_append, inOrder, inOrder_append, inOrder_bwWbit, bind_pure_unit]
  rw [runInstrs_eq_finish hperf h0 (by simp), hops, Op.bind_of_ok (bwInit_run s), e]
  exact congrArg Host.Outcome.next (State.answer_none_of_ok h0)

/-! ## Reading bits (R124 to R126) -/

theorem State.bitStream_of_eof {s : State} (h : s.br.eof = true) : s.bitStream = [] := if_pos h

/-- R28: the look-ahead, then the bytes of the source. -/
theorem State.bitStream_of_not_eof {s : State} (h : s.br.eof = false) :
    s.bitStream = lowBits s.br.cur s.br.rem.val ++ s.remaining.flatMap byteBits := if_neg (by simp [h])

/-- R125: the bit returned is the next of the stream, 0 at its end, and the flag says whether the end was met. The reader
touches its own registers and the cursor only. -/
theorem brRbit_run (s : State) : ∃ n v, brRbit s = .ok (s.bitStream.headD false) ((s.consumed n).setBr v)
    ∧ ((s.consumed n).setBr v).bitStream = s.bitStream.tail ∧ (v.eof = true ↔ s.bitStream = []) := by
  cases he : s.br.eof with
  | true =>
    have hb := State.bitStream_of_eof he
    refine ⟨0, s.br, by rw [brRbit_of_eof he, hb]; rfl, by rw [hb]; exact hb, by simp [he, hb]⟩
  | false =>
    have hb := State.bitStream_of_not_eof he
    rcases hr : s.br.rem.val with _ | r
    · rw [hr, lowBits_zero, List.nil_append] at hb
      cases hx : s.remaining with
      | nil =>
        rw [hx, List.flatMap_nil] at hb
        exact ⟨0, _, by rw [brRbit_of_end he hr hx, hb]; rfl, by rw [hb]; exact State.bitStream_of_eof rfl, by simp [hb]⟩
      | cons x l =>
        rw [hx, List.flatMap_cons, byteBits_eq_lowBits, lowBits_succ] at hb
        refine ⟨1, _, by rw [brRbit_of_load he hr hx, hb]; rfl, ?_, by simp [hb]⟩
        rw [State.bitStream_of_not_eof rfl, hb, ← State.remaining_of_cons hx]
        rfl
    · have hlt : r < 8 := by omega
      rw [hr, lowBits_succ] at hb
      refine ⟨0, _, by rw [brRbit_of_rem ⟨r, hlt⟩ he hr, hb]; rfl, ?_, by simp [hb]⟩
      rw [State.bitStream_of_not_eof rfl, hb]
      rfl

theorem exec_brRbit_of_ok {s t : State} {b : Bool} (h0 : s.status = 0) (e : brRbit s = .ok b t) (ht : t.status = 0) :
    exec .brRbit s = .next { t with resp := answerVal (bitValue b) } := by
  rw [← State.answer_val_of_ok ht]
  exact runCommand_ok h0 (Op.bind_of_ok e)

/-- Settles O21: the cases of the unpacker's procedures. -/
theorem bitReaderCommands : Obligations.BitReaderCommands := by
  refine ⟨⟨rfl, rfl, rfl⟩, fun s h0 => ⟨?_, ?_, fun he => ?_, fun he hr hx => ?_, fun x rest he hr hx => ?_,
    fun r he hr => ?_⟩⟩
  · exact runCommand_noValue_ok h0 (brInit_run s) h0
  · exact (runCommand_ok h0 rfl).trans (congrArg _ (State.answer_val_of_ok h0 _))
  · exact exec_brRbit_of_ok h0 (brRbit_of_eof he) h0
  · exact exec_brRbit_of_ok h0 (brRbit_of_end he hr hx) h0
  · exact exec_brRbit_of_ok h0 (brRbit_of_load he hr hx) h0
  · exact exec_brRbit_of_ok h0 (brRbit_of_rem r he hr) h0

/-- R125: one read as a command. -/
theorem exec_brRbit (s : State) (h0 : s.status = 0) : ∃ t, exec .brRbit s = .next t ∧ t.status = 0
    ∧ t.resp = answerVal (bitValue (s.bitStream.headD false)) ∧ t.bitStream = s.bitStream.tail
    ∧ (t.br.eof = true ↔ s.bitStream = []) := by
  obtain ⟨n, v, e, hb, hv⟩ := brRbit_run s
  exact ⟨_, exec_brRbit_of_ok h0 e h0, h0, rfl, hb, hv⟩

/-- R125: the (k + 1)-st read returns bit k of the stream. -/
theorem runInstrs_brRbit (k : Nat) (s : State) (h0 : s.status = 0) :
    ∃ t, runInstrs (List.replicate (k + 1) .brRbit) s = .next t
      ∧ t.resp = answerVal (bitValue (s.bitStream.getD k false)) ∧ (t.br.eof = true ↔ s.bitStream.length ≤ k) := by
  obtain ⟨u, hexec, hu, hresp, hrest, heof⟩ := exec_brRbit s h0
  rw [List.replicate_succ, runInstrs, hexec]
  match k with
  | 0 =>
    refine ⟨u, rfl, ?_, by rw [heof, Nat.le_zero, List.length_eq_zero_iff]⟩
    rw [hresp]
    cases s.bitStream <;> rfl
  | k + 1 =>
    obtain ⟨t, hrun, ht, hend⟩ := runInstrs_brRbit k u hu
    refine ⟨t, hrun, ?_, by rw [hend, hrest, List.length_tail, Nat.sub_le_iff_le_add]⟩
    rw [ht, hrest]
    cases s.bitStream <;> rfl

/-- Settles O22: after `BR.INIT` the reader's stream is the bits of the bytes, which are those written and zeros. -/
theorem bitsReadAreTheBitsWritten : Obligations.BitsReadAreTheBitsWritten := by
  intro s bits out k h0 hp hout
  obtain ⟨_, hbits⟩ := (isPacked_iff bits out).mp hp
  have hinit : exec .brInit s = .next { s with br := ⟨0, 0, false⟩, resp := answerNone } :=
    runCommand_noValue_ok h0 (brInit_run s) h0
  have hstream : State.bitStream { s with br := ⟨0, 0, false⟩, resp := answerNone } = out.flatMap byteBits := by
    rw [State.bitStream_of_not_eof rfl, ← hout]
    rfl
  obtain ⟨t, hrun, hresp, heof⟩ := runInstrs_brRbit k { s with br := ⟨0, 0, false⟩, resp := answerNone } h0
  rw [hstream, hbits] at hresp
  rw [hstream, flatMap_byteBits_length] at heof
  exact ⟨t, by rw [runInstrs, hinit]; exact hrun, hresp, heof⟩

end Sys2Proof.Machine

/-! SUPPORT. The counts of FM (R140 to R145): each count after the commands that write counts, the total as the sum of
the counts, and what scaling does to it. -/

namespace Sys2Proof.Machine

open Sys2Proof

/-! ## Single counts (R140 to R143) -/

section
variable (m : FM) (x : Symbol)

@[simp] theorem FM.freqAt_replicate (v : Word) : FM.freqAt { m with freq := Vector.replicate 257 v } x = v.toNat := by
  simp [FM.freqAt]

theorem FM.freqAt_setEos :
    FM.freqAt { m with freq := m.freq.set 256 1 } x = if x.val = 256 then 1 else m.freqAt x := by
  simp only [FM.freqAt, Fin.getElem_fin, Vector.getElem_set, eq_comm (a := 256)]
  split <;> rfl

theorem FM.freqAt_lt : m.freqAt x < 2 ^ 32 := (m.freq[x]).isLt

end

/-- A command that changes the FM tables and nothing else. -/
theorem runCommand_noValue_setFm {op : Op Unit} {s : State} {m : FM} (h0 : s.status = 0)
    (e : op s = .ok () (s.setFm m)) : runCommand (noValue op) s = .next { s with fm := m, resp := answerNone } :=
  runCommand_noValue_ok h0 e h0

/-- Settles O23, by the run of each of the three commands. -/
theorem countsAreClearedCountedAndMarked : Obligations.CountsAreClearedCountedAndMarked := by
  refine ⟨⟨rfl, fun _ => rfl, rfl⟩, fun s h0 => ⟨?clr, fun b => ?acc, ?eos⟩⟩
  case clr => exact ⟨_, runCommand_noValue_setFm h0 (fmClr_run s), rfl, fun x => s.fm.freqAt_replicate x 0⟩
  case acc => exact ⟨_, runCommand_noValue_setFm h0 (fmAcc_run b s), rfl, s.fm.freqAt_accumulate b⟩
  case eos => exact ⟨_, runCommand_noValue_setFm h0 (fmEos_run s), rfl, s.fm.freqAt_setEos⟩

@[simp] theorem byteSymbol_val (b : Byte) : (byteSymbol b).val = b.toNat := rfl

/-- R143: counting one byte after another adds its occurrences to a byte's count, modulo `2^32`. -/
theorem FM.freqAt_foldl_accumulate (bs : List Byte) (b : Byte) (m : FM) :
    (bs.foldl FM.accumulate m).freqAt (byteSymbol b) = (m.freqAt (byteSymbol b) + bs.count b) % 2 ^ 32 := by
  induction bs generalizing m with
  | nil => exact (Nat.mod_eq_of_lt (m.freqAt_lt _)).symm
  | cons c bs ih =>
    rw [List.foldl_cons, ih, m.freqAt_accumulate, List.count_cons]
    by_cases h : c = b
    · rw [h, if_pos (byteSymbol_val b), if_pos (beq_self_eq_true b)]
      omega
    · have hval : (byteSymbol b).val ≠ c.toNat := fun e => h (BitVec.eq_of_toNat_eq e.symm)
      rw [if_neg hval, if_neg (by simpa using h), Nat.add_zero]

theorem FM.foldl_accumulate_cum (bs : List Byte) (m : FM) : (bs.foldl FM.accumulate m).cum = m.cum := by
  induction bs generalizing m with
  | nil => rfl
  | cons b bs ih => exact ih _

section
variable (m : FM) (bs : List Byte)

theorem FM.scanned_cum : (m.scanned bs).cum = m.cum := FM.foldl_accumulate_cum bs _

theorem FM.freqAt_scanned_byte (b : Byte) : (m.scanned bs).freqAt (byteSymbol b) = bs.count b % 2 ^ 32 := by
  have hb : (byteSymbol b).val ≠ 256 := fun h => by have := b.isLt; simp [byteSymbol] at h; omega
  rw [FM.scanned, FM.freqAt_setEos, if_neg hb, FM.freqAt_foldl_accumulate, FM.freqAt_replicate]
  simp

theorem FM.freqAt_scanned_eos : (m.scanned bs).freqAt 256 = 1 := by rw [FM.scanned, FM.freqAt_setEos]; rfl

end

/-- Settles O24, by the counts of the bytes that the source still holds. -/
theorem scanCountsTheRestOfTheSource : Obligations.ScanCountsTheRestOfTheSource := by
  refine ⟨rfl, fun s h0 => ⟨s.fm.scanned s.remaining, runCommand_noValue_ok h0 (fmScan_run s) h0, fun hpos => ?_,
    FM.scanned_cum _ _, FM.freqAt_scanned_byte _ _, FM.freqAt_scanned_eos _ _⟩⟩
  rw [State.remaining, List.length_drop]
  omega

/-! ## The total -/

theorem FM.total_eq_sum (m : FM) : m.total = ∑ x : Symbol, m.freqAt x := by
  have h : m.freq.toList.map BitVec.toNat = List.ofFn m.freqAt := by
    refine List.ext_getElem (by rw [List.length_map, Vector.length_toList, List.length_ofFn]) fun i _ _ => ?_
    rw [List.getElem_map, Vector.getElem_toList, List.getElem_ofFn]
    rfl
  rw [FM.total, h, List.sum_ofFn]

theorem FM.freqAt_le_total (m : FM) (x : Symbol) : m.freqAt x ≤ m.total := by
  have := m.prefixSum_succ x
  have := m.prefixSum_le_total (x.val + 1)
  omega

theorem FM.total_ne_zero_iff (m : FM) : m.total ≠ 0 ↔ ∃ x : Symbol, m.freqAt x ≠ 0 := by
  simp [FM.total_eq_sum]

/-! ## Scaling (R144, R145) -/

theorem maxTotal_eq : Config.maxTotal = 2 ^ 24 := rfl

/-- R144: a scaled count fits its word, since a count is at most the total. -/
theorem scaleEntry_toNat {t : Nat} {f : Word} (h : f.toNat ≤ t) :
    (scaleEntry t f).toNat = if f.toNat = 0 then 0 else max 1 (f.toNat * 2 ^ 24 / t) := by
  have hq : f.toNat * 2 ^ 24 / t ≤ 2 ^ 24 := Nat.div_le_of_le_mul (Nat.mul_le_mul_right _ h)
  rw [scaleEntry, maxTotal_eq]
  by_cases hf : f = 0
  · have hz : f.toNat = 0 := congrArg BitVec.toNat hf
    rw [if_pos hf, if_pos hz]
    rfl
  · have hne : f.toNat ≠ 0 := fun e => hf (BitVec.eq_of_toNat_eq e)
    rw [if_neg hf, if_neg hne, BitVec.toNat_ofNat, Nat.mod_eq_of_lt (by omega)]

/-- The table with every count scaled. -/
def FM.rescaled (m : FM) : FM := { m with freq := m.freq.map (scaleEntry m.total) }

theorem FM.freqAt_rescaled (m : FM) (x : Symbol) :
    m.rescaled.freqAt x = if m.freqAt x = 0 then 0 else max 1 (m.freqAt x * 2 ^ 24 / m.total) := by
  rw [FM.freqAt, FM.rescaled, Fin.getElem_fin, Vector.getElem_map]
  exact scaleEntry_toNat (m.freqAt_le_total x)

/-- The inner test of R144 does not hold: a count that is not 0 stays so (U21). -/
theorem FM.rescaled_total_ne_zero {m : FM} (h : m.total ≠ 0) : m.rescaled.total ≠ 0 := by
  obtain ⟨x, hx⟩ := m.total_ne_zero_iff.mp h
  refine FM.total_ne_zero_iff _ |>.mpr ⟨x, ?_⟩
  rw [FM.freqAt_rescaled, if_neg hx]
  omega

theorem FM.scaled_of_gt {m : FM} (h : 2 ^ 24 < m.total) : m.scaled = m.rescaled.freq := by
  have h0 : m.total ≠ 0 := by omega
  rw [FM.scaled, if_neg h0, maxTotal_eq, if_pos h]
  exact if_neg (FM.rescaled_total_ne_zero h0)

theorem FM.scaled_of_le {m : FM} (h0 : m.total ≠ 0) (h : m.total ≤ 2 ^ 24) : m.scaled = m.freq := by
  rw [FM.scaled, if_neg h0, maxTotal_eq, if_neg (Nat.not_lt.mpr h)]

theorem FM.freqAt_scaled (m : FM) (x : Symbol) : FM.freqAt { m with freq := m.scaled } x =
    if m.total = 0 then 1
    else if m.total ≤ 2 ^ 24 then m.freqAt x
    else if m.freqAt x = 0 then 0
    else max 1 (m.freqAt x * 2 ^ 24 / m.total) := by
  by_cases h0 : m.total = 0
  · rw [if_pos h0, FM.scaled, if_pos h0]
    exact m.freqAt_replicate x 1
  · rw [if_neg h0]
    by_cases h : m.total ≤ 2 ^ 24
    · rw [if_pos h, FM.scaled_of_le h0 h]
    · rw [if_neg h, FM.scaled_of_gt (Nat.lt_of_not_le h)]
      exact m.freqAt_rescaled x

/-- Settles O25: the table is replaced by the scaled one. -/
theorem scalingOfEveryCount : Obligations.ScalingOfEveryCount :=
  ⟨rfl, fun s h0 => ⟨_, runCommand_noValue_setFm h0 (fmScale_run s), rfl, s.fm.freqAt_scaled⟩⟩

/-- R145: some count is not raised to 1, as the 257 counts cannot all have a share below 1. -/
theorem FM.exists_share {m : FM} (h : 2 ^ 24 < m.total) : ∃ x : Symbol, m.total ≤ m.freqAt x * 2 ^ 24 := by
  have hsum : ∑ _x : Symbol, m.total ≤ ∑ x : Symbol, m.freqAt x * 2 ^ 24 := by
    rw [← Finset.sum_mul, ← m.total_eq_sum, Finset.sum_const, Finset.card_univ, Fintype.card_fin, smul_eq_mul]
    omega
  obtain ⟨x, _, hx⟩ := Finset.exists_le_of_sum_le Finset.univ_nonempty hsum
  exact ⟨x, hx⟩

/-- R145: a scaled count exceeds its exact share by less than 1, and not at all where the share is 1 or more. -/
theorem FM.total_mul_freqAt_rescaled_le {m : FM} (h : 2 ^ 24 < m.total) (x : Symbol) :
    m.total * m.rescaled.freqAt x ≤
      m.freqAt x * 2 ^ 24 + if m.total ≤ m.freqAt x * 2 ^ 24 then 0 else m.total - 1 := by
  rw [FM.freqAt_rescaled]
  by_cases hx : m.freqAt x = 0
  · rw [if_pos hx, Nat.mul_zero]
    exact Nat.zero_le _
  · rw [if_neg hx]
    by_cases hs : m.total ≤ m.freqAt x * 2 ^ 24
    · have hq : 1 ≤ m.freqAt x * 2 ^ 24 / m.total := (Nat.one_le_div_iff (by omega)).mpr hs
      rw [if_pos hs, max_eq_right hq, Nat.add_zero]
      exact Nat.mul_div_le _ _
    · rw [if_neg hs, Nat.div_eq_of_lt (Nat.lt_of_not_le hs), max_eq_left (Nat.zero_le 1), Nat.mul_one]
      omega

/-- R145: the shares add up to `2^24`, and at most 256 counts exceed theirs, each by less than 1. -/
theorem FM.rescaled_total_le {m : FM} (h : 2 ^ 24 < m.total) : m.rescaled.total ≤ 2 ^ 24 + 255 := by
  obtain ⟨y, hy⟩ := FM.exists_share h
  have hexcess : (∑ x : Symbol, if m.total ≤ m.freqAt x * 2 ^ 24 then 0 else m.total - 1) ≤ 256 * (m.total - 1) := by
    rw [← Finset.add_sum_erase _ _ (Finset.mem_univ y), if_pos hy, Nat.zero_add]
    refine (Finset.sum_le_card_nsmul _ _ (m.total - 1) fun x _ => by split <;> omega).trans_eq ?_
    rw [Finset.card_erase_of_mem (Finset.mem_univ y), Finset.card_univ, Fintype.card_fin, smul_eq_mul]
  have hmul : m.total * m.rescaled.total < m.total * (2 ^ 24 + 256) := by
    calc m.total * m.rescaled.total
        = ∑ x : Symbol, m.total * m.rescaled.freqAt x := by rw [FM.total_eq_sum m.rescaled, Finset.mul_sum]
      _ ≤ ∑ x : Symbol, (m.freqAt x * 2 ^ 24 + if m.total ≤ m.freqAt x * 2 ^ 24 then 0 else m.total - 1) :=
          Finset.sum_le_sum fun x _ => FM.total_mul_freqAt_rescaled_le h x
      _ ≤ m.total * 2 ^ 24 + 256 * (m.total - 1) := by
          rw [Finset.sum_add_distrib, ← Finset.sum_mul, ← m.total_eq_sum]
          exact Nat.add_le_add_left hexcess _
      _ < m.total * (2 ^ 24 + 256) := by omega
  have := Nat.lt_of_mul_lt_mul_left hmul
  omega

theorem FM.scaled_total_le (m : FM) : FM.total { m with freq := m.scaled } ≤ 2 ^ 24 + 255 := by
  by_cases h0 : m.total = 0
  · rw [FM.total_eq_sum]
    simp only [FM.freqAt_scaled, if_pos h0, Finset.sum_const, Finset.card_univ, Fintype.card_fin, smul_eq_mul]
    omega
  · by_cases h : m.total ≤ 2 ^ 24
    · rw [FM.scaled_of_le h0 h]
      exact h.trans (Nat.le_add_right _ _)
    · rw [FM.scaled_of_gt (Nat.lt_of_not_le h)]
      exact FM.rescaled_total_le (Nat.lt_of_not_le h)

theorem FM.scaled_freqAt_pos {m : FM} {x : Symbol} (h : m.total = 0 ∨ 0 < m.freqAt x) :
    0 < FM.freqAt { m with freq := m.scaled } x := by
  rw [FM.freqAt_scaled]
  split_ifs <;> omega

/-- R145: a table of total 0 becomes all ones, and in another some count is positive and stays so. -/
theorem FM.one_le_scaled_total (m : FM) : 1 ≤ FM.total { m with freq := m.scaled } := by
  have hpos : ∃ x : Symbol, m.total = 0 ∨ 0 < m.freqAt x := by
    by_cases h0 : m.total = 0
    · exact ⟨0, .inl h0⟩
    · obtain ⟨x, hx⟩ := m.total_ne_zero_iff.mp h0
      exact ⟨x, .inr (Nat.pos_of_ne_zero hx)⟩
  obtain ⟨x, hx⟩ := hpos
  exact (FM.scaled_freqAt_pos hx).trans_le (FM.freqAt_le_total _ x)

/-- Settles O26. -/
theorem scalingBoundsTheTotal : Obligations.ScalingBoundsTheTotal := fun s h0 =>
  ⟨_, runCommand_noValue_setFm h0 (fmScale_run s), s.fm.one_le_scaled_total, s.fm.scaled_total_le,
    fun _ hx => FM.scaled_freqAt_pos (.inr hx)⟩

end Sys2Proof.Machine

/-! SUPPORT. The cumulative table of FM and the search in it (R146, R147). -/

namespace Sys2Proof.Machine

open Sys2Proof

/-- R146: neighbouring entries differ by the symbol's count, by 1 for a total of 0. -/
theorem FM.cumAt_cumTable_succ {m : FM} (h : m.total ≤ 2 ^ 32 - 1) (x : Symbol) :
    FM.cumAt { m with cum := m.cumTable } (x.val + 1)
      = FM.cumAt { m with cum := m.cumTable } x.val + if m.total = 0 then 1 else m.freqAt x := by
  rw [m.cumAt_cumTable h (by omega), m.cumAt_cumTable h (by omega), m.prefixSum_succ]
  split <;> rfl

/-- Settles O27, by whether the total fits a word. -/
theorem cumulativeTableIsThePrefixSum : Obligations.CumulativeTableIsThePrefixSum := by
  refine ⟨rfl, fun s h0 => ?_⟩
  obtain ⟨hbig, e⟩ | ⟨hfits, e⟩ := fmCum_run s
  · exact ⟨fun _ => runCommand_noValue_raise h0 e, fun h => absurd hbig (Nat.not_lt.mpr h)⟩
  · refine ⟨fun h => absurd h (Nat.not_lt.mpr hfits), fun _ =>
      ⟨_, runCommand_noValue_setFm h0 e, rfl, ?first, ?last, FM.cumAt_cumTable_succ hfits⟩⟩
    case first => rw [s.fm.cumAt_cumTable hfits (Nat.zero_le _), FM.prefixSum_zero, ite_self]
    case last => rw [s.fm.cumAt_cumTable hfits le_rfl, FM.prefixSum_total]

/-- R147: the shares of a legal table do not overlap. -/
theorem FM.le_of_share {m : FM} (hc : m.cumLegal) {v : Nat} {x y : Symbol} (hx : m.cumAt x.val ≤ v)
    (hy : v < m.cumAt (y.val + 1)) : x ≤ y := by
  by_contra h
  rw [Fin.not_le, Fin.lt_def] at h
  have := FM.cumAt_mono hc (show y.val + 1 ≤ x.val by omega) (by omega)
  omega

/-- Settles O28: the search ends at a share that holds the value, and no other share does. -/
theorem findGivesTheUniqueSymbol : Obligations.FindGivesTheUniqueSymbol := by
  refine ⟨fun _ => rfl, fun s v h0 hc => ?_⟩
  obtain ⟨hv, e⟩ | ⟨x, e, hlo, hhi⟩ := fmFind_run hc v.toNat
  · exact ⟨fun _ => runCommand_raise h0 (Op.bind_of_error e), fun h => absurd h (Nat.not_lt.mpr hv)⟩
  · have hv : v.toNat < s.fm.cumAt 257 := hhi.trans_le (FM.cumAt_mono hc (by omega) le_rfl)
    refine ⟨fun h => absurd hv (Nat.not_lt.mpr h), fun _ => ⟨x, ?_, ⟨hlo, hhi⟩, fun y hylo hyhi => ?_⟩⟩
    · rw [← State.answer_val_of_ok h0]
      exact runCommand_ok h0 (Op.bind_of_ok e)
    · exact le_antisymm (FM.le_of_share hc hylo hhi) (FM.le_of_share hc hlo hyhi)

end Sys2Proof.Machine

/-! SUPPORT. The shared header (R148, R149): written as one list of bytes, and read in three parts, the tag, the count and
the table, each of which is a run of little-endian words. -/

namespace Sys2Proof.Machine

open Sys2Proof

/-- Settles O29: the bytes are written one after another, all of them or those that fit. -/
theorem headerIsWritten : Obligations.HeaderIsWritten := by
  refine ⟨fun _ => rfl, fun s tag h0 => ?_⟩
  have hlen := headerBytes_length tag s.fm.freq
  refine ⟨hlen, fun hroom => ?_, fun m hshort => ?_⟩
  · exact runCommand_noValue_ok h0 ((fmWhdr_run tag s).trans (writeBytes_of_room _ s (hlen ▸ hroom))) h0
  · exact runCommand_noValue_raise h0 ((fmWhdr_run tag s).trans (writeBytes_of_short _ m s (hlen ▸ hshort)))

/-! ## Words at the front of a list of bytes -/

theorem leBytes32_injective : Function.Injective leBytes32 := fun v w h => by
  simp only [leBytes32, List.cons.injEq, and_true] at h
  obtain ⟨h0, h1, h2, h3⟩ := h
  rw [← ofLeBytes32_byteOf v, h0, h1, h2, h3, ofLeBytes32_byteOf]

theorem exists_leBytes32_append : ∀ {bs : List Byte}, 4 ≤ bs.length → ∃ v rest, bs = leBytes32 v ++ rest
  | b0 :: b1 :: b2 :: b3 :: rest, _ => ⟨ofLeBytes32 b0 b1 b2 b3, rest, by rw [leBytes32_ofLeBytes32]; rfl⟩

theorem take_leBytes32_append (v : Word) (rest : List Byte) : (leBytes32 v ++ rest).take 4 = leBytes32 v := rfl

theorem State.remaining_consumed_word {s : State} {v : Word} {rest : List Byte}
    (h : s.remaining = leBytes32 v ++ rest) : (s.consumed 4).remaining = rest := by
  rw [State.remaining_consumed, h]; rfl

/-! ## The three parts (R149) -/

/-- R149: what follows the count: the table, and the check of it. -/
def rhdrTable : Op Unit := do
  let f ← readWords 257
  loadFreq f
  headerHasEos

/-- R149: what follows the tag: the count, and the check of it. -/
def rhdrCount : Op Unit := do
  let n ← readWordOrTruncation
  if n ≠ 257 then raise .badHeader else rhdrTable

/-- Four bytes, each of which must be there, are a word that must be there. -/
theorem readWordOrTruncation_eq : readWordOrTruncation = (do
    let b0 ← readByteOrTruncation
    let b1 ← readByteOrTruncation
    let b2 ← readByteOrTruncation
    let b3 ← readByteOrTruncation
    pure (ofLeBytes32 b0 b1 b2 b3)) := by
  simp only [readWordOrTruncation, leRd32, readByteOrTruncation, bind_assoc]
  refine bind_congr fun r => ?_
  cases r with
  | none => rfl
  | some b0 => simp only [bind_assoc, pure_bind]

theorem fmRhdr_eq (tag : Word) : fmRhdr tag = (do
    let v ← readWordOrTruncation
    if v ≠ tag then raise .badMagic else rhdrCount) := by
  rw [readWordOrTruncation_eq]
  simp only [bind_assoc, pure_bind]
  rfl

section
variable {s : State}

theorem fmRhdr_of_short (tag : Word) (h : s.remaining.length < 4) :
    fmRhdr tag s = .error (.raise .truncation) (s.consumed s.remaining.length) := by
  rw [fmRhdr_eq, Op.bind_of_error (readWordOrTruncation_of_short h)]

theorem fmRhdr_of_word {v : Word} {rest : List Byte} (tag : Word) (h : s.remaining = leBytes32 v ++ rest) :
    fmRhdr tag s = (if v ≠ tag then raise .badMagic else rhdrCount : Op Unit) (s.consumed 4) := by
  rw [fmRhdr_eq, Op.bind_of_ok (readWordOrTruncation_of_le h)]

theorem rhdrCount_of_short (h : s.remaining.length < 4) :
    rhdrCount s = .error (.raise .truncation) (s.consumed s.remaining.length) := by
  rw [rhdrCount, Op.bind_of_error (readWordOrTruncation_of_short h)]

theorem rhdrCount_of_word {v : Word} {rest : List Byte} (h : s.remaining = leBytes32 v ++ rest) :
    rhdrCount s = (if v ≠ 257 then raise .badHeader else rhdrTable : Op Unit) (s.consumed 4) := by
  rw [rhdrCount, Op.bind_of_ok (readWordOrTruncation_of_le h)]

theorem rhdrTable_of_short (h : s.remaining.length < 1028) :
    rhdrTable s = .error (.raise .truncation) (s.consumed s.remaining.length) := by
  rw [rhdrTable, Op.bind_of_error (readWords_of_short 257 s h)]

theorem rhdrTable_of_table {f : Vector Word 257} {rest : List Byte}
    (h : s.remaining = f.toList.flatMap leBytes32 ++ rest) :
    rhdrTable s = headerHasEos ((s.consumed 1028).setFm { s.fm with freq := f }) := by
  rw [rhdrTable, Op.bind_of_ok (readWords_of_le 257 f s rest h), Op.bind_of_ok (loadFreq_run f _)]
  rfl

/-- R149, R277 item 2: past the tag and the count. -/
theorem fmRhdr_of_tag_count {tag : Word} {rest : List Byte}
    (h : s.remaining = leBytes32 tag ++ (leBytes32 257 ++ rest)) :
    fmRhdr tag s = rhdrTable (s.consumed 8) ∧ (s.consumed 8).remaining = rest := by
  have htag := State.remaining_consumed_word h
  have hcount := State.remaining_consumed_word htag
  rw [State.consumed_consumed] at hcount
  refine ⟨?_, hcount⟩
  rw [fmRhdr_of_word tag h, if_neg (not_not.mpr rfl), rhdrCount_of_word htag, if_neg (not_not.mpr rfl),
    State.consumed_consumed]

end

/-! ## The six ends of `FM.RHDR` (R149, R277 item 2) -/

section
variable {s : State} {tag : Word}

theorem fmRhdr_of_badMagic (hlen : 4 ≤ s.remaining.length) (h : s.remaining.take 4 ≠ leBytes32 tag) :
    fmRhdr tag s = .error (.raise .badMagic) (s.consumed 4) := by
  obtain ⟨v, rest, hv⟩ := exists_leBytes32_append hlen
  have hne : v ≠ tag := fun e => h (by rw [hv, take_leBytes32_append, e])
  rw [fmRhdr_of_word tag hv, if_pos hne]
  rfl

theorem fmRhdr_of_cutCount (h : s.remaining.take 4 = leBytes32 tag) (hlen : s.remaining.length < 8) :
    fmRhdr tag s = .error (.raise .truncation) (s.consumed s.remaining.length) := by
  have htag : s.remaining = leBytes32 tag ++ s.remaining.drop 4 := by rw [← h, List.take_append_drop]
  have hrest := congrArg List.length (State.remaining_consumed_word htag)
  have htotal := congrArg List.length htag
  rw [List.length_append, leBytes32_length] at htotal
  rw [fmRhdr_of_word tag htag, if_neg (not_not.mpr rfl), rhdrCount_of_short (by omega), State.consumed_consumed, hrest,
    ← htotal]

theorem fmRhdr_of_badCount (h : s.remaining.take 4 = leBytes32 tag) (hlen : 8 ≤ s.remaining.length)
    (hcount : (s.remaining.drop 4).take 4 ≠ leBytes32 257) :
    fmRhdr tag s = .error (.raise .badHeader) (s.consumed 8) := by
  have htag : s.remaining = leBytes32 tag ++ s.remaining.drop 4 := by rw [← h, List.take_append_drop]
  obtain ⟨n, rest, hn⟩ := exists_leBytes32_append (bs := s.remaining.drop 4) (by rw [List.length_drop]; omega)
  have hne : n ≠ 257 := fun e => hcount (by rw [hn, take_leBytes32_append, e])
  rw [fmRhdr_of_word tag htag, if_neg (not_not.mpr rfl),
    rhdrCount_of_word ((State.remaining_consumed_word htag).trans hn), if_pos hne, State.consumed_consumed]
  rfl

theorem fmRhdr_of_cutTable (h : s.remaining.take 8 = leBytes32 tag ++ leBytes32 257)
    (hlen : s.remaining.length < 1036) :
    fmRhdr tag s = .error (.raise .truncation) (s.consumed s.remaining.length) := by
  have htag : s.remaining = (leBytes32 tag ++ leBytes32 257) ++ s.remaining.drop 8 := by rw [← h, List.take_append_drop]
  have htotal := congrArg List.length htag
  rw [List.length_append, List.length_append, leBytes32_length, leBytes32_length] at htotal
  rw [List.append_assoc] at htag
  obtain ⟨hrun, hrest⟩ := fmRhdr_of_tag_count htag
  rw [← hrest] at htotal
  rw [hrun, rhdrTable_of_short (by omega), State.consumed_consumed, ← htotal]

/-- A whole header: what is left is the check for EOS, on the loaded counts. -/
theorem fmRhdr_of_whole {f : Vector Word 257} {rest : List Byte} (h : s.remaining = headerBytes tag f ++ rest) :
    fmRhdr tag s = headerHasEos ((s.consumed 1036).setFm { s.fm with freq := f }) := by
  rw [headerBytes, List.append_assoc, List.append_assoc] at h
  obtain ⟨hrun, hrest⟩ := fmRhdr_of_tag_count h
  rw [hrun, rhdrTable_of_table hrest, State.consumed_consumed]
  rfl

end

/-- The check for EOS on counts given as a table. -/
theorem FM.needsEos_iff (m : FM) (f : Vector Word 257) :
    (FM.total { m with freq := f } ≠ 0 ∧ FM.freqAt { m with freq := f } eosSymbol = 0)
      ↔ (∃ x : Symbol, f[x] ≠ 0) ∧ f[256] = 0 := by
  have hzero : ∀ v : Word, v.toNat = 0 ↔ v = 0 := fun _ => BitVec.toNat_inj (y := 0)
  rw [FM.total_ne_zero_iff]
  simp only [FM.freqAt, ne_eq, hzero]
  rfl

/-- Settles O30, by what the source holds. -/
theorem headerIsReadAndChecked : Obligations.HeaderIsReadAndChecked := by
  refine ⟨fun _ => rfl, fun s tag h0 => ⟨fun hlen => ?cutTag, fun hlen h => ?badMagic, fun h hlen => ?cutCount,
    fun h hlen hcount => ?badCount, fun h hlen => ?cutTable, fun f rest h => ?whole⟩⟩
  case cutTag => exact ⟨_, runCommand_noValue_raise h0 (fmRhdr_of_short tag hlen)⟩
  case badMagic => exact ⟨_, runCommand_noValue_raise h0 (fmRhdr_of_badMagic hlen h)⟩
  case cutCount => exact ⟨_, runCommand_noValue_raise h0 (fmRhdr_of_cutCount h hlen)⟩
  case badCount => exact ⟨_, runCommand_noValue_raise h0 (fmRhdr_of_badCount h hlen hcount)⟩
  case cutTable => exact ⟨_, runCommand_noValue_raise h0 (fmRhdr_of_cutTable h hlen)⟩
  case whole =>
    have hrun := fmRhdr_of_whole h
    obtain ⟨ht, hz, e⟩ | ⟨hok, e⟩ := headerHasEos_run ((s.consumed 1036).setFm { s.fm with freq := f })
    · obtain ⟨⟨x, hx⟩, heos⟩ := (FM.needsEos_iff s.fm f).mp ⟨ht, hz⟩
      refine ⟨fun _ _ => ⟨_, runCommand_noValue_raise h0 (hrun.trans e)⟩, ?_⟩
      rintro (hall | hne)
      · exact absurd (hall x) hx
      · exact absurd heos hne
    · refine ⟨fun hx heos => ?_, fun _ => runCommand_noValue_ok h0 (hrun.trans e) h0⟩
      obtain ⟨ht, hz⟩ := (FM.needsEos_iff s.fm f).mpr ⟨hx, heos⟩
      exact absurd hz (hok.resolve_left ht)

end Sys2Proof.Machine

/-! SUPPORT. The commands of the tree and of the codes (R162 to R166): the degenerate trees, the code table, the emitter, and
the walker's step. -/

namespace Sys2Proof.Machine

open Sys2Proof

/-! ## The degenerate trees (R163) -/

section
variable {m : FM}

/-- R163: no symbol is coded. -/
theorem FM.tree_of_none (h : m.coded = []) : m.tree = ([⟨1, 256, Config.null, Config.null⟩], 0) := by
  have hl : m.leaves = [] := by rw [FM.leaves_eq, h]; rfl
  rw [FM.tree, hl]

/-- R163: one symbol is coded. -/
theorem FM.tree_of_one {x : Symbol} (h : m.coded = [x]) :
    m.tree = ([⟨m.freqAt x, BitVec.ofNat 9 x.val, Config.null, Config.null⟩, ⟨m.freqAt x, 0, 0, Config.null⟩], 1) := by
  have hl : m.leaves = [⟨m.freqAt x, BitVec.ofNat 9 x.val, Config.null, Config.null⟩] := by rw [FM.leaves_eq, h]; rfl
  rw [FM.tree, hl]

/-- R162: two symbols or more are coded. -/
theorem FM.tree_of_two_le (h : 2 ≤ m.leaves.length) : m.tree =
    ((mergeLoop m.leaves.length m.leaves (List.range m.leaves.length)).1,
      (mergeLoop m.leaves.length m.leaves (List.range m.leaves.length)).2.headD 0) := by
  unfold FM.tree
  split
  · next e => rw [e] at h; cases h
  · next e => rw [e, List.length_singleton] at h; omega
  · rfl

end

/-- A command that changes the HF registers and tables and nothing else. -/
theorem runCommand_noValue_setHf {op : Op Unit} {s : State} {h : HF} (h0 : s.status = 0)
    (e : op s = .ok () (s.setHf h)) : runCommand (noValue op) s = .next { s with hf := h, resp := answerNone } :=
  runCommand_noValue_ok h0 e h0

/-- R162: `HF.BUILD` writes the tree's registers and its part of the arena, whatever they hold. -/
theorem exec_hfBuild {s : State} (h0 : s.status = 0) :
    exec .hfBuild s = .next { s with hf := s.hf.built s.fm.tree, resp := answerNone } :=
  runCommand_noValue_setHf h0 (hfBuild_run s)

/-- Settles O31: the tree of no leaf and the tree of one are written out. -/
theorem degenerateTreesAreBuilt : Obligations.DegenerateTreesAreBuilt := by
  refine fun s h0 => ⟨fun hnone => ⟨_, exec_hfBuild h0, HF.built_len _ _, HF.built_bits _ _, ?_⟩,
    fun x hone => ⟨_, exec_hfBuild h0, HF.built_len _ _, HF.built_bits _ _, ?_⟩⟩
  · have entry := fun i hi => HF.built_nodeAt (h := s.hf) (i := i) s.fm.tree_oneTree hi
    rw [FM.tree_of_none hnone] at entry ⊢
    exact ⟨rfl, rfl, rfl, entry 0 Nat.one_pos⟩
  · have entry := fun i hi => HF.built_nodeAt (h := s.hf) (i := i) s.fm.tree_oneTree hi
    rw [FM.tree_of_one hone] at entry ⊢
    have root := entry 1 Nat.one_lt_two
    exact ⟨rfl, rfl, rfl, entry 0 Nat.two_pos, by rw [root]; rfl, by rw [root]; rfl, by rw [root]; rfl⟩

/-! ## The code table (R164) -/

theorem hfCodes_of_tree {s : State} (h : s.hf.root ≠ Config.null) : hfCodes s = .ok () (s.setHf s.hf.coded) := by
  obtain ⟨hn, _⟩ | ⟨_, e⟩ := needTree_run s
  · exact absurd hn h
  · rw [hfCodes, Op.bind_of_ok e, modHf_run]

/-- R164: recording codes changes the code table alone. -/
theorem HF.foldl_record_frame (es : List (Symbol × List Bool)) (h : HF) :
    es.foldl HF.record h = { h with len := (es.foldl HF.record h).len, bits := (es.foldl HF.record h).bits } := by
  induction es generalizing h with
  | nil => rfl
  | cons e es ih => rw [List.foldl_cons, ih]; rfl

theorem HF.coded_frame (h : HF) : h.coded = { h with len := h.coded.len, bits := h.coded.bits } :=
  HF.foldl_record_frame _ _

/-- Settles O33: the check for a tree comes first, and recording codes changes the code table alone. -/
theorem codesNeedATree : Obligations.CodesNeedATree := by
  refine ⟨rfl, fun s h0 => ⟨fun hnull => ?_, fun hroot => ⟨s.hf.coded.len, s.hf.coded.bits, ?_⟩⟩⟩
  · obtain ⟨_, e⟩ | ⟨hne, _⟩ := needTree_run s
    · exact runCommand_noValue_raise h0 (Op.bind_of_error e)
    · exact absurd hnull hne
  · rw [← HF.coded_frame]
    exact runCommand_noValue_setHf h0 (hfCodes_of_tree hroot)

/-! ## The emitter (R165) -/

@[simp] theorem HF.codeWord_length (h : HF) (x : Symbol) : (h.codeWord x).length = (h.len[x]).toNat := by
  simp [HF.codeWord]

theorem hfEsym_of_code {x : Symbol} {s : State} (h : s.hf.len[x] ≠ 0) : hfEsym x s = writeBits (s.hf.codeWord x) s := by
  obtain ⟨hz, _⟩ | ⟨_, e⟩ := hfEsym_run x s
  · exact absurd hz h
  · exact e

/-- R62: with an unbounded sink a bit is always written, whatever the packer holds. -/
theorem bwWbit_of_unbounded {s : State} (b : Bool) (h : s.snk.cap = none) :
    ∃ t, bwWbit b s = .ok () t ∧ t.snk.cap = none := by
  rw [bwWbit_eq]
  split
  · exact ⟨_, snkWrite_of_room (s := s.setBw ⟨0, 0⟩) _ (State.hasRoom_of_none 1 h), h⟩
  · exact ⟨_, rfl, h⟩

theorem writeBits_of_unbounded (bits : List Bool) {s : State} (h : s.snk.cap = none) :
    ∃ t, writeBits bits s = .ok () t := by
  induction bits generalizing s with
  | nil => exact ⟨s, rfl⟩
  | cons b bits ih =>
    obtain ⟨u, e, hu⟩ := bwWbit_of_unbounded b h
    obtain ⟨t, et⟩ := ih hu
    exact ⟨t, (Op.bind_of_ok e).trans et⟩

theorem writeBits_plain (bits : List Bool) : (writeBits bits).Plain := by
  rw [← inOrder_bwWbit]
  exact inOrder_plain fun op h => by
    obtain ⟨b, _, rfl⟩ := List.mem_map.mp h
    exact bwWbit_plain b

/-- An operation that does not use up a bound ends as a command in a next state. -/
theorem finish_of_ends {r : EStateM.Result Stop State Unit} (h : ∀ t, r ≠ .error .loopBound t) :
    ∃ t, finish r = .next t := by
  rcases r with ⟨_, t⟩ | ⟨_ | _, t⟩
  · exact ⟨_, rfl⟩
  · exact ⟨_, rfl⟩
  · exact absurd rfl (h t)

theorem runInstrs_wbits {s : State} (h0 : s.status = 0) {bits : List Bool} (hne : bits ≠ []) :
    runInstrs (wbits bits) s = finish (writeBits bits s) := by
  have hw : wbits bits ≠ [] := by simpa [wbits, Pseudo.expand] using hne
  rw [runInstrs_eq_finish (performs_wbits bits) h0 fun h => absurd h hw, inOrder_bwWbit]

/-- Settles O35: the check of the operand, the check for a code, and the bits of the code, which are also what the commands of
`BW.WBITS` write. -/
theorem symbolsAreEmittedAsTheirCodes : Obligations.SymbolsAreEmittedAsTheirCodes := by
  refine fun s v h0 => ⟨rfl, fun hv => ?_, fun x hx => ?_⟩
  · exact (runCommand_symbolOperand_of_gt hv hfEsym h0)
  · have hexec : exec (.hfEsym v) s = finish (hfEsym x s) := by
      rw [(performs_hfEsym hx).exec_eq, runCommand_noValue h0]
    obtain ⟨hz, e⟩ | ⟨hne, e⟩ := hfEsym_run x s
    · exact ⟨fun _ => by rw [hexec, e]; rfl, fun h => absurd hz h⟩
    · refine ⟨fun h => absurd h hne, fun _ => ?_⟩
      have hlen : s.hf.codeWord x ≠ [] := fun h => hne (BitVec.eq_of_toNat_eq (by
        have := congrArg List.length h
        rwa [HF.codeWord_length] at this))
      rw [hexec, e, runInstrs_wbits h0 hlen]
      obtain ⟨t, ht⟩ := finish_of_ends ((writeBits_plain (s.hf.codeWord x)).ends s)
      refine ⟨t, ht, ht, fun hcap => ?_⟩
      obtain ⟨u, eu⟩ := writeBits_of_unbounded (s.hf.codeWord x) hcap
      have hu : u.status = 0 := by rw [← (writeBits_plain _).blind.within_of_ok eu]; exact h0
      rw [eu, finish, State.answer_none_of_ok hu] at ht
      cases ht
      exact ⟨hu, rfl⟩

end Sys2Proof.Machine

/-! SUPPORT. Operations that do not look at the result port, which the commands of a decoder's expansion write and the decoder
does not (R98, R169). -/

namespace Sys2Proof.Machine

open Sys2Proof

/-- The state with this on the result port. -/
def State.withResp (s : State) (r : Option Response) : State := { s with resp := r }

/-- The operation does the same whatever is on the result port, and leaves it there. -/
def Op.PortBlind {α : Type} (op : Op α) : Prop :=
  ∀ (s : State) (r : Option Response), op (s.withResp r) = mapState (·.withResp r) (op s)

section
variable {α β : Type}

/-- An operation that sees the units and the sink only does not see the result port. -/
theorem Op.Blind.portBlind {op : Op α} (h : op.Blind) : op.PortBlind := fun s r => by
  rw [show s.withResp r = s.within (s.withResp r) from rfl, h]
  refine h.mapState_congr fun t ht => ?_
  rw [← ht]
  rfl

theorem Op.PortBlind.pure (a : α) : Op.PortBlind (Pure.pure a : Op α) := fun _ _ => rfl
theorem Op.PortBlind.raise (k : ErrorKind) : Op.PortBlind (Machine.raise k : Op α) := fun _ _ => rfl
theorem Op.PortBlind.stuck : Op.PortBlind (Machine.stuck : Op α) := fun _ _ => rfl

theorem Op.PortBlind.bind {x : Op α} {f : α → Op β} (hx : x.PortBlind) (hf : ∀ a, (f a).PortBlind) :
    Op.PortBlind (x >>= f) := by
  intro s r
  rw [Op.bind_run, Op.bind_run, hx s r]
  cases x s with
  | ok a t => exact hf a t r
  | error e t => rfl

theorem Op.PortBlind.reading {f : State → Op α} (hf : ∀ s, (f s).PortBlind) (hw : ∀ s r, f (State.withResp s r) = f s) :
    Op.PortBlind (Machine.reading f) := fun s r => by rw [reading_run, reading_run, hw, hf]

/-- A choice that the result port has no part in. -/
theorem Op.PortBlind.ite {c : State → Prop} {dec : DecidablePred c} {x y : Op α} (hc : ∀ s r, c (State.withResp s r) ↔ c s)
    (hx : x.PortBlind) (hy : y.PortBlind) : Op.PortBlind (fun s => if c s then x s else y s : Op α) := fun s r => by
  dsimp only
  by_cases h : c s
  · rw [if_pos h, if_pos ((hc s r).mpr h), hx]
  · rw [if_neg h, if_neg (h ∘ (hc s r).mp), hy]

theorem Op.PortBlind.repeatOp {op : Op Unit} (h : op.PortBlind) : ∀ n, Op.PortBlind (Machine.repeatOp op n)
  | 0 => .pure _
  | n + 1 => h.bind fun _ => Op.PortBlind.repeatOp h n

theorem Op.PortBlind.decodeLoop {d : Op Symbol} (h : d.PortBlind) : ∀ n, Op.PortBlind (Machine.decodeLoop d n)
  | 0 => .stuck
  | n + 1 => h.bind fun x => by
    split
    · exact .pure _
    · exact (snkWrite_plain _).blind.portBlind.bind fun _ => Op.PortBlind.decodeLoop h n

/-- R98: what was answered before is overwritten by the answer of a command, refused or not. -/
theorem Op.PortBlind.runCommand_withResp {op : Op Reply} (h : op.PortBlind) (s : State) (r : Option Response) :
    runCommand op (s.withResp r) = runCommand op s := by
  by_cases h0 : s.status = 0
  · have h0' : (s.withResp r).status = 0 := h0
    rcases e : op s with ⟨a, t⟩ | ⟨k | _, t⟩
    · rw [runCommand_ok h0 e, runCommand_ok h0' (by rw [h, e]; rfl)]
      rfl
    · rw [runCommand_raise h0 e, runCommand_raise h0' (by rw [h, e]; rfl)]
      rfl
    · rw [runCommand_stuck h0 e, runCommand_stuck h0' (by rw [h, e]; rfl)]
  · have h0' : (s.withResp r).status ≠ 0 := h0
    rw [runCommand_refused h0, runCommand_refused h0']
    rfl

theorem Op.PortBlind.finish_withResp {op : Op Unit} (h : op.PortBlind) (s : State) (r : Option Response) :
    finish (op (s.withResp r)) = finish (op s) := by
  rw [h]
  rcases op s with ⟨_, _⟩ | ⟨_ | _, _⟩ <;> rfl

theorem Op.Preserves.status_of_ok {op : Op α} (h : ∀ P, StreamInvariant P → Op.Preserves P op) {s t : State} {a : α}
    (e : op s = .ok a t) : t.status = s.status := (h _ (streamInvariant_status s.status)).of_ok rfl e

end

/-! ## Bytes and bits -/

theorem srcRead_portBlind : srcRead.PortBlind := fun s r => by
  rw [srcRead_run, srcRead_run, show (s.withResp r).remaining = s.remaining from rfl]
  cases s.remaining <;> rfl

theorem brRbit_portBlind : brRbit.PortBlind := fun s r => by
  cases he : s.br.eof with
  | true => rw [brRbit_of_eof he, brRbit_of_eof (s := s.withResp r) he]; rfl
  | false =>
    rcases hr : s.br.rem.val with _ | n
    · cases hx : s.remaining with
      | nil => rw [brRbit_of_end he hr hx, brRbit_of_end (s := s.withResp r) he hr hx]; rfl
      | cons x l => rw [brRbit_of_load he hr hx, brRbit_of_load (s := s.withResp r) he hr hx]; rfl
    · have hn : n < 8 := by omega
      rw [brRbit_of_rem ⟨n, hn⟩ he hr, brRbit_of_rem (s := s.withResp r) ⟨n, hn⟩ he hr]
      rfl

end Sys2Proof.Machine

/-! SUPPORT. The walker (R166, R167): a step takes one bit off the reader's stream and moves along the edge the bit names, so
that the bits of a path to a leaf give that leaf's symbol. -/

namespace Sys2Proof.Machine

open Sys2Proof

/-! ## One bit of the reader's stream (R125) -/

section
variable {s : State}

theorem State.bitStream_length_le (s : State) : s.bitStream.length ≤ bitsLeft s := by
  cases he : s.br.eof with
  | true => rw [State.bitStream_of_eof he]; exact Nat.zero_le _
  | false =>
    rw [State.bitStream_of_not_eof he, List.length_append, lowBits_length, flatMap_byteBits_length, bitsLeft, srcLeft_eq]

theorem brRbit_of_noBit (h : s.bitStream = []) : brRbit s = .ok false (s.setBr { s.br with eof := true }) := by
  cases he : s.br.eof with
  | true =>
    rw [brRbit_of_eof he, ← he]
    rfl
  | false =>
    have hlen := congrArg List.length h
    rw [State.bitStream_of_not_eof he, List.length_append, lowBits_length, flatMap_byteBits_length, List.length_nil] at hlen
    exact brRbit_of_end he (by omega) (List.length_eq_zero_iff.mp (by omega))

theorem brRbit_of_bit {b : Bool} {rest : List Bool} (h : s.bitStream = b :: rest) :
    ∃ n v, brRbit s = .ok b ((s.consumed n).setBr v) ∧ v.eof = false ∧ ((s.consumed n).setBr v).bitStream = rest := by
  obtain ⟨n, v, e, hrest, hv⟩ := brRbit_run s
  rw [h] at e hrest hv
  exact ⟨n, v, e, by simpa using hv, hrest⟩

end

/-! ## One step (R166) -/

section
variable {s : State}

theorem hfStep_of_noTree (h : s.hf.root = Config.null) : hfStep s = .error (.raise .domainFault) s := by
  rw [hfStep_run, if_pos h]

theorem hfStep_of_noBit (hroot : s.hf.root ≠ Config.null) (h : s.bitStream = []) :
    hfStep s = .error (.raise .truncation) (s.setBr { s.br with eof := true }) := by
  rw [hfStep_run, if_neg hroot, brRbit_of_noBit h]
  rfl

theorem hfStep_of_bit {b : Bool} {n : Nat} {v : BR} (hroot : s.hf.root ≠ Config.null)
    (e : brRbit s = .ok b ((s.consumed n).setBr v)) (hv : v.eof = false) :
    hfStep s = walkBit b ((s.consumed n).setBr v) := by
  rw [hfStep_run, if_neg hroot, e]
  dsimp only
  rw [State.setBr_br, hv]
  rfl

/-- Everything a step can do. -/
theorem hfStep_cases (s : State) :
    (s.hf.root = Config.null ∧ hfStep s = .error (.raise .domainFault) s)
      ∨ (s.hf.root ≠ Config.null ∧ s.bitStream = []
          ∧ hfStep s = .error (.raise .truncation) (s.setBr { s.br with eof := true }))
      ∨ (s.hf.root ≠ Config.null ∧ ∃ (b : Bool) (n : Nat) (v : BR), s.bitStream = b :: ((s.consumed n).setBr v).bitStream
          ∧ hfStep s = walkBit b ((s.consumed n).setBr v)) := by
  by_cases hroot : s.hf.root = Config.null
  · exact .inl ⟨hroot, hfStep_of_noTree hroot⟩
  · cases hb : s.bitStream with
    | nil => exact .inr (.inl ⟨hroot, rfl, hfStep_of_noBit hroot hb⟩)
    | cons b rest =>
      obtain ⟨n, v, e, hv, hrest⟩ := brRbit_of_bit hb
      exact .inr (.inr ⟨hroot, b, n, v, by rw [hrest], hfStep_of_bit hroot e hv⟩)

/-- R166: where the bit moves the walker, and what it gives; `CORRUPT_STREAM` otherwise. -/
theorem walkBit_cases (b : Bool) (s : State) :
    walkBit b s = .error (.raise .corruptStream) s
      ∨ ∃ r w, walkBit b s = .ok r (s.setHf { s.hf with walk := w }) := by
  rw [walkBit_run]
  cases hr : (s.hf.nodeAt s.hf.root).isLeaf with
  | true =>
    rw [HF.descend_root b hr]
    cases b
    · exact .inr ⟨_, s.hf.walk, rfl⟩
    · exact .inl rfl
  | false =>
    rw [HF.descend_child hr rfl]
    split_ifs
    · exact .inl rfl
    · exact .inr ⟨_, _, rfl⟩
    · exact .inr ⟨_, _, rfl⟩
    · exact .inl rfl
    · exact .inr ⟨_, _, rfl⟩
    · exact .inr ⟨_, _, rfl⟩

/-- "each step consumes one bit or raises" -/
theorem hfStep_ok_bitStream {r : Option Symbol} {t : State} (e : hfStep s = .ok r t) :
    s.bitStream.length = t.bitStream.length + 1 := by
  obtain ⟨_, h⟩ | ⟨_, _, h⟩ | ⟨_, b, n, v, hb, h⟩ := hfStep_cases s
  · rw [h] at e; cases e
  · rw [h] at e; cases e
  · rw [h] at e
    obtain hc | ⟨r', w, hc⟩ := walkBit_cases b ((s.consumed n).setBr v) <;> rw [hc] at e <;> cases e
    rw [hb]
    rfl

end

/-! ### Along an edge of the tree -/

section
variable {s : State} {b : Bool}

theorem walkBit_at_leafRoot (hr : (s.hf.nodeAt s.hf.root).isLeaf = true) :
    walkBit b s = if b then .error (.raise .corruptStream) s else .ok (some (s.hf.nodeAt s.hf.root).symbol) s := by
  rw [walkBit_run, HF.descend_root b hr]
  cases b <;> rfl

variable (hr : (s.hf.nodeAt s.hf.root).isLeaf = false)
include hr

theorem walkBit_to_absent (hc : s.hf.child s.hf.walk b = Config.null) :
    walkBit b s = .error (.raise .corruptStream) s := by
  rw [walkBit_run, HF.descend_child (c := s.hf.child s.hf.walk b) hr rfl, if_pos hc]

theorem walkBit_to_leaf (hc : s.hf.child s.hf.walk b ≠ Config.null)
    (hl : (s.hf.nodeAt (s.hf.child s.hf.walk b)).isLeaf = true) :
    walkBit b s = .ok (some (s.hf.nodeAt (s.hf.child s.hf.walk b)).symbol)
      (s.setHf { s.hf with walk := s.hf.root }) := by
  rw [walkBit_run, HF.descend_child (c := s.hf.child s.hf.walk b) hr rfl, if_neg hc, if_pos hl]

theorem walkBit_to_inner (hc : s.hf.child s.hf.walk b ≠ Config.null)
    (hl : (s.hf.nodeAt (s.hf.child s.hf.walk b)).isLeaf = false) :
    walkBit b s = .ok none (s.setHf { s.hf with walk := s.hf.child s.hf.walk b }) := by
  rw [walkBit_run, HF.descend_child (c := s.hf.child s.hf.walk b) hr rfl, if_neg hc, if_neg (by simp [hl])]

end

/-! ### The step as a command -/

section
variable {s t : State} (h0 : s.status = 0)
include h0

theorem exec_hfStep_of_some {x : Symbol} (e : hfStep s = .ok (some x) t) (ht : t.status = 0) :
    exec .hfStep s = .next { t with resp := answerVal (symbolValue x) } := by
  rw [← State.answer_val_of_ok ht]
  exact runCommand_ok h0 (Op.bind_of_ok e)

theorem exec_hfStep_of_none (e : hfStep s = .ok none t) (ht : t.status = 0) :
    exec .hfStep s = .next { t with resp := answerNone } := by
  rw [← State.answer_none_of_ok ht]
  exact runCommand_ok h0 (Op.bind_of_ok e)

theorem exec_hfStep_of_raise {k : ErrorKind} (e : hfStep s = .error (.raise k) t) :
    exec .hfStep s = .next (t.failed k.code) := runCommand_raise h0 (Op.bind_of_error e)

end

section
variable {h : HF}

theorem HF.legal.root_lt (hl : h.legal) (hroot : h.root ≠ Config.null) : h.root.toNat < h.n.toNat :=
  have ⟨_, _, huse, _⟩ := hl
  (huse hroot).1

theorem HF.legal.walk_lt (hl : h.legal) (hroot : h.root ≠ Config.null) : h.walk.toNat < h.n.toNat :=
  have ⟨_, _, huse, _⟩ := hl
  (huse hroot).2.1

theorem HF.legal.symbolValue_eq (hl : h.legal) {i : NodeIdx} (hi : i.toNat < h.n.toNat) :
    symbolValue (h.nodeAt i).symbol = (h.nodeAt i).sym.setWidth 32 :=
  have ⟨_, _, _, hkids⟩ := hl
  have ⟨_, _, hsym⟩ := hkids i hi
  symbolValue_symbol hsym

end

/-- Settles O36: the checks of the step in their order; the step moves along the edge that the bit names. -/
theorem walkerStepsByOneBit : Obligations.WalkerStepsByOneBit := by
  refine ⟨rfl, fun s h0 hl => ⟨fun hroot => ?noTree, fun hroot hb => ?noBit, fun b rest hroot hb => ?bit⟩⟩
  case noTree => exact exec_hfStep_of_raise h0 (hfStep_of_noTree hroot)
  case noBit => exact exec_hfStep_of_raise h0 (hfStep_of_noBit hroot hb)
  case bit =>
    obtain ⟨n, v, e, hv, hrest⟩ := brRbit_of_bit hb
    have hstep := hfStep_of_bit hroot e hv
    refine ⟨_, exec_brRbit_of_ok h0 e h0, hv, hrest, ?_⟩
    intro c
    have hc : c = s.hf.child s.hf.walk b := rfl
    rw [hc]
    by_cases hleaf : (s.hf.nodeAt s.hf.root).isLeaf = true
    · rw [if_pos hleaf, ← hl.symbolValue_eq (hl.root_lt hroot)]
      have hwalk := hstep.trans (walkBit_at_leafRoot hleaf)
      cases b
      · exact exec_hfStep_of_some h0 (t := (s.consumed n).setBr v) hwalk h0
      · exact exec_hfStep_of_raise h0 hwalk
    rw [if_neg hleaf]
    rw [Bool.not_eq_true] at hleaf
    by_cases habsent : s.hf.child s.hf.walk b = Config.null
    · rw [if_pos habsent]
      exact exec_hfStep_of_raise h0 (hstep.trans (walkBit_to_absent hleaf habsent))
    rw [if_neg habsent]
    by_cases hend : (s.hf.nodeAt (s.hf.child s.hf.walk b)).isLeaf = true
    · rw [if_pos hend, ← hl.symbolValue_eq ((hl.child_lt (hl.walk_lt hroot) habsent).trans (hl.walk_lt hroot))]
      exact exec_hfStep_of_some h0 (hstep.trans (walkBit_to_leaf hleaf habsent hend)) h0
    · rw [if_neg hend]
      rw [Bool.not_eq_true] at hend
      exact exec_hfStep_of_none h0 (hstep.trans (walkBit_to_inner hleaf habsent hend)) h0

end Sys2Proof.Machine

/-! SUPPORT. Symbols read from the tree (R167): the loop of `HF.DSYM` does not depend on the bound on its turns, and follows a
path to its leaf; where the bits end inside a path it is `TRUNCATION`. -/

namespace Sys2Proof.Machine

open Sys2Proof

/-! ## Paths (R164) -/

section
variable {h : HF}

theorem HF.reaches_cons {i j : NodeIdx} {b : Bool} {p : List Bool} :
    h.reaches i (b :: p) j ↔ h.child i b ≠ Config.null ∧ h.reaches (h.child i b) p j := Iff.rfl

/-- A path runs in the arena alone. -/
theorem HF.reaches_congr {h' : HF} (hn : h'.node = h.node) (p : List Bool) (i j : NodeIdx) :
    h'.reaches i p j ↔ h.reaches i p j := by
  have hchild : ∀ i b, h'.child i b = h.child i b := fun i b => by simp only [HF.child, HF.nodeAt, hn]
  induction p generalizing i with
  | nil => exact Iff.rfl
  | cons b p ih =>
    rw [HF.reaches_cons, HF.reaches_cons, hchild]
    exact and_congr_right fun _ => ih _

theorem HF.reaches_moveWalk {w i j : NodeIdx} {p : List Bool} :
    HF.reaches { h with walk := w } i p j ↔ h.reaches i p j :=
  HF.reaches_congr (h := h) (h' := { h with walk := w }) rfl p i j

/-- R31: a leaf has no children. -/
theorem HF.child_of_leaf {i : NodeIdx} (hi : (h.nodeAt i).isLeaf = true) (b : Bool) : h.child i b = Config.null := by
  obtain ⟨hleft, hright⟩ : (h.nodeAt i).left = Config.null ∧ (h.nodeAt i).right = Config.null := by
    simpa [Node.isLeaf] using hi
  cases b
  · exact hleft
  · exact hright

/-- A path stays in the part of the arena in use, at or below where it begins. -/
theorem HF.legal.reaches_le (hl : h.legal) : ∀ {p : List Bool} {i j : NodeIdx}, i.toNat < h.n.toNat → h.reaches i p j →
    j.toNat ≤ i.toNat
  | [], i, j, _, hp => by rw [show i = j from hp]
  | b :: p, i, j, hi, hp => by
    obtain ⟨hc, hp⟩ := HF.reaches_cons.mp hp
    have hlt := hl.child_lt hi hc
    have := hl.reaches_le (hlt.trans hi) hp
    omega

theorem HF.legal.reaches_lt (hl : h.legal) {p : List Bool} {i j : NodeIdx} (hi : i.toNat < h.n.toNat)
    (hp : h.reaches i p j) : j.toNat < h.n.toNat := (hl.reaches_le hi hp).trans_lt hi

theorem HF.not_leaf_of_child {i : NodeIdx} {b : Bool} (hc : h.child i b ≠ Config.null) :
    (h.nodeAt i).isLeaf = false :=
  Bool.eq_false_iff.mpr fun hi => hc (h.child_of_leaf hi b)

end

/-! ## The loop (R167) -/

section
variable {s t : State} {k : Nat}

theorem dsymLoop_of_some {x : Symbol} (e : hfStep s = .ok (some x) t) : dsymLoop (k + 1) s = .ok x t := by
  rw [dsymLoop, Op.bind_of_ok e]
  rfl

theorem dsymLoop_of_none (e : hfStep s = .ok none t) : dsymLoop (k + 1) s = dsymLoop k t := by
  rw [dsymLoop, Op.bind_of_ok e]

theorem dsymLoop_of_error {x : Stop} (e : hfStep s = .error x t) : dsymLoop (k + 1) s = .error x t := by
  rw [dsymLoop, Op.bind_of_error e]

/-- Any bound that the bits left stay below does (assumption 12). -/
theorem dsymLoop_bound_irrelevant : ∀ (k k' : Nat) (s : State), s.bitStream.length < k → s.bitStream.length < k' →
    dsymLoop k s = dsymLoop k' s
  | k + 1, k' + 1, s, hk, hk' => by
    cases e : hfStep s with
    | error x t => rw [dsymLoop_of_error e, dsymLoop_of_error e]
    | ok r t =>
      have hlen := hfStep_ok_bitStream e
      cases r with
      | some x => rw [dsymLoop_of_some e, dsymLoop_of_some e]
      | none =>
        rw [dsymLoop_of_none e, dsymLoop_of_none e]
        exact dsymLoop_bound_irrelevant k k' t (by omega) (by omega)

theorem hfDsym_eq_dsymLoop (hk : s.bitStream.length < k) : hfDsym s = dsymLoop k s :=
  dsymLoop_bound_irrelevant _ _ s (Nat.lt_succ_of_le s.bitStream_length_le) hk

/-- R167: after a step to an internal node it is `HF.DSYM` again. -/
theorem hfDsym_of_none (e : hfStep s = .ok none t) : hfDsym s = hfDsym t := by
  have hlen := hfStep_ok_bitStream e
  rw [hfDsym_eq_dsymLoop (s.bitStream.length.lt_succ_self), dsymLoop_of_none e]
  exact (hfDsym_eq_dsymLoop (by omega)).symm

theorem hfDsym_of_some {x : Symbol} (e : hfStep s = .ok (some x) t) : hfDsym s = .ok x t := dsymLoop_of_some e

theorem hfDsym_of_error {x : Stop} (e : hfStep s = .error x t) : hfDsym s = .error x t := dsymLoop_of_error e

end

/-! ## Along a path -/

/-- A bit on the way to a leaf takes the walker to the child that it names: to the leaf, or further on. -/
theorem hfStep_of_edge {s : State} {b : Bool} {rest : List Bool} (hr : (s.hf.nodeAt s.hf.root).isLeaf = false)
    (hb : s.bitStream = b :: rest) (hc : s.hf.child s.hf.walk b ≠ Config.null) :
    ∃ n v, ((s.consumed n).setBr v).bitStream = rest
      ∧ hfStep s = if (s.hf.nodeAt (s.hf.child s.hf.walk b)).isLeaf = true
        then .ok (some (s.hf.nodeAt (s.hf.child s.hf.walk b)).symbol)
          (((s.consumed n).setBr v).setHf { s.hf with walk := s.hf.root })
        else .ok none (((s.consumed n).setBr v).setHf { s.hf with walk := s.hf.child s.hf.walk b }) := by
  obtain ⟨n, v, e, hv, hrest⟩ := brRbit_of_bit hb
  have hstep := hfStep_of_bit (HF.root_ne_null_of_not_leaf hr) e hv
  refine ⟨n, v, hrest, ?_⟩
  by_cases hl : (s.hf.nodeAt (s.hf.child s.hf.walk b)).isLeaf = true
  · rw [if_pos hl]
    exact hstep.trans (walkBit_to_leaf hr hc hl)
  · rw [if_neg hl]
    exact hstep.trans (walkBit_to_inner hr hc (Bool.not_eq_true _ ▸ hl))

/-- R167: the bits of a path from the walker to a leaf are read, and the leaf's symbol is given. -/
theorem hfDsym_of_path : ∀ (p : List Bool) (s : State) (j : NodeIdx) (rest : List Bool),
    (s.hf.nodeAt s.hf.root).isLeaf = false → p ≠ [] → s.bitStream = p ++ rest → s.hf.reaches s.hf.walk p j →
    (s.hf.nodeAt j).isLeaf = true →
    ∃ n v, hfDsym s = .ok (s.hf.nodeAt j).symbol (((s.consumed n).setBr v).setHf { s.hf with walk := s.hf.root })
      ∧ ((s.consumed n).setBr v).bitStream = rest
  | [b], s, j, rest, hr, _, hb, hp, hj => by
    obtain ⟨hc, rfl⟩ := hp
    obtain ⟨n, v, hrest, e⟩ := hfStep_of_edge hr hb hc
    have hj' : (s.hf.nodeAt (s.hf.child s.hf.walk b)).isLeaf = true := hj
    rw [if_pos hj'] at e
    exact ⟨n, v, hfDsym_of_some e, hrest⟩
  | b :: b' :: p, s, j, rest, hr, _, hb, hp, hj => by
    obtain ⟨hc, hp⟩ := HF.reaches_cons.mp hp
    obtain ⟨n, v, hrest, e⟩ := hfStep_of_edge hr hb hc
    have hinner : ¬ (s.hf.nodeAt (s.hf.child s.hf.walk b)).isLeaf = true := by
      rw [HF.not_leaf_of_child (HF.reaches_cons.mp hp).1]
      exact Bool.false_ne_true
    rw [if_neg hinner] at e
    have hp' : HF.reaches { s.hf with walk := s.hf.child s.hf.walk b } (s.hf.child s.hf.walk b) (b' :: p) j :=
      HF.reaches_moveWalk.mpr hp
    obtain ⟨n', v', e', hrest'⟩ := hfDsym_of_path (b' :: p)
      (((s.consumed n).setBr v).setHf { s.hf with walk := s.hf.child s.hf.walk b }) j rest hr (List.cons_ne_nil _ _) hrest hp' hj
    refine ⟨n + n', v', (hfDsym_of_none e).trans (e'.trans ?_), Eq.trans ?_ hrest'⟩
    · rw [← State.consumed_consumed s n n']
      rfl
    · rw [← State.consumed_consumed s n n']
      rfl

/-- R170(g): where the bits end inside a path to a leaf, it is `TRUNCATION`; the sink is not touched. -/
theorem hfDsym_of_cut : ∀ (q p : List Bool) (s : State) (j : NodeIdx), (s.hf.nodeAt s.hf.root).isLeaf = false →
    p ≠ [] → s.bitStream = q → s.hf.reaches s.hf.walk (q ++ p) j →
    ∃ t, hfDsym s = .error (.raise .truncation) t ∧ t.snk = s.snk
  | [], p, s, j, hr, _, hb, _ =>
    ⟨_, hfDsym_of_error (hfStep_of_noBit (HF.root_ne_null_of_not_leaf hr) hb), rfl⟩
  | b :: q, p, s, j, hr, hne, hb, hp => by
    rw [List.cons_append] at hp
    obtain ⟨hc, hp⟩ := HF.reaches_cons.mp hp
    obtain ⟨n, v, hrest, e⟩ := hfStep_of_edge hr hb hc
    obtain ⟨b', p', hqp⟩ := List.exists_cons_of_ne_nil (List.append_ne_nil_of_right_ne_nil q hne)
    have hinner : ¬ (s.hf.nodeAt (s.hf.child s.hf.walk b)).isLeaf = true := by
      rw [hqp] at hp
      rw [HF.not_leaf_of_child (HF.reaches_cons.mp hp).1]
      exact Bool.false_ne_true
    rw [if_neg hinner] at e
    have hp' : HF.reaches { s.hf with walk := s.hf.child s.hf.walk b } (s.hf.child s.hf.walk b) (q ++ p) j :=
      HF.reaches_moveWalk.mpr hp
    obtain ⟨t, et, ht⟩ := hfDsym_of_cut q p
      (((s.consumed n).setBr v).setHf { s.hf with walk := s.hf.child s.hf.walk b }) j hr hne hrest hp'
    exact ⟨t, (hfDsym_of_none e).trans et, ht⟩

/-! ## The symbol read as a command -/

theorem walkBit_portBlind (b : Bool) : (walkBit b).PortBlind := fun s r => by
  rw [walkBit_run, walkBit_run, show (s.withResp r).hf = s.hf from rfl]
  cases s.hf.descend b <;> rfl

theorem brEofSeen_portBlind : brEofSeen.PortBlind := fun _ _ => rfl

theorem hfStep_portBlind : hfStep.PortBlind := by
  refine needTree_plain.blind.portBlind.bind fun _ => brRbit_portBlind.bind fun b => brEofSeen_portBlind.bind fun eof => ?_
  split
  · exact .raise _
  · exact walkBit_portBlind b

theorem dsymLoop_portBlind : ∀ k, (dsymLoop k).PortBlind
  | 0 => .stuck
  | k + 1 => hfStep_portBlind.bind fun
    | some _ => .pure _
    | none => dsymLoop_portBlind k

theorem hfDsym_portBlind : hfDsym.PortBlind := .reading (fun _ => dsymLoop_portBlind _) fun _ _ => rfl

theorem answerError_ne_answerNone {c : StatusCode} (h : c ≠ 0) : answerError c ≠ answerNone := fun e =>
  h (congrArg Response.status (Option.some.inj e))

section
variable {s t : State} (h0 : s.status = 0)
include h0

theorem exec_hfDsym_of_ok {x : Symbol} (e : hfDsym s = .ok x t) (ht : t.status = 0) :
    exec .hfDsym s = .next { t with resp := answerVal (symbolValue x) } := by
  rw [← State.answer_val_of_ok ht]
  exact runCommand_ok h0 (Op.bind_of_ok e)

omit h0 in
theorem runCommand_congr {op : Op Reply} (hs : s.status = 0) (ht : t.status = 0) (e : op s = op t) :
    runCommand op s = runCommand op t := by
  rw [runCommand, runCommand, if_neg (by simp [State.refusing, hs]), if_neg (by simp [State.refusing, ht]), e]

/-- R167: by what the step gives. -/
theorem exec_hfDsym_eq (e : exec .hfStep s = .next t) :
    exec .hfDsym s = if t.resp = answerNone then exec .hfDsym t else .next t := by
  have keeps : ∀ {r u}, hfStep s = .ok r u → u.status = 0 := fun eu =>
    (Op.Preserves.status_of_ok (fun _ hP => hP.keeps_hfStep) eu).trans h0
  rcases er : hfStep s with ⟨_ | x, u⟩ | ⟨k | _, u⟩
  · have hu := keeps er
    rw [exec_hfStep_of_none h0 er hu] at e
    cases e
    rw [if_pos rfl]
    have silent : (do let x ← hfDsym; pure (.val (symbolValue x)) : Op Reply).PortBlind :=
      hfDsym_portBlind.bind fun _ => .pure _
    have hrun : (do let x ← hfDsym; pure (.val (symbolValue x)) : Op Reply) s
        = (do let x ← hfDsym; pure (.val (symbolValue x)) : Op Reply) u := by
      rw [Op.bind_run, Op.bind_run, hfDsym_of_none er]
    change runCommand _ s = runCommand _ (u.withResp answerNone)
    rw [silent.runCommand_withResp, runCommand_congr h0 hu hrun]
  · rw [exec_hfStep_of_some h0 er (keeps er)] at e
    cases e
    rw [if_neg (by simp [answerVal, answerNone])]
    exact exec_hfDsym_of_ok h0 (hfDsym_of_some er) (keeps er)
  · rw [exec_hfStep_of_raise h0 er] at e
    cases e
    rw [State.failed_resp, if_neg (answerError_ne_answerNone k.code_ne_zero)]
    exact runCommand_raise h0 (Op.bind_of_error (hfDsym_of_error er))
  · have hstuck : exec .hfStep s = .fault .loopBound := runCommand_stuck h0 (Op.bind_of_error er)
    rw [hstuck] at e
    cases e

end

/-- Settles O37: the loop unrolled by one step, and followed along a path to a leaf. -/
theorem symbolReadRepeatsTheStep : Obligations.SymbolReadRepeatsTheStep := by
  refine ⟨rfl, fun s t h0 e => exec_hfDsym_eq h0 e, fun s rest h0 hl hroot hleaf hb => ?leafRoot,
    fun s p j rest h0 hl hw hroot hne hb hp hj => ?path⟩
  case leafRoot =>
    obtain ⟨n, v, e, hv, hrest⟩ := brRbit_of_bit hb
    have hstep := (hfStep_of_bit hroot e hv).trans (walkBit_at_leafRoot hleaf)
    rw [← hl.symbolValue_eq (hl.root_lt hroot)]
    exact ⟨v, s.src.pos + n, exec_hfDsym_of_ok h0 (t := (s.consumed n).setBr v) (hfDsym_of_some hstep) h0, hrest⟩
  case path =>
    have hr : (s.hf.nodeAt s.hf.root).isLeaf = false := by
      obtain ⟨b, p, rfl⟩ := List.exists_cons_of_ne_nil hne
      by_contra hleaf
      rw [Bool.not_eq_false] at hleaf
      rw [hw hleaf] at hp
      exact (HF.reaches_cons.mp hp).1 (HF.child_of_leaf hleaf b)
    have hjlt : j.toNat < s.hf.n.toNat := hl.reaches_lt (hl.walk_lt hroot) hp
    obtain ⟨n, v, e, hrest⟩ := hfDsym_of_path p s j rest hr hne hb hp hj
    rw [← hl.symbolValue_eq hjlt]
    exact ⟨v, s.src.pos + n, exec_hfDsym_of_ok h0 e h0, hrest⟩

end Sys2Proof.Machine

/-! SUPPORT. The tree of `HF.BUILD` (R160 to R162): what the merge loop has made so far, and that the queue holds the entries
that wait for a parent, so that each parent joins the two that come first in the order of R161. -/

namespace Sys2Proof.Machine

open Sys2Proof

/-! ## One parent -/

/-- No entry below p has entry j as a child. -/
def WaitsAt (nodes : List Node) (p j : Nat) : Prop := ∀ q, q < p → ∀ b, (kid nodes q b).toNat ≠ j

/-- R162: entry p is the parent of the two entries below it that come first among those that wait for a parent. -/
structure JoinsFirstTwo (nodes : List Node) (p a b : Nat) : Prop where
  ne : a ≠ b
  left_lt : a < p
  right_lt : b < p
  eq_parent : nodeIn nodes p = parentOf nodes a b
  left_waits : WaitsAt nodes p a
  right_waits : WaitsAt nodes p b
  left_first : removedBefore (nodeIn nodes a) a (nodeIn nodes b) b = true
  right_first : ∀ j, j < p → j ≠ a → j ≠ b → WaitsAt nodes p j →
    removedBefore (nodeIn nodes b) b (nodeIn nodes j) j = true

section
variable {nodes ms : List Node} {p a b j : Nat}

theorem waitsAt_append (hp : p ≤ nodes.length) : WaitsAt (nodes ++ ms) p j ↔ WaitsAt nodes p j :=
  forall₂_congr fun q hq => by simp only [kid_append_left (ms := ms) (hq.trans_le hp)]

theorem parentOf_append_left (ha : a < nodes.length) (hb : b < nodes.length) :
    parentOf (nodes ++ ms) a b = parentOf nodes a b := by
  rw [parentOf, parentOf, nodeIn_append_left ha, nodeIn_append_left hb]

/-- Later entries change nothing. -/
theorem JoinsFirstTwo.append (h : JoinsFirstTwo nodes p a b) (hp : p < nodes.length) :
    JoinsFirstTwo (nodes ++ ms) p a b := by
  obtain ⟨hne, ha, hb, hparent, hwa, hwb, hab, hrest⟩ := h
  have hna := nodeIn_append_left (ms := ms) (ha.trans hp)
  have hnb := nodeIn_append_left (ms := ms) (hb.trans hp)
  refine ⟨hne, ha, hb, ?_, (waitsAt_append hp.le).mpr hwa, (waitsAt_append hp.le).mpr hwb, by rwa [hna, hnb],
    fun j hj hja hjb hw => ?_⟩
  · rw [nodeIn_append_left hp, hparent, parentOf_append_left (ha.trans hp) (hb.trans hp)]
  · rw [hnb, nodeIn_append_left (hj.trans hp)]
    exact hrest j hj hja hjb ((waitsAt_append hp.le).mp hw)

end

/-! ## The merge loop -/

/-- R162: the leaves, then parents that each join the two that came first; each parent makes the queue one shorter. -/
structure Merged (ls nodes : List Node) (q : List Nat) : Prop where
  forest : Forest nodes q
  leaves : ls <+: nodes
  count : nodes.length + q.length = 2 * ls.length
  joins : ∀ p, ls.length ≤ p → p < nodes.length → ∃ a b, JoinsFirstTwo nodes p a b

section
variable {ls nodes : List Node} {q : List Nat}

theorem Forest.mem_iff_waits (F : Forest nodes q) (i : Nat) : i ∈ q ↔ i < nodes.length ∧ WaitsAt nodes nodes.length i :=
  F.mem_iff i

/-- R162: the two entries removed first get a parent. -/
theorem Merged.merge (M : Merged ls nodes q) {i j : Nat} (hi : i ∈ q) (hj : j ∈ q.erase i)
    (first : ∀ m ∈ q, m ≠ i → removedBefore (nodeIn nodes i) i (nodeIn nodes m) m = true)
    (second : ∀ m ∈ q.erase i, m ≠ j → removedBefore (nodeIn nodes j) j (nodeIn nodes m) m = true) :
    Merged ls (nodes ++ [parentOf nodes i j]) ((q.erase i).erase j ++ [nodes.length]) := by
  obtain ⟨F, hls, hcount, hjoins⟩ := M
  obtain ⟨hji, hjq⟩ := F.nodup.mem_erase_iff.mp hj
  obtain ⟨hilt, hiw⟩ := (F.mem_iff_waits i).mp hi
  obtain ⟨hjlt, hjw⟩ := (F.mem_iff_waits j).mp hjq
  have hlen := F.length_erase_erase hi hjq hji.symm
  refine ⟨F.merge hi hjq hji.symm, hls.trans (List.prefix_append _ _), ?_, fun p hp hlt => ?_⟩
  · simp only [List.length_append, List.length_singleton]
    omega
  · rcases lt_length_append.mp hlt with hlt | rfl
    · obtain ⟨a, b, h⟩ := hjoins p hp hlt
      exact ⟨a, b, h.append hlt⟩
    · have hni := nodeIn_append_left (ms := [parentOf nodes i j]) hilt
      have hnj := nodeIn_append_left (ms := [parentOf nodes i j]) hjlt
      refine ⟨i, j, hji.symm, hilt, hjlt, ?_, (waitsAt_append le_rfl).mpr hiw, (waitsAt_append le_rfl).mpr hjw, ?_,
        fun m hm hmi hmj hw => ?_⟩
      · rw [nodeIn_append_length, parentOf_append_left hilt hjlt]
      · rw [hni, hnj]
        exact first j hjq hji
      · have hmq : m ∈ q := (F.mem_iff_waits m).mpr ⟨hm, (waitsAt_append le_rfl).mp hw⟩
        rw [hnj, nodeIn_append_left hm]
        exact second m (F.nodup.mem_erase_iff.mpr ⟨hmi, hmq⟩) hmj

theorem Merged.mergeLoop : ∀ (k : Nat) {nodes : List Node} {q : List Nat}, Merged ls nodes q → q ≠ [] →
    q.length ≤ k + 1 →
    ∃ r, (Machine.mergeLoop k nodes q).2 = [r] ∧ Merged ls (Machine.mergeLoop k nodes q).1 [r] := by
  intro k nodes q M hq hk
  have hpos := List.length_pos_of_ne_nil hq
  by_cases h1 : q.length = 1
  · obtain ⟨r, rfl⟩ := List.length_eq_one_iff.mp h1
    rw [mergeLoop_single]
    exact ⟨r, rfl, M⟩
  · cases k with
    | zero => omega
    | succ k =>
      obtain ⟨i, ei, hi, first⟩ := popFirst_spec (nodes := nodes) hq
      have hlen := List.length_erase_of_mem hi
      obtain ⟨j, ej, hj, second⟩ := popFirst_spec (nodes := nodes) (q := q.erase i) (List.ne_nil_of_length_pos (by omega))
      have hlen' := List.length_erase_of_mem hj
      rw [mergeLoop_turn ei ej]
      exact Merged.mergeLoop k (M.merge hi hj first second) (by simp)
        (by rw [List.length_append, List.length_singleton]; omega)

end

/-- R162: the loop begins with the leaves. -/
theorem FM.merged_leaves (m : FM) : Merged m.leaves m.leaves (List.range m.leaves.length) where
  forest := forest_of_leaves m.leaves_length_le m.leaves_isLeaf
  leaves := List.prefix_rfl
  count := by rw [List.length_range]; omega
  joins p hp hlt := absurd hlt (Nat.not_lt.mpr hp)

theorem FM.tree_merged {m : FM} (h : 2 ≤ m.leaves.length) : Merged m.leaves m.tree.1 [m.tree.2] := by
  obtain ⟨r, hr, M⟩ := Merged.mergeLoop m.leaves.length m.merged_leaves (by rw [ne_eq, List.range_eq_nil]; omega)
    (by rw [List.length_range]; omega)
  rw [FM.tree_of_two_le h, hr]
  exact M

theorem FM.leaves_length (m : FM) : m.leaves.length = m.coded.length := by rw [FM.leaves_eq, List.length_map]

/-- R162: "m + (m−1) nodes for m coded symbols" -/
theorem FM.tree_length {m : FM} (h : 2 ≤ m.leaves.length) : m.tree.1.length + 1 = 2 * m.leaves.length :=
  (FM.tree_merged h).count

/-- R160, R162: the first entries are the leaves, in ascending symbol order. -/
theorem FM.tree_leaf {m : FM} (h : 2 ≤ m.leaves.length) {i : Nat} {x : Symbol} (hx : m.coded[i]? = some x) :
    i < m.tree.1.length ∧ nodeIn m.tree.1 i = ⟨m.freqAt x, BitVec.ofNat 9 x.val, Config.null, Config.null⟩ := by
  obtain ⟨_, ⟨ps, hps⟩, _, _⟩ := FM.tree_merged h
  obtain ⟨hi, hxi⟩ := List.getElem?_eq_some_iff.mp hx
  have hlt : i < m.leaves.length := by rwa [m.leaves_length]
  rw [← hps]
  refine ⟨by rw [List.length_append]; omega, ?_⟩
  rw [nodeIn_append_left hlt, nodeIn_of_lt hlt]
  simp only [m.leaves_eq, List.getElem_map, hxi]

/-! ## The tree in the arena -/

theorem HF.first_iff {h : HF} {i j : NodeIdx} :
    h.first i j ↔ removedBefore (h.nodeAt i) i.toNat (h.nodeAt j) j.toNat = true := by
  rw [HF.first, removedBefore_iff, BitVec.toNat_inj]

theorem HF.childOf_iff {h : HF} {i p : NodeIdx} : h.childOf i p ↔ ∃ b, h.child p b = i := by
  rw [HF.childOf, Bool.exists_bool]
  rfl

section
variable {m : FM} (hm : 2 ≤ m.leaves.length)
include hm

/-- What waits for a parent, said of the arena: leaves have no children. -/
theorem HF.waitsAt_built (h : HF) {p : Nat} (hp : p ≤ m.tree.1.length) {j : NodeIdx} (hj : j.toNat < p) :
    WaitsAt m.tree.1 p j.toNat ↔
      ∀ q : NodeIdx, m.leaves.length ≤ q.toNat → q.toNat < p → ¬ (h.built m.tree).childOf j q := by
  have T := m.tree_oneTree
  have hlt := T.forest.length_lt (List.cons_ne_nil _ _)
  have hn := HF.built_n_toNat (h := h) T
  have hchild : ∀ (q : NodeIdx) (b : Bool), q.toNat < p → ((h.built m.tree).child q b = j ↔
      (kid m.tree.1 q.toNat b).toNat = j.toNat) := fun q b hq => by
    rw [HF.built_child T (by omega), BitVec.toNat_inj]
  constructor
  · intro hw q _ hq hc
    obtain ⟨b, hb⟩ := HF.childOf_iff.mp hc
    exact hw q.toNat hq b ((hchild q b hq).mp hb)
  · intro hno q hq b hk
    have hqn : (BitVec.ofNat 10 q : NodeIdx).toNat = q := toNat_ofNat_idx (by omega)
    by_cases hleaf : q < m.leaves.length
    · have hx := List.getElem?_eq_getElem (l := m.coded) (i := q) (by rwa [← m.leaves_length])
      have hnull : kid m.tree.1 q b = Config.null := by
        rw [kid, (FM.tree_leaf hm hx).2]
        cases b <;> rfl
      have h1023 : (Config.null : NodeIdx).toNat = 1023 := rfl
      rw [hnull] at hk
      omega
    · refine hno (BitVec.ofNat 10 q) (by omega) (by omega) (HF.childOf_iff.mpr ⟨b, ?_⟩)
      rw [hchild _ b (by omega), hqn]
      exact hk

end

/-- Settles O32: the merge loop's parents, read in the arena. -/
theorem huffmanTreeIsBuilt : Obligations.HuffmanTreeIsBuilt := by
  refine ⟨rfl, fun s k h0 hk h2 => ⟨_, exec_hfBuild h0, HF.built_len _ _, HF.built_bits _ _, ?_⟩⟩
  have hlen : s.fm.leaves.length = k := s.fm.leaves_length.trans hk
  have hm : 2 ≤ s.fm.leaves.length := by omega
  have T := s.fm.tree_oneTree
  have hsize := FM.tree_length hm
  have hlt := T.forest.length_lt (List.cons_ne_nil _ _)
  have hn := HF.built_n_toNat (h := s.hf) T
  have hroot := HF.built_root_toNat (h := s.hf) T
  have entry : ∀ i : NodeIdx, i.toNat < s.fm.tree.1.length → (s.hf.built s.fm.tree).nodeAt i = nodeIn s.fm.tree.1 i.toNat :=
    fun i hi => HF.built_nodeAt T (by omega)
  refine ⟨by omega, by omega, rfl, fun i x hx => ?leaf, fun p hkp hp => ?parent⟩
  case leaf =>
    obtain ⟨hi, e⟩ := FM.tree_leaf hm hx
    have hin : (BitVec.ofNat 10 i : NodeIdx).toNat = i := toNat_ofNat_idx (by omega)
    rw [entry _ (by omega), hin]
    exact e
  case parent =>
    have hpl : p.toNat < s.fm.tree.1.length := by omega
    obtain ⟨a, b, hne, ha, hb, hparent, hwa, hwb, hab, hrest⟩ := (FM.tree_merged hm).joins p.toNat (by omega) hpl
    have han : (BitVec.ofNat 10 a : NodeIdx).toNat = a := toNat_ofNat_idx (by omega)
    have hbn : (BitVec.ofNat 10 b : NodeIdx).toNat = b := toNat_ofNat_idx (by omega)
    have waits : ∀ j : NodeIdx, j.toNat < p.toNat → (WaitsAt s.fm.tree.1 p.toNat j.toNat ↔
        ∀ q : NodeIdx, k ≤ q.toNat → q.toNat < p.toNat → ¬ (s.hf.built s.fm.tree).childOf j q) := fun j hj => by
      rw [HF.waitsAt_built hm s.hf hpl.le hj, hlen]
    have hea := entry (BitVec.ofNat 10 a) (by omega)
    have heb := entry (BitVec.ofNat 10 b) (by omega)
    rw [han] at hea
    rw [hbn] at heb
    refine ⟨BitVec.ofNat 10 a, BitVec.ofNat 10 b, fun e => hne ?_, by omega, by omega, ?_, fun q hq hqp => ⟨?_, ?_⟩, ?_,
      fun j hj hja hjb hno => ?_⟩
    · rw [← han, ← hbn, e]
    · rw [entry p hpl, hparent, hea, heb, parentOf]
    · exact (waits _ (by omega)).mp (by rwa [han]) q hq hqp
    · exact (waits _ (by omega)).mp (by rwa [hbn]) q hq hqp
    · rw [HF.first_iff, hea, heb, han, hbn]
      exact hab
    · rw [HF.first_iff, heb, entry j (by omega), hbn]
      refine hrest j.toNat hj (fun e => hja ?_) (fun e => hjb ?_) ((waits j hj).mpr hno)
      · exact BitVec.eq_of_toNat_eq (by omega)
      · exact BitVec.eq_of_toNat_eq (by omega)

end Sys2Proof.Machine

/-! SUPPORT. The codes (R164, R170(a)): the leaves of the tree that `HF.BUILD` makes are the coded symbols, each is reached from
the root by one path, and `HF.CODES` records the paths. -/

namespace Sys2Proof.Machine

open Sys2Proof

/-! ## The leaves of the tree (R160, R163) -/

/-- R160, R163: the symbols that have a leaf: those with a nonzero count, or symbol 256 if there is none. -/
def FM.treeSymbols (m : FM) : List Symbol := if m.coded = [] then [eosSymbol] else m.coded

section
variable {m : FM} {x : Symbol}

theorem FM.mem_coded : x ∈ m.coded ↔ m.freqAt x ≠ 0 := by simp [FM.coded]

theorem FM.coded_nodup (m : FM) : m.coded.Nodup := (List.nodup_finRange 257).filter _

theorem FM.coded_eq_nil_iff : m.coded = [] ↔ m.total = 0 := by
  rw [List.eq_nil_iff_forall_not_mem, ← not_ne_iff (a := m.total), m.total_ne_zero_iff, not_exists]
  exact forall_congr' fun _ => not_congr FM.mem_coded

theorem FM.mem_treeSymbols : x ∈ m.treeSymbols ↔ m.freqAt x ≠ 0 ∨ m.total = 0 ∧ x = 256 := by
  unfold FM.treeSymbols
  split
  · next h =>
    have hz : m.freqAt x = 0 := not_not.mp fun hx => List.not_mem_nil (h ▸ FM.mem_coded.mpr hx)
    rw [List.mem_singleton]
    simp only [hz, FM.coded_eq_nil_iff.mp h, ne_eq, not_true_eq_false, false_or, true_and]
    rfl
  · next h => rw [FM.mem_coded, ← FM.coded_eq_nil_iff, or_iff_left fun hx => h hx.1]

theorem FM.treeSymbols_nodup (m : FM) : m.treeSymbols.Nodup := by
  unfold FM.treeSymbols
  split
  · exact List.nodup_singleton _
  · exact m.coded_nodup

theorem Node.symbol_ofNat {f : Nat} {l r : NodeIdx} : Node.symbol ⟨f, BitVec.ofNat 9 x.val, l, r⟩ = x := by
  have := x.isLt
  refine Fin.ext ?_
  simp only [Node.symbol, Fin.ofNat, BitVec.toNat_ofNat]
  omega

theorem Node.not_isLeaf {y : Node} (h : y.left ≠ Config.null) : y.isLeaf = false := by simp [Node.isLeaf, h]

/-- R160, R162: the leaves come first in the arena, in the order of their symbols. -/
theorem FM.tree_leaf_iff {i : Nat} (hi : i < m.tree.1.length) :
    (nodeIn m.tree.1 i).isLeaf = true ∧ (nodeIn m.tree.1 i).symbol = x ↔ m.treeSymbols[i]? = some x := by
  rcases hc : m.coded with _ | ⟨y, _ | ⟨z, l⟩⟩
  · rw [FM.tree_of_none hc] at hi ⊢
    obtain rfl : i = 0 := Nat.lt_one_iff.mp hi
    rw [FM.treeSymbols, if_pos hc]
    exact ⟨fun h => congrArg some h.2, fun h => ⟨rfl, Option.some.inj h⟩⟩
  · rw [FM.tree_of_one hc] at hi ⊢
    rw [FM.treeSymbols, hc, if_neg (List.cons_ne_nil _ _)]
    rcases Nat.lt_succ_iff_lt_or_eq.mp hi with hi | rfl
    · obtain rfl : i = 0 := Nat.lt_one_iff.mp hi
      exact ⟨fun h => congrArg some (Node.symbol_ofNat.symm.trans h.2),
        fun h => ⟨rfl, Node.symbol_ofNat.trans (Option.some.inj h)⟩⟩
    · exact ⟨fun h => absurd (show false = true from h.1) Bool.false_ne_true, fun h => by cases h⟩
  · have hm : 2 ≤ m.leaves.length := by rw [m.leaves_length, hc]; simp
    rw [FM.treeSymbols, if_neg (by rw [hc]; exact List.cons_ne_nil _ _)]
    by_cases hlt : i < m.coded.length
    · have hx := List.getElem?_eq_getElem hlt
      rw [(FM.tree_leaf hm hx).2, hx, Node.symbol_ofNat]
      exact ⟨fun h => congrArg some h.2, fun h => ⟨rfl, Option.some.inj h⟩⟩
    · obtain ⟨a, b, J⟩ := (FM.tree_merged hm).joins i (by rw [m.leaves_length]; omega) hi
      have hsize := m.tree_oneTree.forest.length_lt (List.cons_ne_nil _ _)
      have hleft : (nodeIn m.tree.1 i).left ≠ Config.null := by
        rw [J.eq_parent]
        exact ofNat_ne_null (by have := J.left_lt; omega)
      rw [Node.not_isLeaf hleft, List.getElem?_eq_none (Nat.not_lt.mp hlt)]
      exact ⟨fun h => absurd h.1 Bool.false_ne_true, fun h => by cases h⟩

/-- R162, R163: every symbol of the tree has its place among the entries. -/
theorem FM.treeSymbols_length_le (m : FM) : m.treeSymbols.length ≤ m.tree.1.length := by
  rcases hc : m.coded with _ | ⟨y, _ | ⟨z, l⟩⟩
  · rw [FM.tree_of_none hc, FM.treeSymbols, if_pos hc]
    exact le_rfl
  · rw [FM.tree_of_one hc, FM.treeSymbols, hc, if_neg (List.cons_ne_nil _ _)]
    exact Nat.le_of_ble_eq_true rfl
  · have hm : 2 ≤ m.leaves.length := by rw [m.leaves_length, hc]; simp
    have := FM.tree_length hm
    rw [FM.treeSymbols, if_neg (by rw [hc]; exact List.cons_ne_nil _ _), ← m.leaves_length]
    omega

end

/-! ## Paths from the root -/

section
variable {h : HF}

theorem HF.reaches_append {p q : List Bool} {i j : NodeIdx} :
    h.reaches i (p ++ q) j ↔ ∃ k, h.reaches i p k ∧ h.reaches k q j := by
  induction p generalizing i with
  | nil => exact ⟨fun hq => ⟨i, rfl, hq⟩, fun ⟨k, hk, hq⟩ => by rwa [show i = k from hk]⟩
  | cons b p ih =>
    rw [List.cons_append, HF.reaches_cons, ih]
    simp only [HF.reaches_cons, and_assoc, exists_and_left]

theorem HF.reaches_concat {p : List Bool} {b : Bool} {i j : NodeIdx} :
    h.reaches i (p ++ [b]) j ↔ ∃ k, h.reaches i p k ∧ h.child k b ≠ Config.null ∧ h.child k b = j := HF.reaches_append

/-- A path ends at one entry. -/
theorem HF.reaches_unique {p : List Bool} {i j j' : NodeIdx} (hj : h.reaches i p j) (hj' : h.reaches i p j') : j = j' := by
  induction p generalizing i with
  | nil => exact (show i = j from hj).symm.trans hj'
  | cons b p ih => exact ih hj.2 hj'.2

/-- R164: a path that goes on does not end at a leaf. -/
theorem HF.eq_of_leaf_of_prefix {p p' : List Bool} {i j j' : NodeIdx} (hj : h.reaches i p j) (hj' : h.reaches i p' j')
    (hleaf : (h.nodeAt j).isLeaf = true) (hp : p <+: p') : p = p' ∧ j = j' := by
  obtain ⟨q, rfl⟩ := hp
  obtain ⟨k, hk, hq⟩ := HF.reaches_append.mp hj'
  obtain rfl := HF.reaches_unique hj hk
  cases q with
  | nil => exact ⟨(List.append_nil p).symm, hq⟩
  | cons b q => exact absurd (HF.child_of_leaf hleaf b) (HF.reaches_cons.mp hq).1

variable (ht : h.TreeSound) (hroot : h.root ≠ Config.null)
include ht hroot

/-- R160: the root is no child. -/
theorem HF.TreeSound.child_ne_root {i : NodeIdx} {b : Bool} (hi : i.toNat < h.n.toNat) (hc : h.child i b ≠ Config.null) :
    h.child i b ≠ h.root := fun e => by
  obtain ⟨hl, ⟨_, hlast, _⟩, _⟩ := ht
  have := hl.child_lt hi hc
  have := hlast hroot
  rw [e] at *
  omega

/-- R160: "no sharing": one path leads from the root to an entry. -/
theorem HF.TreeSound.path_unique {p p' : List Bool} {j : NodeIdx} (hp : h.reaches h.root p j)
    (hp' : h.reaches h.root p' j) : p = p' := by
  have hr := ht.1.root_lt hroot
  obtain ⟨_, ⟨_, _, _, hinj, _⟩, _⟩ := id ht
  induction p using List.reverseRecOn generalizing p' j with
  | nil =>
    rcases List.eq_nil_or_concat' p' with rfl | ⟨q', b', rfl⟩
    · rfl
    · obtain ⟨k', hk', hc', e'⟩ := HF.reaches_concat.mp hp'
      exact absurd (e'.trans hp.symm) (ht.child_ne_root hroot (ht.1.reaches_lt hr hk') hc')
  | append_singleton q b ih =>
    obtain ⟨k, hk, hc, e⟩ := HF.reaches_concat.mp hp
    have hklt := ht.1.reaches_lt hr hk
    rcases List.eq_nil_or_concat' p' with rfl | ⟨q', b', rfl⟩
    · exact absurd (e.trans hp'.symm) (ht.child_ne_root hroot hklt hc)
    · obtain ⟨k', hk', _, e'⟩ := HF.reaches_concat.mp hp'
      obtain ⟨rfl, rfl⟩ := hinj k k' hklt (ht.1.reaches_lt hr hk') b b' hc (e.trans e'.symm)
      rw [ih hk hk']

omit hroot in
/-- R160: every entry in use is reached from the root, since its parent is. -/
theorem HF.TreeSound.exists_path : ∀ (d : Nat) (j : NodeIdx), h.n.toNat - j.toNat = d → j.toNat < h.n.toNat →
    ∃ p, h.reaches h.root p j := by
  obtain ⟨hl, ⟨_, _, hparent, _⟩, _⟩ := id ht
  intro d
  induction d using Nat.strong_induction_on with
  | _ d ih =>
    intro j hd hj
    by_cases hjr : j = h.root
    · exact ⟨[], hjr.symm⟩
    · obtain ⟨k, b, hk, e⟩ := hparent j hj hjr
      have hc : h.child k b ≠ Config.null := fun hnull => by
        have h1023 : (Config.null : NodeIdx).toNat = 1023 := rfl
        have := hl.1
        rw [e] at hnull
        rw [hnull] at hj
        omega
      have hlt := hl.child_lt hk hc
      rw [e] at hlt
      obtain ⟨p, hp⟩ := ih _ (by omega) k rfl hk
      exact ⟨p ++ [b], HF.reaches_concat.mpr ⟨k, hp, hc, e⟩⟩

end

/-! ## The paths that `HF.CODES` finds -/

/-- R164: the path leads from the root to a leaf of the symbol. -/
def HF.leadsTo (h : HF) (p : List Bool) (x : Symbol) : Prop :=
  ∃ j, h.reaches h.root p j ∧ (h.nodeAt j).isLeaf = true ∧ (h.nodeAt j).symbol = x

section
variable {h : HF}

theorem mem_leafPaths : ∀ (k : Nat) (i : NodeIdx) (pre : List Bool) (e : Symbol × List Bool),
    e ∈ leafPaths h k i pre ↔ ∃ p j, p.length < k ∧ h.reaches i p j ∧ (h.nodeAt j).isLeaf = true
      ∧ e = ((h.nodeAt j).symbol, pre ++ p)
  | 0, _, _, _ => ⟨fun he => absurd he List.not_mem_nil, fun ⟨_, _, hlt, _⟩ => absurd hlt (Nat.not_lt_zero _)⟩
  | k + 1, i, pre, e => by
    cases hleaf : (h.nodeAt i).isLeaf with
    | true =>
      rw [leafPaths, if_pos hleaf, List.mem_singleton]
      constructor
      · rintro rfl
        exact ⟨[], i, Nat.succ_pos k, rfl, hleaf, by rw [List.append_nil]⟩
      · rintro ⟨p, j, _, hp, _, rfl⟩
        obtain ⟨rfl, rfl⟩ := HF.eq_of_leaf_of_prefix (p := []) rfl hp hleaf (List.nil_prefix)
        rw [List.append_nil]
    | false =>
      have side : ∀ b, (e ∈ if h.child i b = Config.null then [] else leafPaths h k (h.child i b) (pre ++ [b])) ↔
          ∃ p j, p.length < k ∧ h.reaches i (b :: p) j ∧ (h.nodeAt j).isLeaf = true
            ∧ e = ((h.nodeAt j).symbol, pre ++ b :: p) := fun b => by
        split
        · next hc => exact ⟨fun he => absurd he List.not_mem_nil, fun ⟨_, _, _, hp, _⟩ => absurd hc hp.1⟩
        · next hc =>
          rw [mem_leafPaths k]
          simp only [HF.reaches_cons, ne_eq, hc, not_false_eq_true, true_and, List.append_assoc, List.singleton_append]
      have split : e ∈ leafPaths h (k + 1) i pre ↔
          ∃ b, e ∈ if h.child i b = Config.null then [] else leafPaths h k (h.child i b) (pre ++ [b]) := by
        rw [leafPaths, if_neg (by simp [hleaf]), List.mem_append, Bool.exists_bool]
        rfl
      rw [split]
      simp only [side]
      constructor
      · rintro ⟨b, p, j, hlen, hrest⟩
        exact ⟨b :: p, j, Nat.succ_lt_succ hlen, hrest⟩
      · rintro ⟨_ | ⟨b, p⟩, j, hlen, hp, hj, rfl⟩
        · rw [show i = j from hp] at hleaf
          exact absurd (hleaf.symm.trans hj) Bool.false_ne_true
        · exact ⟨b, p, j, Nat.lt_of_succ_lt_succ hlen, hp, hj, rfl⟩

/-- R32: a path to a leaf is short enough for `HF.CODES` to find it, and its code short enough for the code table. -/
theorem HF.TreeSound.leadsTo_length_le (ht : h.TreeSound) (hroot : h.root ≠ Config.null) {p : List Bool} {x : Symbol}
    (hp : h.leadsTo p x) : p.length ≤ 256 := by
  obtain ⟨j, hj, hleaf, _⟩ := hp
  exact ht.path_length_le hroot (p.length + 1) _
    ((mem_leafPaths _ _ _ _).mpr ⟨p, j, Nat.lt_succ_self _, hj, hleaf, rfl⟩)

theorem HF.TreeSound.mem_leafPaths_iff (ht : h.TreeSound) (hroot : h.root ≠ Config.null) {p : List Bool} {x : Symbol} :
    (x, p) ∈ leafPaths h Config.arenaLen h.root [] ↔ h.leadsTo p x := by
  rw [mem_leafPaths]
  constructor
  · rintro ⟨p', j, _, hp, hleaf, e⟩
    obtain ⟨rfl, rfl⟩ := Prod.mk.inj e
    exact ⟨j, hp, hleaf, rfl⟩
  · intro hp
    have hlen := ht.leadsTo_length_le hroot hp
    obtain ⟨j, hj, hleaf, rfl⟩ := hp
    exact ⟨p, j, by rw [Config.arenaLen]; omega, hj, hleaf, rfl⟩

/-! ## The code table -/

/-- R164: the bits of a code give it back. -/
theorem lowBits_codeBits (c : List Bool) (hc : c.length ≤ 256) : lowBits (codeBits c) c.length = c := by
  induction c using List.reverseRecOn with
  | nil => rfl
  | append_singleton c b ih =>
    rw [List.length_append, List.length_singleton] at hc
    have hfold : codeBits (c ++ [b]) = (codeBits c <<< 1) ||| (if b then 1 else 0) := by
      rw [codeBits, List.foldl_concat]
      rfl
    rw [hfold, List.length_append, List.length_singleton, lowBits_shiftIn _ _ b (by omega), ih (by omega)]

theorem HF.record_of_ne (e : Symbol × List Bool) {x : Symbol} (hx : e.1 ≠ x) :
    (h.record e).len[x] = h.len[x] ∧ (h.record e).bits[x] = h.bits[x] := by
  have hval : e.1.val ≠ x.val := fun heq => hx (Fin.ext heq)
  simp only [HF.record, Fin.getElem_fin, Vector.getElem_set, if_neg hval, and_self]

theorem HF.record_self (x : Symbol) (p : List Bool) : (h.record (x, p)).len[x] = BitVec.ofNat 9 (codeOfPath p).length
    ∧ (h.record (x, p)).bits[x] = codeBits (codeOfPath p) := by
  simp only [HF.record, Fin.getElem_fin, Vector.getElem_set, if_true, and_self]

theorem HF.foldl_record_of_not_mem {es : List (Symbol × List Bool)} {x : Symbol} (hx : ∀ p, (x, p) ∉ es) :
    (es.foldl HF.record h).len[x] = h.len[x] ∧ (es.foldl HF.record h).bits[x] = h.bits[x] := by
  induction es generalizing h with
  | nil => exact ⟨rfl, rfl⟩
  | cons e es ih =>
    have hne : e.1 ≠ x := fun heq => hx e.2 (by rw [← heq]; exact List.mem_cons_self)
    obtain ⟨hlen, hbits⟩ := ih (h := h.record e) fun p hp => hx p (List.mem_cons_of_mem _ hp)
    obtain ⟨hlen', hbits'⟩ := h.record_of_ne e hne
    exact ⟨hlen.trans hlen', hbits.trans hbits'⟩

/-- R164: a symbol found by one path gets that path's code. -/
theorem HF.foldl_record_of_mem {es : List (Symbol × List Bool)} {x : Symbol} {p : List Bool} (hx : (x, p) ∈ es)
    (huniq : ∀ p', (x, p') ∈ es → p' = p) :
    (es.foldl HF.record h).len[x] = BitVec.ofNat 9 (codeOfPath p).length
      ∧ (es.foldl HF.record h).bits[x] = codeBits (codeOfPath p) := by
  induction es generalizing h with
  | nil => exact absurd hx List.not_mem_nil
  | cons e es ih =>
    by_cases hrest : (x, p) ∈ es
    · exact ih hrest fun p' hp' => huniq p' (List.mem_cons_of_mem _ hp')
    · obtain rfl := (List.mem_cons.mp hx).resolve_right hrest
      obtain ⟨hlen, hbits⟩ := HF.foldl_record_of_not_mem (h := h.record (x, p)) (es := es) (x := x) fun p' hp' =>
        hrest (huniq p' (List.mem_cons_of_mem _ hp') ▸ hp')
      obtain ⟨hlen', hbits'⟩ := h.record_self x p
      exact ⟨hlen.trans hlen', hbits.trans hbits'⟩

end

/-! ## The tree that `HF.BUILD` makes -/

section
variable {m : FM} {h : HF} {x y : Symbol} {p p' : List Bool}

theorem HF.built_tree_sound (m : FM) (h : HF) : (h.built m.tree).TreeSound := HF.built_treeSound m.tree_oneTree

theorem HF.built_tree_root (m : FM) (h : HF) : (h.built m.tree).root ≠ Config.null := HF.built_root_ne_null m.tree_oneTree

/-- R160: the leaf of a symbol of the tree. -/
theorem HF.built_leaf_iff {j : NodeIdx} (hj : j.toNat < (h.built m.tree).n.toNat) :
    ((h.built m.tree).nodeAt j).isLeaf = true ∧ ((h.built m.tree).nodeAt j).symbol = x ↔
      m.treeSymbols[j.toNat]? = some x := by
  rw [HF.built_nodeAt m.tree_oneTree hj]
  exact FM.tree_leaf_iff (by rwa [HF.built_n_toNat m.tree_oneTree] at hj)

/-- R164: the symbols that a path leads to are those of the tree. -/
theorem HF.exists_leadsTo_iff : (∃ p, (h.built m.tree).leadsTo p x) ↔ x ∈ m.treeSymbols := by
  have ht := HF.built_tree_sound m h
  have hroot := HF.built_tree_root m h
  rw [List.mem_iff_getElem?]
  constructor
  · rintro ⟨p, j, hp, hleaf⟩
    exact ⟨j.toNat, (HF.built_leaf_iff (ht.1.reaches_lt (ht.1.root_lt hroot) hp)).mp hleaf⟩
  · rintro ⟨i, hi⟩
    have hn := HF.built_n_toNat (h := h) m.tree_oneTree
    have hlt := m.tree_oneTree.forest.length_lt (List.cons_ne_nil _ _)
    have hsize := m.treeSymbols_length_le
    obtain ⟨hil, _⟩ := List.getElem?_eq_some_iff.mp hi
    have hin : (BitVec.ofNat 10 i : NodeIdx).toNat = i := toNat_ofNat_idx (by omega)
    obtain ⟨p, hp⟩ := ht.exists_path _ (BitVec.ofNat 10 i) rfl (by omega)
    exact ⟨p, _, hp, (HF.built_leaf_iff (by omega)).mpr (by rwa [hin])⟩

/-- R160: one path leads to a symbol, since one leaf has it. -/
theorem HF.leadsTo_unique (hp : (h.built m.tree).leadsTo p x) (hp' : (h.built m.tree).leadsTo p' x) : p = p' := by
  have ht := HF.built_tree_sound m h
  have hroot := HF.built_tree_root m h
  obtain ⟨j, hj, hleaf⟩ := hp
  obtain ⟨j', hj', hleaf'⟩ := hp'
  have e := (HF.built_leaf_iff (ht.1.reaches_lt (ht.1.root_lt hroot) hj)).mp hleaf
  have e' := (HF.built_leaf_iff (ht.1.reaches_lt (ht.1.root_lt hroot) hj')).mp hleaf'
  obtain ⟨hlt, _⟩ := List.getElem?_eq_some_iff.mp e
  have hjj : j = j' := BitVec.eq_of_toNat_eq ((List.getElem?_inj hlt m.treeSymbols_nodup).mp (e.trans e'.symm))
  subst hjj
  exact ht.path_unique hroot hj hj'

/-- R170(a): a path to one symbol is no beginning of a path to another. -/
theorem HF.leadsTo_prefix (hp : h.leadsTo p x) (hp' : h.leadsTo p' y) (hpre : p <+: p') : x = y := by
  obtain ⟨j, hj, hleaf, rfl⟩ := hp
  obtain ⟨j', hj', _, rfl⟩ := hp'
  obtain ⟨_, rfl⟩ := HF.eq_of_leaf_of_prefix hj hj' hleaf hpre
  rfl

theorem codeOfPath_of_ne_nil (hp : p ≠ []) : codeOfPath p = p := if_neg hp

theorem codeOfPath_ne_nil (p : List Bool) : codeOfPath p ≠ [] := by
  unfold codeOfPath
  split
  · exact List.cons_ne_nil _ _
  · assumption

theorem HF.leadsTo_code_prefix (hp : h.leadsTo p x) (hp' : h.leadsTo p' y) (hpre : codeOfPath p <+: codeOfPath p') :
    x = y := by
  by_cases hnil : p = []
  · exact HF.leadsTo_prefix hp hp' (hnil ▸ List.nil_prefix)
  · by_cases hnil' : p' = []
    · exact (HF.leadsTo_prefix hp' hp (hnil' ▸ List.nil_prefix)).symm
    · rw [codeOfPath_of_ne_nil hnil, codeOfPath_of_ne_nil hnil'] at hpre
      exact HF.leadsTo_prefix hp hp' hpre

/-- R164: the code recorded for a symbol of the tree. -/
theorem HF.coded_of_leadsTo (hp : (h.built m.tree).leadsTo p x) :
    ((h.built m.tree).coded.len[x]).toNat = (codeOfPath p).length
      ∧ (h.built m.tree).coded.codeWord x = codeOfPath p := by
  have ht := HF.built_tree_sound m h
  have hroot := HF.built_tree_root m h
  have hshort := codeOfPath_length_le (ht.leadsTo_length_le hroot hp)
  obtain ⟨hlen, hbits⟩ := HF.foldl_record_of_mem (h := (h.built m.tree).clearCodes) ((ht.mem_leafPaths_iff hroot).mpr hp)
    fun p' hp' => HF.leadsTo_unique ((ht.mem_leafPaths_iff hroot).mp hp') hp
  have hnat : ((h.built m.tree).coded.len[x]).toNat = (codeOfPath p).length := by
    rw [HF.coded, hlen]
    exact Nat.mod_eq_of_lt (by omega)
  refine ⟨hnat, ?_⟩
  change lowBits ((h.built m.tree).coded.bits[x]) ((h.built m.tree).coded.len[x]).toNat = _
  rw [hnat, HF.coded, hbits, lowBits_codeBits _ hshort]

/-- R164: no code is recorded for another symbol. -/
theorem HF.coded_of_not_mem (hx : x ∉ m.treeSymbols) :
    (h.built m.tree).coded.len[x] = 0 ∧ (h.built m.tree).coded.bits[x] = 0 := by
  have ht := HF.built_tree_sound m h
  have hroot := HF.built_tree_root m h
  obtain ⟨hlen, hbits⟩ := HF.foldl_record_of_not_mem (h := (h.built m.tree).clearCodes)
    (es := leafPaths (h.built m.tree) Config.arenaLen (h.built m.tree).root []) (x := x)
    fun p hp => hx (HF.exists_leadsTo_iff.mp ⟨p, (ht.mem_leafPaths_iff hroot).mp hp⟩)
  exact ⟨hlen.trans (by simp [HF.clearCodes]), hbits.trans (by simp [HF.clearCodes])⟩

theorem HF.coded_len_ne_zero_iff : (h.built m.tree).coded.len[x] ≠ 0 ↔ x ∈ m.treeSymbols := by
  constructor
  · intro hne
    by_contra hx
    exact hne (HF.coded_of_not_mem hx).1
  · intro hx hz
    obtain ⟨p, hp⟩ := HF.exists_leadsTo_iff.mpr hx
    obtain ⟨hlen, _⟩ := HF.coded_of_leadsTo hp
    rw [hz] at hlen
    exact codeOfPath_ne_nil p (List.length_eq_zero_iff.mp hlen.symm)

end

section
variable {s : State}

theorem State.setHf_answer_none (h0 : s.status = 0) (h : HF) :
    (s.setHf h).answer .none = { s with hf := h, resp := answerNone } := State.answer_none_of_ok (s := s.setHf h) h0

theorem hfCodes_setHf {h : HF} (hroot : h.root ≠ Config.null) : hfCodes (s.setHf h) = .ok () (s.setHf h.coded) :=
  hfCodes_of_tree (s := s.setHf h) hroot

/-- R162, R164: the two commands that make the codes. -/
theorem runInstrs_codes (h0 : s.status = 0) : runInstrs [.hfBuild, .hfCodes] s =
    .next { s with hf := (s.hf.built s.fm.tree).coded, resp := answerNone } := by
  have hrun : inOrder [hfBuild, hfCodes] s = .ok () (s.setHf (s.hf.built s.fm.tree).coded) := by
    simp only [inOrder, bind_pure_unit]
    rw [Op.bind_of_ok (hfBuild_run s), hfCodes_setHf (HF.built_tree_root s.fm s.hf)]
  rw [runInstrs_eq_finish (.cons performs_hfBuild (.cons performs_hfCodes .nil)) h0 (by simp), hrun, finish,
    State.setHf_answer_none h0]

end

section
variable (h : HF)

theorem HF.coded_node : h.coded.node = h.node := by rw [h.coded_frame]
theorem HF.coded_root : h.coded.root = h.root := by rw [h.coded_frame]
theorem HF.coded_nodeAt (i : NodeIdx) : h.coded.nodeAt i = h.nodeAt i := by rw [HF.nodeAt, HF.coded_node, HF.nodeAt]

theorem HF.coded_reaches {p : List Bool} {i j : NodeIdx} : h.coded.reaches i p j ↔ h.reaches i p j :=
  HF.reaches_congr h.coded_node p i j

end

/-- Settles O34: a code is the path to the one leaf of its symbol, and a path to a leaf does not go on. -/
theorem codesArePathsAndPrefixFree : Obligations.CodesArePathsAndPrefixFree := by
  intro s h0
  have ht := HF.built_tree_sound s.fm s.hf
  have hroot := HF.built_tree_root s.fm s.hf
  refine ⟨_, runInstrs_codes h0, fun x hz hno => ?none, fun x hx => ?path, fun x y hne hx hy hpre => ?prefixFree⟩
  case none =>
    refine HF.coded_of_not_mem fun hx => ?_
    rcases FM.mem_treeSymbols.mp hx with hx | ⟨htotal, hx⟩
    · exact hx hz
    · exact hno htotal hx
  case path =>
    obtain ⟨p, hp⟩ := HF.exists_leadsTo_iff (h := s.hf).mpr (FM.mem_treeSymbols.mpr hx)
    obtain ⟨hlen, hword⟩ := HF.coded_of_leadsTo hp
    have hshort := codeOfPath_length_le (ht.leadsTo_length_le hroot hp)
    have hpos := List.length_pos_of_ne_nil (codeOfPath_ne_nil p)
    obtain ⟨_, hlegal⟩ := HF.coded_sound ht hroot
    obtain ⟨j, hj, hleaf, hsym⟩ := hp
    have hval : ((s.hf.built s.fm.tree).nodeAt j).sym.toNat = x.val := by
      obtain ⟨_, _, _, hkids⟩ := ht.1
      obtain ⟨_, _, hle⟩ := hkids j (ht.1.reaches_lt (ht.1.root_lt hroot) hj)
      rw [← hsym]
      exact (Nat.mod_eq_of_lt (Nat.lt_succ_of_le hle)).symm
    refine ⟨by omega, by omega, (hlegal x).2, p, j, ?_, ?_, ?_, hword⟩
    · rwa [HF.coded_reaches, HF.coded_root]
    · rw [HF.coded_nodeAt]
      exact hleaf
    · rw [HF.coded_nodeAt]
      exact hval
  case prefixFree =>
    obtain ⟨p, hp⟩ := HF.exists_leadsTo_iff.mpr (HF.coded_len_ne_zero_iff.mp hx)
    obtain ⟨p', hp'⟩ := HF.exists_leadsTo_iff.mpr (HF.coded_len_ne_zero_iff.mp hy)
    obtain ⟨_, hword⟩ := HF.coded_of_leadsTo hp
    obtain ⟨_, hword'⟩ := HF.coded_of_leadsTo hp'
    rw [hword, hword'] at hpre
    exact hne (HF.leadsTo_code_prefix hp hp' hpre)

end Sys2Proof.Machine

/-! SUPPORT. An encoder as one run (R168, R200, R227): its two passes do what its operations do one after another, and the cursor
ends behind the bytes read; and what `HF.ENC` writes. -/

namespace Sys2Proof.Machine

open Sys2Proof

/-! ## The passes of an encoder -/

theorem Trails.of_ok {n : Nat} {r : EStateM.Result Stop State Unit} {t : State} (h : Trails n r (.ok () t)) :
    r = .ok () (t.consumed n) := by
  obtain ⟨j, hj, hok⟩ := h
  rw [hj, hok t rfl]
  rfl

/-- R168, R200, R227: from the counts, the operations of the second pass in order. -/
theorem secondPass_scanned_run {before after : List (Op Unit)} {f : Byte → Op Unit} {s t : State}
    (hb : (inOrder before).Blind) (hf : ∀ b, (f b).Blind) (ha : (inOrder after).Blind)
    (e : inOrder (before ++ s.remaining.map f ++ after) s.scanned = .ok () t) :
    secondPass before f after s.scanned = .ok () (t.consumed s.remaining.length) := by
  have h := secondPass_trails (f := f) s.scanned hb hf ha
  rw [show s.scanned.remaining = s.remaining from rfl, e] at h
  exact h.of_ok

theorem fmWhdr_of_unbounded {s : State} (tag : Word) (h : s.snk.cap = none) :
    fmWhdr tag s = .ok () (s.wrote (headerBytes tag s.fm.freq)) := by
  rw [fmWhdr_run, writeBytes_of_room _ s (State.hasRoom_of_none _ h)]

/-! ## The symbols of a stream, emitted (R165) -/

theorem OutputInvariant.writeBits {P : State → Prop} (hP : OutputInvariant P) : ∀ bits, Op.Preserves P (writeBits bits)
  | [] => .pure _
  | b :: bits => (hP.bwWbit b).bind fun _ => OutputInvariant.writeBits hP bits

theorem outputInvariant_hf (h : HF) : OutputInvariant fun t => t.hf = h := ⟨fun _ e => e, fun _ e => e, fun _ e => e⟩

/-- R165: emitting coded symbols one after another writes their codes. -/
theorem inOrder_hfEsym (xs : List Symbol) (s : State) (h : ∀ x ∈ xs, s.hf.len[x] ≠ 0) :
    inOrder (xs.map hfEsym) s = writeBits (xs.flatMap s.hf.codeWord) s := by
  induction xs generalizing s with
  | nil => rfl
  | cons x xs ih =>
    rw [List.map_cons, List.flatMap_cons, writeBits_append, inOrder, Op.bind_run, Op.bind_run,
      hfEsym_of_code (h x List.mem_cons_self)]
    cases e : writeBits (s.hf.codeWord x) s with
    | error k t => rfl
    | ok u t =>
      have ht : t.hf = s.hf := ((outputInvariant_hf s.hf).writeBits _).of_ok rfl e
      dsimp only
      rw [ih t (by rw [ht]; exact fun y hy => h y (List.mem_cons_of_mem _ hy)), ht]

/-! ## What the scan of the input makes codes for -/

/-- R168: the symbols of an input: its bytes and the end of stream. -/
def inputSymbols (bs : List Byte) : List Symbol := bs.map byteSymbol ++ [eosSymbol]

theorem FM.scanned_count {m : FM} {bs : List Byte} (h : fewOccurrences bs) (b : Byte) :
    (m.scanned bs).freqAt (byteSymbol b) = bs.count b := by rw [FM.freqAt_scanned_byte, Nat.mod_eq_of_lt (h b)]

/-- R143: every symbol of the input is counted. -/
theorem FM.mem_treeSymbols_scanned (m : FM) {bs : List Byte} (h : fewOccurrences bs) {x : Symbol}
    (hx : x ∈ inputSymbols bs) : x ∈ (m.scanned bs).treeSymbols := by
  rw [FM.mem_treeSymbols]
  left
  rcases List.mem_append.mp hx with hx | hx
  · obtain ⟨b, hb, rfl⟩ := List.mem_map.mp hx
    rw [FM.scanned_count h]
    exact (List.count_pos_iff.mpr hb).ne'
  · rw [List.mem_singleton.mp hx, eosSymbol, FM.freqAt_scanned_eos]
    exact Nat.one_ne_zero

/-! ## The Huffman encoder (R168) -/

theorem hfEnc_eq (s : State) : hfEnc s = secondPass [fmWhdr Config.magicHF, hfBuild, hfCodes, bwInit]
    (fun x => hfEsym (byteSymbol x)) [hfEsym eosSymbol, bwFlush] s.scanned := by
  rw [hfEnc, firstPass_run]
  simp only [secondPass, inOrder, bind_assoc, bind_pure_unit]

/-- R168: the header; the tree and the codes; the packer emptied. -/
theorem hfEnc_prepares {s : State} (hcap : s.snk.cap = none) :
    inOrder [fmWhdr Config.magicHF, hfBuild, hfCodes, bwInit] s =
      .ok () (((s.wrote (headerBytes Config.magicHF s.fm.freq)).setHf (s.hf.built s.fm.tree).coded).setBw ⟨0, 0⟩) := by
  simp only [inOrder, bind_pure_unit]
  rw [Op.bind_of_ok (fmWhdr_of_unbounded _ hcap), Op.bind_of_ok (hfBuild_run _),
    Op.bind_of_ok (hfCodes_setHf (HF.built_tree_root _ _)), bwInit_run]
  rfl

/-- R165, R168: the codes of the symbols, and the flush. -/
theorem hfEnc_emits (bs : List Byte) {s : State} {h : HF} (hcap : s.snk.cap = none)
    (hcodes : ∀ x ∈ inputSymbols bs, h.len[x] ≠ 0) :
    ∃ payload, inOrder (bs.map (fun b => hfEsym (byteSymbol b)) ++ [hfEsym eosSymbol, bwFlush])
          ((s.setHf h).setBw ⟨0, 0⟩) = .ok () (((s.wrote payload).setHf h).setBw ⟨0, 0⟩)
      ∧ IsPacked ((inputSymbols bs).flatMap h.codeWord) payload := by
  have hops : bs.map (fun b => hfEsym (byteSymbol b)) ++ [hfEsym eosSymbol, bwFlush]
      = (inputSymbols bs).map hfEsym ++ [bwFlush] := by
    simp only [inputSymbols, List.map_append, List.map_map, List.append_assoc]
    rfl
  obtain ⟨payload, e, hp⟩ := writeBits_bwFlush_isPacked ((inputSymbols bs).flatMap h.codeWord)
    (s := (s.setHf h).setBw ⟨0, 0⟩) rfl (State.hasRoom_of_none _ hcap)
  refine ⟨payload, ?_, hp⟩
  rw [hops, inOrder_append, Op.bind_run, inOrder_hfEsym _ _ hcodes, ← Op.bind_run]
  simp only [inOrder, bind_pure_unit]
  exact e

/-- R168: the run of `HF.ENC` with an unbounded sink. -/
theorem hfEnc_of_unbounded {s : State} (hcap : s.snk.cap = none) (hfew : fewOccurrences s.remaining) :
    ∃ payload, hfEnc s = .ok () (((((s.scanned.wrote
          (headerBytes Config.magicHF (s.fm.scanned s.remaining).freq ++ payload)).setHf
            (s.hf.built (s.fm.scanned s.remaining).tree).coded).setBw ⟨0, 0⟩)).consumed s.remaining.length)
      ∧ IsPacked ((inputSymbols s.remaining).flatMap (s.hf.built (s.fm.scanned s.remaining).tree).coded.codeWord)
          payload := by
  have prepares := hfEnc_prepares (s := s.scanned) hcap
  obtain ⟨payload, emits, hp⟩ := hfEnc_emits s.remaining
    (s := s.scanned.wrote (headerBytes Config.magicHF (s.fm.scanned s.remaining).freq))
    (h := (s.hf.built (s.fm.scanned s.remaining).tree).coded) hcap
    fun x hx => HF.coded_len_ne_zero_iff.mpr (s.fm.mem_treeSymbols_scanned hfew hx)
  refine ⟨payload, ?_, hp⟩
  have before : (inOrder [fmWhdr Config.magicHF, hfBuild, hfCodes, bwInit]).Plain :=
    inOrder_plain (by simp [fmWhdr_plain, hfBuild_plain, hfCodes_plain, bwInit_plain])
  have after : (inOrder [hfEsym eosSymbol, bwFlush]).Plain := inOrder_plain (by simp [hfEsym_plain, bwFlush_plain])
  rw [hfEnc_eq]
  refine secondPass_scanned_run before.blind (fun b => (hfEsym_plain _).blind) after.blind ?_
  rw [List.append_assoc, inOrder_append, Op.bind_of_ok prepares, ← State.wrote_wrote]
  exact emits

theorem runInstrs_codes_hf {s : State} (h0 : s.status = 0) :
    ∃ t, runInstrs [.hfBuild, .hfCodes] s = .next t ∧ t.hf = (s.hf.built s.fm.tree).coded :=
  ⟨_, runInstrs_codes h0, by dsimp only⟩

/-- The answer of an encoder that has changed the counts, the codes, the sink and the cursor. -/
theorem runCommand_noValue_encoded {op : Op Unit} {s : State} {m : FM} {h : HF} {out : List Byte} {n : Nat}
    (h0 : s.status = 0)
    (e : op s = .ok () (((((s.setFm m).wrote out).setHf h).setBw ⟨0, 0⟩).consumed n)) :
    runCommand (noValue op) s =
      .next { (s.wrote out).consumed n with fm := m, hf := h, bw := ⟨0, 0⟩, resp := answerNone } :=
  runCommand_noValue_ok h0 e h0

/-- Settles O38, by the run of the encoder's operations. -/
theorem huffmanEncoderWritesTheStream : Obligations.HuffmanEncoderWritesTheStream := by
  refine ⟨rfl, fun s h0 hcap hfew => ?_⟩
  obtain ⟨payload, e, hp⟩ := hfEnc_of_unbounded hcap hfew
  refine ⟨s.fm.scanned s.remaining, (s.hf.built (s.fm.scanned s.remaining).tree).coded, payload,
    runCommand_noValue_encoded h0 e, FM.scanned_cum _ _, FM.scanned_count hfew, FM.freqAt_scanned_eos _ _,
    runInstrs_codes_hf (s := { s with fm := s.fm.scanned s.remaining }) h0, ?_⟩
  rw [inputSymbols, List.flatMap_append, List.flatMap_map, List.flatMap_singleton] at hp
  exact hp

end Sys2Proof.Machine

/-! SUPPORT. The Huffman round trip (R170(e), (g)): the decoder makes the encoder's tree from the header, and from the root of
the tree each code leads to its symbol; a stream that is cut ends inside a code, or before the header is whole. -/

namespace Sys2Proof.Machine

open Sys2Proof

/-! ## Codes in front of the reader -/

/-- R164, R166: an unambiguous way to read symbols: the walker of the tree is at its root, which is no leaf, and each of the
symbols has a path. -/
structure HF.ReadsCodes (h : HF) (code : Symbol → List Bool) (symbols : List Symbol) : Prop where
  walk : h.walk = h.root
  root : (h.nodeAt h.root).isLeaf = false
  leads : ∀ x ∈ symbols, h.leadsTo (code x) x

section
variable {h : HF} {code : Symbol → List Bool} {symbols : List Symbol} {x : Symbol} {s : State}

/-- The root is no leaf, so that no code is empty. -/
theorem HF.ReadsCodes.code_ne_nil (H : h.ReadsCodes code symbols) (hx : x ∈ symbols) : code x ≠ [] := fun hnil => by
  obtain ⟨j, hj, hleaf, _⟩ := H.leads x hx
  rw [hnil] at hj
  rw [← show h.root = j from hj, H.root] at hleaf
  exact Bool.false_ne_true hleaf

theorem HF.ReadsCodes.mono {symbols' : List Symbol} (H : h.ReadsCodes code symbols) (hs : symbols' ⊆ symbols) :
    h.ReadsCodes code symbols' := ⟨H.walk, H.root, fun x hx => H.leads x (hs hx)⟩

/-- R167: a code in front of the reader gives its symbol, and the walker is back at the root. -/
theorem hfDsym_of_code (H : s.hf.ReadsCodes code symbols) (hx : x ∈ symbols) {rest : List Bool}
    (hb : s.bitStream = code x ++ rest) :
    ∃ t, hfDsym s = .ok x t ∧ t.hf = s.hf ∧ t.bitStream = rest ∧ t.snk = s.snk := by
  obtain ⟨j, hj, hleaf, rfl⟩ := H.leads x hx
  rw [← H.walk] at hj
  obtain ⟨n, v, e, hrest⟩ := hfDsym_of_path _ s j rest H.root (H.code_ne_nil hx) hb hj hleaf
  refine ⟨_, e, ?_, hrest, rfl⟩
  rw [State.setHf_hf, ← H.walk]

/-- R170(g): bits that are a beginning of a code, but not the whole code, are `TRUNCATION`. -/
theorem hfDsym_of_cutCode (H : s.hf.ReadsCodes code symbols) (hx : x ∈ symbols) {p : List Bool} (hne : p ≠ [])
    (hb : s.bitStream ++ p = code x) : ∃ t, hfDsym s = .error (.raise .truncation) t ∧ t.snk = s.snk := by
  obtain ⟨j, hj, _⟩ := H.leads x hx
  rw [← H.walk, ← hb] at hj
  exact hfDsym_of_cut _ p s j H.root hne rfl hj

end

/-! ## The loop of the decoder (R169) -/

section
variable {d : Op Symbol} {s t : State} {x : Symbol} {k : Nat}

theorem decodeLoop_of_eos (e : d s = .ok eosSymbol t) : decodeLoop d (k + 1) s = .ok () t := by
  rw [decodeLoop, Op.bind_of_ok e, if_pos rfl]
  rfl

theorem decodeLoop_of_error {z : Stop} (e : d s = .error z t) : decodeLoop d (k + 1) s = .error z t := by
  rw [decodeLoop, Op.bind_of_error e]

theorem decodeLoop_of_symbol (hx : x ≠ eosSymbol) (e : d s = .ok x t) :
    decodeLoop d (k + 1) s = (do snkWrite (symbolByte x); decodeLoop d k : Op Unit) t := by
  rw [decodeLoop, Op.bind_of_ok e, if_neg hx]

theorem decodeLoop_of_byte (hx : x ≠ eosSymbol) (e : d s = .ok x t) (hr : t.hasRoom 1 = true) :
    decodeLoop d (k + 1) s = decodeLoop d k (t.wrote [symbolByte x]) := by
  rw [decodeLoop_of_symbol hx e, Op.bind_of_ok (snkWrite_of_room _ hr)]

end

theorem symbolByte_byteSymbol (b : Byte) : symbolByte (byteSymbol b) = b := by simp [symbolByte, byteSymbol]

theorem byteSymbol_ne_eos (b : Byte) : byteSymbol b ≠ eosSymbol := fun h => by
  have hval : b.toNat = 256 := congrArg Fin.val h
  have := b.isLt
  omega

theorem inputSymbols_cons (b : Byte) (bs : List Byte) : inputSymbols (b :: bs) = byteSymbol b :: inputSymbols bs := rfl

section
variable {code : Symbol → List Bool}

/-- R169: the codes of an input are decoded to the input, whatever comes after them. -/
theorem decodeLoop_of_codes (rest : List Bool) : ∀ (bs : List Byte) (k : Nat) (s : State),
    s.hf.ReadsCodes code (inputSymbols bs) → s.snk.cap = none →
    s.bitStream = (inputSymbols bs).flatMap code ++ rest → s.bitStream.length < k →
    ∃ t, decodeLoop hfDsym k s = .ok () t ∧ t.snk.data = s.snk.data ++ bs
  | [], k + 1, s, H, _, hb, _ => by
    rw [show (inputSymbols []).flatMap code = code eosSymbol from List.append_nil _] at hb
    obtain ⟨t, e, _, _, hsnk⟩ := hfDsym_of_code H (List.mem_singleton_self eosSymbol) hb
    exact ⟨t, decodeLoop_of_eos e, by rw [hsnk, List.append_nil]⟩
  | b :: bs, k + 1, s, H, hcap, hb, hk => by
    rw [inputSymbols_cons, List.flatMap_cons, List.append_assoc] at hb
    obtain ⟨t, e, hhf, hrest, hsnk⟩ := hfDsym_of_code H List.mem_cons_self hb
    have hlen := congrArg List.length hb
    have hpos := List.length_pos_of_ne_nil (H.code_ne_nil (x := byteSymbol b) List.mem_cons_self)
    rw [List.length_append, ← hrest] at hlen
    have H' : t.hf.ReadsCodes code (inputSymbols bs) := hhf ▸ H.mono (List.subset_cons_self _ _)
    have hcap' : t.snk.cap = none := by rw [hsnk, hcap]
    obtain ⟨u, eu, hu⟩ := decodeLoop_of_codes rest bs k (t.wrote [b]) H' hcap' hrest
      (show t.bitStream.length < k by omega)
    refine ⟨u, ?_, ?_⟩
    · rw [decodeLoop_of_byte (byteSymbol_ne_eos b) e (State.hasRoom_of_none 1 hcap'), symbolByte_byteSymbol]
      exact eu
    · rw [hu, State.wrote_snk, hsnk, List.append_assoc, List.singleton_append]

/-- R170(g): the codes of an input, cut before the end of the last, are decoded to a beginning of the input. -/
theorem decodeLoop_of_cutCodes : ∀ (bs : List Byte) (k : Nat) (s : State), s.hf.ReadsCodes code (inputSymbols bs) →
    s.snk.cap = none → s.bitStream <+: (inputSymbols bs).flatMap code →
    s.bitStream.length < ((inputSymbols bs).flatMap code).length → s.bitStream.length < k →
    ∃ t ys, decodeLoop hfDsym k s = .error (.raise .truncation) t ∧ t.snk.data = s.snk.data ++ ys ∧ ys <+: bs
  | bs, 0, s, _, _, _, _, hk => absurd hk (Nat.not_lt_zero _)
  | bs, k + 1, s, H, hcap, hpre, hlen, hk => by
    obtain ⟨x, symbols, hbs⟩ : ∃ x symbols, inputSymbols bs = x :: symbols := List.exists_cons_of_ne_nil (by simp [inputSymbols])
    have hx : x ∈ inputSymbols bs := by rw [hbs]; exact List.mem_cons_self
    rw [hbs, List.flatMap_cons] at hpre hlen
    by_cases hcode : code x <+: s.bitStream
    · obtain ⟨rest, hb⟩ := hcode
      rw [← hb, List.prefix_append_right_inj] at hpre
      rw [← hb, List.length_append, List.length_append] at hlen
      match bs, hbs with
      | [], hbs =>
        obtain ⟨_, rfl⟩ := List.cons.inj hbs
        exact absurd hlen (by simp)
      | b :: bs, hbs =>
        obtain ⟨rfl, rfl⟩ := List.cons.inj hbs
        obtain ⟨t, e, hhf, hrest, hsnk⟩ := hfDsym_of_code H hx hb.symm
        have hpos := List.length_pos_of_ne_nil (H.code_ne_nil hx)
        have hb' := congrArg List.length hb
        rw [List.length_append] at hb'
        have H' : t.hf.ReadsCodes code (inputSymbols bs) := hhf ▸ H.mono (List.subset_cons_self _ _)
        have hcap' : t.snk.cap = none := by rw [hsnk, hcap]
        obtain ⟨u, ys, eu, hu, hys⟩ := decodeLoop_of_cutCodes bs k (t.wrote [b]) H' hcap'
          (show t.bitStream <+: _ by rw [hrest]; exact hpre)
          (show t.bitStream.length < _ by rw [hrest]; exact Nat.lt_of_add_lt_add_left hlen)
          (show t.bitStream.length < k by rw [hrest]; omega)
        refine ⟨u, b :: ys, ?_, ?_, List.cons_prefix_cons.mpr ⟨rfl, hys⟩⟩
        · rw [decodeLoop_of_byte (byteSymbol_ne_eos b) e (State.hasRoom_of_none 1 hcap'), symbolByte_byteSymbol]
          exact eu
        · rw [hu, State.wrote_snk, hsnk, List.append_assoc, List.singleton_append]
    · obtain ⟨p, hp⟩ := (List.prefix_or_prefix_of_prefix hpre (List.prefix_append _ _)).resolve_right hcode
      have hne : p ≠ [] := fun hnil => hcode (by rw [← hp, hnil, List.append_nil])
      obtain ⟨t, e, ht⟩ := hfDsym_of_cutCode H hx hne hp
      exact ⟨t, [], decodeLoop_of_error e, by rw [ht, List.append_nil], List.nil_prefix⟩

end

/-! ## The tree that encoder and decoder make -/

section
variable {m : FM}

/-- R163: a table with a count makes a tree whose root is no leaf. -/
theorem HF.built_root_not_leaf (h : HF) (hc : m.coded ≠ []) :
    ((h.built m.tree).nodeAt (h.built m.tree).root).isLeaf = false := by
  have ht := HF.built_tree_sound m h
  have hr := ht.1.root_lt (HF.built_tree_root m h)
  have hlast := HF.built_root_toNat (h := h) m.tree_oneTree
  by_contra hleaf
  rw [Bool.not_eq_false] at hleaf
  obtain ⟨hlt, _⟩ := List.getElem?_eq_some_iff.mp ((HF.built_leaf_iff hr).mp ⟨hleaf, rfl⟩)
  rw [FM.treeSymbols, if_neg hc] at hlt
  rcases hcs : m.coded with _ | ⟨y, _ | ⟨z, l⟩⟩
  · exact hc hcs
  · rw [FM.tree_of_one hcs, List.length_cons, List.length_singleton] at hlast
    rw [hcs, List.length_singleton, FM.tree_of_one hcs] at hlt
    omega
  · have hm : 2 ≤ m.leaves.length := by rw [m.leaves_length, hcs]; simp
    have := FM.tree_length hm
    rw [m.leaves_length] at this
    rw [m.leaves_length] at hm
    omega

/-- R164: the codes made from a table with a count are the paths to their symbols. -/
theorem HF.built_readsCodes (h : HF) (hc : m.coded ≠ []) :
    (h.built m.tree).ReadsCodes (h.built m.tree).coded.codeWord m.treeSymbols where
  walk := rfl
  root := HF.built_root_not_leaf h hc
  leads x hx := by
    obtain ⟨p, hp⟩ := HF.exists_leadsTo_iff (h := h).mpr hx
    have hne : p ≠ [] := fun hnil => by
      obtain ⟨j, hj, hleaf, _⟩ := hp
      rw [hnil] at hj
      rw [← show (h.built m.tree).root = j from hj, HF.built_root_not_leaf h hc] at hleaf
      exact Bool.false_ne_true hleaf
    rw [(HF.coded_of_leadsTo hp).2, codeOfPath_of_ne_nil hne]
    exact hp

/-- R160: the tree depends on the counts alone. -/
theorem FM.tree_congr {m' : FM} (h : m'.freq = m.freq) : m'.tree = m.tree := by
  have hl : m'.leaves = m.leaves := by rw [FM.leaves, FM.leaves, h]
  unfold FM.tree
  rw [hl]

end

/-! ## The decoder after its header (R149, R169) -/

theorem IsPacked.flatMap_byteBits {bits : List Bool} {out : List Byte} (h : IsPacked bits out) :
    out.flatMap byteBits = bits ++ List.replicate (8 * out.length - bits.length) false := by
  obtain ⟨hlen, hbits⟩ := (isPacked_iff bits out).mp h
  refine List.ext_getElem ?_ fun k hk hk' => ?_
  · rw [flatMap_byteBits_length, List.length_append, List.length_replicate]
    omega
  · rw [← List.getD_eq_getElem _ false hk, ← List.getD_eq_getElem _ false hk', hbits, getD_append_replicate_false]

/-- R149, R169: with a header whose table has EOS, or no count, `HF.DEC` comes to its loop, the payload in front of the reader. -/
theorem hfDec_of_header {s : State} {f : Vector Word 257} {payload : List Byte}
    (h : s.remaining = headerBytes Config.magicHF f ++ payload)
    (hok : FM.total { s.fm with freq := f } = 0 ∨ FM.freqAt { s.fm with freq := f } eosSymbol ≠ 0) :
    ∃ u, hfDec s = decodeLoop hfDsym (bitsLeft u + 1) u
      ∧ u.hf = s.hf.built (FM.tree { s.fm with freq := f }) ∧ u.snk = s.snk ∧ u.src = (s.consumed 1036).src
      ∧ u.br = ⟨0, 0, false⟩ ∧ u.status = s.status ∧ u.remaining = payload ∧ u.bitStream = payload.flatMap byteBits := by
  have hdr : fmRhdr Config.magicHF s = .ok () ((s.consumed 1036).setFm { s.fm with freq := f }) := by
    rw [fmRhdr_of_whole h]
    obtain ⟨ht, hz, _⟩ | ⟨_, e⟩ := headerHasEos_run ((s.consumed 1036).setFm { s.fm with freq := f })
    · exact absurd hz (hok.resolve_left ht)
    · exact e
  have hrem : (s.consumed 1036).remaining = payload := by
    rw [State.remaining_consumed, h, List.drop_left' (headerBytes_length _ _)]
  refine ⟨(((s.consumed 1036).setFm { s.fm with freq := f }).setHf
    (s.hf.built (FM.tree { s.fm with freq := f }))).setBr ⟨0, 0, false⟩, ?_,
    by rw [State.setBr_hf, State.setHf_hf], rfl, rfl, rfl, rfl, hrem, ?_⟩
  · rw [hfDec, Op.bind_of_ok hdr, Op.bind_of_ok (hfBuild_run _), Op.bind_of_ok (brInit_run _)]
    rfl
  · rw [State.bitStream_of_not_eof rfl, ← hrem]
    rfl

/-- R149: a header that is cut is `TRUNCATION`, wherever it is cut. -/
theorem fmRhdr_of_cut {s : State} {tag : Word} {f : Vector Word 257} {k : Nat} (hk : k < 1036)
    (h : s.remaining = (headerBytes tag f).take k) :
    fmRhdr tag s = .error (.raise .truncation) (s.consumed s.remaining.length) := by
  have hlen : s.remaining.length = k := by rw [h, List.length_take, headerBytes_length]; omega
  have htag : (headerBytes tag f).take 4 = leBytes32 tag := rfl
  have hcount : (headerBytes tag f).take 8 = leBytes32 tag ++ leBytes32 257 := rfl
  by_cases h4 : k < 4
  · exact fmRhdr_of_short tag (by omega)
  by_cases h8 : k < 8
  · refine fmRhdr_of_cutCount ?_ (by omega)
    rw [h, List.take_take, Nat.min_eq_left (by omega), htag]
  · refine fmRhdr_of_cutTable ?_ (by omega)
    rw [h, List.take_take, Nat.min_eq_left (by omega), hcount]

section
variable {s t : State} (h0 : s.status = 0)
include h0

theorem exec_hfDec_of_ok (e : hfDec s = .ok () t) (ht : t.status = 0) :
    exec .hfDec s = .next { t with resp := answerNone } := runCommand_noValue_ok h0 e ht

theorem exec_hfDec_of_raise {k : ErrorKind} (e : hfDec s = .error (.raise k) t) :
    exec .hfDec s = .next (t.failed k.code) := runCommand_noValue_raise h0 e

end

/-! ## The two streams -/

section
variable {xs : List Byte} {payload : List Byte}

/-- The decoder with the stream of `xs` in its source, up to its loop: the tree is the encoder's. -/
theorem hfDec_attach (hfew : fewOccurrences xs) (rest : List Byte) :
    ∃ u, hfDec (State.attach (headerBytes Config.magicHF (FM.reset.scanned xs).freq ++ rest) none)
        = decodeLoop hfDsym (bitsLeft u + 1) u
      ∧ u.hf.ReadsCodes (HF.reset.built (FM.reset.scanned xs).tree).coded.codeWord (inputSymbols xs)
      ∧ u.snk = ⟨[], none⟩ ∧ u.bitStream = rest.flatMap byteBits := by
  have hcoded : (FM.reset.scanned xs).coded ≠ [] := fun hnil => by
    have heos : (256 : Symbol) ∈ (FM.reset.scanned xs).coded :=
      FM.mem_coded.mpr (by rw [FM.freqAt_scanned_eos]; exact Nat.one_ne_zero)
    rw [hnil] at heos
    exact List.not_mem_nil heos
  have hok : FM.freqAt { FM.reset with freq := (FM.reset.scanned xs).freq } eosSymbol ≠ 0 := by
    have heos : (FM.reset.scanned xs).freqAt 256 ≠ 0 := by rw [FM.freqAt_scanned_eos]; exact Nat.one_ne_zero
    exact heos
  obtain ⟨u, e, hhf, hsnk, _, _, _, _, hb⟩ := hfDec_of_header
    (s := State.attach (headerBytes Config.magicHF (FM.reset.scanned xs).freq ++ rest) none) rfl (.inr hok)
  refine ⟨u, e, ?_, hsnk, hb⟩
  rw [hhf, State.attach_fm, State.attach_hf, FM.tree_congr (m := FM.reset.scanned xs) rfl]
  exact (HF.built_readsCodes _ hcoded).mono fun x hx => FM.mem_treeSymbols_scanned _ hfew hx

/-- R170(e): the whole stream. -/
theorem exec_hfDec_of_stream (hfew : fewOccurrences xs)
    (hp : IsPacked ((inputSymbols xs).flatMap (HF.reset.built (FM.reset.scanned xs).tree).coded.codeWord) payload) :
    ∃ u, exec .hfDec (State.attach (headerBytes Config.magicHF (FM.reset.scanned xs).freq ++ payload) none) = .next u
      ∧ u.status = 0 ∧ u.snk.data = xs := by
  obtain ⟨u, e, H, hsnk, hb⟩ := hfDec_attach hfew payload
  rw [hp.flatMap_byteBits] at hb
  obtain ⟨t, et, ht⟩ := decodeLoop_of_codes _ xs (bitsLeft u + 1) u H (by rw [hsnk]) hb
    (Nat.lt_succ_of_le u.bitStream_length_le)
  have hstatus := Op.Preserves.status_of_ok (fun _ hP => hP.keeps_hfDec) (e.trans et)
  refine ⟨_, exec_hfDec_of_ok (State.attach_status _ _) (e.trans et) hstatus, hstatus, ?_⟩
  change t.snk.data = xs
  rw [ht, hsnk]
  rfl

/-- R170(g): a stream cut anywhere. -/
theorem exec_hfDec_of_cutStream (hfew : fewOccurrences xs)
    (hp : IsPacked ((inputSymbols xs).flatMap (HF.reset.built (FM.reset.scanned xs).tree).coded.codeWord) payload)
    {k : Nat} (hk : k < (headerBytes Config.magicHF (FM.reset.scanned xs).freq ++ payload).length) :
    ∃ u, exec .hfDec (State.attach ((headerBytes Config.magicHF (FM.reset.scanned xs).freq ++ payload).take k) none)
        = .next u ∧ u.status = 1 ∧ u.snk.data <+: xs := by
  have hlen := headerBytes_length Config.magicHF (FM.reset.scanned xs).freq
  by_cases hhdr : k < 1036
  · rw [List.take_append_of_le_length (by omega)]
    have e : hfDec (State.attach ((headerBytes Config.magicHF (FM.reset.scanned xs).freq).take k) none) = _ :=
      Op.bind_of_error (fmRhdr_of_cut hhdr rfl)
    exact ⟨_, exec_hfDec_of_raise (State.attach_status _ _) e, rfl, List.nil_prefix⟩
  · rw [List.take_append, List.take_of_length_le (by omega), hlen]
    obtain ⟨u, e, H, hsnk, hb⟩ := hfDec_attach hfew (payload.take (k - 1036))
    rw [List.length_append, hlen] at hk
    have hsize := hp.1
    have hblen : u.bitStream.length = 8 * (k - 1036) := by
      rw [hb, flatMap_byteBits_length, List.length_take]
      omega
    have hwhole : u.bitStream <+: payload.flatMap byteBits := by
      rw [hb]
      exact ((List.take_prefix _ _).flatMap _)
    rw [hp.flatMap_byteBits] at hwhole
    obtain ⟨t, ys, et, ht, hys⟩ := decodeLoop_of_cutCodes xs (bitsLeft u + 1) u H (by rw [hsnk])
      (List.prefix_of_prefix_length_le hwhole (List.prefix_append _ _) (by omega)) (by omega)
      (Nat.lt_succ_of_le u.bitStream_length_le)
    refine ⟨_, exec_hfDec_of_raise (State.attach_status _ _) (e.trans et), rfl, ?_⟩
    change t.snk.data <+: xs
    rw [ht, hsnk]
    exact hys

end

/-- Settles O41: the stream is the header and the packed codes of the input, which is read back from it, and from less of it a
beginning of the input. -/
theorem huffmanRoundTrip : Obligations.HuffmanRoundTrip := by
  intro xs hfew
  obtain ⟨payload, e, hp⟩ := hfEnc_of_unbounded (s := State.attach xs none) rfl hfew
  exact ⟨_, runCommand_noValue_encoded (State.attach_status _ _) e, rfl, exec_hfDec_of_stream hfew hp,
    fun _ hk => exec_hfDec_of_cutStream hfew hp hk⟩

end Sys2Proof.Machine

/-! SUPPORT. A decoder and its expansion (R169, R201, R228): the commands before the first symbol run as one piece of
pseudocode, and the loop does what the symbol command does, turn by turn. -/

namespace Sys2Proof.Machine

open Sys2Proof

/-! ## Commands in a row -/

/-- The command runs this operation, which does not see the result port. -/
structure Runs (i : Instr) (op : Op Unit) : Prop where
  exec_eq : ∀ s, exec i s = runCommand (noValue op) s
  portBlind : op.PortBlind
  keeps : ∀ P, StreamInvariant P → Op.Preserves P op

/-- The command runs this operation and answers its symbol. -/
structure ReadsSymbol (i : Instr) (d : Op Symbol) : Prop where
  exec_eq : ∀ s, exec i s = runCommand (do let x ← d; pure (.val (symbolValue x))) s
  portBlind : d.PortBlind
  keeps : ∀ P, StreamInvariant P → Op.Preserves P d

section
variable {is : List Instr} {ops : List (Op Unit)} (h : List.Forall₂ Runs is ops)
include h

theorem inOrder_portBlind : (inOrder ops).PortBlind := by
  induction h with
  | nil => exact .pure ()
  | cons hi _ ih => exact hi.portBlind.bind fun _ => ih

theorem inOrder_keeps {P : State → Prop} (hP : StreamInvariant P) : Op.Preserves P (inOrder ops) := by
  induction h with
  | nil => exact .pure ()
  | cons hi _ ih => exact (hi.keeps P hP).bind fun _ => ih

/-- R281: after an error the commands that follow are refused, and answer as the error did. -/
theorem runInstrs_refused (s : State) (k : ErrorKind) : runInstrs is (s.takeError k) = .next (s.takeError k) := by
  induction h with
  | nil => rfl
  | cons hi _ ih =>
    rw [runInstrs, hi.exec_eq, runCommand_refused k.code_ne_zero]
    exact ih

/-- Commands in a row are one piece of pseudocode. With no command, nothing is answered. -/
theorem runInstrs_eq_finish_inOrder {s : State} (h0 : s.status = 0) (hnil : is = [] → s.resp = answerNone) :
    runInstrs is s = finish (inOrder ops s) := by
  induction h generalizing s with
  | nil => rw [inOrder, Op.pure_run, finish, State.answer_none_of_ok h0, ← hnil rfl]; rfl
  | @cons i op is ops hi hrest ih =>
    rw [runInstrs, hi.exec_eq, runCommand_noValue h0, inOrder, Op.bind_run]
    rcases e : op s with ⟨_, u⟩ | ⟨k | _, u⟩
    · have hu : u.status = 0 := (Op.Preserves.status_of_ok hi.keeps e).trans h0
      exact (ih (s := u.answer .none) hu fun _ => by rw [State.answer_none_of_ok hu]).trans
        ((inOrder_portBlind hrest).finish_withResp u (u.answer .none).resp)
    · exact runInstrs_refused hrest u k
    · rfl

end

/-! ## The loop as its symbol commands -/

section
variable {i : Instr} {d : Op Symbol} (h : ReadsSymbol i d) {s t : State}
include h

theorem ReadsSymbol.exec_of_ok {x : Symbol} (h0 : s.status = 0) (e : d s = .ok x t) :
    exec i s = .next (t.withResp (answerVal (symbolValue x))) := by
  have ht : t.status = 0 := (Op.Preserves.status_of_ok h.keeps e).trans h0
  have hrun : runCommand (do let x ← d; pure (.val (symbolValue x))) s = _ := runCommand_ok h0 (Op.bind_of_ok e)
  rw [h.exec_eq, hrun, State.answer_val_of_ok ht]
  rfl

theorem ReadsSymbol.exec_of_raise {k : ErrorKind} (h0 : s.status = 0) (e : d s = .error (.raise k) t) :
    exec i s = .next (t.failed k.code) := by
  rw [h.exec_eq]
  exact runCommand_raise h0 (Op.bind_of_error e)

end

theorem symbolValue_of_ne_eos {x : Symbol} (hx : x ≠ eosSymbol) : symbolValue x = (symbolByte x).setWidth 32 := by
  have hlt : x.val < 256 := by
    have hne : x.val ≠ 256 := fun h => hx (Fin.ext h)
    have := x.isLt
    omega
  refine BitVec.eq_of_toNat_eq ?_
  rw [symbolValue, symbolByte, BitVec.toNat_setWidth, BitVec.toNat_ofNat, BitVec.toNat_ofNat]
  omega

/-- A sink that is not overfull has room for a byte, or takes no byte. -/
theorem snkWrite_cases {s : State} (hwf : Memory.wf s.src s.snk = true) (b : Byte) :
    (s.hasRoom 1 = false ∧ snkWrite b s = .error (.raise .sinkFailure) s)
      ∨ (s.hasRoom 1 = true ∧ snkWrite b s = .ok () (s.wrote [b])) := by
  obtain ⟨_, hcap⟩ := (Memory.wf_iff _ _).mp hwf
  obtain ⟨hfull, e⟩ | ⟨hroom, e⟩ := snkWrite_run b s
  · refine .inl ⟨?_, e⟩
    simp only [State.hasRoom, hfull]
    exact decide_eq_false (by omega)
  · refine .inr ⟨?_, e⟩
    cases hc : s.snk.cap with
    | none => exact State.hasRoom_of_none 1 hc
    | some c =>
      have hle := hcap c hc
      have hne : c ≠ s.snk.data.length := fun hcl => hroom (by rw [hc, hcl])
      simp only [State.hasRoom, hc]
      exact decide_eq_true (by omega)

/-- The loop of a decoder that uses up no bound on its turns is a run of the symbol command, with the same end but for the
answer. -/
theorem decodeLoop_decodesTo {i : Instr} {d : Op Symbol} (h : ReadsSymbol i d) : ∀ (k : Nat) (s : State), s.status = 0 →
    Memory.wf s.src s.snk = true → (∀ t, decodeLoop d k s ≠ .error .loopBound t) →
    ∃ bs v, DecodesTo i s bs v
      ∧ finish (decodeLoop d k s) = .next { v with resp := if v.status = 0 then answerNone else v.resp }
  | 0, s, _, _, hend => absurd rfl (hend s)
  | k + 1, s, h0, hwf, hend => by
    rcases e : d s with ⟨x, t⟩ | ⟨j | _, t⟩
    case error.loopBound => exact absurd (decodeLoop_of_error e) (hend t)
    case error.raise =>
      have hexec := h.exec_of_raise h0 e
      have hne : (t.failed j.code).status ≠ 0 := j.code_ne_zero
      refine ⟨[], _, .error hexec hne, ?_⟩
      rw [decodeLoop_of_error e, if_neg hne]
      rfl
    case ok =>
      have hexec := h.exec_of_ok h0 e
      have ht : t.status = 0 := (Op.Preserves.status_of_ok h.keeps e).trans h0
      by_cases hx : x = eosSymbol
      · subst hx
        refine ⟨[], _, .eos hexec rfl, ?_⟩
        have hu : (t.withResp (answerVal (symbolValue eosSymbol))).status = 0 := ht
        rw [decodeLoop_of_eos e, if_pos hu, finish, State.answer_none_of_ok ht]
        rfl
      · have hresp := congrArg answerVal (symbolValue_of_ne_eos hx)
        have htwf : Memory.wf t.src t.snk = true := (exec_streamsFrom hexec).wf hwf
        rw [decodeLoop_of_symbol hx e] at hend ⊢
        obtain ⟨hfull, ew⟩ | ⟨hroom, ew⟩ := snkWrite_cases htwf (symbolByte x)
        · refine ⟨[], _, .full hexec hresp hfull, ?_⟩
          rw [Op.bind_of_error ew]
          rfl
        · rw [Op.bind_of_ok ew] at hend ⊢
          have hloop := h.portBlind.decodeLoop k (t.wrote [symbolByte x]) (answerVal (symbolValue x))
          have hwwf : Memory.wf (t.wrote [symbolByte x]).src (t.wrote [symbolByte x]).snk = true :=
            Memory.wf_snkWrite htwf ew
          obtain ⟨bs, v, hv, hfin⟩ := decodeLoop_decodesTo h k
            ((t.wrote [symbolByte x]).withResp (answerVal (symbolValue x))) ht hwwf
            fun u eu => by
              rw [hloop] at eu
              rcases er : decodeLoop d k (t.wrote [symbolByte x]) with ⟨a, w⟩ | ⟨z, w⟩ <;> rw [er] at eu <;> cases eu
              exact hend _ er
          refine ⟨symbolByte x :: bs, v, .byte hexec hresp hroom hv, ?_⟩
          rw [← hfin, (h.portBlind.decodeLoop k).finish_withResp]

/-- R169, R201, R228: a decoder that uses up no bound on its turns is its expansion. -/
theorem decoder_expands {dec dsym : Instr} {is : List Instr} {op : Op Unit} {d : Op Symbol} {ops : List (Op Unit)}
    {bound : State → Nat} (hdec : ∀ s, exec dec s = runCommand (noValue op) s)
    (hop : op = (do inOrder ops; reading fun s => decodeLoop d (bound s))) (hprep : List.Forall₂ Runs is ops)
    (hne : is ≠ []) (hsym : ReadsSymbol dsym d) (hend : ∀ s t, op s ≠ .error .loopBound t) {s : State}
    (h0 : s.status = 0) (hwf : Memory.wf s.src s.snk = true) :
    ∃ u, runInstrs is s = .next u
      ∧ (u.status ≠ 0 → exec dec s = .next u)
      ∧ (u.status = 0 → ∃ bs v, DecodesTo dsym u bs v
          ∧ exec dec s = .next { v with resp := if v.status = 0 then answerNone else v.resp }) := by
  rw [runInstrs_eq_finish_inOrder hprep h0 (fun hnil => absurd hnil hne), hdec, runCommand_noValue h0]
  have hs := hend s
  rw [hop] at hs ⊢
  rcases e : inOrder ops s with ⟨_, t⟩ | ⟨k | _, t⟩
  · have ht : t.status = 0 := (Op.Preserves.status_of_ok (fun _ hP => inOrder_keeps hprep hP) e).trans h0
    have htwf : Memory.wf t.src t.snk = true :=
      ((inOrder_keeps hprep s.streamsFrom_invariant).of_ok (.refl s) e).wf hwf
    rw [Op.bind_of_ok e, reading_run] at hs ⊢
    refine ⟨t.answer .none, rfl, fun hu => absurd ht hu, fun _ => ?_⟩
    have hloop := hsym.portBlind.decodeLoop (bound t) t (t.answer .none).resp
    obtain ⟨bs, v, hv, hfin⟩ := decodeLoop_decodesTo hsym (bound t) (t.answer .none) ht htwf fun w ew => by
      rw [show t.answer .none = t.withResp (t.answer .none).resp from rfl, hloop] at ew
      rcases er : decodeLoop d (bound t) t with ⟨a, w⟩ | ⟨z, w⟩ <;> rw [er] at ew <;> cases ew
      exact hs _ er
    exact ⟨bs, v, hv, by rw [← hfin]; exact ((hsym.portBlind.decodeLoop _).finish_withResp _ _).symm⟩
  · rw [Op.bind_of_error e]
    exact ⟨_, rfl, fun _ => rfl, fun hu => absurd hu k.code_ne_zero⟩
  · exact absurd (Op.bind_of_error e) (hs t)

end Sys2Proof.Machine

/-! SUPPORT. How operations end (R273, R319): the errors they raise, with no bound on their turns used up, and what holds where
they return. -/

namespace Sys2Proof.Machine

open Sys2Proof

/-- From a state with P the operation raises errors of K only, uses up no bound on its turns, and where it returns a value and a
state they have Q. -/
def Op.EndsWith {α : Type} (P : State → Prop) (op : Op α) (K : List ErrorKind) (Q : α → State → Prop) : Prop :=
  ∀ s, P s → (∀ a t, op s = .ok a t → Q a t) ∧ ∀ e t, op s = .error e t → ∃ k ∈ K, e = .raise k

section
variable {α β : Type} {P P' : State → Prop} {K K' : List ErrorKind} {Q Q' : α → State → Prop} {R : β → State → Prop}

theorem Op.EndsWith.of_ok {op : Op α} {s t : State} {a : α} (h : op s = .ok a t) (hq : Q a t) :
    Op.EndsWith (· = s) op K Q := by
  rintro _ rfl
  refine ⟨fun a' t' e => ?_, fun z t' e => ?_⟩ <;> rw [h] at e <;> cases e
  exact hq

theorem Op.EndsWith.of_raise {op : Op α} {s t : State} {k : ErrorKind} (h : op s = .error (.raise k) t) (hk : k ∈ K) :
    Op.EndsWith (· = s) op K Q := by
  rintro _ rfl
  refine ⟨fun a' t' e => ?_, fun z t' e => ?_⟩ <;> rw [h] at e <;> cases e
  exact ⟨k, hk, rfl⟩

theorem Op.EndsWith.each {op : Op α} (h : ∀ s, P s → Op.EndsWith (· = s) op K Q) : Op.EndsWith P op K Q :=
  fun s hs => h s hs s rfl

theorem Op.EndsWith.pure {a : α} (h : ∀ s, P s → Q a s) : Op.EndsWith P (Pure.pure a : Op α) K Q :=
  .each fun s hs => .of_ok rfl (h s hs)

theorem Op.EndsWith.raise {k : ErrorKind} (hk : k ∈ K) : Op.EndsWith P (Machine.raise k : Op α) K Q :=
  .each fun _ _ => .of_raise rfl hk

theorem Op.EndsWith.bind {x : Op α} {f : α → Op β} (hx : x.EndsWith P K Q) (hf : ∀ a, (f a).EndsWith (Q a) K R) :
    Op.EndsWith P (x >>= f) K R := fun s hs => by
  obtain ⟨hok, herr⟩ := hx s hs
  refine ⟨fun b t e => ?_, fun z t e => ?_⟩
  · obtain ⟨a, u, ea, eb⟩ := Op.bind_eq_ok.mp e
    exact (hf a u (hok a u ea)).1 b t eb
  · obtain e | ⟨a, u, ea, eb⟩ := Op.bind_eq_error.mp e
    · exact herr z t e
    · exact (hf a u (hok a u ea)).2 z t eb

theorem Op.EndsWith.mono {op : Op α} (h : op.EndsWith P K Q) (hP : ∀ s, P' s → P s) (hK : K ⊆ K')
    (hQ : ∀ a t, Q a t → Q' a t) : op.EndsWith P' K' Q' := fun s hs => by
  obtain ⟨hok, herr⟩ := h s (hP s hs)
  refine ⟨fun a t e => hQ a t (hok a t e), fun z t e => ?_⟩
  obtain ⟨k, hk, hz⟩ := herr z t e
  exact ⟨k, hK hk, hz⟩

theorem Op.EndsWith.reading {f : State → Op α} (h : ∀ s, P s → (f s).EndsWith (· = s) K Q) :
    Op.EndsWith P (Machine.reading f) K Q := fun s hs => h s hs s rfl

theorem Op.EndsWith.repeatOp {op : Op Unit} {T : Nat → State → Prop} (h : ∀ n, op.EndsWith (T (n + 1)) K fun _ => T n) :
    ∀ n, Op.EndsWith (T n) (Machine.repeatOp op n) K fun _ => T 0
  | 0 => .pure fun _ hs => hs
  | n + 1 => (h n).bind fun _ => Op.EndsWith.repeatOp h n

/-- The end of the command that runs the operation. -/
theorem Op.EndsWith.runCommand {op : Op Unit} {Q : Unit → State → Prop} (h : op.EndsWith (fun _ => True) K Q)
    (hkeeps : ∀ P, StreamInvariant P → Op.Preserves P op) {s : State} (h0 : s.status = 0) :
    ∃ t, Machine.runCommand (noValue op) s = .next t ∧ t.status ∈ 0 :: K.map ErrorKind.code := by
  obtain ⟨_, herr⟩ := h s trivial
  rcases e : op s with ⟨_, t⟩ | ⟨z, t⟩
  · have ht : t.status = 0 := (Op.Preserves.status_of_ok hkeeps e).trans h0
    exact ⟨_, runCommand_noValue_ok h0 e ht, by rw [← ht]; exact List.mem_cons_self⟩
  · obtain ⟨k, hk, rfl⟩ := herr z t e
    exact ⟨_, runCommand_noValue_raise h0 e, List.mem_cons_of_mem _ (List.mem_map_of_mem hk)⟩

theorem Op.EndsWith.ends {op : Op α} (h : op.EndsWith (fun _ => True) K Q) (s t : State) :
    op s ≠ .error .loopBound t := fun e => by
  obtain ⟨k, _, hk⟩ := (h s trivial).2 _ t e
  cases hk

end

/-! ## The loop of a decoder -/

/-- R203(a), R230(c): why the loop of a decoder ends: a symbol is read with errors of K only, and each but EOS makes μ smaller;
a byte written does not change μ. -/
structure Op.Advances (d : Op Symbol) (I : State → Prop) (μ : State → Nat) (K : List ErrorKind) : Prop where
  symbol : ∀ s, I s → d.EndsWith (· = s) K fun x t => x ≠ eosSymbol → I t ∧ μ t < μ s
  wrote : ∀ s bs, I s → I (s.wrote bs) ∧ μ (s.wrote bs) = μ s

theorem snkWrite_endsWith {P : State → Prop} {K : List ErrorKind} (b : Byte) :
    (snkWrite b).EndsWith P (.sinkFailure :: K) fun _ t => ∃ s, P s ∧ t = s.wrote [b] := .each fun s hs => by
  obtain ⟨_, e⟩ | ⟨_, e⟩ := snkWrite_run b s
  · exact .of_raise e List.mem_cons_self
  · exact .of_ok e ⟨s, hs, rfl⟩

theorem Op.Advances.decodeLoop {d : Op Symbol} {I : State → Prop} {μ : State → Nat} {K : List ErrorKind}
    (h : d.Advances I μ K) : ∀ n, (decodeLoop d n).EndsWith (fun s => I s ∧ μ s < n) (.sinkFailure :: K) fun _ _ => True
  | 0 => fun s hs => absurd hs.2 (Nat.not_lt_zero _)
  | n + 1 => .each fun s ⟨hI, hμ⟩ => by
    refine ((h.symbol s hI).mono (fun _ => id) (List.subset_cons_self _ _) fun _ _ => id).bind fun x => ?_
    split
    · exact .pure fun _ _ => trivial
    next hx =>
      refine (snkWrite_endsWith (symbolByte x)).bind fun _ =>
        (Op.Advances.decodeLoop h n).mono (fun u hu => ?_) (fun _ => id) fun _ _ => id
      obtain ⟨t, ht, rfl⟩ := hu
      obtain ⟨hIt, hlt⟩ := ht hx
      obtain ⟨hIw, hμw⟩ := h.wrote t [symbolByte x] hIt
      exact ⟨hIw, by omega⟩

/-! ## The header and the table (R149, R146) -/

theorem readWordOrTruncation_endsWith : readWordOrTruncation.EndsWith (fun _ => True) [.truncation] fun _ _ => True :=
  .each fun s _ => by
    by_cases h : s.remaining.length < 4
    · exact .of_raise (readWordOrTruncation_of_short h) List.mem_cons_self
    · obtain ⟨v, rest, hv⟩ := exists_leBytes32_append (Nat.le_of_not_lt h)
      exact .of_ok (readWordOrTruncation_of_le hv) trivial

theorem readWords_endsWith : ∀ n, (readWords n).EndsWith (fun _ => True) [.truncation] fun _ _ => True
  | 0 => .pure fun _ _ => trivial
  | n + 1 => (readWords_endsWith n).bind fun _ => readWordOrTruncation_endsWith.bind fun _ => .pure fun _ _ => trivial

/-- R149: what the header gives: no count, or a count for EOS. -/
def FM.hasEos (m : FM) : Prop := m.total = 0 ∨ m.freqAt eosSymbol ≠ 0

theorem headerHasEos_endsWith {K : List ErrorKind} (hK : .badHeader ∈ K) :
    headerHasEos.EndsWith (fun _ => True) K fun _ t => t.fm.hasEos := .each fun s _ => by
  obtain ⟨_, _, e⟩ | ⟨h, e⟩ := headerHasEos_run s
  · exact .of_raise e hK
  · exact .of_ok e h

/-- R277 item 2: the errors of a header. -/
def headerErrors : List ErrorKind := [.truncation, .badMagic, .badHeader]

theorem fmRhdr_endsWith (tag : Word) : (fmRhdr tag).EndsWith (fun _ => True) headerErrors fun _ t => t.fm.hasEos := by
  have hsub : [ErrorKind.truncation] ⊆ headerErrors := by simp [headerErrors]
  have hword := readWordOrTruncation_endsWith.mono (fun _ => id) hsub fun _ _ => id
  rw [fmRhdr_eq]
  refine hword.bind fun v => ?_
  split
  · exact .raise (by simp [headerErrors])
  · rw [rhdrCount]
    refine hword.bind fun n => ?_
    split
    · exact .raise (by simp [headerErrors])
    · rw [rhdrTable]
      refine ((readWords_endsWith 257).mono (fun _ => id) hsub fun _ _ => id).bind fun f => ?_
      refine Op.EndsWith.bind (Q := fun _ _ => True) (.each fun s _ => .of_ok (loadFreq_run f s) trivial) fun _ => ?_
      exact headerHasEos_endsWith (by simp [headerErrors])

/-- What the interval decoders rest on: a legal table, in which EOS has a share. -/
def FM.Decodable (m : FM) : Prop := m.cumLegal ∧ m.cumAt 256 < m.cumAt 257

/-- R146: a table made from no counts gives every symbol a share. -/
theorem fmCum_endsWith : fmCum.EndsWith (fun s => s.fm.hasEos) headerErrors fun _ t => t.fm.Decodable := .each fun s hs => by
  obtain ⟨_, e⟩ | ⟨hle, e⟩ := fmCum_run s
  · exact .of_raise e (by simp [headerErrors])
  · refine .of_ok e ⟨FM.cumTable_cumLegal hle, ?_⟩
    rw [State.setFm_fm, FM.cumAt_cumTable s.fm hle (by omega), FM.cumAt_cumTable s.fm hle (by omega)]
    by_cases h0 : s.fm.total = 0
    · rw [if_pos h0, if_pos h0]
      omega
    · have heos := hs.resolve_left h0
      have hsum : s.fm.prefixSum 257 = s.fm.prefixSum 256 + s.fm.freqAt eosSymbol := s.fm.prefixSum_succ eosSymbol
      rw [if_neg h0, if_neg h0]
      omega

/-! ## The Huffman decoder (R167, R169) -/

theorem hfStep_endsWith {s : State} (hroot : s.hf.root ≠ Config.null) :
    hfStep.EndsWith (· = s) [.truncation, .corruptStream] fun _ t =>
      t.hf.root = s.hf.root ∧ t.bitStream.length < s.bitStream.length := by
  have hlen := fun {r t} (e : hfStep s = .ok r t) => hfStep_ok_bitStream e
  obtain ⟨hnone, _⟩ | ⟨_, _, e⟩ | ⟨_, b, n, v, _, e⟩ := hfStep_cases s
  · exact absurd hnone hroot
  · exact .of_raise e (by simp)
  · obtain hc | ⟨r, w, hc⟩ := walkBit_cases b ((s.consumed n).setBr v)
    · exact .of_raise (e.trans hc) (by simp)
    · have := hlen (e.trans hc)
      exact .of_ok (e.trans hc) ⟨rfl, by omega⟩

theorem dsymLoop_endsWith : ∀ (k : Nat) (s : State), s.hf.root ≠ Config.null → s.bitStream.length < k →
    (dsymLoop k).EndsWith (· = s) [.truncation, .corruptStream] fun _ t =>
      t.hf.root = s.hf.root ∧ t.bitStream.length < s.bitStream.length
  | k + 1, s, hroot, hk => (hfStep_endsWith hroot).bind fun
    | some x => .pure fun _ ht => ht
    | none => .each fun t ⟨hr, hlt⟩ =>
      (dsymLoop_endsWith k t (by rw [hr]; exact hroot) (by omega)).mono (fun _ => id) (fun _ => id)
        fun _ u ⟨hru, hltu⟩ => ⟨by rw [hru, hr], by omega⟩

theorem hfDsym_advances : hfDsym.Advances (fun s => s.hf.root ≠ Config.null) (fun s => s.bitStream.length)
    [.truncation, .corruptStream] where
  symbol s hs := by
    refine .reading fun t ht => ?_
    subst ht
    exact (dsymLoop_endsWith _ t hs (Nat.lt_succ_of_le t.bitStream_length_le)).mono (fun _ => id) (fun _ => id)
      fun _ u ⟨hr, hlt⟩ _ => ⟨by rw [hr]; exact hs, hlt⟩
  wrote _ _ hs := ⟨hs, rfl⟩

/-- R273: the errors of the Huffman decoder. -/
theorem hfDec_endsWith : hfDec.EndsWith (fun _ => True)
    [.truncation, .badMagic, .badHeader, .corruptStream, .sinkFailure] fun _ _ => True := by
  refine ((fmRhdr_endsWith _).mono (fun _ => id) (by simp [headerErrors]) fun _ _ => id).bind fun _ => ?_
  refine Op.EndsWith.bind (Q := fun _ t => t.hf.root ≠ Config.null) (.each fun s _ => .of_ok (hfBuild_run s) ?_) fun _ => ?_
  · rw [State.setHf_hf]
    exact HF.built_tree_root s.fm s.hf
  refine Op.EndsWith.bind (Q := fun _ t => t.hf.root ≠ Config.null) (.each fun s hs => .of_ok (brInit_run s) hs) fun _ => ?_
  refine .reading fun s hs => (hfDsym_advances.decodeLoop _).mono (fun t ht => ?_) (by simp) fun _ _ => id
  subst ht
  exact ⟨hs, Nat.lt_succ_of_le t.bitStream_length_le⟩

end Sys2Proof.Machine

/-! SUPPORT. The two interval decoders (R198, R199, R226): a symbol read keeps the code inside the interval; it makes the
interval smaller or uses up some of the input, unless it is EOS. -/

namespace Sys2Proof.Machine

open Sys2Proof

/-! ## The interval of a symbol -/

theorem rangeSize_of_le {low high : Word} (h : low.toNat ≤ high.toNat) :
    0 < rangeSize low high ∧ rangeSize low high ≤ 2 ^ 32 := by
  have := high.isLt
  unfold rangeSize
  omega

section
variable {m : FM} {low high code : Word} {x : Symbol}

/-- R191: the bounds of the new interval are values of 32 bits. -/
theorem FM.interval_ofNat (hc : m.cumLegal) (hs : m.hasShare low high x.val) :
    (BitVec.ofNat 32 (m.newLow low high x.val)).toNat = m.newLow low high x.val
      ∧ (BitVec.ofNat 32 (m.newHigh low high x.val)).toNat = m.newHigh low high x.val := by
  obtain ⟨_, hle, hhigh⟩ := FM.interval_inside hc hs
  have := high.isLt
  rw [BitVec.toNat_ofNat, BitVec.toNat_ofNat]
  exact ⟨Nat.mod_eq_of_lt (by omega), Nat.mod_eq_of_lt (by omega)⟩

/-- R203(a), R230(c): EOS has a share, so that every other symbol has less than the whole interval. -/
theorem FM.rangeSize_lt (hm : m.Decodable) (hle : low.toNat ≤ high.toNat) (hs : m.hasShare low high x.val)
    (hx : x ≠ eosSymbol) :
    rangeSize (BitVec.ofNat 32 (m.newLow low high x.val)) (BitVec.ofNat 32 (m.newHigh low high x.val))
      < rangeSize low high := by
  obtain ⟨hc, heos⟩ := hm
  obtain ⟨elow, ehigh⟩ := FM.interval_ofNat hc hs
  have hx256 : x.val + 1 ≤ 256 := by
    have hne : x.val ≠ 256 := fun h => hx (Fin.ext h)
    have := x.isLt
    omega
  have hcum : m.cumAt (x.val + 1) < m.cumAt 257 := (FM.cumAt_mono hc hx256 (by omega)).trans_lt heos
  obtain ⟨hr, _⟩ := rangeSize_of_le hle
  have hshare : rangeSize low high * m.cumAt (x.val + 1) / m.cumAt 257 < rangeSize low high := by
    rw [Nat.div_lt_iff_lt_mul (by omega)]
    exact Nat.mul_lt_mul_of_pos_left hcum hr
  have hlt := hs.2
  rw [rangeSize, elow, ehigh, FM.newLow, FM.newHigh]
  generalize rangeSize low high * m.cumAt x.val / m.cumAt 257 = lower at *
  generalize rangeSize low high * m.cumAt (x.val + 1) / m.cumAt 257 = upper at *
  omega

end

/-! ## The arithmetic decoder (R199) -/

/-- R202(c): the code lies in the interval. -/
def AC.Inside (a : AC) : Prop := a.low.toNat ≤ a.code.toNat ∧ a.code.toNat ≤ a.high.toNat

/-- The bits and the fill bits that the arithmetic decoder may still read (R203(a)). -/
def State.acBudget (s : State) : Nat := s.bitStream.length + (32 - s.ac.zfill.val)

section
variable {s : State}

/-- R196, R197: the next bit of the stream is shifted into the code, a fill bit is counted. -/
theorem acShiftIn_run (s : State) : ∃ n v,
    acShiftIn s = .ok () (((s.consumed n).setBr v).setAc { (if s.bitStream = [] then s.ac.countFill else s.ac) with
        code := BitVec.ofNat 32 (2 * s.ac.code.toNat + (s.bitStream.headD false).toNat) })
      ∧ ((s.consumed n).setBr v).bitStream = s.bitStream.tail ∧ (v.eof = true ↔ s.bitStream = [])
      ∧ brRbit s = .ok (s.bitStream.headD false) ((s.consumed n).setBr v) := by
  obtain ⟨n, v, e, hb, hv⟩ := brRbit_run s
  refine ⟨n, v, ?_, hb, hv, e⟩
  rw [acShiftIn, acFill, bind_assoc, Op.bind_of_ok e, bind_assoc, Op.bind_of_ok (acCountFill_run _), pure_bind, modAc_run,
    State.setBr_br]
  by_cases h : s.bitStream = []
  · rw [if_pos (hv.mpr h), if_pos h]
    rfl
  · rw [if_neg (fun hv' => h (hv.mp hv')), if_neg h]
    rfl

/-- A turn of the decoder: what is left to read is less, and the bounds and the table are as they were. -/
theorem acShiftIn_uses (s : State) : ∃ t, acShiftIn s = .ok () t ∧ t.fm = s.fm ∧ t.ac.low = s.ac.low
    ∧ t.ac.high = s.ac.high ∧ t.acBudget ≤ s.acBudget - 1
    ∧ ∃ b : Bool, t.ac.code = BitVec.ofNat 32 (2 * s.ac.code.toNat + b.toNat) := by
  obtain ⟨n, v, e, hb, _⟩ := acShiftIn_run s
  refine ⟨_, e, rfl, ?_, ?_, ?_, _, rfl⟩
  · rw [State.setAc_ac]
    split <;> rfl
  · rw [State.setAc_ac]
    split <;> rfl
  · have hlen := congrArg List.length hb
    rw [List.length_tail] at hlen
    change ((s.consumed n).setBr v).bitStream.length + (32 - (State.setAc _ _).ac.zfill.val) ≤ _
    rw [hlen, State.acBudget, State.setAc_ac]
    by_cases h : s.bitStream = []
    · rw [if_pos h, h, AC.countFill_zfill, List.length_nil]
      omega
    · have := List.length_pos_of_ne_nil h
      rw [if_neg h]
      dsimp only
      omega

/-- R199: a turn keeps the code inside and doubles the interval. -/
theorem AC.Inside.rescale {a b : AC} (h : a.Inside) (hr : a.renorm ≠ .done) (hlow : b.low = (a.rescale a.renorm.bias).low)
    (hhigh : b.high = (a.rescale a.renorm.bias).high) {c : Bool}
    (hcode : b.code = BitVec.ofNat 32 (2 * (BitVec.ofNat 32 (a.code.toNat - a.renorm.bias)).toNat + c.toNat)) :
    b.Inside ∧ rangeSize b.low b.high = 2 * rangeSize a.low a.high := by
  obtain ⟨hl, hh⟩ := h
  have hord : a.Ordered := hl.trans hh
  obtain ⟨hb, hsmall⟩ := AC.bias_le hr
  obtain ⟨elow, ehigh⟩ := AC.rescale_toNat hb hord hsmall
  have hc := Bool.toNat_le c
  refine ⟨?_, by rw [hlow, hhigh, AC.rangeSize_rescale hord hr]⟩
  rw [AC.Inside, hlow, hhigh, elow, ehigh, hcode, BitVec.toNat_ofNat, BitVec.toNat_ofNat]
  omega

theorem acDecLoop_run : ∀ (k : Nat) (s : State), s.ac.Inside → 2 ^ 32 < rangeSize s.ac.low s.ac.high * 2 ^ k →
    ∃ t, acDecLoop k s = .ok () t ∧ t.fm = s.fm ∧ t.ac.Inside ∧ (t = s ∨ t.acBudget ≤ s.acBudget - 1)
  | 0, s, _, hsize => by
    have := s.ac.high.isLt
    rw [rangeSize] at hsize
    omega
  | k + 1, s, hin, hsize => by
    by_cases hr : s.ac.renorm = .done
    · exact ⟨s, acDecLoop_done hr, rfl, hin, .inl rfl⟩
    · obtain ⟨u, eu, hfm, hlow, hhigh, hbudget, c, hcode⟩ :=
        acShiftIn_uses (s.setAc (s.ac.rescaleDec s.ac.renorm.bias))
      have hbudget' : u.acBudget ≤ s.acBudget - 1 := hbudget
      obtain ⟨huin, husize⟩ := hin.rescale hr hlow hhigh hcode
      obtain ⟨t, et, htfm, htin, ht⟩ := acDecLoop_run k u huin (by
        calc 2 ^ 32 < rangeSize s.ac.low s.ac.high * 2 ^ (k + 1) := hsize
          _ = rangeSize u.ac.low u.ac.high * 2 ^ k := by rw [husize]; ring)
      refine ⟨t, ?_, htfm.trans hfm, htin, .inr ?_⟩
      · rw [acDecLoop_turn rfl hr, Op.bind_of_ok (modAc_run _ s), Op.bind_of_ok eu, et]
      · rcases ht with rfl | ht
        · exact hbudget'
        · omega

/-- R198, R202(c): with input left, the code in the interval and a table in which EOS has a share, a symbol is found, and the
interval is narrowed to its share. -/
theorem acDsym_run (hm : s.fm.Decodable) (hin : s.ac.Inside) (hz : s.ac.zfill.val < 32) : ∃ (x : Symbol) (v : Nat),
    acDsym s = (do acDecLoop 33; pure x : Op Symbol) (s.setAc { s.ac with
        low := BitVec.ofNat 32 (s.fm.newLow s.ac.low s.ac.high x.val),
        high := BitVec.ofNat 32 (s.fm.newHigh s.ac.low s.ac.high x.val) })
      ∧ s.fm.hasShare s.ac.low s.ac.high x.val ∧ s.fm.newLow s.ac.low s.ac.high x.val ≤ s.ac.code.toNat
      ∧ s.ac.code.toNat ≤ s.fm.newHigh s.ac.low s.ac.high x.val
      ∧ s.fm.cumAt x.val ≤ v ∧ v < s.fm.cumAt (x.val + 1) := by
  obtain ⟨hc, heos⟩ := hm
  have ⟨hl, hh⟩ := hin
  have hneed : acNeedInput s = .ok () s := by
    obtain ⟨h, _⟩ | ⟨_, e⟩ := acNeedInput_run s
    · omega
    · exact e
  obtain ⟨h0, _⟩ | ⟨_, hout, _⟩ | ⟨h0, _, _, ev⟩ := targetValue_ac_run (hl.trans hh)
  · omega
  · omega
  obtain ⟨hover, _⟩ | ⟨x, ex, h1, h2⟩ := fmFind_run hc
    (((s.ac.code.toNat - s.ac.low.toNat + 1) * s.fm.cumAt 257 - 1) / rangeSize s.ac.low s.ac.high)
  · exact absurd (target_lt_total (by unfold rangeSize; omega) h0) (Nat.not_lt.mpr hover)
  obtain ⟨hs, hlow, hhigh⟩ := share_of_target h0 hl hh h1 h2
  obtain ⟨hno, _⟩ | ⟨_, ei⟩ := intervalUpdate_ac_run x s
  · exact absurd hs hno
  refine ⟨x, _, ?_, hs, hlow, hhigh, h1, h2⟩
  rw [acDsym, Op.bind_of_ok hneed, Op.bind_of_ok ev, Op.bind_of_ok ex, Op.bind_of_ok ei]

/-- R202: the invariant of the arithmetic decoder. -/
def State.AcDecodes (s : State) : Prop := s.fm.Decodable ∧ s.ac.Inside

theorem acDsym_advances : acDsym.Advances State.AcDecodes
    (fun s => s.acBudget * 2 ^ 32 + rangeSize s.ac.low s.ac.high) [.truncation] where
  symbol s hs := by
    obtain ⟨hm, hin⟩ := hs
    by_cases hz : s.ac.zfill.val < 32
    case neg =>
      obtain ⟨_, e⟩ | ⟨h, _⟩ := acNeedInput_run s
      · exact .of_raise (Op.bind_of_error e) List.mem_cons_self
      · exact absurd h hz
    obtain ⟨x, v, e, hshare, hlow, hhigh, _⟩ := acDsym_run hm hin hz
    obtain ⟨elow, ehigh⟩ := FM.interval_ofNat hm.1 hshare
    generalize hu : s.setAc _ = u at e
    obtain ⟨hul, huh, huc, hufm⟩ : u.ac.low = BitVec.ofNat 32 (s.fm.newLow s.ac.low s.ac.high x.val)
        ∧ u.ac.high = BitVec.ofNat 32 (s.fm.newHigh s.ac.low s.ac.high x.val) ∧ u.ac.code = s.ac.code ∧ u.fm = s.fm := by
      subst hu; exact ⟨rfl, rfl, rfl, rfl⟩
    have hbudget : u.acBudget = s.acBudget := by subst hu; rfl
    have huin : u.ac.Inside := by rw [AC.Inside, hul, huh, huc, elow, ehigh]; exact ⟨hlow, hhigh⟩
    have hsmaller := fun hx => FM.rangeSize_lt hm (hin.1.trans hin.2) hshare (x := x) hx
    rw [← hul, ← huh] at hsmaller
    have hsize : ∀ a : AC, a.Inside → 0 < rangeSize a.low a.high ∧ rangeSize a.low a.high ≤ 2 ^ 32 := fun a ha =>
      rangeSize_of_le (ha.1.trans ha.2)
    obtain ⟨t, et, htfm, htin, ht⟩ := acDecLoop_run 33 u huin (by have := hsize _ huin; omega)
    refine .of_ok (e.trans (Op.bind_of_ok et)) fun hx => ⟨⟨by rw [htfm, hufm]; exact hm, htin⟩, ?_⟩
    have hs' := hsize _ hin
    have ht' := hsize _ htin
    have hpos : 0 < s.acBudget := by unfold State.acBudget; omega
    rcases ht with rfl | ht
    · have := hsmaller hx
      rw [hbudget]
      omega
    · rw [hbudget] at ht
      omega
  wrote _ _ hs := ⟨hs, rfl⟩

end

theorem acDinit_endsWith : acDinit.EndsWith (fun s => s.fm.Decodable) headerErrors fun _ t => t.AcDecodes := by
  refine Op.EndsWith.bind (Q := fun _ t => t.fm.Decodable ∧ t.ac.low = 0 ∧ t.ac.high = 0xFFFFFFFF)
    (.each fun s hs => .of_ok (modAc_run _ s) ⟨hs, rfl, rfl⟩) fun _ => ?_
  refine (Op.EndsWith.repeatOp (T := fun _ t => t.fm.Decodable ∧ t.ac.low = 0 ∧ t.ac.high = 0xFFFFFFFF)
    (fun n => .each fun s ⟨hm, hl, hh⟩ => ?_) 32).mono (fun _ => id) (fun _ => id) fun _ t ⟨hm, hl, hh⟩ => ⟨hm, ?_⟩
  · obtain ⟨t, e, hfm, hlow, hhigh, _⟩ := acShiftIn_uses s
    exact .of_ok e ⟨by rw [hfm]; exact hm, hlow.trans hl, hhigh.trans hh⟩
  · rw [AC.Inside, hl, hh]
    exact ⟨Nat.zero_le _, Nat.le_of_lt_succ t.ac.code.isLt⟩

/-- R202, R273: the errors of the arithmetic decoder. -/
theorem acDec_endsWith : acDec.EndsWith (fun _ => True) [.truncation, .badMagic, .badHeader, .sinkFailure]
    fun _ _ => True := by
  have hsub : headerErrors ⊆ [.truncation, .badMagic, .badHeader, .sinkFailure] := by simp [headerErrors]
  refine ((fmRhdr_endsWith _).mono (fun _ => id) hsub fun _ _ => id).bind fun _ => ?_
  refine (fmCum_endsWith.mono (fun _ => id) hsub fun _ _ => id).bind fun _ => ?_
  refine Op.EndsWith.bind (Q := fun _ t => t.fm.Decodable) (.each fun s hs => .of_ok (brInit_run s) hs) fun _ => ?_
  refine (acDinit_endsWith.mono (fun _ => id) hsub fun _ _ => id).bind fun _ => ?_
  refine .reading fun s hs => (acDsym_advances.decodeLoop _).mono (fun t ht => ?_) (by simp) fun _ _ => id
  subst ht
  refine ⟨hs, ?_⟩
  have hbits := t.bitStream_length_le
  have hhigh := t.ac.high.isLt
  rw [acDecBound, State.acBudget, rangeSize, Config.full, Config.acZfillMax]
  omega

end Sys2Proof.Machine

/-! SUPPORT. The range decoder (R224, R226): the same with bytes, four of which fill the code. -/

namespace Sys2Proof.Machine

open Sys2Proof

/-- R220: the code lies in the interval. -/
def RC.Inside (r : RC) : Prop := r.low.toNat ≤ r.code.toNat ∧ r.code.toNat ≤ r.high.toNat

/-- The bytes and the fill bytes that the range decoder may still read (R230(c)). -/
def State.rcBudget (s : State) : Nat := s.remaining.length + (4 - s.rc.zfill.val)

/-- R222, R225: a byte shifted into a word. -/
theorem shiftLeft_or_toNat (w b : Word) (hb : b.toNat < 256) :
    (w <<< 8 ||| b).toNat = w.toNat % 2 ^ 24 * 256 + b.toNat := by
  rw [BitVec.toNat_or, BitVec.toNat_shiftLeft, Nat.shiftLeft_eq,
    show w.toNat * 2 ^ 8 % 2 ^ 32 = (w.toNat % 2 ^ 24) <<< 8 by rw [Nat.shiftLeft_eq]; omega,
    ← Nat.shiftLeft_add_eq_or_of_lt (by omega), Nat.shiftLeft_eq]

section
variable {s : State}

/-- R224, R225: the next byte of the source is shifted into the code, a fill byte is counted. -/
theorem rcShiftIn_run (s : State) :
    rcShiftIn s = .ok () ((s.consumed (min 1 s.remaining.length)).setRc
      { (if s.remaining = [] then s.rc.countFill else s.rc) with
        code := s.rc.code <<< 8 ||| (s.remaining.headD 0).setWidth 32 }) := by
  rw [rcShiftIn, Op.bind_run, rcFill_run]
  cases h : s.remaining with
  | nil => rfl
  | cons b l =>
    rw [if_neg (List.cons_ne_nil _ _), List.length_cons, Nat.min_eq_left (by omega)]
    rfl

/-- A turn of the decoder: what is left to read is less, and the bounds and the table are as they were. -/
theorem rcShiftIn_uses (s : State) : ∃ t, rcShiftIn s = .ok () t ∧ t.fm = s.fm ∧ t.rc.low = s.rc.low
    ∧ t.rc.high = s.rc.high ∧ t.rcBudget ≤ s.rcBudget - 1 ∧ ∃ b : Byte, t.rc.code = s.rc.code <<< 8 ||| b.setWidth 32 := by
  refine ⟨_, rcShiftIn_run s, rfl, ?_, ?_, ?_, _, rfl⟩
  · rw [State.setRc_rc]
    split <;> rfl
  · rw [State.setRc_rc]
    split <;> rfl
  · change (s.consumed _).remaining.length + (4 - (State.setRc _ _).rc.zfill.val) ≤ _
    rw [State.remaining_consumed, List.length_drop, State.rcBudget, State.setRc_rc]
    by_cases h : s.remaining = []
    · rw [if_pos h, h, RC.countFill_zfill, List.length_nil]
      omega
    · have := List.length_pos_of_ne_nil h
      rw [if_neg h]
      dsimp only
      omega

/-- R226: a turn keeps the code inside and makes the interval 256 times as large. -/
theorem RC.Inside.shiftOut {a b : RC} (h : a.Inside) (ht : a.sameTop = true) (hlow : b.low = a.shiftOut.low)
    (hhigh : b.high = a.shiftOut.high) {c : Byte} (hcode : b.code = a.code <<< 8 ||| c.setWidth 32) :
    b.Inside ∧ rangeSize b.low b.high = 256 * rangeSize a.low a.high := by
  obtain ⟨hl, hh⟩ := h
  have htop := RC.div_eq_of_sameTop ht
  have elow : b.low.toNat = a.low.toNat % 2 ^ 24 * 256 := by
    rw [hlow, RC.shiftOut, BitVec.toNat_shiftLeft, Nat.shiftLeft_eq]
    omega
  have ehigh : b.high.toNat = a.high.toNat % 2 ^ 24 * 256 + 255 := by
    rw [hhigh, RC.shiftOut]
    exact shiftLeft_or_toNat _ _ (by decide)
  have hc : (c.setWidth 32).toNat < 256 := by
    have := c.isLt
    rw [BitVec.toNat_setWidth]
    omega
  have ecode : b.code.toNat = a.code.toNat % 2 ^ 24 * 256 + (c.setWidth 32).toNat := by
    rw [hcode, shiftLeft_or_toNat _ _ hc]
  rw [RC.Inside, rangeSize, rangeSize, elow, ehigh, ecode]
  omega

theorem rcDecLoop_run : ∀ (k : Nat) (s : State), s.rc.Inside → 2 ^ 32 < rangeSize s.rc.low s.rc.high * 256 ^ k →
    ∃ t, rcDecLoop k s = .ok () t ∧ t.fm = s.fm ∧ t.rc.Inside ∧ (t = s ∨ t.rcBudget ≤ s.rcBudget - 1)
  | 0, s, _, hsize => by
    have := s.rc.high.isLt
    rw [rangeSize] at hsize
    omega
  | k + 1, s, hin, hsize => by
    cases ht : s.rc.sameTop with
    | false => exact ⟨s, rcDecLoop_done ht, rfl, hin, .inl rfl⟩
    | true =>
      obtain ⟨u, eu, hfm, hlow, hhigh, hbudget, c, hcode⟩ := rcShiftIn_uses (s.setRc s.rc.shiftOut)
      have hbudget' : u.rcBudget ≤ s.rcBudget - 1 := hbudget
      obtain ⟨huin, husize⟩ := hin.shiftOut ht hlow hhigh hcode
      obtain ⟨t, et, htfm, htin, hend⟩ := rcDecLoop_run k u huin (by
        calc 2 ^ 32 < rangeSize s.rc.low s.rc.high * 256 ^ (k + 1) := hsize
          _ = rangeSize u.rc.low u.rc.high * 256 ^ k := by rw [husize]; ring)
      refine ⟨t, ?_, htfm.trans hfm, htin, .inr ?_⟩
      · rw [rcDecLoop_turn ht, Op.bind_of_ok (modRc_run _ s), Op.bind_of_ok eu, et]
      · rcases hend with rfl | hend
        · exact hbudget'
        · omega

/-- R226: with input left, the code in the interval and a table in which EOS has a share, a symbol is found, and the interval
is narrowed to its share. -/
theorem rcDsym_run (hm : s.fm.Decodable) (hin : s.rc.Inside) (hz : s.rc.zfill.val < 4) : ∃ (x : Symbol) (v : Nat),
    rcDsym s = (do rcDecLoop 5; pure x : Op Symbol) (s.setRc { s.rc with
        low := BitVec.ofNat 32 (s.fm.newLow s.rc.low s.rc.high x.val),
        high := BitVec.ofNat 32 (s.fm.newHigh s.rc.low s.rc.high x.val) })
      ∧ s.fm.hasShare s.rc.low s.rc.high x.val ∧ s.fm.newLow s.rc.low s.rc.high x.val ≤ s.rc.code.toNat
      ∧ s.rc.code.toNat ≤ s.fm.newHigh s.rc.low s.rc.high x.val
      ∧ s.fm.cumAt x.val ≤ v ∧ v < s.fm.cumAt (x.val + 1) := by
  obtain ⟨hc, heos⟩ := hm
  have ⟨hl, hh⟩ := hin
  have hneed : rcNeedInput s = .ok () s := by
    obtain ⟨h, _⟩ | ⟨_, e⟩ := rcNeedInput_run s
    · omega
    · exact e
  obtain ⟨h0, _⟩ | ⟨_, hout, _⟩ | ⟨h0, _, _, ev⟩ := targetValue_rc_run (hl.trans hh)
  · omega
  · omega
  obtain ⟨hover, _⟩ | ⟨x, ex, h1, h2⟩ := fmFind_run hc
    (((s.rc.code.toNat - s.rc.low.toNat + 1) * s.fm.cumAt 257 - 1) / rangeSize s.rc.low s.rc.high)
  · exact absurd (target_lt_total (by unfold rangeSize; omega) h0) (Nat.not_lt.mpr hover)
  obtain ⟨hs, hlow, hhigh⟩ := share_of_target h0 hl hh h1 h2
  obtain ⟨hno, _⟩ | ⟨_, ei⟩ := intervalUpdate_rc_run x s
  · exact absurd hs hno
  refine ⟨x, _, ?_, hs, hlow, hhigh, h1, h2⟩
  rw [rcDsym, Op.bind_of_ok hneed, Op.bind_of_ok ev, Op.bind_of_ok ex, Op.bind_of_ok ei]

/-- R230: the invariant of the range decoder. -/
def State.RcDecodes (s : State) : Prop := s.fm.Decodable ∧ s.rc.Inside

theorem rcDsym_advances : rcDsym.Advances State.RcDecodes
    (fun s => s.rcBudget * 2 ^ 32 + rangeSize s.rc.low s.rc.high) [.truncation] where
  symbol s hs := by
    obtain ⟨hm, hin⟩ := hs
    by_cases hz : s.rc.zfill.val < 4
    case neg =>
      obtain ⟨_, e⟩ | ⟨h, _⟩ := rcNeedInput_run s
      · exact .of_raise (Op.bind_of_error e) List.mem_cons_self
      · exact absurd h hz
    obtain ⟨x, v, e, hshare, hlow, hhigh, _⟩ := rcDsym_run hm hin hz
    obtain ⟨elow, ehigh⟩ := FM.interval_ofNat hm.1 hshare
    generalize hu : s.setRc _ = u at e
    obtain ⟨hul, huh, huc, hufm⟩ : u.rc.low = BitVec.ofNat 32 (s.fm.newLow s.rc.low s.rc.high x.val)
        ∧ u.rc.high = BitVec.ofNat 32 (s.fm.newHigh s.rc.low s.rc.high x.val) ∧ u.rc.code = s.rc.code ∧ u.fm = s.fm := by
      subst hu; exact ⟨rfl, rfl, rfl, rfl⟩
    have hbudget : u.rcBudget = s.rcBudget := by subst hu; rfl
    have huin : u.rc.Inside := by rw [RC.Inside, hul, huh, huc, elow, ehigh]; exact ⟨hlow, hhigh⟩
    have hsmaller := fun hx => FM.rangeSize_lt hm (hin.1.trans hin.2) hshare (x := x) hx
    rw [← hul, ← huh] at hsmaller
    have hsize : ∀ r : RC, r.Inside → 0 < rangeSize r.low r.high ∧ rangeSize r.low r.high ≤ 2 ^ 32 := fun r hr =>
      rangeSize_of_le (hr.1.trans hr.2)
    obtain ⟨t, et, htfm, htin, ht⟩ := rcDecLoop_run 5 u huin (by have := hsize _ huin; omega)
    refine .of_ok (e.trans (Op.bind_of_ok et)) fun hx => ⟨⟨by rw [htfm, hufm]; exact hm, htin⟩, ?_⟩
    have hs' := hsize _ hin
    have ht' := hsize _ htin
    have hpos : 0 < s.rcBudget := by unfold State.rcBudget; omega
    rcases ht with rfl | ht
    · have := hsmaller hx
      rw [hbudget]
      omega
    · rw [hbudget] at ht
      omega
  wrote _ _ hs := ⟨hs, rfl⟩

end

theorem rcDinit_endsWith : rcDinit.EndsWith (fun s => s.fm.Decodable) headerErrors fun _ t => t.RcDecodes := by
  refine Op.EndsWith.bind (Q := fun _ t => t.fm.Decodable ∧ t.rc.low = 0 ∧ t.rc.high = 0xFFFFFFFF)
    (.each fun s hs => .of_ok (modRc_run _ s) ⟨hs, rfl, rfl⟩) fun _ => ?_
  refine (Op.EndsWith.repeatOp (T := fun _ t => t.fm.Decodable ∧ t.rc.low = 0 ∧ t.rc.high = 0xFFFFFFFF)
    (fun n => .each fun s ⟨hm, hl, hh⟩ => ?_) 4).mono (fun _ => id) (fun _ => id) fun _ t ⟨hm, hl, hh⟩ => ⟨hm, ?_⟩
  · obtain ⟨t, e, hfm, hlow, hhigh, _⟩ := rcShiftIn_uses s
    exact .of_ok e ⟨by rw [hfm]; exact hm, hlow.trans hl, hhigh.trans hh⟩
  · rw [RC.Inside, hl, hh]
    exact ⟨Nat.zero_le _, Nat.le_of_lt_succ t.rc.code.isLt⟩

/-- R230, R273: the errors of the range decoder. -/
theorem rcDec_endsWith : rcDec.EndsWith (fun _ => True) [.truncation, .badMagic, .badHeader, .sinkFailure]
    fun _ _ => True := by
  have hsub : headerErrors ⊆ [.truncation, .badMagic, .badHeader, .sinkFailure] := by simp [headerErrors]
  refine ((fmRhdr_endsWith _).mono (fun _ => id) hsub fun _ _ => id).bind fun _ => ?_
  refine (fmCum_endsWith.mono (fun _ => id) hsub fun _ _ => id).bind fun _ => ?_
  refine (rcDinit_endsWith.mono (fun _ => id) hsub fun _ _ => id).bind fun _ => ?_
  refine .reading fun s hs => (rcDsym_advances.decodeLoop _).mono (fun t ht => ?_) (by simp) fun _ _ => id
  subst ht
  refine ⟨hs, ?_⟩
  have hhigh := t.rc.high.isLt
  rw [rcDecBound, State.rcBudget, rangeSize, Config.full, Config.rcZfillMax, srcLeft_eq]
  omega

end Sys2Proof.Machine

/-! SUPPORT. The commands of a decoder's expansion, none of which sees the result port. -/

namespace Sys2Proof.Machine

open Sys2Proof

/-! ## Operations that do not see the result port -/

theorem readByteOrTruncation_portBlind : readByteOrTruncation.PortBlind := srcRead_portBlind.bind fun
  | some _ => .pure _
  | none => .raise _

theorem readWordOrTruncation_portBlind : readWordOrTruncation.PortBlind := by
  rw [readWordOrTruncation_eq]
  have hbyte := readByteOrTruncation_portBlind
  exact hbyte.bind fun _ => hbyte.bind fun _ => hbyte.bind fun _ => hbyte.bind fun _ => .pure _

theorem readWords_portBlind : ∀ n, (readWords n).PortBlind
  | 0 => .pure _
  | n + 1 => (readWords_portBlind n).bind fun _ => readWordOrTruncation_portBlind.bind fun _ => .pure _

theorem headerHasEos_portBlind : headerHasEos.PortBlind := .ite (fun _ _ => .rfl) (.raise _) (.pure ())

theorem fmRhdr_portBlind (tag : Word) : (fmRhdr tag).PortBlind := by
  rw [fmRhdr_eq]
  refine readWordOrTruncation_portBlind.bind fun v => ?_
  split
  · exact .raise _
  refine readWordOrTruncation_portBlind.bind fun n => ?_
  split
  · exact .raise _
  · exact (readWords_portBlind 257).bind fun _ => (modFm_plain _).blind.portBlind.bind fun _ => headerHasEos_portBlind

theorem brInit_portBlind : brInit.PortBlind := fun _ _ => rfl

theorem fmFind_portBlind (v : Nat) : (fmFind v).PortBlind := .ite (fun _ _ => .rfl) (.raise _) fun _ _ => rfl

theorem targetValue_portBlind (u : Coder) : (targetValue u).PortBlind := by
  cases u
  · exact .ite (fun _ _ => .rfl) (.raise _) (.ite (fun _ _ => .rfl) (.raise _) fun _ _ => rfl)
  · exact .ite (fun _ _ => .rfl) (.raise _) (.ite (fun _ _ => .rfl) (.raise _) fun _ _ => rfl)

theorem acShiftIn_portBlind : acShiftIn.PortBlind := by
  have hcount : acCountFill.PortBlind := .ite (fun _ _ => .rfl) (fun _ _ => rfl) (.pure ())
  exact (brRbit_portBlind.bind fun _ => hcount.bind fun _ => .pure _).bind fun _ => (modAc_plain _).blind.portBlind

theorem acDinit_portBlind : acDinit.PortBlind :=
  (modAc_plain _).blind.portBlind.bind fun _ => acShiftIn_portBlind.repeatOp 32

theorem acDecLoop_portBlind : ∀ k, (acDecLoop k).PortBlind
  | 0 => .stuck
  | k + 1 => fun s r => by
    by_cases hr : s.ac.renorm = .done
    · rw [acDecLoop_done hr, acDecLoop_done (s := s.withResp r) hr]; rfl
    · rw [acDecLoop_turn rfl hr, acDecLoop_turn (s := s.withResp r) rfl hr]
      exact ((modAc_plain _).blind.portBlind.bind fun _ => acShiftIn_portBlind.bind fun _ => acDecLoop_portBlind k) s r

theorem acDsym_portBlind : acDsym.PortBlind := by
  have hneed : acNeedInput.PortBlind := .ite (fun _ _ => .rfl) (.raise _) (.pure ())
  exact hneed.bind fun _ => (targetValue_portBlind .ac).bind fun v => (fmFind_portBlind v).bind fun x =>
    (intervalUpdate_plain .ac x).blind.portBlind.bind fun _ => (acDecLoop_portBlind _).bind fun _ => .pure _

theorem rcShiftIn_portBlind : rcShiftIn.PortBlind := by
  refine Op.PortBlind.bind (srcRead_portBlind.bind fun
    | some _ => .pure _
    | none => (modRc_plain _).blind.portBlind.bind fun _ => .pure _) fun _ => (modRc_plain _).blind.portBlind

theorem rcDinit_portBlind : rcDinit.PortBlind :=
  (modRc_plain _).blind.portBlind.bind fun _ => rcShiftIn_portBlind.repeatOp 4

theorem rcDecLoop_portBlind : ∀ k, (rcDecLoop k).PortBlind
  | 0 => .stuck
  | k + 1 => fun s r => by
    cases ht : s.rc.sameTop with
    | false => rw [rcDecLoop_done ht, rcDecLoop_done (s := s.withResp r) ht]; rfl
    | true =>
      rw [rcDecLoop_turn ht, rcDecLoop_turn (s := s.withResp r) ht]
      exact ((modRc_plain _).blind.portBlind.bind fun _ => rcShiftIn_portBlind.bind fun _ => rcDecLoop_portBlind k) s r

theorem rcDsym_portBlind : rcDsym.PortBlind := by
  have hneed : rcNeedInput.PortBlind := .ite (fun _ _ => .rfl) (.raise _) (.pure ())
  exact hneed.bind fun _ => (targetValue_portBlind .rc).bind fun v => (fmFind_portBlind v).bind fun x =>
    (intervalUpdate_plain .rc x).blind.portBlind.bind fun _ => (rcDecLoop_portBlind _).bind fun _ => .pure _

/-! ## The commands -/

theorem runs_fmRhdr (tag : Word) : Runs (.fmRhdr tag) (fmRhdr tag) :=
  ⟨fun _ => rfl, fmRhdr_portBlind tag, fun _ hP => hP.keeps_fmRhdr tag⟩
theorem runs_fmCum : Runs .fmCum fmCum := ⟨fun _ => rfl, fmCum_plain.blind.portBlind, fun _ hP => hP.keeps_fmCum⟩
theorem runs_hfBuild : Runs .hfBuild hfBuild := ⟨fun _ => rfl, hfBuild_plain.blind.portBlind, fun _ hP => hP.keeps_hfBuild⟩
theorem runs_brInit : Runs .brInit brInit := ⟨fun _ => rfl, brInit_portBlind, fun _ hP => hP.keeps_brInit⟩
theorem runs_acDinit : Runs .acDinit acDinit := ⟨fun _ => rfl, acDinit_portBlind, fun _ hP => hP.keeps_acDinit⟩
theorem runs_rcDinit : Runs .rcDinit rcDinit := ⟨fun _ => rfl, rcDinit_portBlind, fun _ hP => hP.keeps_rcDinit⟩

theorem reads_hfDsym : ReadsSymbol .hfDsym hfDsym := ⟨fun _ => rfl, hfDsym_portBlind, fun _ hP => hP.keeps_hfDsym⟩
theorem reads_acDsym : ReadsSymbol .acDsym acDsym := ⟨fun _ => rfl, acDsym_portBlind, fun _ hP => hP.keeps_acDsym⟩
theorem reads_rcDsym : ReadsSymbol .rcDsym rcDsym := ⟨fun _ => rfl, rcDsym_portBlind, fun _ hP => hP.keeps_rcDsym⟩

theorem hfDec_eq : hfDec = (do
    inOrder [fmRhdr Config.magicHF, hfBuild, brInit]
    reading fun s => decodeLoop hfDsym (bitsLeft s + 1)) := by
  simp only [hfDec, inOrder, bind_assoc, pure_bind]

theorem acDec_eq : acDec = (do
    inOrder [fmRhdr Config.magicAC, fmCum, brInit, acDinit]
    reading fun s => decodeLoop acDsym (acDecBound s)) := by
  simp only [acDec, inOrder, bind_assoc, pure_bind]

theorem rcDec_eq : rcDec = (do
    inOrder [fmRhdr Config.magicRC, fmCum, rcDinit]
    reading fun s => decodeLoop rcDsym (rcDecBound s)) := by
  simp only [rcDec, inOrder, bind_assoc, pure_bind]

/-- Settles O53: a decoder is its preparing commands and then its loop, which is a run of its symbol command. -/
theorem decodersReadSymbolsUntilEos : Obligations.DecodersReadSymbolsUntilEos := by
  refine ⟨⟨rfl, rfl, rfl⟩, fun s h0 hwf dec dsym is hmem => ?_⟩
  simp only [decoderExpansions, List.mem_cons, Prod.mk.injEq, List.not_mem_nil, or_false] at hmem
  obtain ⟨rfl, rfl, rfl⟩ | ⟨rfl, rfl, rfl⟩ | ⟨rfl, rfl, rfl⟩ := hmem
  · exact decoder_expands (op := hfDec) (fun _ => rfl) hfDec_eq
      (.cons (runs_fmRhdr _) (.cons runs_hfBuild (.cons runs_brInit .nil))) (List.cons_ne_nil _ _) reads_hfDsym
      hfDec_endsWith.ends h0 hwf
  · exact decoder_expands (op := acDec) (fun _ => rfl) acDec_eq
      (.cons (runs_fmRhdr _) (.cons runs_fmCum (.cons runs_brInit (.cons runs_acDinit .nil)))) (List.cons_ne_nil _ _)
      reads_acDsym acDec_endsWith.ends h0 hwf
  · exact decoder_expands (op := rcDec) (fun _ => rfl) rcDec_eq
      (.cons (runs_fmRhdr _) (.cons runs_fmCum (.cons runs_rcDinit .nil))) (List.cons_ne_nil _ _) reads_rcDsym
      rcDec_endsWith.ends h0 hwf

/-- Settles O54: the status is 0 or the code of an error the decoder's parts raise. -/
theorem decodersEndWithANamedStatus : Obligations.DecodersEndWithANamedStatus := fun s h0 => by
  refine ⟨?_, ?_, ?_⟩
  · exact hfDec_endsWith.runCommand (fun _ hP => hP.keeps_hfDec) h0
  · exact acDec_endsWith.runCommand (fun _ hP => hP.keeps_acDec) h0
  · exact rcDec_endsWith.runCommand (fun _ hP => hP.keeps_rcDec) h0

end Sys2Proof.Machine

/-! SUPPORT. The counts that a scan leaves (R143), as counts of the symbols of the input: their sums, the cumulative table made
from them (R146), and the coded symbols of the empty input and of one byte. -/

namespace Sys2Proof.Machine

open Sys2Proof

theorem byteSymbol_injective : Function.Injective byteSymbol := fun _ _ h =>
  BitVec.eq_of_toNat_eq (congrArg Fin.val h : (byteSymbol _).val = (byteSymbol _).val)

/-- R18: a symbol is a byte or the end of stream. -/
theorem symbol_cases (x : Symbol) : (∃ b, x = byteSymbol b) ∨ x = eosSymbol := by
  have := x.isLt
  by_cases hx : x.val < 256
  · exact .inl ⟨BitVec.ofNat 8 x.val, Fin.ext (by rw [byteSymbol_val, BitVec.toNat_ofNat]; omega)⟩
  · exact .inr (Fin.ext (show x.val = 256 by omega))

theorem countP_val_lt_succ (xs : List Symbol) {i : Nat} (hi : i < 257) :
    xs.countP (·.val < i + 1) = xs.countP (·.val < i) + xs.count ⟨i, hi⟩ := by
  induction xs with
  | nil => rfl
  | cons x xs ih =>
    rw [List.countP_cons, List.countP_cons, List.count_cons, ih]
    simp only [decide_eq_true_eq, beq_iff_eq, Fin.ext_iff]
    split_ifs <;> omega

section
variable {m : FM} {bs : List Byte}

theorem FM.freqAt_scanned (h : fewOccurrences bs) (x : Symbol) :
    (m.scanned bs).freqAt x = (inputSymbols bs).count x := by
  rw [inputSymbols, List.count_append]
  obtain ⟨b, rfl⟩ | rfl := symbol_cases x
  · rw [FM.scanned_count h, List.count_map_of_injective _ _ byteSymbol_injective,
      List.count_singleton, if_neg (by simpa using (byteSymbol_ne_eos b).symm), Nat.add_zero]
  · have hno : (bs.map byteSymbol).count eosSymbol = 0 := List.count_eq_zero.mpr fun hmem => by
      obtain ⟨b, _, hb⟩ := List.mem_map.mp hmem
      exact byteSymbol_ne_eos b hb
    rw [hno, List.count_singleton_self]
    exact FM.freqAt_scanned_eos _ _

/-- R30: the sum of the counts below i is the number of symbols below i. -/
theorem FM.prefixSum_scanned (h : fewOccurrences bs) : ∀ {i : Nat}, i ≤ 257 →
    (m.scanned bs).prefixSum i = (inputSymbols bs).countP (·.val < i)
  | 0, _ => by rw [FM.prefixSum_zero]; simp
  | i + 1, hi => by
    rw [(m.scanned bs).prefixSum_succ ⟨i, hi⟩, FM.freqAt_scanned h, FM.prefixSum_scanned h (Nat.le_of_succ_le hi),
      ← countP_val_lt_succ]

theorem FM.total_scanned (h : fewOccurrences bs) : (m.scanned bs).total = bs.length + 1 := by
  have hall : ∀ x ∈ inputSymbols bs, decide (x.val < 257) = true := fun x _ => decide_eq_true x.isLt
  rw [← FM.prefixSum_total, FM.prefixSum_scanned h (le_refl _), List.countP_eq_length.mpr hall, inputSymbols,
    List.length_append, List.length_map, List.length_singleton]

/-- R146: the table made from these counts. -/
theorem FM.cumAt_cumTable_scanned (h : fewOccurrences bs) (hlen : bs.length < 2 ^ 32 - 1) {i : Nat} (hi : i ≤ 257) :
    FM.cumAt { m.scanned bs with cum := (m.scanned bs).cumTable } i = (inputSymbols bs).countP (·.val < i) := by
  have ht : (m.scanned bs).total = bs.length + 1 := FM.total_scanned h
  rw [FM.cumAt_cumTable _ (by omega) hi, if_neg (by omega), FM.prefixSum_scanned h hi]

/-- R160: the coded symbols of an input with no byte twice, in order. -/
theorem FM.coded_scanned (h : fewOccurrences bs) (hs : (inputSymbols bs).Pairwise (· < ·)) :
    (m.scanned bs).coded = inputSymbols bs := by
  have hcoded : (m.scanned bs).coded.Pairwise (· < ·) := (List.pairwise_lt_finRange 257).filter _
  refine hcoded.eq_of_mem_iff hs fun x => ?_
  rw [FM.mem_coded, FM.freqAt_scanned h, ← Nat.pos_iff_ne_zero, List.count_pos_iff]

end

/-! ## The empty input and one byte -/

theorem fewOccurrences_nil : fewOccurrences [] := fun _ => by simp

theorem fewOccurrences_singleton (b : Byte) : fewOccurrences [b] := fun x => by
  have := List.count_le_length (a := x) (l := [b])
  rw [List.length_singleton] at this
  omega

theorem inputSymbols_nil : inputSymbols [] = [256] := rfl

theorem inputSymbols_singleton (b : Byte) : inputSymbols [b] = [byteSymbol b, 256] := rfl

theorem byteSymbol_lt_eos (b : Byte) : byteSymbol b < 256 := b.isLt

section
variable (m : FM) (b : Byte)

theorem FM.scanned_nil_freq : (m.scanned []).freq = eosOnly := rfl

theorem FM.scanned_singleton_freq : (m.scanned [b]).freq = oneByte b := by
  refine Vector.ext fun i hi => BitVec.eq_of_toNat_eq ?_
  have hcount : (m.scanned [b]).freqAt ⟨i, hi⟩ = _ := FM.freqAt_scanned (fewOccurrences_singleton b) ⟨i, hi⟩
  refine hcount.trans ?_
  rw [inputSymbols_singleton, oneByte, Vector.getElem_ofFn, List.count_cons, List.count_singleton]
  have := b.isLt
  simp only [beq_iff_eq, Fin.ext_iff, byteSymbol_val]
  rw [show ((256 : Symbol) : Nat) = 256 from rfl]
  split_ifs <;> simp <;> omega

theorem FM.coded_scanned_nil : (m.scanned []).coded = [256] :=
  FM.coded_scanned fewOccurrences_nil (List.pairwise_singleton _ _)

theorem FM.coded_scanned_singleton : (m.scanned [b]).coded = [byteSymbol b, 256] :=
  FM.coded_scanned (fewOccurrences_singleton b) (by simp [inputSymbols_singleton, byteSymbol_lt_eos])

end

end Sys2Proof.Machine

/-! SUPPORT. Streams whose header names only EOS (R169, R201, R228): EOS has the code 0, and the whole interval. -/

namespace Sys2Proof.Machine

open Sys2Proof

/-! ## The Huffman stream -/

/-- R163: the one coded symbol is the left child of the root. -/
theorem HF.built_one {m : FM} {x : Symbol} (h : HF) (hc : m.coded = [x]) :
    (h.built m.tree).child (h.built m.tree).root false = 0 ∧ ((h.built m.tree).nodeAt 0).isLeaf = true
      ∧ ((h.built m.tree).nodeAt 0).symbol = x := by
  have entry := fun i hi => HF.built_nodeAt (h := h) (i := i) m.tree_oneTree hi
  rw [FM.tree_of_one hc] at entry ⊢
  have hroot : (h.built ([⟨m.freqAt x, BitVec.ofNat 9 x.val, Config.null, Config.null⟩,
    ⟨m.freqAt x, 0, 0, Config.null⟩], 1)).root = 1 := rfl
  rw [HF.child, hroot, entry 1 Nat.one_lt_two, entry 0 Nat.two_pos]
  refine ⟨rfl, rfl, Fin.ext ?_⟩
  have := x.isLt
  change (BitVec.ofNat 9 x.val).toNat % 257 = x.val
  rw [BitVec.toNat_ofNat]
  omega

theorem hfDsym_of_zeroBit {s : State} {m : FM} {h : HF} {x : Symbol} {b : Byte} {rest : List Byte} (hc : m.coded = [x])
    (hhf : s.hf = h.built m.tree) (hbr : s.br = ⟨0, 0, false⟩) (hrem : s.remaining = b :: rest) (hb : b.getLsbD 7 = false) :
    ∃ w, hfDsym s = .ok x (((s.consumed 1).setBr ⟨b, 7, false⟩).setHf w) := by
  obtain ⟨hchild, hleaf, hsym⟩ := HF.built_one h hc
  have hroot : (s.hf.nodeAt s.hf.root).isLeaf = false := by
    rw [hhf]
    exact HF.built_root_not_leaf h (by rw [hc]; exact List.cons_ne_nil _ _)
  have hwalk : s.hf.child s.hf.walk false = 0 := by
    rw [hhf]
    exact hchild
  rw [← hhf] at hleaf hsym
  have e := brRbit_of_load (s := s) (by rw [hbr]) (by rw [hbr]; rfl) hrem
  rw [hb] at e
  have hstep := (hfStep_of_bit (HF.root_ne_null_of_not_leaf hroot) e rfl).trans
    (walkBit_to_leaf (s := (s.consumed 1).setBr ⟨b, 7, false⟩) hroot
      (by rw [State.setBr_hf, State.consumed_hf, hwalk]; decide)
      (by rw [State.setBr_hf, State.consumed_hf, hwalk]; exact hleaf))
  rw [State.setBr_hf, State.consumed_hf, hwalk, hsym] at hstep
  exact ⟨_, hfDsym_of_some hstep⟩

theorem hasEos_eosOnly (m : FM) : FM.hasEos { m with freq := eosOnly } := .inr (by
  have heos : (m.scanned []).freqAt 256 ≠ 0 := by rw [FM.freqAt_scanned_eos]; exact Nat.one_ne_zero
  exact heos)

theorem exec_hfDec_eosOnly {s : State} {b : Byte} {rest : List Byte} (h0 : s.status = 0)
    (h : s.remaining = headerBytes Config.magicHF eosOnly ++ b :: rest) (hb : b.getLsbD 7 = false) :
    ∃ t, exec .hfDec s = .next t ∧ t.status = 0 ∧ t.resp = answerNone ∧ t.snk = s.snk
      ∧ t.src = ⟨s.src.data, s.src.pos + 1037⟩ := by
  obtain ⟨u, e, hhf, hsnk, hsrc, hbr, hst, hrem, _⟩ := hfDec_of_header h (hasEos_eosOnly s.fm)
  obtain ⟨w, ew⟩ := hfDsym_of_zeroBit (m := s.fm.scanned []) (FM.coded_scanned_nil _) hhf hbr hrem hb
  have hu : u.status = 0 := hst.trans h0
  refine ⟨_, exec_hfDec_of_ok h0 (e.trans (decodeLoop_of_eos ew)) hu, hu, rfl, hsnk, ?_⟩
  change (u.consumed 1).src = _
  rw [State.consumed_src, hsrc]
  rfl

/-! ## The interval streams -/

theorem Op.EndsWith.exists_ok {α : Type} {P : State → Prop} {op : Op α} {Q : α → State → Prop} (h : op.EndsWith P [] Q)
    {s : State} (hs : P s) : ∃ a t, op s = .ok a t ∧ Q a t := by
  obtain ⟨hok, herr⟩ := h s hs
  rcases e : op s with ⟨a, t⟩ | ⟨z, t⟩
  · exact ⟨a, t, rfl, hok a t e⟩
  · obtain ⟨k, hk, _⟩ := herr z t e
    exact absurd hk List.not_mem_nil

/-- A table that gives the whole interval to EOS. -/
def FM.onlyEos (m : FM) : Prop := m.cumLegal ∧ m.cumAt 256 = 0 ∧ m.cumAt 257 = 1

theorem FM.onlyEos_scanned_nil (m : FM) : FM.onlyEos { m.scanned [] with cum := (m.scanned []).cumTable } := by
  have ht : (m.scanned []).total ≤ 2 ^ 32 - 1 := by rw [FM.total_scanned fewOccurrences_nil]; decide
  have hcum := fun {i} (hi : i ≤ 257) => FM.cumAt_cumTable_scanned (m := m) fewOccurrences_nil (by decide) hi
  exact ⟨FM.cumTable_cumLegal ht, hcum (by omega), hcum le_rfl⟩

section
variable {m : FM}

theorem FM.onlyEos.decodable (h : m.onlyEos) : m.Decodable := by
  obtain ⟨hc, h256, h257⟩ := h
  exact ⟨hc, by omega⟩

theorem FM.onlyEos.eq_eos (h : m.onlyEos) {x : Symbol} {v : Nat} (hv : v < m.cumAt (x.val + 1)) : x = eosSymbol := by
  obtain ⟨hc, h256, _⟩ := h
  by_contra hne
  have hx : x.val ≠ 256 := fun e => hne (Fin.ext e)
  have := FM.cumAt_mono hc (show x.val + 1 ≤ 256 by have := x.isLt; omega) (by omega)
  omega

theorem FM.onlyEos.interval (h : m.onlyEos) :
    BitVec.ofNat 32 (m.newLow 0 0xFFFFFFFF 256) = 0 ∧ BitVec.ofNat 32 (m.newHigh 0 0xFFFFFFFF 256) = 0xFFFFFFFF := by
  obtain ⟨_, h256, h257⟩ := h
  rw [FM.newLow, FM.newHigh, h256, h257]
  decide

end

/-- R149, R146: after the header and the table of an EOS-only stream. -/
theorem header_eosOnly {s : State} {tag : Word} {payload : List Byte}
    (h : s.remaining = headerBytes tag eosOnly ++ payload) :
    ∃ m, m.onlyEos ∧ ((s.consumed 1036).setFm m).remaining = payload
      ∧ ∀ k : Op Unit, (do fmRhdr tag; fmCum; k : Op Unit) s = k ((s.consumed 1036).setFm m) := by
  refine ⟨{ s.fm.scanned [] with cum := (s.fm.scanned []).cumTable }, s.fm.onlyEos_scanned_nil, ?_, fun k => ?_⟩
  · change (s.consumed 1036).remaining = payload
    rw [State.remaining_consumed, h, List.drop_left' (headerBytes_length _ _)]
  · have hdr : fmRhdr tag s = .ok () ((s.consumed 1036).setFm (s.fm.scanned [])) := by
      rw [fmRhdr_of_whole h]
      obtain ⟨ht, hz, _⟩ | ⟨_, e⟩ := headerHasEos_run ((s.consumed 1036).setFm { s.fm with freq := eosOnly })
      · exact absurd hz ((hasEos_eosOnly s.fm).resolve_left ht)
      · exact e
    obtain ⟨ht, _⟩ | ⟨_, e⟩ := fmCum_run ((s.consumed 1036).setFm (s.fm.scanned []))
    · rw [State.setFm_fm, FM.total_scanned fewOccurrences_nil] at ht
      exact absurd ht (by decide)
    · rw [Op.bind_of_ok hdr, Op.bind_of_ok e]
      rfl

/-! ### The arithmetic decoder -/

/-- R196, R197: t is s with n bits shifted into the code. -/
structure AcFilled (s : State) (n : Nat) (t : State) : Prop where
  frame : t.status = s.status ∧ t.fm = s.fm ∧ t.snk = s.snk ∧ t.src.data = s.src.data
  interval : t.ac.low = s.ac.low ∧ t.ac.high = s.ac.high
  fill : t.ac.zfill.val = n - s.bitStream.length
  stream : t.bitStream.length = s.bitStream.length - n
  /-- The reader takes a byte only when it has no bit left, and no byte behind the end. -/
  reader : t.br.rem.val ≤ 7 ∧ (t.br.eof = true → t.remaining = [])
  cursor : t.src.pos + t.remaining.length = s.src.pos + s.remaining.length

theorem brRbit_reader {s t : State} {b : Bool} (e : brRbit s = .ok b t)
    (h : s.br.rem.val ≤ 7 ∧ (s.br.eof = true → s.remaining = [])) :
    (t.br.rem.val ≤ 7 ∧ (t.br.eof = true → t.remaining = []))
      ∧ t.src.pos + t.remaining.length = s.src.pos + s.remaining.length := by
  obtain ⟨hrem, heof⟩ := h
  cases he : s.br.eof with
  | true =>
    rw [brRbit_of_eof he] at e
    cases e
    exact ⟨⟨hrem, heof⟩, rfl⟩
  | false =>
    rcases hr : s.br.rem.val with _ | r
    · cases hx : s.remaining with
      | nil =>
        rw [brRbit_of_end he hr hx] at e
        cases e
        exact ⟨⟨hrem, fun _ => hx⟩, by rw [← hx]; rfl⟩
      | cons x l =>
        rw [brRbit_of_load he hr hx] at e
        cases e
        have hl : ((s.consumed 1).setBr ⟨x, 7, false⟩).remaining = l := State.remaining_of_cons hx
        rw [hl, List.length_cons]
        exact ⟨⟨le_rfl, nofun⟩, by rw [State.setBr_src, State.consumed_src]; dsimp only; omega⟩
    · rw [brRbit_of_rem ⟨r, by omega⟩ he hr] at e
      cases e
      exact ⟨⟨by change r ≤ 7; omega, fun h => absurd h Bool.false_ne_true⟩, rfl⟩

theorem AcFilled.shiftIn {s t : State} {n : Nat} (h : AcFilled s n t) (hn : n < 32) :
    ∃ u, acShiftIn t = .ok () u ∧ AcFilled s (n + 1) u := by
  obtain ⟨j, v, e, hb, _, er⟩ := acShiftIn_run t
  obtain ⟨hreader, hcursor⟩ := brRbit_reader er h.reader
  refine ⟨_, e, h.frame, ?_, ?_, ?_, hreader, hcursor.trans h.cursor⟩
  · rw [State.setAc_ac]
    split <;> exact h.interval
  · have hfill := h.fill
    have hstream := h.stream
    rw [State.setAc_ac]
    by_cases hnil : t.bitStream = []
    · rw [hnil, List.length_nil] at hstream
      rw [if_pos hnil]
      change t.ac.countFill.zfill.val = _
      rw [AC.countFill_zfill]
      omega
    · have := List.length_pos_of_ne_nil hnil
      rw [if_neg hnil]
      change t.ac.zfill.val = _
      omega
  · have hstream := h.stream
    change ((t.consumed j).setBr v).bitStream.length = _
    rw [hb, List.length_tail]
    omega

/-- R28: a reader that has no whole byte in hand. -/
theorem remaining_length_of_reader {s : State} (h : s.br.rem.val ≤ 7 ∧ (s.br.eof = true → s.remaining = [])) :
    s.remaining.length = s.bitStream.length / 8 := by
  obtain ⟨hrem, heof⟩ := h
  cases he : s.br.eof with
  | true => rw [heof he, State.bitStream_of_eof he]; rfl
  | false =>
    rw [State.bitStream_of_not_eof he, List.length_append, lowBits_length, flatMap_byteBits_length]
    omega

theorem repeatOp_acShiftIn {s : State} (start : AcFilled s 0 s) :
    ∃ t, repeatOp acShiftIn 32 s = .ok () t ∧ AcFilled s 32 t := by
  have step : ∀ n, acShiftIn.EndsWith (fun t => n + 1 ≤ 32 ∧ AcFilled s (32 - (n + 1)) t) []
      fun _ t => n ≤ 32 ∧ AcFilled s (32 - n) t := fun n => .each fun t ⟨hn, ht⟩ => by
    obtain ⟨u, e, hu⟩ := ht.shiftIn (by omega)
    rw [show 32 - (n + 1) + 1 = 32 - n by omega] at hu
    exact .of_ok e ⟨Nat.le_of_succ_le hn, hu⟩
  obtain ⟨_, t, e, _, ht⟩ := (Op.EndsWith.repeatOp (T := fun n t => n ≤ 32 ∧ AcFilled s (32 - n) t) step 32).exists_ok
    ⟨le_rfl, start⟩
  exact ⟨t, e, ht⟩

theorem acDinit_run {s : State} (hbr : s.br = ⟨0, 0, false⟩) :
    ∃ t, acDinit s = .ok () t ∧ t.status = s.status ∧ t.fm = s.fm ∧ t.snk = s.snk
      ∧ t.ac.low = 0 ∧ t.ac.high = 0xFFFFFFFF ∧ t.ac.zfill.val = 32 - 8 * s.remaining.length
      ∧ t.src = ⟨s.src.data, s.src.pos + min 4 s.remaining.length⟩ := by
  have start : ∀ a : AC, a.zfill.val = 0 → AcFilled (s.setAc a) 0 (s.setAc a) := fun a ha =>
    ⟨⟨rfl, rfl, rfl, rfl⟩, ⟨rfl, rfl⟩, by rw [State.setAc_ac, ha, Nat.zero_sub], rfl,
      ⟨by rw [State.setAc_br, hbr]; decide, by rw [State.setAc_br, hbr]; nofun⟩, rfl⟩
  obtain ⟨t, e, ⟨hst, hfm, hsnk, hdata⟩, ⟨hl, hh⟩, hfill, hstream, hreader, hcursor⟩ :=
    repeatOp_acShiftIn (start { s.ac with low := 0, high := 0xFFFFFFFF, code := 0, zfill := 0 } rfl)
  have hbits : ∀ a, (s.setAc a).bitStream.length = 8 * s.remaining.length := fun a => by
    rw [State.bitStream_of_not_eof (by rw [State.setAc_br, hbr]), List.length_append, lowBits_length,
      flatMap_byteBits_length, State.setAc_br, hbr]
    exact Nat.zero_add _
  have hleft := remaining_length_of_reader hreader
  rw [hstream, hbits] at hleft
  have hpos : t.src.pos + t.remaining.length = s.src.pos + s.remaining.length := hcursor
  refine ⟨t, e, hst, hfm, hsnk, hl, hh, hfill.trans (by rw [hbits]), ?_⟩
  rw [← show t.src.data = s.src.data from hdata, ← show t.src.pos = s.src.pos + min 4 s.remaining.length by omega]

theorem acDsym_of_noInput {s : State} (h : s.ac.zfill.val = 32) : acDsym s = .error (.raise .truncation) s := by
  obtain ⟨_, e⟩ | ⟨hlt, _⟩ := acNeedInput_run s
  · exact Op.bind_of_error e
  · omega

/-- R199: the whole interval is the share of EOS, so that no turn is made. -/
theorem acDsym_eos {s : State} (hm : s.fm.onlyEos) (hl : s.ac.low = 0) (hh : s.ac.high = 0xFFFFFFFF)
    (hz : s.ac.zfill.val < 32) : ∃ a, acDsym s = .ok eosSymbol (s.setAc a) := by
  have hin : s.ac.Inside := by
    rw [AC.Inside, hl, hh]
    exact ⟨Nat.zero_le _, Nat.le_of_lt_succ s.ac.code.isLt⟩
  obtain ⟨x, v, e, _, _, _, _, hv⟩ := acDsym_run hm.decodable hin hz
  obtain rfl := hm.eq_eos hv
  obtain ⟨elow, ehigh⟩ := hm.interval
  have hdone : ∀ a : AC, a.low = 0 → a.high = 0xFFFFFFFF → a.renorm = .done := fun a h1 h2 => by
    rw [AC.renorm, h1, h2]
    decide
  refine ⟨_, e.trans (Op.bind_of_ok (acDecLoop_done (hdone _ ?_ ?_)))⟩
  · rw [State.setAc_ac, hl, hh]
    exact elow
  · rw [State.setAc_ac, hl, hh]
    exact ehigh

section
variable {s t : State} (h0 : s.status = 0)
include h0

theorem exec_acDec_of_ok (e : acDec s = .ok () t) (ht : t.status = 0) :
    exec .acDec s = .next { t with resp := answerNone } := runCommand_noValue_ok h0 e ht

theorem exec_acDec_of_raise {k : ErrorKind} (e : acDec s = .error (.raise k) t) :
    exec .acDec s = .next (t.failed k.code) := runCommand_noValue_raise h0 e

theorem exec_rcDec_of_ok (e : rcDec s = .ok () t) (ht : t.status = 0) :
    exec .rcDec s = .next { t with resp := answerNone } := runCommand_noValue_ok h0 e ht

theorem exec_rcDec_of_raise {k : ErrorKind} (e : rcDec s = .error (.raise k) t) :
    exec .rcDec s = .next (t.failed k.code) := runCommand_noValue_raise h0 e

end

/-- A decoder loop with a turn to make. -/
theorem decodeLoop_eos_of_pos {d : Op Symbol} {s t : State} {n : Nat} (hn : 0 < n) (e : d s = .ok eosSymbol t) :
    decodeLoop d n s = .ok () t := by
  obtain ⟨k, rfl⟩ := Nat.exists_eq_succ_of_ne_zero hn.ne'
  exact decodeLoop_of_eos e

theorem decodeLoop_error_of_pos {d : Op Symbol} {s t : State} {n : Nat} {z : Stop} (hn : 0 < n) (e : d s = .error z t) :
    decodeLoop d n s = .error z t := by
  obtain ⟨k, rfl⟩ := Nat.exists_eq_succ_of_ne_zero hn.ne'
  exact decodeLoop_of_error e

theorem acDecBound_pos (s : State) : 0 < acDecBound s := Nat.mul_pos (Nat.succ_pos _) (by decide)
theorem rcDecBound_pos (s : State) : 0 < rcDecBound s := Nat.mul_pos (Nat.succ_pos _) (by decide)

theorem exec_acDec_eosOnly {s : State} {payload : List Byte} (h0 : s.status = 0)
    (h : s.remaining = headerBytes Config.magicAC eosOnly ++ payload) :
    ∃ t, exec .acDec s = .next t ∧ t.status = (if payload = [] then 1 else 0) ∧ t.snk = s.snk
      ∧ t.resp = (if payload = [] then answerError 1 else answerNone)
      ∧ t.src = ⟨s.src.data, s.src.pos + (1036 + min 4 payload.length)⟩ := by
  obtain ⟨m, hm, hrem, run⟩ := header_eosOnly h
  obtain ⟨t, et, hst, hfm, hsnk, hl, hh, hz, hsrc⟩ :=
    acDinit_run (s := ((s.consumed 1036).setFm m).setBr ⟨0, 0, false⟩) rfl
  have hrem' : (((s.consumed 1036).setFm m).setBr ⟨0, 0, false⟩).remaining = payload := hrem
  rw [hrem'] at hz hsrc
  have hrun : acDec s = decodeLoop acDsym (acDecBound t) t := by
    rw [acDec, run, Op.bind_of_ok (brInit_run _), Op.bind_of_ok et, reading_run]
  have ht0 : t.status = 0 := hst.trans h0
  have hsrc' : t.src = ⟨s.src.data, s.src.pos + (1036 + min 4 payload.length)⟩ := by
    rw [hsrc, ← Nat.add_assoc]
    rfl
  by_cases hp : payload = []
  · rw [hp, List.length_nil, Nat.mul_zero] at hz
    have e := hrun.trans (decodeLoop_error_of_pos (acDecBound_pos t) (acDsym_of_noInput hz))
    rw [if_pos hp, if_pos hp]
    exact ⟨_, exec_acDec_of_raise h0 e, rfl, hsnk, rfl, hsrc'⟩
  · have hpos := List.length_pos_of_ne_nil hp
    obtain ⟨a, ea⟩ := acDsym_eos (s := t) (by rw [hfm]; exact hm) hl hh (by omega)
    rw [if_neg hp, if_neg hp]
    exact ⟨_, exec_acDec_of_ok h0 (hrun.trans (decodeLoop_eos_of_pos (acDecBound_pos t) ea)) ht0, ht0, hsnk, rfl, hsrc'⟩

/-! ### The range decoder -/

/-- R224, R225: t is s with n bytes shifted into the code. -/
structure RcFilled (s : State) (n : Nat) (t : State) : Prop where
  frame : t.status = s.status ∧ t.fm = s.fm ∧ t.snk = s.snk
  interval : t.rc.low = s.rc.low ∧ t.rc.high = s.rc.high
  fill : t.rc.zfill.val = n - s.remaining.length
  stream : t.remaining.length = s.remaining.length - n
  src : t.src = ⟨s.src.data, s.src.pos + min n s.remaining.length⟩

theorem RcFilled.shiftIn {s t : State} {n : Nat} (h : RcFilled s n t) (hn : n < 4) :
    ∃ u, rcShiftIn t = .ok () u ∧ RcFilled s (n + 1) u := by
  have hfill := h.fill
  have hstream := h.stream
  refine ⟨_, rcShiftIn_run t, h.frame, ?_, ?_, ?_, ?_⟩
  · rw [State.setRc_rc]
    split <;> exact h.interval
  · rw [State.setRc_rc]
    by_cases hnil : t.remaining = []
    · rw [hnil, List.length_nil] at hstream
      rw [if_pos hnil]
      change t.rc.countFill.zfill.val = _
      rw [RC.countFill_zfill]
      omega
    · have := List.length_pos_of_ne_nil hnil
      rw [if_neg hnil]
      change t.rc.zfill.val = _
      omega
  · change (t.consumed _).remaining.length = _
    rw [State.remaining_consumed, List.length_drop]
    omega
  · rw [State.setRc_src, State.consumed_src, h.src]
    dsimp only
    rw [Nat.add_assoc, show min n s.remaining.length + min 1 t.remaining.length = min (n + 1) s.remaining.length by omega]

theorem repeatOp_rcShiftIn {s : State} (start : RcFilled s 0 s) :
    ∃ t, repeatOp rcShiftIn 4 s = .ok () t ∧ RcFilled s 4 t := by
  have step : ∀ n, rcShiftIn.EndsWith (fun t => n + 1 ≤ 4 ∧ RcFilled s (4 - (n + 1)) t) []
      fun _ t => n ≤ 4 ∧ RcFilled s (4 - n) t := fun n => .each fun t ⟨hn, ht⟩ => by
    obtain ⟨u, e, hu⟩ := ht.shiftIn (by omega)
    rw [show 4 - (n + 1) + 1 = 4 - n by omega] at hu
    exact .of_ok e ⟨Nat.le_of_succ_le hn, hu⟩
  obtain ⟨_, t, e, _, ht⟩ := (Op.EndsWith.repeatOp (T := fun n t => n ≤ 4 ∧ RcFilled s (4 - n) t) step 4).exists_ok
    ⟨le_rfl, start⟩
  exact ⟨t, e, ht⟩

theorem rcDinit_run (s : State) :
    ∃ t, rcDinit s = .ok () t ∧ t.status = s.status ∧ t.fm = s.fm ∧ t.snk = s.snk
      ∧ t.rc.low = 0 ∧ t.rc.high = 0xFFFFFFFF ∧ t.rc.zfill.val = 4 - s.remaining.length
      ∧ t.src = ⟨s.src.data, s.src.pos + min 4 s.remaining.length⟩ := by
  have start : ∀ r : RC, r.zfill.val = 0 → RcFilled (s.setRc r) 0 (s.setRc r) := fun r hr =>
    ⟨⟨rfl, rfl, rfl⟩, ⟨rfl, rfl⟩, by rw [State.setRc_rc, hr, Nat.zero_sub], rfl, by rw [Nat.zero_min]; rfl⟩
  obtain ⟨t, e, ⟨hst, hfm, hsnk⟩, ⟨hl, hh⟩, hfill, _, hsrc⟩ :=
    repeatOp_rcShiftIn (start { s.rc with low := 0, high := 0xFFFFFFFF, code := 0, zfill := 0 } rfl)
  exact ⟨t, e, hst, hfm, hsnk, hl, hh, hfill, hsrc⟩

theorem rcDsym_of_noInput {s : State} (h : s.rc.zfill.val = 4) : rcDsym s = .error (.raise .truncation) s := by
  obtain ⟨_, e⟩ | ⟨hlt, _⟩ := rcNeedInput_run s
  · exact Op.bind_of_error e
  · omega

/-- R226: the whole interval is the share of EOS, so that no turn is made. -/
theorem rcDsym_eos {s : State} (hm : s.fm.onlyEos) (hl : s.rc.low = 0) (hh : s.rc.high = 0xFFFFFFFF)
    (hz : s.rc.zfill.val < 4) : ∃ r, rcDsym s = .ok eosSymbol (s.setRc r) := by
  have hin : s.rc.Inside := by
    rw [RC.Inside, hl, hh]
    exact ⟨Nat.zero_le _, Nat.le_of_lt_succ s.rc.code.isLt⟩
  obtain ⟨x, v, e, _, _, _, _, hv⟩ := rcDsym_run hm.decodable hin hz
  obtain rfl := hm.eq_eos hv
  obtain ⟨elow, ehigh⟩ := hm.interval
  have hdone : ∀ r : RC, r.low = 0 → r.high = 0xFFFFFFFF → r.sameTop = false := fun r h1 h2 => by
    rw [RC.sameTop, h1, h2]
    decide
  refine ⟨_, e.trans (Op.bind_of_ok (rcDecLoop_done (hdone _ ?_ ?_)))⟩
  · rw [State.setRc_rc, hl, hh]
    exact elow
  · rw [State.setRc_rc, hl, hh]
    exact ehigh

theorem exec_rcDec_eosOnly {s : State} {payload : List Byte} (h0 : s.status = 0)
    (h : s.remaining = headerBytes Config.magicRC eosOnly ++ payload) :
    ∃ t, exec .rcDec s = .next t ∧ t.status = (if payload = [] then 1 else 0) ∧ t.snk = s.snk
      ∧ t.resp = (if payload = [] then answerError 1 else answerNone)
      ∧ t.src = ⟨s.src.data, s.src.pos + (1036 + min 4 payload.length)⟩ := by
  obtain ⟨m, hm, hrem, run⟩ := header_eosOnly h
  obtain ⟨t, et, hst, hfm, hsnk, hl, hh, hz, hsrc⟩ := rcDinit_run ((s.consumed 1036).setFm m)
  rw [hrem] at hz hsrc
  have hrun : rcDec s = decodeLoop rcDsym (rcDecBound t) t := by rw [rcDec, run, Op.bind_of_ok et, reading_run]
  have ht0 : t.status = 0 := hst.trans h0
  have hsrc' : t.src = ⟨s.src.data, s.src.pos + (1036 + min 4 payload.length)⟩ := by
    rw [hsrc, ← Nat.add_assoc]
    rfl
  by_cases hp : payload = []
  · rw [hp, List.length_nil] at hz
    have e := hrun.trans (decodeLoop_error_of_pos (rcDecBound_pos t) (rcDsym_of_noInput hz))
    rw [if_pos hp, if_pos hp]
    exact ⟨_, exec_rcDec_of_raise h0 e, rfl, hsnk, rfl, hsrc'⟩
  · have hpos := List.length_pos_of_ne_nil hp
    obtain ⟨r, er⟩ := rcDsym_eos (s := t) (by rw [hfm]; exact hm) hl hh (by omega)
    rw [if_neg hp, if_neg hp]
    exact ⟨_, exec_rcDec_of_ok h0 (hrun.trans (decodeLoop_eos_of_pos (rcDecBound_pos t) er)) ht0, ht0, hsnk, rfl, hsrc'⟩

/-- Settles O40: the first symbol read is EOS. -/
theorem eosOnlyStreamsDecodeToNothing : Obligations.EosOnlyStreamsDecodeToNothing := by
  refine fun s payload h0 => ⟨fun b rest hp hb h => ?_, exec_acDec_eosOnly h0, exec_rcDec_eosOnly h0⟩
  rw [hp] at h
  exact exec_hfDec_eosOnly h0 h hb

end Sys2Proof.Machine

/-! SUPPORT. What the encoders make of no byte and of one byte (R168, R255): the two codes of the Huffman tree of one byte and
EOS, and the record of one copy. -/

namespace Sys2Proof.Machine

open Sys2Proof

/-! ## Packed bits -/

/-- R67: bits are packed in one way. -/
theorem IsPacked.unique {bits : List Bool} {out out' : List Byte} (h : IsPacked bits out) (h' : IsPacked bits out') :
    out = out' := by
  obtain ⟨hlen, hbit⟩ := h
  obtain ⟨hlen', hbit'⟩ := h'
  refine List.ext_getElem (hlen.trans hlen'.symm) fun i hi hi' => BitVec.eq_of_getLsbD_eq fun j hj => ?_
  have e := hbit (8 * i + (7 - j)) (by omega)
  have e' := hbit' (8 * i + (7 - j)) (by omega)
  rw [show (8 * i + (7 - j)) / 8 = i by omega, show 7 - (8 * i + (7 - j)) % 8 = j by omega] at e e'
  rw [← List.getD_eq_getElem _ 0 hi, ← List.getD_eq_getElem _ 0 hi', e, e']

theorem isPacked_0 : IsPacked [false] [0x00] := by unfold IsPacked; decide +kernel
theorem isPacked_01 : IsPacked [false, true] [0x40] := by unfold IsPacked; decide +kernel
theorem isPacked_10 : IsPacked [true, false] [0x80] := by unfold IsPacked; decide +kernel
theorem isPacked_0101 : IsPacked [false, true, false, true] [0x50] := by unfold IsPacked; decide +kernel

/-! ## The tree of two symbols (R161, R162) -/

section
variable {m : FM} {x y : Symbol}

/-- R163: the code of the one coded symbol. -/
theorem HF.built_one_leadsTo (h : HF) (hc : m.coded = [x]) : (h.built m.tree).leadsTo [false] x := by
  obtain ⟨hchild, hleaf, hsym⟩ := HF.built_one h hc
  refine ⟨0, HF.reaches_cons.mpr ⟨?_, hchild⟩, hleaf, hsym⟩
  rw [hchild]
  decide

/-- R161: of two symbols with one count the larger is removed first, and becomes the left child. -/
theorem FM.tree_of_two (hc : m.coded = [x, y]) (hf : m.freqAt x = m.freqAt y) (hxy : x < y) :
    m.tree.1.length = 3 ∧ (nodeIn m.tree.1 2).left = 1 ∧ (nodeIn m.tree.1 2).right = 0 := by
  have hlen : m.leaves.length = 2 := by rw [m.leaves_length, hc]; rfl
  obtain ⟨_, hx⟩ := FM.tree_leaf (m := m) hlen.ge (i := 0) (x := x) (by rw [hc]; rfl)
  obtain ⟨_, hy⟩ := FM.tree_leaf (m := m) hlen.ge (i := 1) (x := y) (by rw [hc]; rfl)
  have htree : m.tree.1.length = 3 := by
    have := FM.tree_length (m := m) hlen.ge
    omega
  obtain ⟨_, _, _, joins⟩ := FM.tree_merged (m := m) hlen.ge
  obtain ⟨a, b, J⟩ := joins 2 hlen.le (by rw [htree]; decide)
  have hsym : ¬ removedBefore (nodeIn m.tree.1 0) 0 (nodeIn m.tree.1 1) 1 = true := by
    rw [removedBefore_iff, hx, hy]
    dsimp only
    have hval : x.val < y.val := hxy
    have hy' := y.isLt
    rw [BitVec.toNat_ofNat, BitVec.toNat_ofNat, Nat.mod_eq_of_lt (by omega), Nat.mod_eq_of_lt (by omega), hf]
    rintro (h | ⟨_, h | ⟨h, _⟩⟩)
    · omega
    · omega
    · omega
  have hne := J.ne
  have ha := J.left_lt
  have hb := J.right_lt
  obtain ⟨rfl, rfl⟩ | ⟨rfl, rfl⟩ : a = 0 ∧ b = 1 ∨ a = 1 ∧ b = 0 := by omega
  · exact absurd J.left_first hsym
  · rw [J.eq_parent]
    exact ⟨htree, rfl, rfl⟩

theorem HF.built_two_leadsTo (h : HF) (hc : m.coded = [x, y]) (hf : m.freqAt x = m.freqAt y) (hxy : x < y) :
    (h.built m.tree).leadsTo [true] x ∧ (h.built m.tree).leadsTo [false] y := by
  obtain ⟨hlen, hleft, hright⟩ := FM.tree_of_two hc hf hxy
  have hn : (h.built m.tree).n.toNat = 3 := by rw [HF.built_n_toNat m.tree_oneTree, hlen]
  have hroot : (h.built m.tree).root = 2 := by
    have := HF.built_root_toNat (h := h) m.tree_oneTree
    exact BitVec.eq_of_toNat_eq (by change _ = 2; omega)
  have hnode := HF.built_nodeAt (h := h) (i := 2) m.tree_oneTree (by rw [hn]; decide)
  have hsymbols : m.treeSymbols = [x, y] := by rw [FM.treeSymbols, if_neg (by rw [hc]; exact List.cons_ne_nil _ _), hc]
  have hchild0 : (h.built m.tree).child (h.built m.tree).root true = 0 := by rw [HF.child, hroot, hnode]; exact hright
  have hchild1 : (h.built m.tree).child (h.built m.tree).root false = 1 := by rw [HF.child, hroot, hnode]; exact hleft
  constructor
  · refine ⟨0, HF.reaches_cons.mpr ⟨?_, hchild0⟩, (HF.built_leaf_iff (by rw [hn]; decide)).mpr (by rw [hsymbols]; rfl)⟩
    rw [hchild0]
    decide
  · refine ⟨1, HF.reaches_cons.mpr ⟨?_, hchild1⟩, (HF.built_leaf_iff (by rw [hn]; decide)).mpr (by rw [hsymbols]; rfl)⟩
    rw [hchild1]
    decide

/-- R164: the code is the path. -/
theorem HF.codeWord_of_leadsTo {h : HF} {p : List Bool} (hp : (h.built m.tree).leadsTo p x) (hne : p ≠ []) :
    (h.built m.tree).coded.codeWord x = p := by
  rw [(HF.coded_of_leadsTo hp).2, codeOfPath_of_ne_nil hne]

end

theorem HF.flatMap_codeWord_nil (m : FM) (h : HF) :
    (inputSymbols []).flatMap (h.built (m.scanned []).tree).coded.codeWord = [false] := by
  rw [inputSymbols_nil, List.flatMap_singleton]
  exact HF.codeWord_of_leadsTo (HF.built_one_leadsTo h m.coded_scanned_nil) (List.cons_ne_nil _ _)

theorem HF.flatMap_codeWord_singleton (m : FM) (h : HF) (b : Byte) :
    (inputSymbols [b]).flatMap (h.built (m.scanned [b]).tree).coded.codeWord = [true, false] := by
  have hcount : ∀ x ∈ inputSymbols [b], (m.scanned [b]).freqAt x = 1 := fun x hx => by
    rw [FM.freqAt_scanned (fewOccurrences_singleton b)]
    refine List.count_eq_one_of_mem ?_ hx
    simp [inputSymbols_singleton, (byteSymbol_lt_eos b).ne]
  obtain ⟨hbyte, heos⟩ := HF.built_two_leadsTo h (m.coded_scanned_singleton b)
    ((hcount _ List.mem_cons_self).trans (hcount _ (List.mem_cons_of_mem _ List.mem_cons_self)).symm) (byteSymbol_lt_eos b)
  rw [inputSymbols_singleton, List.flatMap_cons, List.flatMap_singleton,
    HF.codeWord_of_leadsTo hbyte (List.cons_ne_nil _ _), HF.codeWord_of_leadsTo heos (List.cons_ne_nil _ _)]
  rfl

/-! ## The ends of the encoders -/

/-- The encoder ends with status 0 and no value, has read the source to its end and has written this. -/
def EncodesTo (enc : Instr) (s : State) (out : List Byte) : Prop :=
  ∃ t, exec enc s = .next t ∧ t.status = 0 ∧ t.resp = answerNone ∧ t.snk.data = s.snk.data ++ out
    ∧ t.src = (s.consumed s.remaining.length).src

theorem hfEnc_encodesTo {s : State} {bits : List Bool} {out : List Byte} (h0 : s.status = 0) (hcap : s.snk.cap = none)
    (hfew : fewOccurrences s.remaining)
    (hbits : (inputSymbols s.remaining).flatMap (s.hf.built (s.fm.scanned s.remaining).tree).coded.codeWord = bits)
    (hout : IsPacked bits out) :
    EncodesTo .hfEnc s (headerBytes Config.magicHF (s.fm.scanned s.remaining).freq ++ out) := by
  obtain ⟨payload, e, hp⟩ := hfEnc_of_unbounded hcap hfew
  rw [hbits] at hp
  obtain rfl := hp.unique hout
  exact ⟨_, runCommand_noValue_encoded h0 e, h0, rfl, rfl, rfl⟩

/-! ## The run-length encoder (R255) -/

theorem rlEnc_of_nil {s : State} (h : s.remaining = []) : rlEnc s = .ok () (s.setRl ⟨0, 0⟩) := by
  have hend : rlEfin (s.setRl ⟨0, 0⟩) = .ok () (s.setRl ⟨0, 0⟩) := by
    obtain ⟨_, e⟩ | ⟨hne, _⟩ := rlEfin_run (s.setRl ⟨0, 0⟩)
    · exact e
    · exact absurd rfl hne
  rw [rlEnc, Op.bind_of_ok (rlEinit_run s)]
  have hloop : forSource rlEbyte (s.setRl ⟨0, 0⟩) = .ok () (s.setRl ⟨0, 0⟩) := forEachByte_nil h
  rw [Op.bind_of_ok hloop, hend]

theorem rlEbyte_of_none {s : State} (b : Byte) (h : s.rl = ⟨0, 0⟩) : rlEbyte b s = .ok () (s.setRl ⟨b, 1⟩) := by
  obtain ⟨_, e⟩ | ⟨hne, _⟩ | ⟨hne, _⟩ := rlEbyte_run b s
  · exact e
  · exact absurd (congrArg RL.cnt h) hne
  · exact absurd (congrArg RL.cnt h) hne

theorem rlEfin_of_one {s : State} {b : Byte} (h : s.rl = ⟨b, 1⟩) (hcap : s.snk.cap = none) :
    rlEfin s = .ok () ((s.wrote [0x01, 0x00, 0x00, 0x00, b]).setRl ⟨b, 0⟩) := by
  have hone : leBytes32 1 = [0x01, 0x00, 0x00, 0x00] := by decide
  obtain ⟨hz, _⟩ | ⟨_, e⟩ := rlEfin_run s
  · rw [h] at hz
    exact absurd (show (1 : Word) = 0 from hz) (by decide)
  · have hroom : ∀ (rl : RL) (n : Nat), (s.setRl rl).hasRoom n = true := fun _ _ => State.hasRoom_of_none _ hcap
    rw [e, h, writeBytes_of_room _ _ (hroom _ _), show (RL.mk b 1).cnt = 1 from rfl, hone]
    rfl

theorem rlEnc_of_one {s : State} {b : Byte} (hcap : s.snk.cap = none) (h : s.remaining = [b]) :
    rlEnc s = .ok () (((s.consumed 1).wrote [0x01, 0x00, 0x00, 0x00, b]).setRl ⟨b, 0⟩) := by
  have hnil : (((s.setRl ⟨0, 0⟩).consumed 1).setRl ⟨b, 1⟩).remaining = [] :=
    State.remaining_of_cons (s := s) (b := b) (l := []) h
  have hloop : forSource rlEbyte (s.setRl ⟨0, 0⟩) = .ok () (((s.setRl ⟨0, 0⟩).consumed 1).setRl ⟨b, 1⟩) := by
    have hleft : srcLeft (s.setRl ⟨0, 0⟩) = 1 := by rw [srcLeft_eq]; exact congrArg List.length h
    rw [forSource, reading_run, hleft, forEachByte_cons (s := s.setRl ⟨0, 0⟩) h,
      Op.bind_of_ok (rlEbyte_of_none b rfl), forEachByte_nil hnil]
  rw [rlEnc, Op.bind_of_ok (rlEinit_run s), Op.bind_of_ok hloop]
  exact rlEfin_of_one rfl hcap

end Sys2Proof.Machine

/-! SUPPORT. What the interval encoders make of no byte and of one byte (R195, R200, R223, R227): EOS has the whole interval, or
the byte and EOS have one half each. -/

namespace Sys2Proof.Machine

open Sys2Proof

/-! ## The first operations of the two encoders -/

/-- R144, R148, R146: a table of at most 2^24 counts is not scaled; the header; the cumulative table. -/
theorem inOrder_interval {s : State} (tag : Word) (ops : List (Op Unit)) (hcap : s.snk.cap = none) (h0 : s.fm.total ≠ 0)
    (h : s.fm.total ≤ 2 ^ 24) : inOrder (fmScale :: fmWhdr tag :: fmCum :: ops) s
      = inOrder ops ((s.wrote (headerBytes tag s.fm.freq)).setFm { s.fm with cum := s.fm.cumTable }) := by
  have hscale : fmScale s = .ok () s := by rw [fmScale_run, FM.scaled_of_le h0 h]; rfl
  have hcum : fmCum (s.wrote (headerBytes tag s.fm.freq))
      = .ok () ((s.wrote (headerBytes tag s.fm.freq)).setFm { s.fm with cum := s.fm.cumTable }) := by
    obtain ⟨ht, _⟩ | ⟨_, e⟩ := fmCum_run (s.wrote (headerBytes tag s.fm.freq))
    · rw [State.wrote_fm] at ht
      omega
    · exact e
  rw [inOrder, Op.bind_of_ok hscale, inOrder, Op.bind_of_ok (fmWhdr_of_unbounded tag hcap), inOrder, Op.bind_of_ok hcum]

/-- R30: the shares of an input of at most one byte. -/
theorem FM.cumAt_scanned {bs : List Byte} (m : FM) (hlen : bs.length ≤ 1) {i : Nat} (hi : i ≤ 257) :
    FM.cumAt { m.scanned bs with cum := (m.scanned bs).cumTable } i = (inputSymbols bs).countP (·.val < i) := by
  refine FM.cumAt_cumTable_scanned (fun b => ?_) (by omega) hi
  have := List.count_le_length (a := b) (l := bs)
  omega

/-! ## The arithmetic encoder -/

/-- R192: the registers of the arithmetic encoder after `AC.EINIT`, with this table and an unbounded sink. -/
structure AcFresh (m : FM) (s : State) : Prop where
  table : s.fm = m
  low : s.ac.low = 0
  high : s.ac.high = 0xFFFFFFFF
  pend : s.ac.pend = 0
  unbounded : s.snk.cap = none

/-- The packer and the sink do not see the registers of the arithmetic coder. -/
theorem bwWbit_setAc (b : Bool) (s : State) (a : AC) : bwWbit b (s.setAc a) = mapState (·.setAc a) (bwWbit b s) := by
  rw [bwWbit_eq, bwWbit_eq, State.setAc_bw]
  split
  · obtain ⟨hf, e⟩ | ⟨hf, e⟩ := snkWrite_run (s.bw.shiftIn b) (s.setBw ⟨0, 0⟩)
    · rw [e]
      exact snkWrite_of_full (s := (s.setAc a).setBw ⟨0, 0⟩) _ hf
    · rw [e]
      obtain ⟨hf', _⟩ | ⟨_, e'⟩ := snkWrite_run (s.bw.shiftIn b) ((s.setAc a).setBw ⟨0, 0⟩)
      · exact absurd hf' hf
      · exact e'
  · rfl

theorem bwWbit_ac {b : Bool} {s t : State} (e : bwWbit b s = .ok () t) : t.ac = s.ac := by
  have h := bwWbit_setAc b s s.ac
  rw [show s.setAc s.ac = s from rfl, e, mapState_ok] at h
  injection h with _ ht
  have hac : t.ac = (t.setAc s.ac).ac := congrArg State.ac ht
  exact hac

theorem outputInvariant_fm (m : FM) : OutputInvariant fun t => t.fm = m := ⟨fun _ e => e, fun _ e => e, fun _ e => e⟩

/-- A bit into an unbounded sink: the coder's registers and the table stay, whatever the registers are meanwhile. -/
theorem AcFresh.bit {m : FM} {s : State} (h : AcFresh m s) (b : Bool) :
    ∃ t, bwWbit b s = .ok () t ∧ AcFresh m t ∧ t.ac = s.ac
    ∧ ∀ a, bwWbit b (s.setAc a) = .ok () (t.setAc a) := by
  obtain ⟨t, e, hcap⟩ := bwWbit_of_unbounded b h.unbounded
  have hac := bwWbit_ac e
  refine ⟨t, e, ⟨((outputInvariant_fm m).bwWbit b).of_ok h.table e, ?_, ?_, ?_, hcap⟩, hac, fun a => ?_⟩
  · rw [hac, h.low]
  · rw [hac, h.high]
  · rw [hac, h.pend]
  · rw [bwWbit_setAc, e]
    rfl

section
variable {m : FM} {s : State} {x : Symbol}

/-- Registers with these values are those of the fresh encoder. -/
theorem AcFresh.ac_eq (h : AcFresh m s) {l u : Word} {p : Nat} (hl : l = 0) (hu : u = 0xFFFFFFFF) (hp : p = 0) :
    { s.ac with low := l, high := u, pend := p } = s.ac :=
  calc { s.ac with low := l, high := u, pend := p }
      = { s.ac with low := s.ac.low, high := s.ac.high, pend := s.ac.pend } := by rw [h.low, h.high, h.pend, hl, hu, hp]
    _ = s.ac := rfl

theorem AcFresh.done (h : AcFresh m s) (k : Nat) : acEncLoop (k + 1) s = .ok () s :=
  acEncLoop_done (by rw [AC.renorm, h.low, h.high]; decide)

/-- R191, R194: a symbol whose share is the whole interval. -/
theorem acEsym_of_whole (h : AcFresh m s) (hx : m.hasShare 0 0xFFFFFFFF x.val) (hlow : m.newLow 0 0xFFFFFFFF x.val = 0)
    (hhigh : m.newHigh 0 0xFFFFFFFF x.val = 2 ^ 32 - 1) : acEsym x s = .ok () s := by
  obtain ⟨hno, _⟩ | ⟨_, e⟩ := intervalUpdate_ac_run x s
  · rw [h.table, h.low, h.high] at hno
    exact absurd hx hno
  · rw [h.table, h.low, h.high, hlow, hhigh] at e
    have hac := h.ac_eq (l := 0#32) (u := BitVec.ofNat 32 (2 ^ 32 - 1)) rfl rfl h.pend
    have e' : intervalUpdate .ac x s = .ok () (s.setAc s.ac) := by rw [← hac]; exact e
    rw [acEsym, Op.bind_of_ok e']
    exact h.done 32

/-- R193, R194: one turn makes the whole interval of a half of it, and writes the bit that tells the half. -/
theorem acEncLoop_of_half (h : AcFresh m s) (c : Bool) {l u : Word} {a : AC} (ha : { s.ac with low := l, high := u } = a)
    (hl : l = if c then 0x80000000 else 0) (hu : u = if c then 0xFFFFFFFF else 0x7FFFFFFF) :
    acEncLoop 33 (s.setAc a) = bwWbit c s := by
  obtain ⟨t, et, ht, hac, hset⟩ := h.bit c
  have hlow : a.low = l := by rw [← ha]
  have hhigh : a.high = u := by rw [← ha]
  have hpend : a.pend = 0 := by rw [← ha]; exact h.pend
  have hturn : a.renorm = if c then .upper else .lower := by
    rw [AC.renorm, hlow, hhigh, hl, hu]
    cases c <;> decide
  have hemit : acEmitFor a.renorm (s.setAc a) = .ok () (t.setAc a) := by
    have hop : acEmitFor a.renorm = acEmit c := by rw [hturn]; cases c <;> rfl
    rw [hop, acEmit, Op.bind_of_ok (hset a), reading_run, State.setAc_ac, hpend]
    rfl
  have hback : a.rescale a.renorm.bias = t.ac := by
    have hrescale : a.rescale a.renorm.bias = { s.ac with low := 0, high := 0xFFFFFFFF, pend := s.ac.pend } := by
      rw [hturn, AC.rescale, hlow, hhigh, hl, hu, ← ha]
      cases c <;> rfl
    rw [hrescale, hac]
    exact h.ac_eq rfl rfl h.pend
  rw [acEncLoop_turn (r := a.renorm) rfl (by rw [hturn]; cases c <;> decide), Op.bind_of_ok hemit,
    Op.bind_of_ok (modAc_run _ _), State.setAc_ac, hback, et]
  exact ht.done 31

theorem acEsym_of_half (h : AcFresh m s) (c : Bool) (hx : m.hasShare 0 0xFFFFFFFF x.val)
    (hlow : m.newLow 0 0xFFFFFFFF x.val = if c then 2 ^ 31 else 0)
    (hhigh : m.newHigh 0 0xFFFFFFFF x.val = if c then 2 ^ 32 - 1 else 2 ^ 31 - 1) : acEsym x s = bwWbit c s := by
  obtain ⟨hno, _⟩ | ⟨_, e⟩ := intervalUpdate_ac_run x s
  · rw [h.table, h.low, h.high] at hno
    exact absurd hx hno
  rw [h.table, h.low, h.high, hlow, hhigh] at e
  rw [acEsym, Op.bind_of_ok e]
  refine acEncLoop_of_half h c rfl ?_ ?_
  · cases c <;> rfl
  · cases c <;> rfl

/-- R195: the two bits of the tail. -/
theorem acEfin_of_fresh (h : AcFresh m s) : acEfin s = (do writeBits [false, true]; bwFlush : Op Unit) s := by
  obtain ⟨t, et, ht, hac, hset⟩ := h.bit false
  obtain ⟨u, eu, hu, huac, hset'⟩ := ht.bit true
  have hbits : writeBits [false, true] s = .ok () u := by
    rw [writeBits, Op.bind_of_ok et, writeBits, Op.bind_of_ok eu]
    rfl
  have hpend : modAc (fun a => { a with pend := a.pend + 1 }) s = .ok () (s.setAc { s.ac with pend := 1 }) := by
    rw [modAc_run, h.pend]
  have hlow : decide (Config.q1 ≤ (s.setAc { s.ac with pend := 1 }).ac.low.toNat) = false := by
    rw [State.setAc_ac, h.low]
    decide
  have hemit : acEmit false (s.setAc { s.ac with pend := 1 }) = .ok () u := by
    have hback : { s.ac with pend := 0 } = u.ac := by
      rw [huac, hac]
      exact h.ac_eq h.low h.high rfl
    rw [acEmit, Op.bind_of_ok (hset _), reading_run, State.setAc_ac, emitPending, Bool.not_false, Op.bind_of_ok (hset' _),
      Op.bind_of_ok (modAc_run _ _), State.setAc_ac, hback]
    rfl
  have hread : (reading fun s => acEmit (decide (Config.q1 ≤ s.ac.low.toNat))) (s.setAc { s.ac with pend := 1 })
      = .ok () u := by rw [reading_run, hlow, hemit]
  rw [acEfin, Op.bind_of_ok hpend, Op.bind_of_ok hread, Op.bind_of_ok hbits]

/-- R194: symbols that are bits. -/
theorem inOrder_acEsym {code : Symbol → List Bool} : ∀ (xs : List Symbol) (s : State), AcFresh m s →
    (∀ x ∈ xs, ∀ s, AcFresh m s → acEsym x s = writeBits (code x) s) →
    inOrder (xs.map acEsym) s = writeBits (xs.flatMap code) s ∧ ∃ t, writeBits (xs.flatMap code) s = .ok () t ∧ AcFresh m t
  | [], s, h, _ => ⟨rfl, s, rfl, h⟩
  | x :: xs, s, h, hcode => by
    have bits : ∀ (bits : List Bool) (s : State), AcFresh m s → ∃ t, writeBits bits s = .ok () t ∧ AcFresh m t := by
      intro bits
      induction bits with
      | nil => exact fun s h => ⟨s, rfl, h⟩
      | cons b bits ih =>
        intro s h
        obtain ⟨t, e, ht, _⟩ := h.bit b
        obtain ⟨u, eu, hu⟩ := ih t ht
        exact ⟨u, (Op.bind_of_ok e).trans eu, hu⟩
    obtain ⟨t, et, ht⟩ := bits (code x) s h
    obtain ⟨hrest, u, eu, hu⟩ := inOrder_acEsym xs t ht fun y hy => hcode y (List.mem_cons_of_mem _ hy)
    have hsplit : writeBits ((x :: xs).flatMap code) s = writeBits (xs.flatMap code) t := by
      rw [List.flatMap_cons, writeBits_append, Op.bind_of_ok et]
    refine ⟨?_, u, hsplit.trans eu, hu⟩
    rw [List.map_cons, inOrder, Op.bind_of_ok ((hcode x List.mem_cons_self s h).trans et), hrest, hsplit]

end

end Sys2Proof.Machine

/-! SUPPORT. The streams of the empty input and of one byte (R200, R227, R320): the runs of the four encoders. -/

namespace Sys2Proof.Machine

open Sys2Proof

/-! ## Shares -/

section
variable {m : FM} {x : Symbol} {low high lo hi : Word}

/-- R191: a share that is not empty, with the bounds it gives. -/
structure FM.Narrows (m : FM) (low high : Word) (x : Symbol) (lo hi : Word) : Prop where
  share : m.hasShare low high x.val
  lower : m.newLow low high x.val = lo.toNat
  upper : m.newHigh low high x.val = hi.toNat

/-- R191, from the entries of the table. -/
theorem FM.narrows_of_cum {a b t : Nat} (ha : m.cumAt x.val = a) (hb : m.cumAt (x.val + 1) = b) (ht : m.cumAt 257 = t)
    (hshare : t ≠ 0 ∧ rangeSize low high * a / t < rangeSize low high * b / t)
    (hlo : low.toNat + rangeSize low high * a / t = lo.toNat)
    (hhi : low.toNat + rangeSize low high * b / t - 1 = hi.toNat) : m.Narrows low high x lo hi := by
  refine ⟨?_, ?_, ?_⟩
  · rw [FM.hasShare, ha, hb, ht]; exact hshare
  · rw [FM.newLow, ha, ht]; exact hlo
  · rw [FM.newHigh, hb, ht]; exact hhi

end

/-- The table that the second pass makes for this input. -/
def FM.coderTable (m : FM) (bs : List Byte) : FM := { m.scanned bs with cum := (m.scanned bs).cumTable }

section
variable (m : FM) (b : Byte)

/-- R191: for the empty input EOS has the whole interval. -/
theorem FM.narrows_nil : (m.coderTable []).Narrows 0 0xFFFFFFFF eosSymbol 0 0xFFFFFFFF := by
  have hcum := fun {i} (hi : i ≤ 257) => m.cumAt_scanned (bs := []) (by decide) hi
  exact FM.narrows_of_cum (a := 0) (b := 1) (t := 1) (hcum (by decide)) (hcum (by decide)) (hcum le_rfl) (by decide)
    (by decide) (by decide)

/-- R30: the shares of one byte and EOS. -/
theorem FM.cumAt_singleton {i : Nat} (hi : i ≤ 257) :
    (m.coderTable [b]).cumAt i = (if b.toNat < i then 1 else 0) + (if 256 < i then 1 else 0) := by
  refine (m.cumAt_scanned (bs := [b]) le_rfl hi).trans ?_
  rw [inputSymbols_singleton, List.countP_cons, List.countP_singleton, Nat.add_comm]
  simp only [decide_eq_true_eq]
  rfl

theorem FM.cumAt_singleton_byte : (m.coderTable [b]).cumAt (byteSymbol b).val = 0
    ∧ (m.coderTable [b]).cumAt ((byteSymbol b).val + 1) = 1 ∧ (m.coderTable [b]).cumAt eosSymbol.val = 1
    ∧ (m.coderTable [b]).cumAt (eosSymbol.val + 1) = 2 ∧ (m.coderTable [b]).cumAt 257 = 2 := by
  have hb := b.isLt
  have heos : eosSymbol.val = 256 := rfl
  rw [byteSymbol_val, heos]
  refine ⟨?_, ?_, ?_, ?_, ?_⟩ <;> rw [FM.cumAt_singleton m b (by omega)] <;> split_ifs <;> omega

/-- R191: the byte has the lower half, EOS the upper half. -/
theorem FM.narrows_byte : (m.coderTable [b]).Narrows 0 0xFFFFFFFF (byteSymbol b) 0 0x7FFFFFFF := by
  obtain ⟨h0, h1, _, _, ht⟩ := m.cumAt_singleton_byte b
  exact FM.narrows_of_cum h0 h1 ht (by decide) (by decide) (by decide)

theorem FM.narrows_eos : (m.coderTable [b]).Narrows 0 0xFFFFFFFF eosSymbol 0x80000000 0xFFFFFFFF := by
  obtain ⟨_, _, h0, h1, ht⟩ := m.cumAt_singleton_byte b
  exact FM.narrows_of_cum h0 h1 ht (by decide) (by decide) (by decide)

theorem FM.narrows_eos_of_half : (m.coderTable [b]).Narrows 0 0x7FFFFFFF eosSymbol 0x40000000 0x7FFFFFFF := by
  obtain ⟨_, _, h0, h1, ht⟩ := m.cumAt_singleton_byte b
  exact FM.narrows_of_cum h0 h1 ht (by decide) (by decide) (by decide)

end

theorem EncodesTo.of_ok {enc : Instr} {op : Op Unit} {s t : State} {out : List Byte} (h0 : s.status = 0)
    (hexec : exec enc s = runCommand (noValue op) s) (e : op s = .ok () (t.consumed s.remaining.length))
    (ht : t.status = s.status) (hsnk : t.snk.data = s.snk.data ++ out) (hsrc : t.src = s.src) : EncodesTo enc s out := by
  refine ⟨_, hexec.trans (runCommand_noValue_ok h0 e (ht.trans h0)), ht.trans h0, rfl, hsnk, ?_⟩
  rw [← show (t.consumed s.remaining.length).src = (s.consumed s.remaining.length).src by
    rw [State.consumed_src, State.consumed_src, hsrc]]

/-- R143: the counts of at most one byte are small. -/
theorem FM.total_scanned_small {bs : List Byte} (m : FM) (hlen : bs.length ≤ 1) :
    (m.scanned bs).total ≠ 0 ∧ (m.scanned bs).total ≤ 2 ^ 24 := by
  rw [FM.total_scanned fun b => by have := List.count_le_length (a := b) (l := bs); omega]
  omega

theorem map_inputSymbols {α : Type} (f : Symbol → α) (bs : List Byte) (l : List α) :
    bs.map (fun b => f (byteSymbol b)) ++ f eosSymbol :: l = (inputSymbols bs).map f ++ l := by
  simp [inputSymbols]

/-- The second pass when the table is made: the header is written. -/
def State.coderStart (s : State) (tag : Word) (bs : List Byte) : State :=
  (s.wrote (headerBytes tag (s.fm.scanned bs).freq)).setFm (s.fm.coderTable bs)

theorem State.coderStart_frame (s : State) (tag : Word) (bs : List Byte) :
    (s.coderStart tag bs).status = s.status ∧ (s.coderStart tag bs).fm = s.fm.coderTable bs
      ∧ (s.coderStart tag bs).snk.cap = s.snk.cap
      ∧ (s.coderStart tag bs).snk.data = s.snk.data ++ headerBytes tag (s.fm.scanned bs).freq
      ∧ (s.coderStart tag bs).src = s.src := ⟨rfl, rfl, rfl, rfl, rfl⟩

theorem inOrder_coderStart {s : State} {tag : Word} {bs : List Byte} (ops : List (Op Unit)) (hcap : s.snk.cap = none)
    (hrem : s.remaining = bs) (hlen : bs.length ≤ 1) :
    inOrder (fmScale :: fmWhdr tag :: fmCum :: ops) s.scanned = inOrder ops (s.coderStart tag bs) := by
  obtain ⟨hpos, hsmall⟩ := s.fm.total_scanned_small hlen
  rw [State.scanned, hrem]
  exact inOrder_interval (s := s.setFm (s.fm.scanned bs)) tag ops hcap hpos hsmall

/-! ## The arithmetic encoder -/

theorem acEnc_eq (s : State) : acEnc s = secondPass [fmScale, fmWhdr Config.magicAC, fmCum, acEinit, bwInit]
    (fun x => acEsym (byteSymbol x)) [acEsym eosSymbol, acEfin] s.scanned := by
  rw [acEnc, firstPass_run]
  simp only [secondPass, inOrder, bind_assoc, bind_pure_unit]

/-- R194, R195: symbols that are bits, and the tail, packed. -/
theorem acEnc_emits {m : FM} {s : State} {code : Symbol → List Bool} (xs : List Symbol) (h : AcFresh m s)
    (hbw : s.bw = ⟨0, 0⟩)
    (hcode : ∀ x ∈ xs, ∀ s, AcFresh m s → acEsym x s = writeBits (code x) s) :
    ∃ payload, inOrder (xs.map acEsym ++ [acEfin]) s = .ok () ((s.wrote payload).setBw ⟨0, 0⟩)
      ∧ IsPacked (xs.flatMap code ++ [false, true]) payload := by
  obtain ⟨hsyms, t, et, ht⟩ := inOrder_acEsym xs s h hcode
  obtain ⟨payload, e, hp⟩ := writeBits_bwFlush_isPacked (xs.flatMap code ++ [false, true]) hbw
    (State.hasRoom_of_none _ h.unbounded)
  refine ⟨payload, ?_, hp⟩
  rw [inOrder_append, Op.bind_of_ok (hsyms.trans et)]
  simp only [inOrder, bind_pure_unit]
  rw [acEfin_of_fresh ht, ← e, Op.bind_run, Op.bind_run, writeBits_append, Op.bind_of_ok et]

theorem acEnc_encodesTo {s : State} {bs : List Byte} {code : Symbol → List Bool} {out : List Byte} (h0 : s.status = 0)
    (hcap : s.snk.cap = none) (hrem : s.remaining = bs) (hlen : bs.length ≤ 1)
    (hcode : ∀ x ∈ inputSymbols bs, ∀ t, AcFresh (s.fm.coderTable bs) t → acEsym x t = writeBits (code x) t)
    (hout : IsPacked ((inputSymbols bs).flatMap code ++ [false, true]) out) :
    EncodesTo .acEnc s (headerBytes Config.magicAC (s.fm.scanned bs).freq ++ out) := by
  have before : (inOrder [fmScale, fmWhdr Config.magicAC, fmCum, acEinit, bwInit]).Blind := inOrder_blind
    (by simp [fmScale_plain.blind, (fmWhdr_plain _).blind, fmCum_plain.blind, acEinit_plain.blind, bwInit_plain.blind])
  have after : (inOrder [acEsym eosSymbol, acEfin]).Blind := inOrder_blind (by simp [acEsym_blind, acEfin_plain.blind])
  obtain ⟨v, hv⟩ : ∃ v, v = s.coderStart Config.magicAC bs := ⟨_, rfl⟩
  obtain ⟨hvst, hvfm, hvcap, hvdata, hvsrc⟩ := s.coderStart_frame Config.magicAC bs
  rw [← hv] at hvst hvfm hvcap hvdata hvsrc
  obtain ⟨payload, e, hp⟩ := acEnc_emits (inputSymbols bs)
    (s := (v.setAc { v.ac with low := 0, high := 0xFFFFFFFF, pend := 0 }).setBw ⟨0, 0⟩)
    ⟨hvfm, rfl, rfl, rfl, by rw [State.setBw_snk, State.setAc_snk, hvcap, hcap]⟩ rfl hcode
  obtain rfl := hp.unique hout
  have hrun : inOrder ([fmScale, fmWhdr Config.magicAC, fmCum, acEinit, bwInit]
      ++ s.remaining.map (fun x => acEsym (byteSymbol x)) ++ [acEsym eosSymbol, acEfin]) s.scanned
      = inOrder ((inputSymbols bs).map acEsym ++ [acEfin])
        ((v.setAc { v.ac with low := 0, high := 0xFFFFFFFF, pend := 0 }).setBw ⟨0, 0⟩) := by
    rw [List.append_assoc, map_inputSymbols, hrem]
    refine (inOrder_coderStart (acEinit :: bwInit :: ((inputSymbols bs).map acEsym ++ [acEfin])) hcap hrem hlen).trans ?_
    rw [← hv, inOrder, Op.bind_of_ok (acEinit_run v), inOrder, Op.bind_of_ok (bwInit_run _)]
  have henc := (acEnc_eq s).trans (secondPass_scanned_run before (fun _ => acEsym_blind _) after (hrun.trans e))
  refine EncodesTo.of_ok h0 (op := acEnc) rfl henc ?_ ?_ ?_
  · exact hvst
  · rw [← List.append_assoc, ← hvdata]; rfl
  · exact hvsrc

theorem acEsym_of_narrows {m : FM} {s : State} {x : Symbol} {lo hi : Word} (h : AcFresh m s)
    (hx : m.Narrows 0 0xFFFFFFFF x lo hi) (c : Bool) (hlo : lo = if c then 0x80000000 else 0)
    (hhi : hi = if c then 0xFFFFFFFF else 0x7FFFFFFF) : acEsym x s = writeBits [c] s := by
  obtain ⟨hshare, hlower, hupper⟩ := hx
  rw [writeBits, writeBits, bind_pure_unit]
  refine acEsym_of_half h c hshare (hlower.trans ?_) (hupper.trans ?_)
  · rw [hlo]; cases c <;> rfl
  · rw [hhi]; cases c <;> rfl

theorem acEsym_of_narrows_whole {m : FM} {s : State} {x : Symbol} (h : AcFresh m s)
    (hx : m.Narrows 0 0xFFFFFFFF x 0 0xFFFFFFFF) : acEsym x s = writeBits [] s := by
  obtain ⟨hshare, hlower, hupper⟩ := hx
  exact acEsym_of_whole h hshare (hlower.trans (by decide)) (hupper.trans (by decide))

theorem acEnc_nil {s : State} (h0 : s.status = 0) (hcap : s.snk.cap = none) (hrem : s.remaining = []) :
    EncodesTo .acEnc s (headerBytes Config.magicAC eosOnly ++ [0x40]) := by
  rw [← s.fm.scanned_nil_freq]
  refine acEnc_encodesTo (code := fun _ => []) h0 hcap hrem (by decide) (fun x hx t ht => ?_) isPacked_01
  obtain rfl : x = eosSymbol := List.mem_singleton.mp hx
  exact acEsym_of_narrows_whole ht s.fm.narrows_nil

theorem acEnc_singleton {s : State} {b : Byte} (h0 : s.status = 0) (hcap : s.snk.cap = none) (hrem : s.remaining = [b]) :
    EncodesTo .acEnc s (headerBytes Config.magicAC (oneByte b) ++ [0x50]) := by
  rw [← s.fm.scanned_singleton_freq b]
  refine acEnc_encodesTo (code := fun x => [decide (x = eosSymbol)]) h0 hcap hrem le_rfl (fun x hx t ht => ?_) ?_
  · obtain rfl | rfl : x = byteSymbol b ∨ x = eosSymbol := by simpa [inputSymbols] using hx
    · rw [decide_eq_false (byteSymbol_ne_eos b)]
      exact acEsym_of_narrows ht (s.fm.narrows_byte b) false rfl rfl
    · rw [decide_eq_true rfl]
      exact acEsym_of_narrows ht (s.fm.narrows_eos b) true rfl rfl
  · have hbits : (inputSymbols [b]).flatMap (fun x => [decide (x = eosSymbol)]) = [false, true] := by
      rw [inputSymbols, List.map_singleton, List.singleton_append, List.flatMap_cons, List.flatMap_singleton,
        decide_eq_false (byteSymbol_ne_eos b), decide_eq_true rfl]
      rfl
    rw [hbits]
    exact isPacked_0101

/-! ## The range encoder -/

theorem rcEnc_eq (s : State) : rcEnc s = secondPass [fmScale, fmWhdr Config.magicRC, fmCum, rcEinit]
    (fun x => rcEsym (byteSymbol x)) [rcEsym eosSymbol, rcEfin] s.scanned := by
  rw [rcEnc, firstPass_run]
  simp only [secondPass, inOrder, bind_assoc, bind_pure_unit]

/-- R222: a share whose bounds differ in the top byte. -/
theorem rcEsym_of_narrows {s : State} {x : Symbol} {lo hi : Word} (h : s.fm.Narrows s.rc.low s.rc.high x lo hi)
    (htop : 2 ^ 24 ≤ (lo ^^^ hi).toNat) : rcEsym x s = .ok () (s.setRc { s.rc with low := lo, high := hi }) := by
  obtain ⟨hshare, hlower, hupper⟩ := h
  obtain ⟨hno, _⟩ | ⟨_, e⟩ := intervalUpdate_rc_run x s
  · exact absurd hshare hno
  · rw [hlower, hupper, BitVec.ofNat_toNat, BitVec.ofNat_toNat, BitVec.setWidth_eq, BitVec.setWidth_eq] at e
    rw [rcEsym, Op.bind_of_ok e]
    exact rcEncLoop_done (decide_eq_false (Nat.not_lt.mpr htop))

theorem rcTailByte_of_unbounded {s : State} (hcap : s.snk.cap = none) :
    rcTailByte s = .ok () ((s.wrote [byteOf s.rc.low 3]).setRc { s.rc with low := s.rc.low <<< 8 }) := by
  have hwrite : (reading fun s => snkWrite s.rc.topByte) s = .ok () (s.wrote [byteOf s.rc.low 3]) := by
    rw [reading_run, snkWrite_of_room _ (State.hasRoom_of_none 1 hcap)]
    rfl
  rw [rcTailByte, Op.bind_of_ok hwrite]
  rfl

/-- R223: the next byte comes to the top. -/
theorem byteOf_shiftLeft (w : Word) {k : Nat} (hk : k < 3) : byteOf (w <<< 8) (k + 1) = byteOf w k := by
  refine BitVec.eq_of_getLsbD_eq fun i hi => ?_
  have h1 : 8 * (k + 1) + i < 32 := by omega
  have h2 : ¬ 8 * (k + 1) + i < 8 := by omega
  rw [byteOf, byteOf, BitVec.getLsbD_extractLsb', BitVec.getLsbD_extractLsb', BitVec.getLsbD_shiftLeft]
  simp only [h1, h2, decide_true, decide_false, Bool.not_false, Bool.true_and,
    show 8 * (k + 1) + i - 8 = 8 * k + i by omega]

/-- R223: the tail is the bytes of `low`, the top byte first. -/
theorem rcEfin_of_unbounded {s : State} (hcap : s.snk.cap = none) :
    ∃ r, rcEfin s = .ok () ((s.wrote (beBytes32 s.rc.low)).setRc r) := by
  have step : ∀ (n : Nat) (t : State) (out : List Byte) (r : RC), t.snk.cap = none →
      repeatOp rcTailByte (n + 1) ((t.wrote out).setRc r)
        = repeatOp rcTailByte n ((t.wrote (out ++ [byteOf r.low 3])).setRc { r with low := r.low <<< 8 }) := by
    intro n t out r ht
    rw [repeatOp, Op.bind_of_ok (rcTailByte_of_unbounded (s := (t.wrote out).setRc r) ht), ← State.wrote_wrote]
    rfl
  have hbytes : ∀ w : Word, byteOf (w <<< 8) 3 = byteOf w 2 ∧ byteOf (w <<< 8 <<< 8) 3 = byteOf w 1
      ∧ byteOf (w <<< 8 <<< 8 <<< 8) 3 = byteOf w 0 := fun w =>
    ⟨byteOf_shiftLeft w (by omega), (byteOf_shiftLeft _ (by omega)).trans (byteOf_shiftLeft w (by omega)),
      (byteOf_shiftLeft _ (by omega)).trans ((byteOf_shiftLeft _ (by omega)).trans (byteOf_shiftLeft w (by omega)))⟩
  obtain ⟨h2, h1, h0⟩ := hbytes s.rc.low
  have start : rcEfin s = repeatOp rcTailByte 4 ((s.wrote []).setRc s.rc) := by rw [rcEfin, State.wrote_nil]; rfl
  refine ⟨{ s.rc with low := s.rc.low <<< 8 <<< 8 <<< 8 <<< 8 }, ?_⟩
  rw [start, step _ _ _ _ hcap, step _ _ _ _ hcap, step _ _ _ _ hcap, step _ _ _ _ hcap]
  dsimp only
  rw [h2, h1, h0]
  rfl

theorem rcEnc_encodesTo {s : State} {bs : List Byte} {low : Word} (h0 : s.status = 0) (hcap : s.snk.cap = none)
    (hrem : s.remaining = bs) (hlen : bs.length ≤ 1)
    (hsyms : ∀ t, t.fm = s.fm.coderTable bs → t.rc.low = 0 → t.rc.high = 0xFFFFFFFF →
      ∃ r, inOrder ((inputSymbols bs).map rcEsym) t = .ok () (t.setRc r) ∧ r.low = low) :
    EncodesTo .rcEnc s (headerBytes Config.magicRC (s.fm.scanned bs).freq ++ beBytes32 low) := by
  have before : (inOrder [fmScale, fmWhdr Config.magicRC, fmCum, rcEinit]).Blind := inOrder_blind
    (by simp [fmScale_plain.blind, (fmWhdr_plain _).blind, fmCum_plain.blind, rcEinit_plain.blind])
  have after : (inOrder [rcEsym eosSymbol, rcEfin]).Blind :=
    inOrder_blind (by simp [(rcEsym_plain _).blind, rcEfin_plain.blind])
  obtain ⟨v, hv⟩ : ∃ v, v = s.coderStart Config.magicRC bs := ⟨_, rfl⟩
  obtain ⟨hvst, hvfm, hvcap, hvdata, hvsrc⟩ := s.coderStart_frame Config.magicRC bs
  rw [← hv] at hvst hvfm hvcap hvdata hvsrc
  obtain ⟨r, er, hr⟩ := hsyms (v.setRc { v.rc with low := 0, high := 0xFFFFFFFF }) hvfm rfl rfl
  obtain ⟨r', er'⟩ := rcEfin_of_unbounded
    (s := (v.setRc { v.rc with low := 0, high := 0xFFFFFFFF }).setRc r)
    (by rw [State.setRc_snk, State.setRc_snk, hvcap, hcap])
  rw [State.setRc_rc, hr] at er'
  have hrun : inOrder ([fmScale, fmWhdr Config.magicRC, fmCum, rcEinit]
      ++ s.remaining.map (fun x => rcEsym (byteSymbol x)) ++ [rcEsym eosSymbol, rcEfin]) s.scanned
      = rcEfin ((v.setRc { v.rc with low := 0, high := 0xFFFFFFFF }).setRc r) := by
    rw [List.append_assoc, map_inputSymbols, hrem]
    refine (inOrder_coderStart (rcEinit :: ((inputSymbols bs).map rcEsym ++ [rcEfin])) hcap hrem hlen).trans ?_
    rw [← hv, inOrder, Op.bind_of_ok (rcEinit_run v), inOrder_append, Op.bind_of_ok er]
    simp only [inOrder, bind_pure_unit]
  have henc := (rcEnc_eq s).trans
    (secondPass_scanned_run before (fun _ => (rcEsym_plain _).blind) after (hrun.trans er'))
  refine EncodesTo.of_ok h0 (op := rcEnc) rfl henc ?_ ?_ ?_
  · exact hvst
  · rw [← List.append_assoc, ← hvdata]; rfl
  · exact hvsrc

theorem rcEnc_nil {s : State} (h0 : s.status = 0) (hcap : s.snk.cap = none) (hrem : s.remaining = []) :
    EncodesTo .rcEnc s (headerBytes Config.magicRC eosOnly ++ [0x00, 0x00, 0x00, 0x00]) := by
  have h := rcEnc_encodesTo (low := 0) h0 hcap hrem (by decide) fun t hm hl hh => by
    have e := rcEsym_of_narrows (s := t) (by rw [hm, hl, hh]; exact s.fm.narrows_nil) (by decide)
    exact ⟨_, (Op.bind_of_ok e).trans rfl, rfl⟩
  rwa [s.fm.scanned_nil_freq, show beBytes32 0 = [0x00, 0x00, 0x00, 0x00] by decide] at h

theorem rcEnc_singleton {s : State} {b : Byte} (h0 : s.status = 0) (hcap : s.snk.cap = none) (hrem : s.remaining = [b]) :
    EncodesTo .rcEnc s (headerBytes Config.magicRC (oneByte b) ++ [0x40, 0x00, 0x00, 0x00]) := by
  rw [← s.fm.scanned_singleton_freq b, ← show beBytes32 0x40000000 = [0x40, 0x00, 0x00, 0x00] by decide]
  refine rcEnc_encodesTo h0 hcap hrem le_rfl fun t hm hl hh => ?_
  have ebyte := rcEsym_of_narrows (s := t) (by rw [hm, hl, hh]; exact s.fm.narrows_byte b) (by decide)
  have eeos := rcEsym_of_narrows (s := t.setRc { t.rc with low := 0, high := 0x7FFFFFFF })
    (by rw [State.setRc_fm, hm]; exact s.fm.narrows_eos_of_half b) (by decide)
  exact ⟨_, (Op.bind_of_ok ebyte).trans ((Op.bind_of_ok eeos).trans rfl), rfl⟩

/-! ## The two inputs -/

theorem hfEnc_nil {s : State} (h0 : s.status = 0) (hcap : s.snk.cap = none) (hrem : s.remaining = []) :
    EncodesTo .hfEnc s (headerBytes Config.magicHF eosOnly ++ [0x00]) := by
  have h := hfEnc_encodesTo h0 hcap (by rw [hrem]; exact fewOccurrences_nil)
    (by rw [hrem]; exact HF.flatMap_codeWord_nil s.fm s.hf) isPacked_0
  rwa [hrem, s.fm.scanned_nil_freq] at h

theorem hfEnc_singleton {s : State} {b : Byte} (h0 : s.status = 0) (hcap : s.snk.cap = none) (hrem : s.remaining = [b]) :
    EncodesTo .hfEnc s (headerBytes Config.magicHF (oneByte b) ++ [0x80]) := by
  have h := hfEnc_encodesTo h0 hcap (by rw [hrem]; exact fewOccurrences_singleton b)
    (by rw [hrem]; exact HF.flatMap_codeWord_singleton s.fm s.hf b) isPacked_10
  rwa [hrem, s.fm.scanned_singleton_freq] at h

/-- What the statement says of an encoder that writes a header and a payload. -/
theorem EncodesTo.stream {enc : Instr} {s : State} {n : Nat} {header payload : List Byte}
    (h : EncodesTo enc s (header ++ payload)) (hn : s.remaining.length = n) :
    ∃ t, exec enc s = .next t ∧ t.status = 0 ∧ t.resp = answerNone ∧ t.snk.data = s.snk.data ++ header ++ payload
      ∧ t.src = (s.consumed n).src := by
  obtain ⟨t, e, hst, hresp, hsnk, hsrc⟩ := h
  rw [← List.append_assoc] at hsnk
  rw [hn] at hsrc
  exact ⟨t, e, hst, hresp, hsnk, hsrc⟩

/-- Settles O39, encoder by encoder. -/
theorem emptyInputIsEncoded : Obligations.EmptyInputIsEncoded := by
  refine ⟨fun s h0 hcap hrem => ?_, fun s b h0 hcap hrem => ?_⟩
  · have hn : s.remaining.length = 0 := congrArg List.length hrem
    exact ⟨(hfEnc_nil h0 hcap hrem).stream hn, (acEnc_nil h0 hcap hrem).stream hn, (rcEnc_nil h0 hcap hrem).stream hn,
      runCommand_noValue_ok h0 (rlEnc_of_nil hrem) h0⟩
  · have hn : s.remaining.length = 1 := congrArg List.length hrem
    exact ⟨(hfEnc_singleton h0 hcap hrem).stream hn, (acEnc_singleton h0 hcap hrem).stream hn,
      (rcEnc_singleton h0 hcap hrem).stream hn, runCommand_noValue_ok h0 (rlEnc_of_one hcap hrem) h0⟩

end Sys2Proof.Machine

/-! SUPPORT. The commands that create an encoder's registers (R192, R221, R251). -/

namespace Sys2Proof.Machine

open Sys2Proof

/-- Settles O42, by the run of each of the three commands. -/
theorem encodersAreInitialised : Obligations.EncodersAreInitialised := by
  refine ⟨⟨rfl, rfl, rfl⟩, fun s h0 => ⟨?_, ?_, ?_⟩⟩
  · exact runCommand_noValue_ok h0 (acEinit_run s) h0
  · exact runCommand_noValue_ok h0 (rcEinit_run s) h0
  · exact runCommand_noValue_ok h0 (rlEinit_run s) h0

end Sys2Proof.Machine

/-! SUPPORT. The first bits of a stream as a number (R196): bits past the end are 0. -/

namespace Sys2Proof.Machine

open Sys2Proof

theorem bitsToNat_append (a b : List Bool) : bitsToNat (a ++ b) = bitsToNat a * 2 ^ b.length + bitsToNat b := by
  have foldl : ∀ (b : List Bool) (v : Nat),
      b.foldl (fun v b => 2 * v + b.toNat) v = v * 2 ^ b.length + bitsToNat b := by
    intro b
    induction b with
    | nil => intro v; simp [bitsToNat]
    | cons c b ih =>
      intro v
      rw [bitsToNat, List.foldl_cons, List.foldl_cons, ih, ih (2 * 0 + c.toNat), List.length_cons]
      ring
  rw [bitsToNat, List.foldl_append, foldl]
  rfl

/-- The first n bits, zeros past the end, as a number. -/
def bitsValue (n : Nat) (bs : List Bool) : Nat := bitsToNat ((List.range n).map fun k => bs.getD k false)

theorem bitsToNat_nextBits (s : State) (n : Nat) : bitsToNat (s.nextBits n) = bitsValue n s.bitStream := rfl

@[simp] theorem bitsValue_zero (bs : List Bool) : bitsValue 0 bs = 0 := rfl

theorem bitsValue_add (m n : Nat) (bs : List Bool) :
    bitsValue (m + n) bs = bitsValue m bs * 2 ^ n + bitsValue n (bs.drop m) := by
  have hdrop : ∀ k, (bs.drop m).getD k false = bs.getD (m + k) false := fun k => by
    rw [List.getD_eq_getElem?_getD, List.getD_eq_getElem?_getD, List.getElem?_drop]
  rw [bitsValue, List.range_add, List.map_append, bitsToNat_append, List.length_map, List.length_map, List.length_range,
    List.map_map, bitsValue, bitsValue]
  simp only [hdrop]
  rfl

theorem bitsValue_one (bs : List Bool) : bitsValue 1 bs = (bs.headD false).toNat := by
  cases bs <;> simp [bitsValue, bitsToNat]

/-- The first of the bits is the most significant. -/
theorem bitsValue_succ (n : Nat) (bs : List Bool) :
    bitsValue (n + 1) bs = (bs.headD false).toNat * 2 ^ n + bitsValue n bs.tail := by
  rw [Nat.add_comm, bitsValue_add, bitsValue_one, List.drop_one]

theorem bitsValue_cons (n : Nat) (b : Bool) (bs : List Bool) :
    bitsValue (n + 1) (b :: bs) = b.toNat * 2 ^ n + bitsValue n bs := bitsValue_succ n (b :: bs)

theorem bitsValue_lt : ∀ (n : Nat) (bs : List Bool), bitsValue n bs < 2 ^ n
  | 0, _ => Nat.one_pos
  | n + 1, bs => by
    have := bitsValue_lt n bs.tail
    have := Nat.mul_le_mul_right (2 ^ n) (Bool.toNat_le (bs.headD false))
    rw [bitsValue_succ, pow_succ]
    omega

theorem bitsValue_replicate_false (m : Nat) : ∀ n, bitsValue m (List.replicate n false) = 0 := by
  induction m with
  | zero => exact fun _ => rfl
  | succ m ih =>
    intro n
    rw [bitsValue_succ, List.tail_replicate, ih]
    cases n <;> simp [List.replicate_succ]

end Sys2Proof.Machine

/-! SUPPORT. The turns of the renormalization loop (R194), as the statements give them: from every interval the loop makes at
most 32 turns, and a turn by the registers is one of the three turns. -/

namespace Sys2Proof.Machine

open Sys2Proof

/-! ## One turn -/

/-- R193, R194: the bits a turn writes when p bits are pending. -/
def Renorm.output : Renorm → Nat → List Bool
  | .lower, p => false :: List.replicate p true
  | .upper, p => true :: List.replicate p false
  | .middle, _ => []
  | .done, _ => []

/-- R193, R194: the bits pending after a turn. -/
def Renorm.pendAfter : Renorm → Nat → Nat
  | .lower, _ => 0
  | .upper, _ => 0
  | .middle, p => p + 1
  | .done, p => p

section
variable {a : AC} {n p l' h' p' : Nat} {bs : List Bool}

/-- R194: the registers of a renormalized interval make no turn. -/
theorem AC.renorm_eq_done_iff : a.renorm = .done ↔ a.renormalized := by
  obtain ⟨h1, e⟩ | ⟨h1, h2, e⟩ | ⟨h1, h2, h3, h4, e⟩ | ⟨h, e⟩ := a.renorm_cases
  · rw [e, AC.renormalized]
    exact ⟨nofun, fun ⟨_, h, _⟩ => by omega⟩
  · rw [e, AC.renormalized]
    exact ⟨nofun, fun ⟨h, _, _⟩ => by omega⟩
  · rw [e, AC.renormalized]
    exact ⟨nofun, fun ⟨_, _, h⟩ => by omega⟩
  · exact ⟨fun _ => h, fun _ => e⟩

/-- R194: turns from the values of the registers: none if the interval is renormalized, else the turn of the test that holds
and then turns from the registers it leaves. -/
theorem acTurns_iff (hord : a.Ordered) : AcTurns n a.low.toNat a.high.toNat p bs l' h' p' ↔
    (n = 0 ∧ a.renorm = .done ∧ bs = [] ∧ l' = a.low.toNat ∧ h' = a.high.toNat ∧ p' = p)
      ∨ ∃ m bs', n = m + 1 ∧ a.renorm ≠ .done ∧ bs = a.renorm.output p ++ bs'
          ∧ AcTurns m (a.rescale a.renorm.bias).low.toNat (a.rescale a.renorm.bias).high.toNat (a.renorm.pendAfter p)
              bs' l' h' p' := by
  by_cases hr : a.renorm = .done
  · obtain ⟨h1, h2, h3⟩ := AC.renorm_eq_done_iff.mp hr
    constructor
    · rintro (_ | _ | _ | _)
      · exact .inl ⟨rfl, hr, rfl, rfl, rfl, rfl⟩
      all_goals omega
    · rintro (⟨rfl, _, rfl, rfl, rfl, rfl⟩ | ⟨_, _, _, hne, _⟩)
      · exact .exit h2 h1 h3
      · exact absurd hr hne
  · obtain ⟨hb, hsmall⟩ := AC.bias_le hr
    obtain ⟨elow, ehigh⟩ := AC.rescale_toNat hb hord hsmall
    rw [elow, ehigh]
    obtain ⟨h1, e⟩ | ⟨h1, h2, e⟩ | ⟨h1, h2, h3, h4, e⟩ | ⟨_, e⟩ := a.renorm_cases
    case inr.inr.inr => exact absurd e hr
    all_goals
      rw [e]
      constructor
    · rintro (_ | h | _ | _)
      case lower next => exact .inr ⟨_, _, rfl, nofun, rfl, next⟩
      all_goals omega
    · rintro (⟨_, h, _⟩ | ⟨m, bs', rfl, _, rfl, next⟩)
      · cases h
      · exact .lower h1 next
    · rintro (_ | _ | _ | _)
      case upper next => exact .inr ⟨_, _, rfl, nofun, rfl, next⟩
      all_goals omega
    · rintro (⟨_, h, _⟩ | ⟨m, bs', rfl, _, rfl, next⟩)
      · cases h
      · exact .upper h1 h2 next
    · rintro (_ | _ | _ | _)
      case middle next => exact .inr ⟨_, _, rfl, nofun, rfl, next⟩
      all_goals omega
    · rintro (⟨_, h, _⟩ | ⟨m, bs', rfl, _, rfl, next⟩)
      · cases h
      · exact .middle h1 h2 h3 h4 next

end

/-! ## All turns -/

/-- R194: each turn doubles an interval of 32 bits, so that at most 32 turns are made; what is left is renormalized. -/
theorem exists_acTurns : ∀ (k : Nat) (a : AC), a.Ordered → 2 ^ 32 < rangeSize a.low a.high * 2 ^ k → ∀ p,
    ∃ n bs, ∃ (l h : Word) (p' : Nat), n < k ∧ AcTurns n a.low.toNat a.high.toNat p bs l.toNat h.toNat p'
  | 0, a, _, hsize, _ => by
    have := a.high.isLt
    rw [rangeSize] at hsize
    omega
  | k + 1, a, hord, hsize, p => by
    by_cases hr : a.renorm = .done
    · exact ⟨0, [], a.low, a.high, p, k.succ_pos, (acTurns_iff hord).mpr (.inl ⟨rfl, hr, rfl, rfl, rfl, rfl⟩)⟩
    · obtain ⟨n, bs, l, h, p', hn, ht⟩ := exists_acTurns k _ (AC.rescale_ordered hord hr) (by
        rw [AC.rangeSize_rescale hord hr]
        calc 2 ^ 32 < rangeSize a.low a.high * 2 ^ (k + 1) := hsize
          _ = 2 * rangeSize a.low a.high * 2 ^ k := by ring) (a.renorm.pendAfter p)
      exact ⟨n + 1, _, l, h, p', Nat.succ_lt_succ hn, (acTurns_iff hord).mpr (.inr ⟨n, bs, rfl, hr, rfl, ht⟩)⟩

theorem AcTurns.renormalized {n l h p l' h' p' : Nat} {bs : List Bool} (ht : AcTurns n l h p bs l' h' p') :
    l' < 2 ^ 31 ∧ 2 ^ 31 ≤ h' ∧ (l' < 2 ^ 30 ∨ 3 * 2 ^ 30 ≤ h') := by
  induction ht with
  | exit h1 h2 h3 => exact ⟨h2, h1, h3⟩
  | lower _ _ ih => exact ih
  | upper _ _ _ ih => exact ih
  | middle _ _ _ _ _ ih => exact ih

/-- R191, R194: the turns from the share of a symbol. -/
theorem FM.exists_acTurns {m : FM} {low high : Word} {x : Symbol} (hc : m.cumLegal) (hs : m.hasShare low high x.val)
    (p : Nat) : ∃ n bs, ∃ (l h : Word) (p' : Nat), n < 33
      ∧ AcTurns n (m.newLow low high x.val) (m.newHigh low high x.val) p bs l.toNat h.toNat p' := by
  obtain ⟨_, hle, _⟩ := FM.interval_inside hc hs
  obtain ⟨elow, ehigh⟩ := FM.interval_ofNat hc hs
  have h := Machine.exists_acTurns 33 { AC.reset with
    low := BitVec.ofNat 32 (m.newLow low high x.val), high := BitVec.ofNat 32 (m.newHigh low high x.val) }
    (by rw [AC.Ordered, elow, ehigh]; exact hle) (by rw [rangeSize]; dsimp only; omega) p
  rwa [elow, ehigh] at h

end Sys2Proof.Machine

/-! SUPPORT. The arithmetic encoder (R193 to R195): its commands do what writing their bits does, but for the registers of the
coder. -/

namespace Sys2Proof.Machine

open Sys2Proof

/-! ## Operations that write bits -/

/-- From the registers a of the coder the operation does what w, which does not look at them, does; where it returns it leaves
the registers a'. -/
def Op.Emits (op w : Op Unit) (a a' : AC) : Prop :=
  ∀ s : State, (∀ t, w s = .ok () t → op (s.setAc a) = .ok () (t.setAc a'))
    ∧ ∀ e t, w s = .error e t → ∃ a'', op (s.setAc a) = .error e (t.setAc a'')

section
variable {op op' w w' : Op Unit} {a a' a'' : AC}

/-- An operation that does not look at the registers of the coder. -/
theorem Op.Emits.of_setAc (h : ∀ s : State, op (s.setAc a) = mapState (·.setAc a) (op s)) : op.Emits op a a := fun s => by
  rw [h]
  exact ⟨fun t e => by rw [e]; rfl, fun e t he => ⟨a, by rw [he]; rfl⟩⟩

theorem Op.Emits.bind (h : op.Emits w a a') (h' : op'.Emits w' a' a'') :
    Op.Emits (do op; op') (do w; w') a a'' := fun s => by
  obtain ⟨hok, herr⟩ := h s
  constructor
  · intro t e
    obtain ⟨_, u, eu, et⟩ := Op.bind_eq_ok.mp e
    rw [Op.bind_of_ok (hok u eu)]
    exact (h' u).1 t et
  · intro z t e
    obtain e | ⟨_, u, eu, et⟩ := Op.bind_eq_error.mp e
    · obtain ⟨b, eb⟩ := herr z t e
      exact ⟨b, Op.bind_of_error eb⟩
    · rw [Op.bind_of_ok (hok u eu)]
      exact (h' u).2 z t et

theorem Op.Emits.congr (h : op'.Emits w a a') (he : ∀ s : State, op (s.setAc a) = op' (s.setAc a)) :
    op.Emits w a a' := fun s => by
  rw [he]
  exact h s

theorem Op.Emits.nothing (he : ∀ s : State, op (s.setAc a) = .ok () (s.setAc a')) : op.Emits (writeBits []) a a' := fun s =>
  ⟨fun t e => by cases e; exact he s, fun _ _ e => by cases e⟩

theorem Op.Emits.append {bs bs' : List Bool} (h : op.Emits (writeBits bs) a a') (h' : op'.Emits (writeBits bs') a' a'') :
    Op.Emits (do op; op') (writeBits (bs ++ bs')) a a'' := by
  rw [show writeBits (bs ++ bs') = _ from funext (writeBits_append bs bs')]
  exact h.bind h'

theorem bwWbit_emits (b : Bool) (a : AC) : (bwWbit b).Emits (writeBits [b]) a a := by
  rw [writeBits, writeBits, bind_pure_unit]
  exact .of_setAc fun s => bwWbit_setAc b s a

theorem bwFlush_emits (a : AC) : bwFlush.Emits bwFlush a a := .of_setAc fun s => by
  obtain ⟨h, e⟩ | ⟨h, e⟩ := bwFlush_run s
  · rw [e]
    exact bwFlush_of_zero (s := s.setAc a) h
  · rw [e, bwFlush_of_pos (s := s.setAc a) h]
    obtain ⟨hf, e⟩ | ⟨hf, e⟩ := snkWrite_run s.bw.padded (s.setBw ⟨0, 0⟩)
    · rw [e]
      exact snkWrite_of_full (s := (s.setAc a).setBw ⟨0, 0⟩) _ hf
    · rw [e]
      obtain ⟨hf', _⟩ | ⟨_, e'⟩ := snkWrite_run s.bw.padded ((s.setAc a).setBw ⟨0, 0⟩)
      · exact absurd hf' hf
      · exact e'

theorem modAc_emits (f : AC → AC) (a : AC) : (modAc f).Emits (writeBits []) a (f a) := .nothing fun _ => rfl

/-- R193: the pending bits. -/
theorem emitPending_emits (b : Bool) : ∀ (k : Nat) (a : AC), a.pend = k →
    (emitPending b k).Emits (writeBits (List.replicate k b)) a { a with pend := 0 }
  | 0, ⟨_, _, _, _, _⟩, rfl => .nothing fun _ => rfl
  | k + 1, a, _ =>
    (bwWbit_emits b a).append ((modAc_emits (fun a => { a with pend := k }) a).append
      (emitPending_emits b k { a with pend := k } rfl))

theorem acEmit_emits (b : Bool) (a : AC) :
    (acEmit b).Emits (writeBits (b :: List.replicate a.pend !b)) a { a with pend := 0 } :=
  (bwWbit_emits b a).append ((emitPending_emits (!b) a.pend a rfl).congr fun _ => rfl)

theorem acEmitFor_emits (r : Renorm) (a : AC) :
    (acEmitFor r).Emits (writeBits (r.output a.pend)) a { a with pend := r.pendAfter a.pend } := by
  cases r with
  | lower => exact acEmit_emits false a
  | upper => exact acEmit_emits true a
  | middle => exact modAc_emits (fun a => { a with pend := a.pend + 1 }) a
  | done => exact .nothing fun _ => rfl

/-- R194: the loop makes these turns. -/
theorem acEncLoop_emits {l h : Word} {p : Nat} : ∀ (n k : Nat) (a : AC) (bs : List Bool), n < k → a.Ordered →
    AcTurns n a.low.toNat a.high.toNat a.pend bs l.toNat h.toNat p →
    (acEncLoop k).Emits (writeBits bs) a { a with low := l, high := h, pend := p }
  | n, k + 1, a, bs, hn, hord, ht => by
    obtain ⟨_, hr, rfl, hl, hh, rfl⟩ | ⟨m, bs', rfl, hr, rfl, next⟩ := (acTurns_iff hord).mp ht
    · obtain rfl := BitVec.eq_of_toNat_eq hl
      obtain rfl := BitVec.eq_of_toNat_eq hh
      exact .nothing fun s => acEncLoop_done hr
    · have emit := acEmitFor_emits a.renorm a
      have rescale := modAc_emits (fun b => b.rescale a.renorm.bias) { a with pend := a.renorm.pendAfter a.pend }
      have rest := acEncLoop_emits (l := l) (h := h) (p := p) m k
        (AC.rescale { a with pend := a.renorm.pendAfter a.pend } a.renorm.bias) bs' (Nat.lt_of_succ_lt_succ hn)
        (AC.rescale_ordered hord hr) next
      exact (emit.append (rescale.append rest)).congr fun s => acEncLoop_turn (s := s.setAc a) rfl hr

/-- R195: the bit that tells where `low` lies, and one more complementary bit than are pending. -/
def AC.finalBits (a : AC) : List Bool :=
  decide (2 ^ 30 ≤ a.low.toNat) :: List.replicate (a.pend + 1) (decide (a.low.toNat < 2 ^ 30))

theorem acEfin_emits (a : AC) : acEfin.Emits (do writeBits a.finalBits; bwFlush) a { a with pend := 0 } := by
  have count := modAc_emits (fun a => { a with pend := a.pend + 1 }) a
  have emit := acEmit_emits (decide (2 ^ 30 ≤ a.low.toNat)) { a with pend := a.pend + 1 }
  have hnot : (!decide (2 ^ 30 ≤ a.low.toNat)) = decide (a.low.toNat < 2 ^ 30) := by
    rw [← decide_not, decide_eq_decide, Nat.not_le]
  rw [hnot] at emit
  have bits : Op.Emits _ (writeBits a.finalBits) a { a with pend := 0 } := count.append
    (Op.Emits.congr (op := reading fun s => acEmit (decide (Config.q1 ≤ s.ac.low.toNat))) emit fun s => rfl)
  refine (bits.bind (bwFlush_emits _)).congr fun s => ?_
  rw [acEfin, bind_assoc]

/-! ## Unbounded sinks -/

/-- With an unbounded sink the operation returns. -/
def Op.ReturnsUnbounded (op : Op Unit) : Prop := ∀ s : State, s.snk.cap = none → ∃ t, op s = .ok () t ∧ t.snk.cap = none

theorem Op.ReturnsUnbounded.bind (h : op.ReturnsUnbounded) (h' : op'.ReturnsUnbounded) :
    Op.ReturnsUnbounded (do op; op') := fun s hs => by
  obtain ⟨t, e, ht⟩ := h s hs
  obtain ⟨u, eu, hu⟩ := h' t ht
  exact ⟨u, (Op.bind_of_ok e).trans eu, hu⟩

theorem writeBits_returnsUnbounded : ∀ bits, (writeBits bits).ReturnsUnbounded
  | [] => fun s hs => ⟨s, rfl, hs⟩
  | b :: bits => Op.ReturnsUnbounded.bind (fun _ hs => bwWbit_of_unbounded b hs) (writeBits_returnsUnbounded bits)

theorem bwFlush_returnsUnbounded : bwFlush.ReturnsUnbounded := fun s hs => by
  obtain ⟨_, e⟩ | ⟨_, e⟩ := bwFlush_run s
  · exact ⟨s, e, hs⟩
  · exact ⟨_, e.trans (snkWrite_of_room (s := s.setBw ⟨0, 0⟩) _ (State.hasRoom_of_none 1 hs)), hs⟩

/-! ## As commands -/

/-- The operation ends as the writing of its bits does, but for the registers, which are as they should be where it returns. -/
theorem Op.Emits.finish (h : op.Emits w a a') (hw : w.Plain) (s : State) :
    ∃ u b, finish (w s) = .next u ∧ finish (op (s.setAc a)) = .next { u with ac := b } ∧ (u.status = 0 → b = a')
      ∧ (w.ReturnsUnbounded → s.status = 0 → s.snk.cap = none → u.status = 0 ∧ u.resp = answerNone) := by
  obtain ⟨hok, herr⟩ := h s
  rcases e : w s with ⟨_, t⟩ | ⟨k | _, t⟩
  · refine ⟨_, a', rfl, by rw [hok t e]; rfl, fun _ => rfl, fun _ h0 _ => ?_⟩
    have ht : t.status = 0 := by rw [← hw.blind.within_of_ok e]; exact h0
    rw [State.answer_none_of_ok ht]
    exact ⟨ht, rfl⟩
  · obtain ⟨b, eb⟩ := herr _ t e
    refine ⟨_, b, rfl, by rw [eb]; rfl, fun hu => absurd hu k.code_ne_zero, fun hwu _ hcap => ?_⟩
    obtain ⟨u, eu, _⟩ := hwu s hcap
    rw [eu] at e
    cases e
  · exact absurd e (hw.ends s t)

end

/-! ## A symbol (R191, R194) -/

/-- The registers with the interval of a symbol. -/
def AC.narrowed (a : AC) (m : FM) (x : Symbol) : AC :=
  { a with
    low := BitVec.ofNat 32 (m.newLow a.low a.high x.val), high := BitVec.ofNat 32 (m.newHigh a.low a.high x.val) }

section
variable {s : State} {a : AC} {m : FM} {x : Symbol} {l h : Word} {n p : Nat} {bits : List Bool}

theorem acEsym_narrows (hs : s.fm.hasShare a.low a.high x.val) :
    acEsym x (s.setAc a) = acEncLoop 33 (s.setAc (a.narrowed s.fm x)) := by
  obtain ⟨hno, _⟩ | ⟨_, e⟩ := intervalUpdate_ac_run x (s.setAc a)
  · exact absurd hs hno
  · rw [acEsym, Op.bind_of_ok e]
    rfl

/-- R194: the turns from the share of a symbol. -/
theorem AC.narrowed_emits (hc : m.cumLegal) (hs : m.hasShare a.low a.high x.val) (hn : n < 33)
    (ht : AcTurns n (m.newLow a.low a.high x.val) (m.newHigh a.low a.high x.val) a.pend bits l.toNat h.toNat p) :
    (acEncLoop 33).Emits (writeBits bits) (a.narrowed m x) { a with low := l, high := h, pend := p } := by
  obtain ⟨_, hle, _⟩ := FM.interval_inside hc hs
  obtain ⟨elow, ehigh⟩ := FM.interval_ofNat hc hs
  refine acEncLoop_emits (l := l) (h := h) (p := p) n 33 (a.narrowed m x) bits hn ?_ ?_
  · rw [AC.Ordered, AC.narrowed, elow, ehigh]
    exact hle
  · rw [AC.narrowed, elow, ehigh]
    exact ht

/-- What the statement says of a symbol with a share. -/
theorem exec_acEsym_of_share {v : BitVec 16} (h0 : s.status = 0) (hv : v.toNat = x.val)
    (hc : s.fm.cumLegal) (hs : s.fm.hasShare s.ac.low s.ac.high x.val) :
    ∃ (n : Nat) (l h : Word) (p : Nat) (bits : List Bool) (u : State) (a : AC),
      AcTurns n (s.fm.newLow s.ac.low s.ac.high x.val) (s.fm.newHigh s.ac.low s.ac.high x.val) s.ac.pend
        bits l.toNat h.toNat p
      ∧ runInstrs (wbits bits) { s with resp := answerNone } = .next u
      ∧ exec (.acEsym v) s = .next { u with ac := a }
      ∧ (u.status = 0 → a = { s.ac with low := l, high := h, pend := p } ∧ a.renormalized)
      ∧ (s.snk.cap = none → u.status = 0 ∧ u.resp = answerNone) := by
  obtain ⟨n, bits, l, h, p, hn, ht⟩ := FM.exists_acTurns hc hs s.ac.pend
  obtain ⟨u, a, ew, eop, ha, hcap⟩ := (AC.narrowed_emits hc hs hn ht).finish (writeBits_plain bits) (s.withResp answerNone)
  have hrun : runInstrs (wbits bits) (s.withResp answerNone) = .next u := by
    rw [runInstrs_eq_finish (s := s.withResp answerNone) (performs_wbits bits) h0 fun _ => rfl, inOrder_bwWbit, ew]
  have hexec : exec (.acEsym v) s = .next { u with ac := a } := by
    have hp := performs_acEsym hv
    have hloop := acEsym_narrows (s := s.withResp answerNone) (a := s.ac) hs
    rw [hp.exec_eq, runCommand_noValue h0, ← hp.blind.portBlind.finish_withResp s answerNone, ← eop]
    exact congrArg finish hloop
  refine ⟨n, l, h, p, bits, u, a, ht, hrun, hexec, fun hu => ?_, hcap (writeBits_returnsUnbounded bits) h0⟩
  obtain rfl := ha hu
  exact ⟨rfl, ht.renormalized⟩

end

/-- Settles O43: an operand that is no symbol, a symbol without a share, and a symbol with a share, whose turns the loop makes
while the packer takes their bits. -/
theorem arithmeticSymbolIsEncoded : Obligations.ArithmeticSymbolIsEncoded := by
  refine fun s v h0 => ⟨rfl, fun hv => ?_, fun x hv => ⟨fun hno => ?_, fun hc _ hs => exec_acEsym_of_share h0 hv hc hs⟩⟩
  · obtain ⟨x, hx, _⟩ | ⟨_, e⟩ := symbolOperand_run v s
    · omega
    · exact runCommand_noValue_raise h0 (op := symbolOperand v >>= acEsym) (Op.bind_of_error e)
  · obtain ⟨_, e⟩ | ⟨hs, _⟩ := intervalUpdate_ac_run x s
    · rw [(performs_acEsym hv).exec_eq]
      exact runCommand_noValue_raise h0 (Op.bind_of_error e)
    · exact absurd hs hno

/-! ## The end of the encoder (R195) -/

theorem OutputInvariant.bwFlush {P : State → Prop} (hP : OutputInvariant P) : Op.Preserves P bwFlush := fun s hs => by
  obtain ⟨_, e⟩ | ⟨_, e⟩ := bwFlush_run s
  · rw [e]
    exact hs
  · rw [e]
    exact snkWrite_preserves (fun _ w h => hP.setSnk w h) _ _ (hP.setBw _ hs)

/-- R195: however the command ends, the other registers stay. -/
theorem acEfin_changes_pend (s : State) : ∃ p, (endState (acEfin s)).ac = { s.ac with pend := p } := by
  have hP : OutputInvariant fun t => ∃ p, t.ac = { s.ac with pend := p } :=
    ⟨fun _ h => h, fun _ h => h, fun n ⟨_, e⟩ => ⟨n, by rw [State.setAc_ac, e]⟩⟩
  have keeps : Op.Preserves (fun t : State => ∃ p, t.ac = { s.ac with pend := p }) acEfin :=
    Op.Preserves.bind (fun _ hs => hP.setPend _ hs) fun _ =>
      Op.Preserves.bind (.reading fun _ => hP.acEmit _) fun _ => hP.bwFlush
  exact keeps s ⟨s.ac.pend, rfl⟩

theorem ac_of_finish {r : EStateM.Result Stop State Unit} {t : State} (h : finish r = .next t) : t.ac = (endState r).ac := by
  rcases r with ⟨_, u⟩ | ⟨_ | _, u⟩ <;> cases h <;> rfl

/-- Settles O44: the bits are written and flushed as the commands do it. -/
theorem arithmeticCoderFinishes : Obligations.ArithmeticCoderFinishes := by
  refine ⟨rfl, fun s h0 => ?_⟩
  have plain : Op.Plain (do writeBits s.ac.finalBits; bwFlush) := (writeBits_plain _).bind fun _ => bwFlush_plain
  obtain ⟨u, a, ew, eop, ha, hcap⟩ := (acEfin_emits s.ac).finish plain s
  have hrun : runInstrs (wbits s.ac.finalBits ++ [.bwFlush]) s = .next u := by
    rw [runInstrs_eq_finish (List.rel_append (performs_wbits _) (.cons performs_bwFlush .nil)) h0 (by simp),
      inOrder_append, inOrder_bwWbit, inOrder, inOrder, bind_pure_unit, ew]
  obtain ⟨p, hp⟩ := acEfin_changes_pend s
  obtain rfl : a = { s.ac with pend := p } := (ac_of_finish eop).trans hp
  refine ⟨u, p, hrun, (performs_acEfin.exec_eq s).trans ((runCommand_noValue h0 _).trans eop), fun hu => ?_, fun hnone => ?_⟩
  · exact congrArg AC.pend (ha hu)
  · exact hcap ((writeBits_returnsUnbounded _).bind bwFlush_returnsUnbounded) h0 hnone

end Sys2Proof.Machine

/-! SUPPORT. The reader as a machine of its own (R125), and what the arithmetic decoder makes of its bits (R196, R197). -/

namespace Sys2Proof.Machine

open Sys2Proof

/-! ## Bits read -/

/-- The state after one bit is read. -/
def State.bitRead (s : State) : State := endState (brRbit s)

/-- The state after n bits are read. -/
def State.bitsRead : Nat → State → State
  | 0, s => s
  | n + 1, s => s.bitRead.bitsRead n

/-- Reading a bit does not look at the registers of the arithmetic coder. -/
theorem brRbit_setAc (s : State) (a : AC) : brRbit (s.setAc a) = mapState (·.setAc a) (brRbit s) := by
  cases he : s.br.eof with
  | true => rw [brRbit_of_eof he, brRbit_of_eof (s := s.setAc a) he]; rfl
  | false =>
    rcases hr : s.br.rem.val with _ | n
    · cases hx : s.remaining with
      | nil => rw [brRbit_of_end he hr hx, brRbit_of_end (s := s.setAc a) he hr hx]; rfl
      | cons x l => rw [brRbit_of_load he hr hx, brRbit_of_load (s := s.setAc a) he hr hx]; rfl
    · have hn : n < 8 := by omega
      rw [brRbit_of_rem ⟨n, hn⟩ he hr, brRbit_of_rem (s := s.setAc a) ⟨n, hn⟩ he hr]
      rfl

section
variable (s : State)

theorem brRbit_eq : brRbit s = .ok (s.bitStream.headD false) s.bitRead := by
  obtain ⟨_, _, e, _⟩ := brRbit_run s
  rw [State.bitRead, e]
  rfl

theorem State.bitRead_eq : ∃ j v, s.bitRead = (s.consumed j).setBr v ∧ s.bitRead.bitStream = s.bitStream.tail := by
  obtain ⟨j, v, e, hb, _⟩ := brRbit_run s
  have h : s.bitRead = (s.consumed j).setBr v := by rw [State.bitRead, e]; rfl
  exact ⟨j, v, h, by rw [h]; exact hb⟩

theorem State.bitRead_bitStream : s.bitRead.bitStream = s.bitStream.tail := by
  obtain ⟨_, _, _, hb⟩ := s.bitRead_eq
  exact hb

theorem State.bitRead_setAc (a : AC) : (s.setAc a).bitRead = s.bitRead.setAc a := by
  rw [State.bitRead, brRbit_setAc, brRbit_eq]
  rfl

theorem State.bitRead_withResp (r : Option Response) : (s.withResp r).bitRead = s.bitRead.withResp r := by
  rw [State.bitRead, brRbit_portBlind, brRbit_eq]
  rfl

/-- R125: the reader touches its own registers and the cursor only. -/
theorem State.bitRead_frame : s.bitRead.status = s.status ∧ s.bitRead.fm = s.fm ∧ s.bitRead.snk = s.snk := by
  obtain ⟨_, _, h, _⟩ := s.bitRead_eq
  rw [h]
  exact ⟨rfl, rfl, rfl⟩

end

theorem State.bitsRead_bitStream : ∀ (n : Nat) (s : State), (s.bitsRead n).bitStream = s.bitStream.drop n
  | 0, _ => rfl
  | n + 1, s => by
    rw [State.bitsRead, State.bitsRead_bitStream n, State.bitRead_bitStream, ← List.drop_one, List.drop_drop, Nat.add_comm]

theorem State.bitsRead_withResp (r : Option Response) : ∀ (n : Nat) (s : State),
    (s.withResp r).bitsRead n = (s.bitsRead n).withResp r
  | 0, _ => rfl
  | n + 1, s => by rw [State.bitsRead, State.bitRead_withResp, State.bitsRead_withResp r n, State.bitsRead]

theorem State.bitsRead_frame : ∀ (n : Nat) (s : State),
    (s.bitsRead n).status = s.status ∧ (s.bitsRead n).fm = s.fm ∧ (s.bitsRead n).snk = s.snk
  | 0, _ => ⟨rfl, rfl, rfl⟩
  | n + 1, s => by
    obtain ⟨hst, hfm, hsnk⟩ := s.bitRead_frame
    rw [State.bitsRead, ← hst, ← hfm, ← hsnk]
    exact State.bitsRead_frame n s.bitRead

theorem runInstrs_replicate_brRbit : ∀ (n : Nat) (s : State), s.status = 0 →
    ∃ r, runInstrs (List.replicate n .brRbit) s = .next ((s.bitsRead n).withResp r)
  | 0, s, _ => ⟨s.resp, rfl⟩
  | n + 1, s, h0 => by
    have hst : s.bitRead.status = 0 := s.bitRead_frame.1.trans h0
    have e := exec_brRbit_of_ok h0 (brRbit_eq s) hst
    obtain ⟨r, er⟩ := runInstrs_replicate_brRbit n
      (s.bitRead.withResp (answerVal (bitValue (s.bitStream.headD false)))) hst
    refine ⟨r, ?_⟩
    rw [List.replicate_succ, runInstrs, e]
    refine er.trans ?_
    rw [State.bitsRead_withResp]
    rfl

/-! ## Bits shifted into the code (R196, R197) -/

/-- R196: the registers with the first bit of the stream shifted into the code, or a fill bit if there is none. -/
def AC.shifted (a : AC) (bs : List Bool) : AC :=
  { (if bs = [] then a.countFill else a) with code := BitVec.ofNat 32 (2 * a.code.toNat + (bs.headD false).toNat) }

section
variable (a : AC) (bs : List Bool)

@[simp] theorem AC.shifted_low : (a.shifted bs).low = a.low := by rw [AC.shifted]; split <;> rfl
@[simp] theorem AC.shifted_high : (a.shifted bs).high = a.high := by rw [AC.shifted]; split <;> rfl
@[simp] theorem AC.shifted_pend : (a.shifted bs).pend = a.pend := by rw [AC.shifted]; split <;> rfl
@[simp] theorem AC.shifted_code :
    (a.shifted bs).code = BitVec.ofNat 32 (2 * a.code.toNat + (bs.headD false).toNat) := rfl

theorem AC.shifted_zfill : (a.shifted bs).zfill.val = min 32 (a.zfill.val + (1 - bs.length)) := by
  have := a.zfill.isLt
  rw [AC.shifted]
  cases bs with
  | nil => rfl
  | cons b bs =>
    rw [if_neg (List.cons_ne_nil _ _), List.length_cons]
    dsimp only
    omega

end

theorem acShiftIn_setAc (s : State) (a : AC) :
    acShiftIn (s.setAc a) = .ok () (s.bitRead.setAc (a.shifted s.bitStream)) := by
  obtain ⟨n, v, e, _, _, er⟩ := acShiftIn_run (s.setAc a)
  rw [brRbit_eq, State.bitRead_setAc] at er
  injection er with _ hstate
  rw [e, ← hstate]
  rfl

/-- R196: what the reading of n bits leaves of the registers that only reading changes. -/
structure AC.Fills (a : AC) (n : Nat) (bs : List Bool) (a' : AC) : Prop where
  pend : a'.pend = a.pend
  zfill : a'.zfill.val = min 32 (a.zfill.val + (n - bs.length))

theorem AC.Fills.refl (a : AC) (bs : List Bool) : a.Fills 0 bs a :=
  ⟨rfl, by have := a.zfill.isLt; omega⟩

theorem AC.Fills.shifted {a b a' : AC} {n : Nat} {bs : List Bool} (h : (b.shifted bs).Fills n bs.tail a')
    (hp : b.pend = a.pend) (hz : b.zfill = a.zfill) : a.Fills (n + 1) bs a' := by
  obtain ⟨hpend, hfill⟩ := h
  refine ⟨by rw [hpend, AC.shifted_pend, hp], ?_⟩
  rw [hfill, AC.shifted_zfill, hz, List.length_tail]
  omega

/-- R197: n bits shifted into the code. -/
theorem repeatOp_acShiftIn_setAc : ∀ (n : Nat) (s : State) (a : AC), ∃ a',
    repeatOp acShiftIn n (s.setAc a) = .ok () ((s.bitsRead n).setAc a') ∧ a'.low = a.low ∧ a'.high = a.high
      ∧ a.Fills n s.bitStream a' ∧ a'.code.toNat = (2 ^ n * a.code.toNat + bitsValue n s.bitStream) % 2 ^ 32
  | 0, s, a => by
    refine ⟨a, rfl, rfl, rfl, .refl _ _, ?_⟩
    rw [pow_zero, Nat.one_mul, bitsValue_zero, Nat.add_zero, Nat.mod_eq_of_lt a.code.isLt]
  | n + 1, s, a => by
    obtain ⟨a', e, hl, hh, hf, hcode⟩ := repeatOp_acShiftIn_setAc n s.bitRead (a.shifted s.bitStream)
    rw [State.bitRead_bitStream] at hf hcode
    refine ⟨a', ?_, hl.trans (AC.shifted_low _ _), hh.trans (AC.shifted_high _ _), hf.shifted rfl rfl, ?_⟩
    · rw [repeatOp, Op.bind_of_ok (acShiftIn_setAc s a), e, State.bitsRead]
    · rw [hcode, AC.shifted_code, BitVec.toNat_ofNat, Nat.add_mod, Nat.mul_mod_mod, ← Nat.add_mod, bitsValue_succ]
      congr 1
      ring

/-- R197: the registers after `AC.DINIT`. -/
theorem acDinit_reads (s : State) : ∃ a, acDinit s = .ok () ((s.bitsRead 32).setAc a) ∧ a.low = 0 ∧ a.high = 0xFFFFFFFF#32
    ∧ a.pend = s.ac.pend ∧ a.code.toNat = bitsValue 32 s.bitStream ∧ a.zfill.val = 32 - min 32 s.bitStream.length := by
  obtain ⟨a, e, hl, hh, ⟨hp, hz⟩, hcode⟩ := repeatOp_acShiftIn_setAc 32 s
    { s.ac with low := 0, high := 0xFFFFFFFF, code := 0, zfill := 0 }
  refine ⟨a, (Op.bind_of_ok (modAc_run _ s)).trans e, hl, hh, hp, ?_, ?_⟩
  · dsimp only at hcode
    rw [hcode, show (0 : Word).toNat = 0 from rfl, Nat.mul_zero, Nat.zero_add, Nat.mod_eq_of_lt (bitsValue_lt 32 _)]
  · have hzero : ((0 : Fin 33) : Nat) = 0 := rfl
    rw [hz, hzero]
    omega

/-- Settles O45: the bits are read as 32 commands read them. -/
theorem arithmeticDecoderStarts : Obligations.ArithmeticDecoderStarts := by
  refine ⟨rfl, fun s h0 => ?_⟩
  obtain ⟨r, hrun⟩ := runInstrs_replicate_brRbit 32 s h0
  obtain ⟨a, e, hl, hh, hp, hcode, hz⟩ := acDinit_reads s
  have hst : (s.bitsRead 32).status = 0 := (s.bitsRead_frame 32).1.trans h0
  generalize s.bitsRead 32 = t at *
  exact ⟨_, a, hrun, runCommand_noValue_ok h0 e hst, hl, hh, hp,
    hcode.trans (bitsToNat_nextBits s 32).symm, hz⟩

end Sys2Proof.Machine

/-! SUPPORT. The symbol the arithmetic decoder reads (R198, R199): its loop makes the turns the encoder makes for the symbol, and
takes the bits of the stream into the code. -/

namespace Sys2Proof.Machine

open Sys2Proof

/-- R198, R202(c): the symbol found for the target value is the one whose share holds the code. -/
theorem fmFind_target {s : State} {low high code : Word} (hc : s.fm.cumLegal) (ht : s.fm.cumAt 257 ≠ 0)
    (hl : low.toNat ≤ code.toNat) (hh : code.toNat ≤ high.toNat) : ∃ x : Symbol,
    fmFind (((code.toNat - low.toNat + 1) * s.fm.cumAt 257 - 1) / rangeSize low high) s = .ok x s
      ∧ s.fm.hasShare low high x.val ∧ s.fm.newLow low high x.val ≤ code.toNat
      ∧ code.toNat ≤ s.fm.newHigh low high x.val := by
  obtain ⟨hover, _⟩ | ⟨x, e, h1, h2⟩ := fmFind_run hc
    (((code.toNat - low.toNat + 1) * s.fm.cumAt 257 - 1) / rangeSize low high)
  · exact absurd (target_lt_total (by unfold rangeSize; omega) ht) (Nat.not_lt.mpr hover)
  · exact ⟨x, e, share_of_target ht hl hh h1 h2⟩

theorem acDsym_narrows {s : State} (hc : s.fm.cumLegal) (ht : s.fm.cumAt 257 ≠ 0) (hin : s.ac.Inside)
    (hz : s.ac.zfill.val < 32) : ∃ x : Symbol,
    acDsym s = (do acDecLoop 33; pure x : Op Symbol) (s.setAc (s.ac.narrowed s.fm x))
      ∧ s.fm.hasShare s.ac.low s.ac.high x.val ∧ s.fm.newLow s.ac.low s.ac.high x.val ≤ s.ac.code.toNat
      ∧ s.ac.code.toNat ≤ s.fm.newHigh s.ac.low s.ac.high x.val := by
  have ⟨hl, hh⟩ := hin
  obtain ⟨x, ex, hs, hlow, hhigh⟩ := fmFind_target hc ht hl hh
  refine ⟨x, ?_, hs, hlow, hhigh⟩
  obtain ⟨hno, _⟩ | ⟨_, eneed⟩ := acNeedInput_run s
  · omega
  obtain ⟨h0, _⟩ | ⟨_, hout, _⟩ | ⟨_, _, _, ev⟩ := targetValue_ac_run (hl.trans hh)
  · exact absurd h0 ht
  · omega
  obtain ⟨hno, _⟩ | ⟨_, ei⟩ := intervalUpdate_ac_run x s
  · exact absurd hs hno
  rw [acDsym, Op.bind_of_ok eneed, Op.bind_of_ok ev, Op.bind_of_ok ex, Op.bind_of_ok ei]
  rfl

/-- R199: the place of the code in the interval after a turn. -/
theorem AC.code_shifted_rescaleDec {a : AC} (hin : a.Inside) (hr : a.renorm ≠ .done) (bs : List Bool) :
    ((a.rescaleDec a.renorm.bias).shifted bs).Inside
      ∧ ((a.rescaleDec a.renorm.bias).shifted bs).code.toNat
        = ((a.rescaleDec a.renorm.bias).shifted bs).low.toNat + 2 * (a.code.toNat - a.low.toNat)
          + (bs.headD false).toNat := by
  obtain ⟨hinside, _⟩ := hin.rescale (b := (a.rescaleDec a.renorm.bias).shifted bs) hr (AC.shifted_low _ _)
    (AC.shifted_high _ _) (c := bs.headD false) rfl
  obtain ⟨hl, hh⟩ := hin
  obtain ⟨hb, hsmall⟩ := AC.bias_le hr
  obtain ⟨elow, _⟩ := AC.rescale_toNat hb (hl.trans hh) hsmall
  have hbit := Bool.toNat_le (bs.headD false)
  refine ⟨hinside, ?_⟩
  rw [AC.shifted_low, show (a.rescaleDec a.renorm.bias).low = (a.rescale a.renorm.bias).low from rfl, elow, AC.shifted_code,
    AC.rescaleDec, BitVec.toNat_ofNat, BitVec.toNat_ofNat]
  omega

/-- R199: the loop makes these turns, and reads one bit a turn. -/
theorem acDecLoop_reads {l h : Word} {p' : Nat} : ∀ (n k : Nat) (s : State) (a : AC) (p : Nat) (bits : List Bool), n < k →
    a.Inside → AcTurns n a.low.toNat a.high.toNat p bits l.toNat h.toNat p' →
    ∃ a', acDecLoop k (s.setAc a) = .ok () ((s.bitsRead n).setAc a') ∧ a'.low = l ∧ a'.high = h ∧ a'.Inside
      ∧ a.Fills n s.bitStream a'
      ∧ a'.code.toNat = l.toNat + 2 ^ n * (a.code.toNat - a.low.toNat) + bitsValue n s.bitStream
  | n, k + 1, s, a, p, bits, hn, hin, ht => by
    have hord : a.Ordered := hin.1.trans hin.2
    obtain ⟨rfl, hr, _, hl, hh, _⟩ | ⟨n, bs, rfl, hr, _, next⟩ := (acTurns_iff hord).mp ht
    · obtain rfl := BitVec.eq_of_toNat_eq hl
      obtain rfl := BitVec.eq_of_toNat_eq hh
      refine ⟨a, acDecLoop_done (s := s.setAc a) hr, rfl, rfl, hin, .refl _ _, ?_⟩
      have := hin.1
      rw [bitsValue_zero]
      omega
    · obtain ⟨hinside, hcode⟩ := AC.code_shifted_rescaleDec hin hr s.bitStream
      obtain ⟨a', e, hl, hh, hin', hf, hcode'⟩ := acDecLoop_reads (l := l) (h := h) (p' := p') n k s.bitRead
        ((a.rescaleDec a.renorm.bias).shifted s.bitStream) _ bs (Nat.lt_of_succ_lt_succ hn) hinside
        (by rw [AC.shifted_low, AC.shifted_high]; exact next)
      rw [State.bitRead_bitStream] at hf hcode'
      refine ⟨a', ?_, hl, hh, hin', hf.shifted rfl rfl, ?_⟩
      · rw [acDecLoop_turn (s := s.setAc a) rfl hr, Op.bind_of_ok (modAc_run _ _)]
        exact (Op.bind_of_ok (acShiftIn_setAc s _)).trans e
      · rw [hcode', hcode, Nat.add_assoc (AC.low _).toNat, Nat.add_sub_cancel_left, bitsValue_succ]
        ring

/-- R199: the symbol read, with the turns that the encoder makes for it, from any number of pending bits. -/
theorem acDsym_reads {s : State} {l h : Word} {n p p' : Nat} {bits : List Bool} {x : Symbol} (hc : s.fm.cumLegal)
    (e : acDsym s = (do acDecLoop 33; pure x : Op Symbol) (s.setAc (s.ac.narrowed s.fm x)))
    (hs : s.fm.hasShare s.ac.low s.ac.high x.val) (hl : s.fm.newLow s.ac.low s.ac.high x.val ≤ s.ac.code.toNat)
    (hh : s.ac.code.toNat ≤ s.fm.newHigh s.ac.low s.ac.high x.val) (hn : n < 33)
    (ht : AcTurns n (s.fm.newLow s.ac.low s.ac.high x.val) (s.fm.newHigh s.ac.low s.ac.high x.val) p bits l.toNat h.toNat
      p') :
    ∃ a, acDsym s = .ok x ((s.bitsRead n).setAc a) ∧ a.low = l ∧ a.high = h ∧ a.Inside ∧ s.ac.Fills n s.bitStream a
      ∧ a.code.toNat = l.toNat + 2 ^ n * (s.ac.code.toNat - s.fm.newLow s.ac.low s.ac.high x.val)
          + bitsValue n s.bitStream := by
  obtain ⟨elow, ehigh⟩ := FM.interval_ofNat hc hs
  have hin : (s.ac.narrowed s.fm x).Inside := by rw [AC.Inside, AC.narrowed, elow, ehigh]; exact ⟨hl, hh⟩
  obtain ⟨a, ea, hla, hha, hina, hf, hcode⟩ := acDecLoop_reads (l := l) (h := h) (p' := p') n 33 s
    (s.ac.narrowed s.fm x) p bits hn hin (by rw [AC.narrowed, elow, ehigh]; exact ht)
  refine ⟨a, e.trans (Op.bind_of_ok ea), hla, hha, hina, ⟨hf.pend, hf.zfill⟩, ?_⟩
  rw [show (s.ac.narrowed s.fm x).low.toNat = _ from elow] at hcode
  exact hcode

/-- Settles O47: the symbol whose share holds the code is found, and the loop makes the turns of its share. -/
theorem arithmeticSymbolIsDecoded : Obligations.ArithmeticSymbolIsDecoded := by
  refine ⟨rfl, fun s h0 hc ht hz hl hh => ?_⟩
  obtain ⟨x, e, hs, hlow, hhigh⟩ := acDsym_narrows hc ht ⟨hl, hh⟩ hz
  obtain ⟨n, bits, l, h, p, hn, hturns⟩ := FM.exists_acTurns hc hs 0
  obtain ⟨a, ea, rfl, rfl, ⟨hlow', hhigh'⟩, ⟨hpend, hzfill⟩, hcode⟩ := acDsym_reads hc e hs hlow hhigh hn hturns
  obtain ⟨r, hrun⟩ := runInstrs_replicate_brRbit n s h0
  exact ⟨x, n, bits, p, _, a, hs, ⟨hlow, hhigh⟩, hturns, hrun, reads_acDsym.exec_of_ok h0 ea,
    by rw [bitsToNat_nextBits]; exact hcode, hpend, hzfill, hturns.renormalized, hlow', hhigh'⟩

end Sys2Proof.Machine

/-! SUPPORT. The symbol the range decoder reads (R198, R226): its loop makes the turns the encoder makes for the symbol, and takes
the bytes of the source into the code. -/

namespace Sys2Proof.Machine

open Sys2Proof

/-! ## Bytes as a number (R224) -/

theorem bytesToNat_cons (b : Byte) (bs : List Byte) :
    bytesToNat (b :: bs) = b.toNat * 256 ^ bs.length + bytesToNat bs := by
  have foldl : ∀ (bs : List Byte) (v : Nat),
      bs.foldl (fun v b => 256 * v + b.toNat) v = v * 256 ^ bs.length + bytesToNat bs := by
    intro bs
    induction bs with
    | nil => intro v; simp [bytesToNat]
    | cons c bs ih =>
      intro v
      rw [bytesToNat, List.foldl_cons, List.foldl_cons, ih, ih (256 * 0 + c.toNat), List.length_cons]
      ring
  rw [bytesToNat, List.foldl_cons, foldl, Nat.mul_zero, Nat.zero_add]

/-- The first n bytes, zeros past the end, as a number. -/
def bytesValue (n : Nat) (bs : List Byte) : Nat := bytesToNat ((List.range n).map fun k => bs.getD k 0)

theorem bytesToNat_nextBytes (s : State) (n : Nat) : bytesToNat (s.nextBytes n) = bytesValue n s.remaining := rfl

@[simp] theorem bytesValue_zero (bs : List Byte) : bytesValue 0 bs = 0 := rfl

/-- The first of the bytes is the most significant. -/
theorem bytesValue_succ (n : Nat) (bs : List Byte) :
    bytesValue (n + 1) bs = (bs.headD 0).toNat * 256 ^ n + bytesValue n bs.tail := by
  rw [bytesValue, List.range_succ_eq_map, List.map_cons, bytesToNat_cons, List.length_map, List.length_map,
    List.length_range, List.map_map, bytesValue]
  cases bs <;> rfl

/-! ## Bytes shifted into the code (R224, R225) -/

/-- R224: the registers with the first byte of the source shifted into the code, or a fill byte if there is none. -/
def RC.shifted (r : RC) (bs : List Byte) : RC :=
  { (if bs = [] then r.countFill else r) with code := r.code <<< 8 ||| (bs.headD 0).setWidth 32 }

section
variable (r : RC) (bs : List Byte)

@[simp] theorem RC.shifted_low : (r.shifted bs).low = r.low := by rw [RC.shifted]; split <;> rfl
@[simp] theorem RC.shifted_high : (r.shifted bs).high = r.high := by rw [RC.shifted]; split <;> rfl

theorem RC.shifted_code_toNat :
    (r.shifted bs).code.toNat = (r.code.toNat * 256 + (bs.headD 0).toNat) % 2 ^ 32 := by
  have hb := (bs.headD 0).isLt
  have hbyte : ((bs.headD 0).setWidth 32).toNat = (bs.headD 0).toNat := by
    rw [BitVec.toNat_setWidth]
    exact Nat.mod_eq_of_lt (by omega)
  rw [RC.shifted, shiftLeft_or_toNat _ _ (by omega), hbyte]
  omega

theorem RC.shifted_zfill : (r.shifted bs).zfill.val = min 4 (r.zfill.val + (1 - bs.length)) := by
  have := r.zfill.isLt
  rw [RC.shifted]
  cases bs with
  | nil => rfl
  | cons b bs =>
    rw [if_neg (List.cons_ne_nil _ _), List.length_cons]
    dsimp only
    omega

end

theorem rcShiftIn_setRc (s : State) (r : RC) : rcShiftIn (s.setRc r)
    = .ok () ((s.consumed (min 1 s.remaining.length)).setRc (r.shifted s.remaining)) := rcShiftIn_run (s.setRc r)

/-! ## The loop (R226) -/

/-- R220: top bytes that are the same are the top byte of no difference. -/
theorem RC.sameTop_iff {r : RC} : r.sameTop = true ↔ r.low.toNat / 2 ^ 24 = r.high.toNat / 2 ^ 24 := by
  refine ⟨RC.div_eq_of_sameTop, fun h => ?_⟩
  have hzero : (r.low.toNat ^^^ r.high.toNat) / 2 ^ 24 = 0 := by
    rw [← Nat.shiftRight_eq_div_pow] at h ⊢
    rw [Nat.shiftRight_xor_distrib, h, ← Nat.shiftRight_eq_div_pow, Nat.xor_self]
  rw [RC.sameTop, decide_eq_true_eq, BitVec.toNat_xor]
  change _ < 2 ^ 24
  omega

/-- R226, R230(b): the turns from an interval that holds the code, one byte read a turn. -/
theorem rcDecLoop_reads : ∀ (k : Nat) (s : State) (r : RC), r.Inside → 2 ^ 32 < rangeSize r.low r.high * 256 ^ k →
    ∃ bytes r', rcDecLoop k (s.setRc r) = .ok () ((s.consumed (min bytes.length s.remaining.length)).setRc r')
      ∧ RcTurns r.low r.high bytes r'.low r'.high ∧ r'.renormalized ∧ r'.Inside
      ∧ r'.zfill.val = min 4 (r.zfill.val + (bytes.length - s.remaining.length))
      ∧ r'.code.toNat = (r.code.toNat * 256 ^ bytes.length + bytesValue bytes.length s.remaining) % 2 ^ 32
  | 0, _, r, _, hsize => by
    have := r.high.isLt
    rw [rangeSize] at hsize
    omega
  | k + 1, s, r, hin, hsize => by
    cases ht : r.sameTop with
    | false =>
      have hdone : ¬ (r.low ^^^ r.high).toNat < 2 ^ 24 := of_decide_eq_false ht
      refine ⟨[], r, ?_, .exit (Nat.le_of_not_lt hdone), ?_, hin, ?_, ?_⟩
      · rw [List.length_nil, Nat.zero_min, State.consumed_zero]
        exact rcDecLoop_done (s := s.setRc r) ht
      · have hne : ¬ r.low.toNat / 2 ^ 24 = r.high.toNat / 2 ^ 24 := fun h => by
          rw [RC.sameTop_iff.mpr h] at ht
          cases ht
        obtain ⟨hl, hh⟩ := hin
        rw [RC.renormalized]
        omega
      · have := r.zfill.isLt
        rw [List.length_nil]
        omega
      · have := r.code.isLt
        rw [List.length_nil, bytesValue_zero, pow_zero]
        omega
    | true =>
      obtain ⟨hinside, hdouble⟩ := hin.shiftOut (b := r.shiftOut.shifted s.remaining) ht (RC.shifted_low _ _)
        (RC.shifted_high _ _) (c := s.remaining.headD 0) rfl
      obtain ⟨bytes, r', e, hturns, hren, hin', hz, hcode⟩ := rcDecLoop_reads k (s.consumed (min 1 s.remaining.length))
        (r.shiftOut.shifted s.remaining) hinside (by
          calc 2 ^ 32 < rangeSize r.low r.high * 256 ^ (k + 1) := hsize
            _ = _ := by rw [hdouble]; ring)
      have hrest : (s.consumed (min 1 s.remaining.length)).remaining = s.remaining.tail := by
        rw [State.remaining_consumed]
        cases s.remaining with
        | nil => rfl
        | cons b l => rw [List.length_cons, Nat.min_eq_left (by omega), List.drop_one]
      rw [hrest] at e hz hcode
      rw [RC.shifted_low, RC.shifted_high] at hturns
      refine ⟨byteOf r.low 3 :: bytes, r', ?_, .shift (of_decide_eq_true ht) hturns, hren, hin', ?_, ?_⟩
      · rw [rcDecLoop_turn (s := s.setRc r) ht, Op.bind_of_ok (modRc_run _ _)]
        refine (Op.bind_of_ok (rcShiftIn_setRc s r.shiftOut)).trans (e.trans ?_)
        rw [State.consumed_consumed, List.length_tail, List.length_cons]
        congr 3
        omega
      · rw [hz, RC.shifted_zfill, List.length_tail, List.length_cons]
        change min 4 (min 4 (r.zfill.val + _) + _) = _
        omega
      · rw [hcode, RC.shifted_code_toNat, List.length_cons, bytesValue_succ, Nat.add_mod, Nat.mod_mul_mod, ← Nat.add_mod]
        change ((r.code.toNat * 256 + _) * _ + _) % _ = _
        congr 1
        ring

/-! ## The symbol (R198, R226) -/

/-- The registers with the interval of a symbol. -/
def RC.narrowed (r : RC) (m : FM) (x : Symbol) : RC :=
  { r with
    low := BitVec.ofNat 32 (m.newLow r.low r.high x.val), high := BitVec.ofNat 32 (m.newHigh r.low r.high x.val) }

theorem rcDsym_narrows {s : State} (hc : s.fm.cumLegal) (ht : s.fm.cumAt 257 ≠ 0) (hin : s.rc.Inside)
    (hz : s.rc.zfill.val < 4) : ∃ x : Symbol,
    rcDsym s = (do rcDecLoop 5; pure x : Op Symbol) (s.setRc (s.rc.narrowed s.fm x))
      ∧ s.fm.hasShare s.rc.low s.rc.high x.val ∧ s.fm.newLow s.rc.low s.rc.high x.val ≤ s.rc.code.toNat
      ∧ s.rc.code.toNat ≤ s.fm.newHigh s.rc.low s.rc.high x.val := by
  have ⟨hl, hh⟩ := hin
  obtain ⟨x, ex, hs, hlow, hhigh⟩ := fmFind_target hc ht hl hh
  refine ⟨x, ?_, hs, hlow, hhigh⟩
  obtain ⟨hno, _⟩ | ⟨_, eneed⟩ := rcNeedInput_run s
  · omega
  obtain ⟨h0, _⟩ | ⟨_, hout, _⟩ | ⟨_, _, _, ev⟩ := targetValue_rc_run (hl.trans hh)
  · exact absurd h0 ht
  · omega
  obtain ⟨hno, _⟩ | ⟨_, ei⟩ := intervalUpdate_rc_run x s
  · exact absurd hs hno
  rw [rcDsym, Op.bind_of_ok eneed, Op.bind_of_ok ev, Op.bind_of_ok ex, Op.bind_of_ok ei]
  rfl

/-- Settles O51: the symbol whose share holds the code is found, and the loop makes the turns of its share. -/
theorem rangeSymbolIsDecoded : Obligations.RangeSymbolIsDecoded := by
  refine ⟨rfl, fun s h0 hc ht hz hl hh => ?_⟩
  obtain ⟨x, e, hs, hlow, hhigh⟩ := rcDsym_narrows hc ht ⟨hl, hh⟩ hz
  obtain ⟨elow, ehigh⟩ := FM.interval_ofNat hc hs
  have hin : (s.rc.narrowed s.fm x).Inside := by rw [RC.Inside, RC.narrowed, elow, ehigh]; exact ⟨hlow, hhigh⟩
  obtain ⟨bytes, r, er, hturns, hren, ⟨hlow', hhigh'⟩, hzfill, hcode⟩ := rcDecLoop_reads 5 s (s.rc.narrowed s.fm x) hin (by
    have := rangeSize_of_le (hin.1.trans hin.2)
    omega)
  exact ⟨x, bytes, r, hs, ⟨hlow, hhigh⟩, hturns, reads_rcDsym.exec_of_ok h0 (e.trans (Op.bind_of_ok er)),
    by rw [bytesToNat_nextBytes]; exact hcode, hzfill, hren, hlow', hhigh'⟩

end Sys2Proof.Machine

/-! SUPPORT. The bits of the arithmetic encoder as its decoder sees them (R202(b)): of pending bits the decoder sees only the bit
that releases them, as its own turns have taken the others off the code; and the bits in sight lie in the encoder's interval. -/

namespace Sys2Proof.Machine

open Sys2Proof

/-! ## Turns in sight of the decoder -/

/-- R193: the bits written for the bits in sight when p bits are pending: the first of them releases the pending ones. -/
def released (p : Nat) : List Bool → List Bool
  | [] => []
  | b :: g => b :: (List.replicate p (!b) ++ g)

theorem released_zero (g : List Bool) : released 0 g = g := by cases g <;> rfl

/-- Over n turns, from the lower bound l to l', the bits in sight of the decoder change from g to g': the code is doubled along
with the interval and takes a bit a turn, and so the n bits are as if they were dropped. -/
structure SeesTurns (n l l' : Nat) (g g' : List Bool) : Prop where
  length : g.length = g'.length + n
  drop : g.drop (32 + n) = g'.drop 32
  value : bitsValue 32 g' + 2 ^ n * l = l' + bitsValue (32 + n) g

/-- The 32 bits in sight, as a number, lie in the interval. -/
def InSight (l h : Nat) (g : List Bool) : Prop := g ≠ [] ∧ l ≤ bitsValue 32 g ∧ bitsValue 32 g ≤ h

section
variable {n l h p l' h' p' bias : Nat} {bs g₁ g g' : List Bool}

/-- One turn more before n turns: it takes the bias off the code, and doubles it. -/
theorem SeesTurns.turn (hs : SeesTurns n (2 * (l - bias)) l' g₁ g') (hi : InSight (2 * (l - bias)) (2 * (h - bias) + 1) g₁)
    (hl : bias ≤ l) (hh : bias ≤ h) (hlen : g.length = g₁.length + 1) (hdrop : g.drop 33 = g₁.drop 32)
    (hvalue : ∀ k, bitsValue (32 + k + 1) g = bitsValue (32 + k) g₁ + 2 ^ (k + 1) * bias) :
    SeesTurns (n + 1) l l' g g' ∧ InSight l h g := by
  obtain ⟨hlength, hrest, hval⟩ := hs
  obtain ⟨_, hlow, hhigh⟩ := hi
  have hhead : bitsValue 33 g = bitsValue 32 g * 2 + bitsValue 1 (g.drop 32) := bitsValue_add 32 1 g
  have hbit := bitsValue_lt 1 (g.drop 32)
  have hfirst : bitsValue 33 g = bitsValue 32 g₁ + 2 * bias := hvalue 0
  refine ⟨⟨by omega, ?_, ?_⟩, fun hnil => by rw [hnil] at hlen; exact absurd hlen (by simp), by omega, by omega⟩
  · rw [← hrest, show 32 + (n + 1) = 33 + n by omega, ← List.drop_drop, hdrop, List.drop_drop]
  · have hsplit : 2 ^ (n + 1) * l = 2 ^ n * (2 * (l - bias)) + 2 ^ (n + 1) * bias := by
      obtain ⟨d, rfl⟩ := Nat.exists_eq_add_of_le hl
      rw [Nat.add_sub_cancel_left]
      ring
    rw [← Nat.add_assoc, hvalue, hsplit]
    omega

/-- R194, R202(b): the bits that the turns write, followed by bits in sight after them, are bits in sight before them. -/
theorem AcTurns.exists_sight (ht : AcTurns n l h p bs l' h' p') (hle : l ≤ h) (hi : InSight l' h' g') :
    ∃ g, released p g = bs ++ released p' g' ∧ SeesTurns n l l' g g' ∧ InSight l h g := by
  induction ht with
  | exit _ _ _ => exact ⟨g', rfl, ⟨rfl, rfl, by rw [pow_zero, Nat.one_mul, Nat.add_comm]⟩, hi⟩
  | @lower n l h p l' h' p' bs h1 _ ih =>
    obtain ⟨g, hg, hs, hin⟩ := ih (by omega) hi
    rw [released_zero] at hg
    refine ⟨false :: g, by rw [released, hg]; simp, ?_⟩
    refine hs.turn (bias := 0) hin (Nat.zero_le _) (Nat.zero_le _) rfl rfl fun k => ?_
    rw [bitsValue_cons, Bool.toNat_false]
    omega
  | @upper n l h p l' h' p' bs h1 h2 _ ih =>
    obtain ⟨g, hg, hs, hin⟩ := ih (by omega) hi
    rw [released_zero] at hg
    refine ⟨true :: g, by rw [released, hg]; simp, ?_⟩
    refine hs.turn (bias := 2 ^ 31) hin h2 h1 rfl rfl fun k => ?_
    rw [bitsValue_cons, Bool.toNat_true, ← pow_add, Nat.add_comm, Nat.one_mul]
    congr 2
    omega
  | @middle n l h p l' h' p' bs h1 h2 h3 h4 _ ih =>
    obtain ⟨g, hg, hs, hin⟩ := ih (by omega) hi
    obtain ⟨b, g, rfl⟩ := List.exists_cons_of_ne_nil hin.1
    refine ⟨b :: (!b) :: g, ?_, ?_⟩
    · rw [← hg, released, released, List.replicate_succ', List.append_assoc]
      rfl
    · refine hs.turn (bias := 2 ^ 30) hin h3 (by omega) rfl rfl fun k => ?_
      rw [show 32 + k + 1 = 31 + k + 1 + 1 by omega, show 32 + k = 31 + k + 1 by omega, bitsValue_cons, bitsValue_cons,
        bitsValue_cons, ← pow_add, show k + 1 + 30 = 31 + k by omega, pow_succ]
      cases b <;> simp <;> ring

end

/-! ## Symbols -/

/-- R194, R195: the encoder with these registers writes these bits for the symbols and the end. -/
inductive AcEncodes (m : FM) : AC → List Symbol → List Bool → Prop
  | finish {a : AC} (h : a.renormalized) : AcEncodes m a [] a.finalBits
  | symbol {a : AC} {x : Symbol} {xs : List Symbol} {n p : Nat} {l h : Word} {bs out : List Bool}
      (share : m.hasShare a.low a.high x.val) (turns : n < 33)
      (run : AcTurns n (m.newLow a.low a.high x.val) (m.newHigh a.low a.high x.val) a.pend bs l.toNat h.toNat p)
      (next : AcEncodes m { a with low := l, high := h, pend := p } xs out) : AcEncodes m a (x :: xs) (bs ++ out)

/-- R199: the decoder with this interval reads these symbols from the bits in sight. -/
inductive AcDecodes (m : FM) : Word → Word → List Symbol → List Bool → Prop
  | finish {low high : Word} {g : List Bool} : AcDecodes m low high [] g
  | symbol {low high : Word} {x : Symbol} {xs : List Symbol} {n p p' : Nat} {l h : Word} {bs g g' : List Bool}
      (share : m.hasShare low high x.val) (turns : n < 33)
      (run : AcTurns n (m.newLow low high x.val) (m.newHigh low high x.val) p bs l.toNat h.toNat p')
      (sight : InSight (m.newLow low high x.val) (m.newHigh low high x.val) g)
      (sees : SeesTurns n (m.newLow low high x.val) l.toNat g g') (next : AcDecodes m l h xs g') :
      AcDecodes m low high (x :: xs) g

section
variable {m : FM}

/-- R194: a renormalized interval has more than 2^30 values. -/
theorem AC.renormalized.size {a : AC} (h : a.renormalized) : 2 ^ 30 < rangeSize a.low a.high := by
  obtain ⟨h1, h2, h3⟩ := h
  rw [rangeSize]
  omega

theorem exists_acEncodes (hc : m.cumLegal) : ∀ (xs : List Symbol) (a : AC), a.renormalized →
    (∀ x ∈ xs, ∀ b : AC, b.renormalized → m.hasShare b.low b.high x.val) → ∃ out, AcEncodes m a xs out
  | [], a, ha, _ => ⟨_, .finish ha⟩
  | x :: xs, a, ha, hx => by
    have hs := hx x List.mem_cons_self a ha
    obtain ⟨n, bs, l, h, p, hn, ht⟩ := FM.exists_acTurns hc hs a.pend
    obtain ⟨out, hout⟩ := exists_acEncodes hc xs { a with low := l, high := h, pend := p } ht.renormalized
      fun y hy => hx y (List.mem_cons_of_mem _ hy)
    exact ⟨bs ++ out, .symbol hs hn ht hout⟩

/-- R195: the end of the encoder is in sight as a value of its last interval. -/
theorem AC.finalBits_sight {a : AC} (h : a.renormalized) (z : Nat) :
    ∃ g, released a.pend g = a.finalBits ++ List.replicate z false ∧ InSight a.low.toNat a.high.toNat g := by
  obtain ⟨hlow, hhigh, _⟩ := h
  have hnot : decide (a.low.toNat < 2 ^ 30) = !decide (2 ^ 30 ≤ a.low.toNat) := by
    rw [← decide_not, decide_eq_decide, Nat.not_le]
  refine ⟨decide (2 ^ 30 ≤ a.low.toNat) :: (!decide (2 ^ 30 ≤ a.low.toNat)) :: List.replicate z false, ?_,
    List.cons_ne_nil _ _, ?_⟩
  · rw [AC.finalBits, released, hnot, List.replicate_succ']
    simp
  · rw [bitsValue_cons, bitsValue_cons, bitsValue_replicate_false]
    by_cases hq : 2 ^ 30 ≤ a.low.toNat
    · simp only [hq, decide_true, Bool.not_true, Bool.toNat_true, Bool.toNat_false]
      omega
    · simp only [hq, decide_false, Bool.not_false, Bool.toNat_true, Bool.toNat_false]
      omega

/-- R202(b): what the encoder writes, with zeros after it, is what the decoder reads the symbols from. -/
theorem AcEncodes.exists_sight (hc : m.cumLegal) (z : Nat) {a : AC} {xs : List Symbol} {out : List Bool}
    (h : AcEncodes m a xs out) : ∃ g, released a.pend g = out ++ List.replicate z false
      ∧ InSight a.low.toNat a.high.toNat g ∧ AcDecodes m a.low a.high xs g := by
  induction h with
  | finish h =>
    obtain ⟨g, hg, hi⟩ := AC.finalBits_sight h z
    exact ⟨g, hg, hi, .finish⟩
  | symbol share turns run _ ih =>
    obtain ⟨g', hg', hi', hd⟩ := ih
    obtain ⟨hlow, hle, hhigh⟩ := FM.interval_inside hc share
    obtain ⟨g, hg, hs, hi⟩ := run.exists_sight hle hi'
    refine ⟨g, by rw [hg, hg', List.append_assoc], ?_, .symbol share turns run hi hs hd⟩
    obtain ⟨hne, hl, hh⟩ := hi
    exact ⟨hne, hlow.trans hl, hh.trans hhigh⟩

/-- R194, R195: the run of the encoder's commands. -/
theorem AcEncodes.run (hc : m.cumLegal) {a : AC} {xs : List Symbol} {out : List Bool} (h : AcEncodes m a xs out)
    {s t : State} (hm : s.fm = m) (e : (do writeBits out; bwFlush : Op Unit) s = .ok () t) :
    ∃ a', inOrder (xs.map acEsym ++ [acEfin]) (s.setAc a) = .ok () (t.setAc a') := by
  induction h generalizing s with
  | @finish a _ =>
    refine ⟨{ a with pend := 0 }, ?_⟩
    rw [List.map_nil, List.nil_append, inOrder, inOrder, bind_pure_unit]
    exact (acEfin_emits a s).1 t e
  | @symbol a x xs n p l h bs out share turns run _ ih =>
    rw [show writeBits (bs ++ out) = _ from funext (writeBits_append bs out), bind_assoc] at e
    obtain ⟨_, u, eu, et⟩ := Op.bind_eq_ok.mp e
    have hu : u.fm = m := ((outputInvariant_fm m).writeBits bs).of_ok hm eu
    obtain ⟨a', ea'⟩ := ih hu et
    refine ⟨a', ?_⟩
    have hloop := (AC.narrowed_emits hc share turns run s).1 u eu
    rw [List.map_cons, List.cons_append, inOrder, Op.bind_run, acEsym_narrows (by rw [hm]; exact share), hm, hloop]
    exact ea'

end

/-! ## The decoder -/

/-- R202(c): the shares of a legal table do not overlap. -/
theorem FM.eq_of_share {m : FM} {low high : Word} {x y : Symbol} {c : Nat} (hc : m.cumLegal)
    (hx : m.newLow low high x.val ≤ c ∧ c ≤ m.newHigh low high x.val) (hxs : m.hasShare low high x.val)
    (hy : m.newLow low high y.val ≤ c ∧ c ≤ m.newHigh low high y.val) (hys : m.hasShare low high y.val) : x = y := by
  have below : ∀ {x y : Symbol}, m.hasShare low high x.val → x < y → m.newHigh low high x.val < m.newLow low high y.val := by
    intro x y hs hlt
    have hcum : m.cumAt (x.val + 1) ≤ m.cumAt y.val := FM.cumAt_mono hc hlt (by omega)
    have hle : rangeSize low high * m.cumAt (x.val + 1) / m.cumAt 257 ≤ rangeSize low high * m.cumAt y.val / m.cumAt 257 :=
      Nat.div_le_div_right (Nat.mul_le_mul_left _ hcum)
    have hpos := Nat.zero_lt_of_lt hs.2
    rw [FM.newHigh, FM.newLow]
    omega
  rcases lt_trichotomy x y with hlt | heq | hgt
  · have := below hxs hlt
    omega
  · exact heq
  · have := below hys hgt
    omega

/-- R196, R197: the code holds the first of the bits in sight, and the reader the others. -/
structure State.Sees (s : State) (g : List Bool) : Prop where
  code : s.ac.code.toNat = bitsValue 32 g
  stream : s.bitStream = g.drop 32
  fill : s.ac.zfill.val = 32 - g.length

/-- R199: the first symbol is read, and the others are read from what is then in sight. -/
theorem acDsym_of_sight {s : State} {x : Symbol} {xs : List Symbol} {g : List Bool} (hc : s.fm.cumLegal)
    (hd : AcDecodes s.fm s.ac.low s.ac.high (x :: xs) g) (hs : s.Sees g) :
    ∃ t g', acDsym s = .ok x t ∧ t.fm = s.fm ∧ t.snk = s.snk ∧ AcDecodes s.fm t.ac.low t.ac.high xs g' ∧ t.Sees g' := by
  obtain ⟨hcode, hstream, hfill⟩ := hs
  cases hd with
  | @symbol _ _ _ _ n p p' l h bs _ g' share turns run sight sees next =>
    obtain ⟨hne, hl, hh⟩ := sight
    obtain ⟨hlow, _, hhigh⟩ := FM.interval_inside hc share
    have hpos := List.length_pos_of_ne_nil hne
    obtain ⟨y, e, hys, hyl, hyh⟩ := acDsym_narrows hc share.1 (s := s) ⟨by omega, by omega⟩ (by omega)
    obtain rfl : y = x := FM.eq_of_share hc ⟨hyl, hyh⟩ hys ⟨by omega, by omega⟩ share
    obtain ⟨a, ea, rfl, rfl, _, ⟨_, hz⟩, hcode'⟩ := acDsym_reads hc e hys hyl hyh turns run
    obtain ⟨_, hfm, hsnk⟩ := s.bitsRead_frame n
    obtain ⟨hlen, hdrop, hval⟩ := sees
    refine ⟨_, g', ea, hfm, hsnk, next, ?_, ?_, ?_⟩
    · rw [State.setAc_ac, hcode', hstream, hcode]
      rw [bitsValue_add] at hval
      obtain ⟨d, hd⟩ := Nat.exists_eq_add_of_le hl
      rw [hd, Nat.add_sub_cancel_left]
      rw [hd, Nat.add_mul, Nat.mul_comm _ (2 ^ n), Nat.mul_comm d] at hval
      omega
    · change (s.bitsRead n).bitStream = _
      rw [State.bitsRead_bitStream, hstream, List.drop_drop, hdrop]
    · rw [State.setAc_ac, hz, hfill, hstream, List.length_drop]
      omega

/-- R201: the loop of the decoder, with turns enough. -/
theorem decodeLoop_of_sight : ∀ (bs : List Byte) (k : Nat) (s : State) (g : List Bool), s.fm.cumLegal →
    AcDecodes s.fm s.ac.low s.ac.high (inputSymbols bs) g → s.Sees g → s.snk.cap = none →
    (∀ t, decodeLoop acDsym k s ≠ .error .loopBound t) →
    ∃ t, decodeLoop acDsym k s = .ok () t ∧ t.snk.data = s.snk.data ++ bs
  | _, 0, s, _, _, _, _, _, hend => absurd rfl (hend s)
  | [], k + 1, s, g, hc, hd, hs, _, _ => by
    obtain ⟨t, _, e, _, hsnk, _⟩ := acDsym_of_sight hc hd hs
    exact ⟨t, decodeLoop_of_eos e, by rw [hsnk, List.append_nil]⟩
  | b :: bs, k + 1, s, g, hc, hd, hs, hcap, hend => by
    rw [inputSymbols_cons] at hd
    obtain ⟨t, g', e, hfm, hsnk, hd', hs'⟩ := acDsym_of_sight hc hd hs
    have hcap' : t.snk.cap = none := by rw [hsnk, hcap]
    have hloop : decodeLoop acDsym (k + 1) s = decodeLoop acDsym k (t.wrote [b]) := by
      rw [decodeLoop_of_byte (byteSymbol_ne_eos b) e (State.hasRoom_of_none 1 hcap'), symbolByte_byteSymbol]
    rw [hloop] at hend ⊢
    obtain ⟨u, eu, hu⟩ := decodeLoop_of_sight bs k (t.wrote [b]) g' (by rw [State.wrote_fm, hfm]; exact hc)
      (by rw [State.wrote_fm, hfm]; exact hd') ⟨hs'.code, hs'.stream, hs'.fill⟩ hcap' hend
    exact ⟨u, eu, by rw [hu, State.wrote_snk, hsnk, List.append_assoc, List.singleton_append]⟩

end Sys2Proof.Machine

/-! SUPPORT. The arithmetic round trip (R200 to R202, R320): the decoder makes the encoder's table from the header, and reads the
symbols of the input from the bits that the encoder packed. -/

namespace Sys2Proof.Machine

open Sys2Proof

/-! ## The table of a header (R146) -/

/-- The tables after these counts are loaded and `FM.CUM`. -/
def FM.ofCounts (f : Vector Word 257) : FM := ⟨f, FM.cumTable { FM.reset with freq := f }⟩

/-- R146: the table is made from the counts alone. -/
theorem fmCum_of_le {s : State} (h : s.fm.total ≤ 2 ^ 32 - 1) : fmCum s = .ok () (s.setFm (FM.ofCounts s.fm.freq)) := by
  obtain ⟨hbig, _⟩ | ⟨_, e⟩ := fmCum_run s
  · omega
  · exact e

section
variable {f : Vector Word 257} {m : FM}

theorem FM.ofCounts_cumLegal (h : FM.total { FM.reset with freq := f } ≤ 2 ^ 32 - 1) : (FM.ofCounts f).cumLegal :=
  FM.cumTable_cumLegal h

/-- R191: a symbol with a count has a share of every interval of at least `total` values. -/
theorem FM.hasShare_of_size {low high : Word} {x : Symbol} (h : m.cumAt x.val < m.cumAt (x.val + 1))
    (ht : m.cumAt 257 ≠ 0) (hsize : m.cumAt 257 ≤ rangeSize low high) : m.hasShare low high x.val := by
  refine ⟨ht, ?_⟩
  have hstep : rangeSize low high * m.cumAt x.val + m.cumAt 257 ≤ rangeSize low high * m.cumAt (x.val + 1) :=
    calc rangeSize low high * m.cumAt x.val + m.cumAt 257
        ≤ rangeSize low high * (m.cumAt x.val + 1) := by rw [Nat.mul_add, Nat.mul_one]; omega
      _ ≤ rangeSize low high * m.cumAt (x.val + 1) := Nat.mul_le_mul_left _ h
  have hdiv := Nat.div_le_div_right (c := m.cumAt 257) hstep
  rw [Nat.add_div_right _ (Nat.pos_of_ne_zero ht)] at hdiv
  exact hdiv

/-- R145, R194: the counts that are not too many for a renormalized interval. -/
theorem FM.ofCounts_hasShare {x : Symbol} {a : AC} (h : FM.total { FM.reset with freq := f } ≤ 2 ^ 24 + 255)
    (hx : 0 < FM.freqAt { FM.reset with freq := f } x) (ha : a.renormalized) :
    (FM.ofCounts f).hasShare a.low a.high x.val := by
  have hpos := FM.freqAt_le_total { FM.reset with freq := f } x
  have hle : FM.total { FM.reset with freq := f } ≤ 2 ^ 32 - 1 := by omega
  have hsucc : (FM.ofCounts f).cumAt (x.val + 1) = (FM.ofCounts f).cumAt x.val + _ := FM.cumAt_cumTable_succ hle x
  have htotal : (FM.ofCounts f).cumAt 257 = _ := FM.cumAt_cumTable { FM.reset with freq := f } hle le_rfl
  rw [if_neg (by omega)] at hsucc
  rw [if_neg (by omega), FM.prefixSum_total] at htotal
  have hsize := ha.size
  exact FM.hasShare_of_size (by omega) (by omega) (by omega)

end

/-! ## The encoder (R200) -/

/-- R144: the scaled counts of an input. -/
def scaledCounts (xs : List Byte) : Vector Word 257 := (FM.reset.scanned xs).scaled

section
variable {xs : List Byte}

theorem scaledCounts_total (xs : List Byte) : FM.total { FM.reset with freq := scaledCounts xs } ≤ 2 ^ 24 + 255 :=
  (FM.reset.scanned xs).scaled_total_le

/-- R143, R145: every symbol of the input keeps a count. -/
theorem scaledCounts_pos (hfew : fewOccurrences xs) {x : Symbol} (hx : x ∈ inputSymbols xs) :
    0 < FM.freqAt { FM.reset with freq := scaledCounts xs } x := by
  refine FM.scaled_freqAt_pos (m := FM.reset.scanned xs) (.inr ?_)
  rw [FM.freqAt_scanned hfew]
  exact List.count_pos_iff.mpr hx

/-- R192: the registers after `AC.EINIT`. -/
def AC.encoderStart (a : AC) : AC := { a with low := 0, high := 0xFFFFFFFF, pend := 0 }

/-- R200: the commands before the first symbol. -/
theorem acEnc_prepares {s : State} (hcap : s.snk.cap = none) :
    inOrder [fmScale, fmWhdr Config.magicAC, fmCum, acEinit, bwInit] s
      = .ok () ((((s.wrote (headerBytes Config.magicAC s.fm.scaled)).setFm (FM.ofCounts s.fm.scaled)).setBw ⟨0, 0⟩).setAc
          s.ac.encoderStart) := by
  have hwrite : fmWhdr Config.magicAC (s.setFm { s.fm with freq := s.fm.scaled })
      = .ok () ((s.setFm { s.fm with freq := s.fm.scaled }).wrote (headerBytes Config.magicAC s.fm.scaled)) :=
    fmWhdr_of_unbounded (s := s.setFm _) Config.magicAC hcap
  have hcum := fmCum_of_le
    (s := (s.setFm { s.fm with freq := s.fm.scaled }).wrote (headerBytes Config.magicAC s.fm.scaled))
    (s.fm.scaled_total_le.trans (by omega))
  simp only [inOrder, bind_pure_unit]
  rw [Op.bind_of_ok (fmScale_run s), Op.bind_of_ok hwrite, Op.bind_of_ok hcum, Op.bind_of_ok (acEinit_run _), bwInit_run]
  rfl

/-- R200: the first pass, the commands before the first symbol, and then the symbols and the end. -/
theorem acEnc_of_run {s t u : State}
    (prepares : inOrder [fmScale, fmWhdr Config.magicAC, fmCum, acEinit, bwInit] s.scanned = .ok () u)
    (run : inOrder ((inputSymbols s.remaining).map acEsym ++ [acEfin]) u = .ok () t) :
    acEnc s = .ok () (t.consumed s.remaining.length) := by
  have before : (inOrder [fmScale, fmWhdr Config.magicAC, fmCum, acEinit, bwInit]).Blind := inOrder_blind
    (by simp [fmScale_plain.blind, (fmWhdr_plain _).blind, fmCum_plain.blind, acEinit_plain.blind, bwInit_plain.blind])
  have after : (inOrder [acEsym eosSymbol, acEfin]).Blind := inOrder_blind (by simp [acEsym_blind, acEfin_plain.blind])
  refine (acEnc_eq s).trans (secondPass_scanned_run before (fun _ => acEsym_blind _) after ?_)
  rw [List.append_assoc, map_inputSymbols, inOrder_append, Op.bind_of_ok prepares, run]

/-- R200: the run of `AC.ENC` on an input: the header, and the packed bits of the symbols and the end. -/
theorem acEnc_attach (hfew : fewOccurrences xs) : ∃ a out payload t,
    a.low = 0 ∧ a.high = 0xFFFFFFFF ∧ a.pend = 0
      ∧ AcEncodes (FM.ofCounts (scaledCounts xs)) a (inputSymbols xs) out ∧ IsPacked out payload
      ∧ acEnc (State.attach xs none) = .ok () t ∧ t.status = 0
      ∧ t.snk.data = headerBytes Config.magicAC (scaledCounts xs) ++ payload := by
  have htotal := scaledCounts_total xs
  have hc := FM.ofCounts_cumLegal (f := scaledCounts xs) (by omega)
  obtain ⟨out, hout⟩ := exists_acEncodes hc (inputSymbols xs) (AC.encoderStart AC.reset)
    ⟨by decide, by decide, .inl (by decide)⟩
    fun x hx b hb => FM.ofCounts_hasShare htotal (scaledCounts_pos hfew hx) hb
  have prepares := acEnc_prepares (s := (State.attach xs none).scanned) rfl
  rw [show (State.attach xs none).scanned.fm.scaled = scaledCounts xs from rfl] at prepares
  generalize hu : State.setBw _ _ = u at prepares
  obtain ⟨hbw, hcap, hfm, hst, hdata⟩ : u.bw = ⟨0, 0⟩ ∧ u.snk.cap = none ∧ u.fm = FM.ofCounts (scaledCounts xs)
      ∧ u.status = 0 ∧ u.snk.data = headerBytes Config.magicAC (scaledCounts xs) := by
    subst hu
    exact ⟨rfl, rfl, rfl, rfl, rfl⟩
  obtain ⟨payload, epacked, hpacked⟩ := writeBits_bwFlush_isPacked out hbw (State.hasRoom_of_none _ hcap)
  obtain ⟨a', erun⟩ := hout.run hc hfm epacked
  exact ⟨_, out, payload, _, rfl, rfl, rfl, hout, hpacked, acEnc_of_run prepares erun, hst, by rw [← hdata]; rfl⟩

/-! ## The decoder (R201) -/

/-- R201: `AC.DEC` with a header of these counts comes to its loop, the payload in its code and in front of its reader. -/
theorem acDec_of_header {s : State} {f : Vector Word 257} {payload : List Byte}
    (h : s.remaining = headerBytes Config.magicAC f ++ payload)
    (hok : FM.total { s.fm with freq := f } = 0 ∨ FM.freqAt { s.fm with freq := f } eosSymbol ≠ 0)
    (ht : FM.total { s.fm with freq := f } ≤ 2 ^ 32 - 1) :
    ∃ u, acDec s = decodeLoop acDsym (acDecBound u) u ∧ u.fm = FM.ofCounts f ∧ u.snk = s.snk ∧ u.ac.low = 0
      ∧ u.ac.high = 0xFFFFFFFF ∧ u.Sees (payload.flatMap byteBits) := by
  have hdr : fmRhdr Config.magicAC s = .ok () ((s.consumed 1036).setFm { s.fm with freq := f }) := by
    rw [fmRhdr_of_whole h]
    obtain ⟨ht, hz, _⟩ | ⟨_, e⟩ := headerHasEos_run ((s.consumed 1036).setFm { s.fm with freq := f })
    · exact absurd hz (hok.resolve_left ht)
    · exact e
  have hcum : fmCum ((s.consumed 1036).setFm { s.fm with freq := f })
      = .ok () ((s.consumed 1036).setFm (FM.ofCounts f)) := fmCum_of_le ht
  have hrem : (s.consumed 1036).remaining = payload := by
    rw [State.remaining_consumed, h, List.drop_left' (headerBytes_length _ _)]
  obtain ⟨v, hv⟩ : ∃ v, v = ((s.consumed 1036).setFm (FM.ofCounts f)).setBr ⟨0, 0, false⟩ := ⟨_, rfl⟩
  obtain ⟨a, e, hl, hh, _, hcode, hz⟩ := acDinit_reads v
  have hstream : v.bitStream = payload.flatMap byteBits := by
    rw [State.bitStream_of_not_eof (by rw [hv]; rfl), ← hrem, hv]
    rfl
  obtain ⟨_, hfm, hsnk⟩ := v.bitsRead_frame 32
  have hrest := State.bitsRead_bitStream 32 v
  rw [hstream] at hcode hz hrest
  generalize v.bitsRead 32 = u at *
  refine ⟨u.setAc a, ?_, hfm.trans (by rw [hv]; rfl), hsnk.trans (by rw [hv]; rfl), hl, hh, hcode, hrest,
    by rw [State.setAc_ac, hz]; omega⟩
  rw [hv] at e
  rw [acDec, Op.bind_of_ok hdr, Op.bind_of_ok hcum, Op.bind_of_ok (brInit_run _), Op.bind_of_ok e, reading_run]

/-- R202, R203(b): the stream of an input is read back. -/
theorem acDec_of_stream (hfew : fewOccurrences xs) {a : AC} {out : List Bool} {payload : List Byte} (hl : a.low = 0)
    (hh : a.high = 0xFFFFFFFF) (hp : a.pend = 0)
    (hout : AcEncodes (FM.ofCounts (scaledCounts xs)) a (inputSymbols xs) out) (hpacked : IsPacked out payload) :
    ∃ u, acDec (State.attach (headerBytes Config.magicAC (scaledCounts xs) ++ payload) none) = .ok () u
      ∧ u.snk.data = xs := by
  have htotal := scaledCounts_total xs
  have hc := FM.ofCounts_cumLegal (f := scaledCounts xs) (by omega)
  have heos := scaledCounts_pos hfew (x := eosSymbol) (by simp [inputSymbols])
  obtain ⟨v, e, hfm, hsnk, hvl, hvh, hsees⟩ := acDec_of_header
    (s := State.attach (headerBytes Config.magicAC (scaledCounts xs) ++ payload) none) (f := scaledCounts xs)
    (payload := payload) rfl (.inr heos.ne')
    (show FM.total { FM.reset with freq := scaledCounts xs } ≤ _ by omega)
  obtain ⟨g, hg, _, hd⟩ := hout.exists_sight hc (8 * payload.length - out.length)
  rw [hp, released_zero, ← hpacked.flatMap_byteBits] at hg
  rw [hg, hl, hh, ← hvl, ← hvh, ← hfm] at hd
  obtain ⟨u, eu, hu⟩ := decodeLoop_of_sight xs (acDecBound v) v _ (by rw [hfm]; exact hc) hd hsees (by rw [hsnk]; rfl)
    fun t et => acDec_endsWith.ends _ t (e.trans et)
  refine ⟨u, e.trans eu, ?_⟩
  rw [hu, hsnk]
  rfl

end

/-- Settles O55: the encoder packs the bits of the input's symbols, and the decoder sees the code in the interval of each. -/
theorem arithmeticRoundTrip : Obligations.ArithmeticRoundTrip := by
  intro xs hfew
  obtain ⟨a, out, payload, t, hl, hh, hp, hout, hpacked, e, ht, hdata⟩ := acEnc_attach hfew
  obtain ⟨u, eu, hu⟩ := acDec_of_stream hfew hl hh hp hout hpacked
  have hust := Op.Preserves.status_of_ok (fun _ hP => hP.keeps_acDec) eu
  refine ⟨_, { u with resp := answerNone }, runCommand_noValue_ok (State.attach_status _ _) e ht, ht, ?_, hust, hu⟩
  rw [show State.snk { t with resp := answerNone } = t.snk from rfl, hdata]
  exact exec_acDec_of_ok (State.attach_status _ _) eu hust

end Sys2Proof.Machine

/-! SUPPORT. The range encoder (R222, R223): its commands do what writing their bytes does, but for the registers
of the coder. -/

namespace Sys2Proof.Machine

open Sys2Proof

/-! ## The turns of the renormalization loop (R222) -/

section
variable {l h l' h' l'' h'' : Word} {bs bs' : List Byte}

/-- R220: the test of a turn says that the top bytes are the same. -/
theorem xor_lt_iff_top (l h : Word) : (l ^^^ h).toNat < 2 ^ 24 ↔ l.toNat / 2 ^ 24 = h.toNat / 2 ^ 24 := by
  rw [← RC.sameTop_iff (r := ⟨l, h, 0, 0⟩), RC.sameTop, decide_eq_true_eq]
  exact .rfl

/-- R222: a turn keeps the order of the bounds. -/
theorem shift_le_of_top (ht : (l ^^^ h).toNat < 2 ^ 24) (hle : l.toNat ≤ h.toNat) :
    (l <<< 8).toNat ≤ (h <<< 8 ||| 0xFF).toNat :=
  RC.shiftOut_ordered (r := ⟨l, h, 0, 0⟩) hle (decide_eq_true ht)

/-- R230(a): after the turns the top bytes differ, in order. -/
theorem RcTurns.renormalized (ht : RcTurns l h bs l' h') (hle : l.toNat ≤ h.toNat) :
    l'.toNat / 2 ^ 24 < h'.toNat / 2 ^ 24 := by
  induction ht with
  | @exit l h h1 =>
    have hne : ¬ l.toNat / 2 ^ 24 = h.toNat / 2 ^ 24 := fun e => Nat.not_lt.mpr h1 ((xor_lt_iff_top l h).mpr e)
    omega
  | shift h1 _ ih => exact ih (shift_le_of_top h1 hle)

/-- The bounds determine the turns. -/
theorem RcTurns.unique (ht : RcTurns l h bs l' h') (ht' : RcTurns l h bs' l'' h'') : bs = bs' ∧ l' = l'' ∧ h' = h'' := by
  induction ht generalizing bs' with
  | exit h1 =>
    cases ht' with
    | exit _ => exact ⟨rfl, rfl, rfl⟩
    | shift h2 _ => exact absurd h2 (Nat.not_lt.mpr h1)
  | shift h1 _ ih =>
    cases ht' with
    | exit h2 => exact absurd h1 (Nat.not_lt.mpr h2)
    | shift _ next =>
      obtain ⟨rfl, rfl, rfl⟩ := ih next
      exact ⟨rfl, rfl, rfl⟩

/-- R222: the turns end as soon as the top bytes differ. -/
theorem exists_rcTurns : ∀ (k : Nat) (r : RC), (RC.shiftOut^[k] r).sameTop = false →
    ∃ bs, ∃ l h : Word, bs.length ≤ k ∧ RcTurns r.low r.high bs l h
  | 0, r, hr => ⟨[], r.low, r.high, Nat.le_refl _, .exit (Nat.le_of_not_lt (of_decide_eq_false hr))⟩
  | k + 1, r, hr => by
    by_cases ht : (r.low ^^^ r.high).toNat < 2 ^ 24
    · obtain ⟨bs, l, h, hlen, hturns⟩ := exists_rcTurns k r.shiftOut hr
      exact ⟨byteOf r.low 3 :: bs, l, h, Nat.succ_le_succ hlen, .shift ht hturns⟩
    · exact ⟨[], r.low, r.high, Nat.zero_le _, .exit (Nat.le_of_not_lt ht)⟩

/-- R222: "The loop ends after at most 4 turns". -/
theorem exists_rcTurns_le_four (l h : Word) : ∃ bs, ∃ l' h' : Word, bs.length ≤ 4 ∧ RcTurns l h bs l' h' :=
  exists_rcTurns 4 ⟨l, h, 0, 0⟩ (RC.sameTop_shiftOut_four _)

end

/-! ## Operations that write bytes -/

/-- From the registers r of the coder the operation does what writing these bytes does; where it returns it leaves the
registers r'. -/
def Op.Outputs (op : Op Unit) (bs : List Byte) (r r' : RC) : Prop :=
  ∀ s : State, (∀ t, writeBytes bs s = .ok () t → op (s.setRc r) = .ok () (t.setRc r'))
    ∧ ∀ e t, writeBytes bs s = .error e t → ∃ r'', op (s.setRc r) = .error e (t.setRc r'')

/-- The sink does not see the registers of the coder. -/
theorem snkWrite_setRc (b : Byte) (s : State) (r : RC) : snkWrite b (s.setRc r) = mapState (·.setRc r) (snkWrite b s) := by
  obtain ⟨hf, e⟩ | ⟨hf, e⟩ := snkWrite_run b s
  · rw [e]
    exact snkWrite_of_full (s := s.setRc r) b hf
  · rw [e]
    obtain ⟨hf', _⟩ | ⟨_, e'⟩ := snkWrite_run b (s.setRc r)
    · exact absurd hf' hf
    · exact e'

section
variable {op op' : Op Unit} {bs bs' : List Byte} {r r' r'' : RC}

theorem Op.Outputs.append (h : op.Outputs bs r r') (h' : op'.Outputs bs' r' r'') :
    Op.Outputs (do op; op') (bs ++ bs') r r'' := fun s => by
  obtain ⟨hok, herr⟩ := h s
  rw [writeBytes_append]
  constructor
  · intro t e
    obtain ⟨_, u, eu, et⟩ := Op.bind_eq_ok.mp e
    rw [Op.bind_of_ok (hok u eu)]
    exact (h' u).1 t et
  · intro z t e
    obtain e | ⟨_, u, eu, et⟩ := Op.bind_eq_error.mp e
    · obtain ⟨b, eb⟩ := herr z t e
      exact ⟨b, Op.bind_of_error eb⟩
    · rw [Op.bind_of_ok (hok u eu)]
      exact (h' u).2 z t et

theorem Op.Outputs.congr (h : op'.Outputs bs r r') (he : ∀ s : State, op (s.setRc r) = op' (s.setRc r)) :
    op.Outputs bs r r' := fun s => by
  rw [he]
  exact h s

theorem Op.Outputs.nothing (he : ∀ s : State, op (s.setRc r) = .ok () (s.setRc r')) : op.Outputs [] r r' := fun s =>
  ⟨fun t e => by cases e; exact he s, fun _ _ e => by cases e⟩

theorem snkWrite_outputs (b : Byte) (r : RC) : (snkWrite b).Outputs [b] r r := fun s => by
  rw [snkWrite_setRc, writeBytes, writeBytes, bind_pure_unit]
  exact ⟨fun t e => by rw [e]; rfl, fun z t e => ⟨r, by rw [e]; rfl⟩⟩

theorem modRc_outputs (f : RC → RC) (r : RC) : (modRc f).Outputs [] r (f r) := .nothing fun _ => rfl

/-- R62: enough room for the bytes. -/
theorem Op.Outputs.of_room (h : op.Outputs bs r r') {s : State} (hroom : s.hasRoom bs.length = true) :
    op (s.setRc r) = .ok () ((s.wrote bs).setRc r') := (h s).1 _ (writeBytes_of_room bs s hroom)

/-- R62: the bytes that fit are written. -/
theorem Op.Outputs.of_short (h : op.Outputs bs r r') {s : State} {m : Nat} (hm : s.roomOnlyFor m bs.length) :
    ∃ r'', op (s.setRc r) = .error (.raise .sinkFailure) ((s.wrote (bs.take m)).setRc r'') :=
  (h s).2 _ _ (writeBytes_of_short bs m s hm)

/-- The command that performs the operation, with room for the bytes and with room for fewer. -/
theorem Op.Outputs.exec_performs {i : Instr} (hi : Performs i op') {s : State} (h0 : s.status = 0)
    (he : op' s = op (s.setRc r)) (h : op.Outputs bs r r') :
    (s.hasRoom bs.length = true → exec i s = .next { s.wrote bs with rc := r', resp := answerNone })
      ∧ ∀ m, s.roomOnlyFor m bs.length → ∃ r'', exec i s = .next { (s.wrote (bs.take m)).failed 5 with rc := r'' } := by
  refine ⟨fun hroom => ?_, fun m hm => ?_⟩
  · rw [hi.exec_eq]
    exact runCommand_noValue_ok h0 (he.trans (h.of_room hroom)) h0
  · obtain ⟨r'', e⟩ := h.of_short hm
    refine ⟨r'', ?_⟩
    rw [hi.exec_eq]
    exact runCommand_noValue_raise h0 (he.trans e)

end

/-! ## A symbol (R191, R222) -/

/-- R222: the loop makes these turns. -/
theorem rcEncLoop_outputs (r : RC) {l h l' h' : Word} {bs : List Byte} (ht : RcTurns l h bs l' h') : ∀ k, bs.length < k →
    (rcEncLoop k).Outputs bs { r with low := l, high := h } { r with low := l', high := h' } := by
  induction ht with
  | exit h1 =>
    intro k hk
    obtain ⟨k, rfl⟩ := Nat.exists_eq_succ_of_ne_zero (Nat.ne_of_gt hk)
    exact .nothing fun s => rcEncLoop_done (decide_eq_false (Nat.not_lt.mpr h1))
  | @shift l h l' h' bs h1 _ ih =>
    intro k hk
    obtain ⟨k, rfl⟩ := Nat.exists_eq_succ_of_ne_zero (Nat.ne_of_gt (Nat.zero_lt_of_lt hk))
    have write := snkWrite_outputs (byteOf l 3) { r with low := l, high := h }
    have shift := modRc_outputs RC.shiftOut { r with low := l, high := h }
    exact (write.append (shift.append (ih k (Nat.lt_of_succ_lt_succ hk)))).congr fun s =>
      rcEncLoop_turn (s := s.setRc _) (decide_eq_true h1)

section
variable {s : State} {r : RC} {m : FM} {x : Symbol}

theorem rcEsym_narrows (hs : s.fm.hasShare r.low r.high x.val) :
    rcEsym x (s.setRc r) = rcEncLoop 5 (s.setRc (r.narrowed s.fm x)) := by
  obtain ⟨hno, _⟩ | ⟨_, e⟩ := intervalUpdate_rc_run x (s.setRc r)
  · exact absurd hs hno
  · rw [rcEsym, Op.bind_of_ok e]
    rfl

theorem rcEsym_of_noShare (hs : ¬ s.fm.hasShare s.rc.low s.rc.high x.val) :
    rcEsym x s = .error (.raise .domainFault) s := by
  obtain ⟨_, e⟩ | ⟨h, _⟩ := intervalUpdate_rc_run x s
  · exact Op.bind_of_error e
  · exact absurd h hs

/-- R222: the turns from the share of a symbol. -/
theorem RC.narrowed_outputs (hc : m.cumLegal) (hs : m.hasShare r.low r.high x.val) : ∃ (bytes : List Byte) (l h : Word),
    RcTurns (BitVec.ofNat 32 (m.newLow r.low r.high x.val)) (BitVec.ofNat 32 (m.newHigh r.low r.high x.val)) bytes l h
      ∧ bytes.length ≤ 4 ∧ RC.renormalized { r with low := l, high := h }
      ∧ (rcEncLoop 5).Outputs bytes (r.narrowed m x) { r with low := l, high := h } := by
  obtain ⟨_, hle, _⟩ := FM.interval_inside hc hs
  obtain ⟨elow, ehigh⟩ := FM.interval_ofNat hc hs
  obtain ⟨bytes, l, h, hlen, ht⟩ := exists_rcTurns_le_four (BitVec.ofNat 32 (m.newLow r.low r.high x.val))
    (BitVec.ofNat 32 (m.newHigh r.low r.high x.val))
  exact ⟨bytes, l, h, ht, hlen, ht.renormalized (by rw [elow, ehigh]; exact hle),
    rcEncLoop_outputs r ht 5 (Nat.lt_succ_of_le hlen)⟩

end

/-- Settles O48: an operand that is no symbol, a symbol without a share, and a symbol with a share, whose turns the loop makes
while the sink takes their bytes. -/
theorem rangeSymbolIsEncoded : Obligations.RangeSymbolIsEncoded := by
  refine fun s v h0 => ⟨rfl, fun hv => ?_, fun x hv => ⟨fun hno => ?_, fun hc _ hs => ?_⟩⟩
  · obtain ⟨x, hx, _⟩ | ⟨_, e⟩ := symbolOperand_run v s
    · omega
    · exact runCommand_noValue_raise h0 (op := symbolOperand v >>= rcEsym) (Op.bind_of_error e)
  · rw [(performs_rcEsym hv).exec_eq]
    exact runCommand_noValue_raise h0 (rcEsym_of_noShare hno)
  · obtain ⟨bytes, l, h, ht, hlen, hren, hout⟩ := RC.narrowed_outputs hc hs
    obtain ⟨hroom, hshort⟩ := hout.exec_performs (performs_rcEsym hv) h0 (rcEsym_narrows (s := s) hs)
    exact ⟨bytes, l, h, ht, hlen, hren, hroom, hshort⟩

/-! ## The tail (R223) -/

theorem rcTailByte_outputs (r : RC) : rcTailByte.Outputs [byteOf r.low 3] r { r with low := r.low <<< 8 } :=
  (snkWrite_outputs (byteOf r.low 3) r).append (modRc_outputs (fun r => { r with low := r.low <<< 8 }) r)

/-- R223: the top byte of what is left of `low` is the next of its bytes. -/
theorem rcTail_outputs (r : RC) : ∀ n, n ≤ 4 → ∀ w : Word,
    (repeatOp rcTailByte n).Outputs ((List.range n).map fun i => byteOf w (3 - i)) { r with low := w }
      { r with low := w <<< (8 * n) }
  | 0, _, w => .nothing fun s => by rw [Nat.mul_zero, BitVec.shiftLeft_zero]; rfl
  | n + 1, hn, w => by
    have first := rcTailByte_outputs { r with low := w }
    have rest := rcTail_outputs r n (Nat.le_of_succ_le hn) (w <<< 8)
    rw [← BitVec.shiftLeft_add, show 8 + 8 * n = 8 * (n + 1) by omega] at rest
    have hbytes : ((List.range n).map fun i => byteOf (w <<< 8) (3 - i))
        = (List.range n).map fun i => byteOf w (3 - (i + 1)) := by
      refine List.map_congr_left fun i hi => ?_
      have hin := List.mem_range.mp hi
      rw [show 3 - i = 3 - (i + 1) + 1 by omega, byteOf_shiftLeft w (by omega)]
    rw [hbytes] at rest
    rw [List.range_succ_eq_map, List.map_cons, List.map_map]
    exact first.append rest

/-- R223: the tail is the bytes of `low`, and shifts all of it out. -/
theorem rcEfin_outputs (r : RC) : rcEfin.Outputs (beBytes32 r.low) r { r with low := 0 } := by
  have h := rcTail_outputs r 4 le_rfl r.low
  rwa [show r.low <<< (8 * 4) = 0 from BitVec.shiftLeft_eq_zero (by decide)] at h

/-- Settles O49: the four bytes of the tail are written one after another, all of them or those that fit. -/
theorem rangeCoderFinishes : Obligations.RangeCoderFinishes :=
  ⟨rfl, fun s h0 => (rcEfin_outputs s.rc).exec_performs performs_rcEfin (s := s) h0 rfl⟩

end Sys2Proof.Machine

/-! SUPPORT. The start of the range decoder (R224, R225): the bytes of the source, zeros past its end, as a number. -/

namespace Sys2Proof.Machine

open Sys2Proof

/-! ## Bytes as a number (R69, R224) -/

theorem bytesValue_cons (n : Nat) (b : Byte) (bs : List Byte) :
    bytesValue (n + 1) (b :: bs) = b.toNat * 256 ^ n + bytesValue n bs := bytesValue_succ n (b :: bs)

theorem bytesValue_add (n : Nat) : ∀ (m : Nat) (bs : List Byte),
    bytesValue (m + n) bs = bytesValue m bs * 256 ^ n + bytesValue n (bs.drop m)
  | 0, bs => by rw [Nat.zero_add, bytesValue_zero, Nat.zero_mul, Nat.zero_add, List.drop_zero]
  | m + 1, bs => by
    rw [Nat.add_right_comm, bytesValue_succ, bytesValue_succ, bytesValue_add n m, List.drop_tail]
    ring

theorem bytesValue_lt : ∀ (n : Nat) (bs : List Byte), bytesValue n bs < 256 ^ n
  | 0, _ => Nat.one_pos
  | n + 1, bs => by
    have hrest := bytesValue_lt n bs.tail
    have htop := Nat.mul_le_mul_right (256 ^ n) (Nat.le_of_lt_succ (bs.headD 0).isLt)
    rw [bytesValue_succ, pow_succ]
    omega

/-! ## Bytes shifted into the code (R224, R225) -/

/-- R61: a byte is taken off the source, if there is one. -/
theorem State.remaining_consumed_min_one (s : State) :
    (s.consumed (min 1 s.remaining.length)).remaining = s.remaining.tail := by
  rw [State.remaining_consumed]
  cases s.remaining with
  | nil => rfl
  | cons b l => rw [List.length_cons, Nat.min_eq_left (Nat.le_add_left 1 _), List.drop_one]

/-- R224, R225: after n bytes shifted into the code. -/
theorem repeatOp_rcShiftIn_setRc : ∀ (n : Nat) (s : State) (r : RC), ∃ r',
    repeatOp rcShiftIn n (s.setRc r) = .ok () ((s.consumed (min n s.remaining.length)).setRc r')
      ∧ r'.low = r.low ∧ r'.high = r.high
      ∧ r'.code.toNat = (r.code.toNat * 256 ^ n + bytesValue n s.remaining) % 2 ^ 32
      ∧ r'.zfill.val = min 4 (r.zfill.val + (n - s.remaining.length))
  | 0, s, r => by
    refine ⟨r, by rw [Nat.zero_min, State.consumed_zero]; rfl, rfl, rfl, ?_, ?_⟩
    · have := r.code.isLt
      rw [bytesValue_zero, pow_zero]
      omega
    · have := r.zfill.isLt
      omega
  | n + 1, s, r => by
    obtain ⟨r', e, hl, hh, hcode, hz⟩ := repeatOp_rcShiftIn_setRc n (s.consumed (min 1 s.remaining.length))
      (r.shifted s.remaining)
    rw [State.remaining_consumed_min_one] at e hcode hz
    refine ⟨r', ?_, hl.trans (RC.shifted_low r _), hh.trans (RC.shifted_high r _), ?_, ?_⟩
    · rw [repeatOp, Op.bind_of_ok (rcShiftIn_setRc s r), e, State.consumed_consumed, List.length_tail,
        show min 1 s.remaining.length + min n (s.remaining.length - 1) = min (n + 1) s.remaining.length by omega]
    · rw [hcode, RC.shifted_code_toNat, bytesValue_succ, Nat.add_mod, Nat.mod_mul_mod, ← Nat.add_mod]
      congr 1
      ring
    · rw [hz, RC.shifted_zfill, List.length_tail]
      omega

/-- R225: four bytes make the code. -/
theorem rcDinit_reads (s : State) : ∃ r, rcDinit s = .ok () ((s.consumed (min 4 s.remaining.length)).setRc r)
    ∧ r.low = 0 ∧ r.high = 0xFFFFFFFF ∧ r.code.toNat = bytesValue 4 s.remaining
    ∧ r.zfill.val = 4 - min 4 s.remaining.length := by
  obtain ⟨r, e, hl, hh, hcode, hz⟩ := repeatOp_rcShiftIn_setRc 4 s ⟨0, 0xFFFFFFFF, 0, 0⟩
  have hlt := bytesValue_lt 4 s.remaining
  refine ⟨r, e, hl, hh, hcode.trans ?_, hz.trans ?_⟩
  · change (0 * 256 ^ 4 + bytesValue 4 s.remaining) % 2 ^ 32 = _
    omega
  · change min 4 (0 + _) = _
    omega

/-- Settles O50, by the run of the four bytes. -/
theorem rangeDecoderStarts : Obligations.RangeDecoderStarts := by
  refine ⟨rfl, fun s h0 => ?_⟩
  obtain ⟨r, e, hl, hh, hcode, hz⟩ := rcDinit_reads s
  exact ⟨r, runCommand_noValue_ok h0 e h0, hl, hh, hcode, hz⟩

end Sys2Proof.Machine

/-! SUPPORT. The range round trip (R227 to R230, R320): whatever the encoder has written, its decoder makes the same table from
the header, and its code lies in the interval of each symbol of the input. -/

namespace Sys2Proof.Machine

open Sys2Proof

/-! ## The bytes of the encoder -/

/-- R222, R223: the encoder with this interval writes these bytes for the symbols and the tail. -/
inductive RcEncodes (m : FM) : Word → Word → List Symbol → List Byte → Prop
  | finish {low high : Word} (h : low.toNat ≤ high.toNat) : RcEncodes m low high [] (beBytes32 low)
  | symbol {low high l h : Word} {x : Symbol} {xs : List Symbol} {bs out : List Byte}
      (share : m.hasShare low high x.val)
      (run : RcTurns (BitVec.ofNat 32 (m.newLow low high x.val)) (BitVec.ofNat 32 (m.newHigh low high x.val)) bs l h)
      (next : RcEncodes m l h xs out) : RcEncodes m low high (x :: xs) (bs ++ out)

/-- R223: the tail is the whole of `low`. -/
theorem bytesValue_beBytes32 (w : Word) : bytesValue 4 (beBytes32 w) = w.toNat := by
  have h := congrArg BitVec.toNat (ofLeBytes32_byteOf w)
  rw [ofLeBytes32_toNat] at h
  rw [← h, beBytes32]
  simp only [bytesValue_cons, bytesValue_zero]
  omega

section
variable {m : FM} {l h l' h' low high : Word} {x : Symbol} {xs : List Symbol} {bs out : List Byte}

/-- R230(b): what lies in the interval after the turns lay in it before them, with the bytes of the turns in front. -/
theorem RcTurns.sight (ht : RcTurns l h bs l' h') (hl : l'.toNat ≤ bytesValue 4 out) (hh : bytesValue 4 out ≤ h'.toNat) :
    l.toNat ≤ bytesValue 4 (bs ++ out) ∧ bytesValue 4 (bs ++ out) ≤ h.toNat := by
  induction ht with
  | exit _ => exact ⟨hl, hh⟩
  | @shift l h l' h' bs h1 _ ih =>
    obtain ⟨hlow, hhigh⟩ := ih hl hh
    have htop := (xor_lt_iff_top l h).mp h1
    have hbyte : (byteOf l 3).toNat = l.toNat / 2 ^ 24 := by
      have := l.isLt
      rw [byteOf, BitVec.extractLsb'_toNat, Nat.shiftRight_eq_div_pow]
      omega
    have elow : (l <<< 8).toNat = l.toNat % 2 ^ 24 * 256 := by
      rw [BitVec.toNat_shiftLeft, Nat.shiftLeft_eq]
      omega
    have ehigh : (h <<< 8 ||| 0xFF).toNat = h.toNat % 2 ^ 24 * 256 + 255 := shiftLeft_or_toNat h 0xFF (by decide)
    have hsplit : bytesValue 4 (bs ++ out) = _ := bytesValue_add 1 3 (bs ++ out)
    have hlast := bytesValue_lt 1 ((bs ++ out).drop 3)
    rw [List.cons_append, bytesValue_cons, hbyte]
    omega

/-- R223: the tail alone has four bytes. -/
theorem RcEncodes.four_le_length (he : RcEncodes m low high xs out) : 4 ≤ out.length := by
  induction he with
  | finish _ => exact le_rfl
  | symbol _ _ _ ih =>
    rw [List.length_append]
    omega

/-- R230(b): the first four bytes lie in the interval. -/
theorem RcEncodes.sight (hc : m.cumLegal) (he : RcEncodes m low high xs out) :
    low.toNat ≤ bytesValue 4 out ∧ bytesValue 4 out ≤ high.toNat := by
  induction he with
  | finish hle =>
    rw [bytesValue_beBytes32]
    exact ⟨le_rfl, hle⟩
  | symbol share run _ ih =>
    obtain ⟨hl, hh⟩ := run.sight ih.1 ih.2
    obtain ⟨hlow, _, hhigh⟩ := FM.interval_inside hc share
    obtain ⟨elow, ehigh⟩ := FM.interval_ofNat hc share
    omega

/-- R222, R223: what the commands of the encoder have written, if they all returned. -/
theorem rcEncodes_of_run (hc : m.cumLegal) : ∀ (xs : List Symbol) (s t : State) (r : RC), s.fm = m → s.snk.cap = none →
    r.Ordered → inOrder (xs.map rcEsym ++ [rcEfin]) (s.setRc r) = .ok () t →
    ∃ out, RcEncodes m r.low r.high xs out ∧ t.snk.data = s.snk.data ++ out
  | [], s, t, r, _, hcap, hr, e => by
    rw [List.map_nil, List.nil_append, inOrder, inOrder, bind_pure_unit,
      (rcEfin_outputs r).of_room (State.hasRoom_of_none _ hcap)] at e
    cases e
    exact ⟨_, .finish hr, rfl⟩
  | x :: xs, s, t, r, hm, hcap, hr, e => by
    obtain ⟨_, u, eu, et⟩ := Op.bind_eq_ok.mp e
    by_cases hs : m.hasShare r.low r.high x.val
    · obtain ⟨bytes, l, h, ht, _, hren, hout⟩ := RC.narrowed_outputs hc hs
      rw [rcEsym_narrows (by rw [hm]; exact hs), hm, hout.of_room (State.hasRoom_of_none _ hcap)] at eu
      cases eu
      obtain ⟨out, he, hdata⟩ := rcEncodes_of_run hc xs (s.wrote bytes) t { r with low := l, high := h } hm hcap
        (Nat.le_of_lt (Nat.lt_of_div_lt_div hren)) et
      exact ⟨bytes ++ out, .symbol hs ht he, by rw [hdata, ← List.append_assoc]; rfl⟩
    · rw [rcEsym_of_noShare (s := s.setRc r) (by rw [State.setRc_fm, hm]; exact hs)] at eu
      cases eu

end

/-! ## The encoder (R227) -/

theorem Trails.exists_ok {n : Nat} {x : EStateM.Result Stop State Unit} {t : State} (h : Trails n (.ok () t) x) :
    ∃ u, x = .ok () u ∧ t = u.consumed n := by
  obtain ⟨j, hj, hok⟩ := h
  rcases x with ⟨_, u⟩ | ⟨_, u⟩
  · rw [hok u rfl] at hj
    cases hj
    exact ⟨u, rfl, rfl⟩
  · cases hj

/-- R280: a command that leaves status 0 has returned. -/
theorem ok_of_finish {r : EStateM.Result Stop State Unit} {t : State} (h : finish r = .next t) (ht : t.status = 0) :
    ∃ u, r = .ok () u ∧ t.snk = u.snk := by
  rcases r with ⟨_, u⟩ | ⟨k | _, u⟩
  · cases h
    exact ⟨u, rfl, rfl⟩
  · cases h
    exact absurd ht k.code_ne_zero
  · cases h

/-- R221: the registers after `RC.EINIT`. -/
def RC.encoderStart (r : RC) : RC := { r with low := 0, high := 0xFFFFFFFF }

/-- R144, R148, R146: the scaled counts, their header and their table, whatever the counts are. -/
theorem inOrder_scaledTable {s : State} (tag : Word) (ops : List (Op Unit)) (hcap : s.snk.cap = none) :
    inOrder (fmScale :: fmWhdr tag :: fmCum :: ops) s
      = inOrder ops ((s.wrote (headerBytes tag s.fm.scaled)).setFm (FM.ofCounts s.fm.scaled)) := by
  have hwrite : fmWhdr tag (s.setFm { s.fm with freq := s.fm.scaled })
      = .ok () ((s.setFm { s.fm with freq := s.fm.scaled }).wrote (headerBytes tag s.fm.scaled)) :=
    fmWhdr_of_unbounded (s := s.setFm _) tag hcap
  have hcum := fmCum_of_le (s := (s.setFm { s.fm with freq := s.fm.scaled }).wrote (headerBytes tag s.fm.scaled))
    (s.fm.scaled_total_le.trans (by omega))
  rw [inOrder, Op.bind_of_ok (fmScale_run s), inOrder, Op.bind_of_ok hwrite, inOrder, Op.bind_of_ok hcum]
  rfl

/-- R227: the commands before the first symbol. -/
theorem rcEnc_prepares {s : State} (hcap : s.snk.cap = none) :
    inOrder [fmScale, fmWhdr Config.magicRC, fmCum, rcEinit] s
      = .ok () (((s.wrote (headerBytes Config.magicRC s.fm.scaled)).setFm (FM.ofCounts s.fm.scaled)).setRc
          s.rc.encoderStart) := by
  rw [inOrder_scaledTable Config.magicRC [rcEinit] hcap]
  rfl

/-- R227: what `RC.ENC` has written, if it returned. -/
theorem rcEnc_attach {xs : List Byte} {t : State} (e : rcEnc (State.attach xs none) = .ok () t) :
    ∃ out, RcEncodes (FM.ofCounts (scaledCounts xs)) 0 0xFFFFFFFF (inputSymbols xs) out
      ∧ t.snk.data = headerBytes Config.magicRC (scaledCounts xs) ++ out := by
  have before : (inOrder [fmScale, fmWhdr Config.magicRC, fmCum, rcEinit]).Plain :=
    inOrder_plain (by simp [fmScale_plain, fmWhdr_plain, fmCum_plain, rcEinit_plain])
  have after : (inOrder [rcEsym eosSymbol, rcEfin]).Plain := inOrder_plain (by simp [rcEsym_plain, rcEfin_plain])
  have trails := secondPass_trails (f := fun x => rcEsym (byteSymbol x)) (State.attach xs none).scanned before.blind
    (fun _ => (rcEsym_plain _).blind) after.blind
  rw [← rcEnc_eq, e] at trails
  obtain ⟨u, eu, rfl⟩ := trails.exists_ok
  rw [List.append_assoc, map_inputSymbols, inOrder_append, Op.bind_of_ok (rcEnc_prepares rfl)] at eu
  have htotal := scaledCounts_total xs
  exact rcEncodes_of_run (FM.ofCounts_cumLegal (f := scaledCounts xs) (by omega)) (inputSymbols xs) _ u
    (RC.encoderStart RC.reset) rfl rfl (Nat.zero_le _) eu

/-! ## The decoder (R228) -/

/-- R224, R225: the code holds the first four of these bytes, and the source the others. -/
structure State.SeesBytes (s : State) (g : List Byte) : Prop where
  code : s.rc.code.toNat = bytesValue 4 g
  stream : s.remaining = g.drop 4
  fill : s.rc.zfill.val = 0

/-- R230(b): the decoder is where the encoder was before it wrote these symbols. -/
def State.SeesSymbols (xs : List Symbol) (s : State) : Prop :=
  s.fm.cumLegal ∧ ∃ out, RcEncodes s.fm s.rc.low s.rc.high xs out ∧ s.SeesBytes out

theorem State.SeesSymbols.wrote {s : State} {xs : List Symbol} (h : s.SeesSymbols xs) (bs : List Byte) :
    (s.wrote bs).SeesSymbols xs := by
  obtain ⟨hc, out, he, hcode, hstream, hfill⟩ := h
  exact ⟨hc, out, he, hcode, hstream, hfill⟩

/-- R226: the first symbol is read, with the turns that the encoder has made for it. -/
theorem rcDsym_of_sees {s : State} {x : Symbol} {xs : List Symbol} (h : s.SeesSymbols (x :: xs)) :
    ∃ t, rcDsym s = .ok x t ∧ t.snk = s.snk ∧ t.SeesSymbols xs := by
  obtain ⟨hc, _, he, hcode, hstream, hfill⟩ := h
  have hsight := he.sight hc
  cases he with
  | @symbol _ _ l h _ _ bs out share run next =>
    obtain ⟨hl, hh⟩ := run.sight (next.sight hc).1 (next.sight hc).2
    obtain ⟨elow, ehigh⟩ := FM.interval_ofNat hc share
    rw [elow, ← hcode] at hl
    rw [ehigh, ← hcode] at hh
    rw [← hcode] at hsight
    obtain ⟨y, e, hys, hyl, hyh⟩ := rcDsym_narrows hc share.1 (s := s) hsight (by omega)
    obtain rfl : y = x := FM.eq_of_share hc ⟨hyl, hyh⟩ hys ⟨hl, hh⟩ share
    have hin : (s.rc.narrowed s.fm y).Inside := by rw [RC.Inside, RC.narrowed, elow, ehigh]; exact ⟨hl, hh⟩
    obtain ⟨bytes, r, er, hturns, _, _, hz, hcode'⟩ := rcDecLoop_reads 5 s (s.rc.narrowed s.fm y) hin (by
      have := rangeSize_of_le (hin.1.trans hin.2)
      omega)
    obtain ⟨rfl, hlow, hhigh⟩ := hturns.unique run
    have hfour := next.four_le_length
    have hlen := congrArg List.length hstream
    rw [List.length_drop, List.length_append] at hlen
    refine ⟨_, e.trans (Op.bind_of_ok er), rfl, hc, out, ?_, ?_, ?_, ?_⟩
    · rw [State.setRc_rc, hlow, hhigh]
      exact next
    · have hread : bytesValue 4 (bytes ++ out) * 256 ^ bytes.length + bytesValue bytes.length s.remaining
          = bytesValue bytes.length (bytes ++ out) * 256 ^ 4 + bytesValue 4 out := by
        rw [hstream, ← bytesValue_add, Nat.add_comm, bytesValue_add, List.drop_left]
      have hlt := bytesValue_lt 4 out
      rw [State.setRc_rc, hcode', show (s.rc.narrowed s.fm y).code = s.rc.code from rfl, hcode, hread]
      omega
    · change (s.consumed _).remaining = _
      rw [State.remaining_consumed, Nat.min_eq_left (by omega), hstream, List.drop_drop, Nat.add_comm, ← List.drop_drop,
        List.drop_left]
    · rw [State.setRc_rc, hz, show (s.rc.narrowed s.fm y).zfill = s.rc.zfill from rfl]
      omega

/-- R169, R201, R228: a decoder that reads the symbols of an input one after another, its state in I before each of them, writes
the input. -/
theorem decodeLoop_of_symbols {d : Op Symbol} {I : List Symbol → State → Prop}
    (hread : ∀ {x xs s}, I (x :: xs) s → ∃ t, d s = .ok x t ∧ t.snk = s.snk ∧ I xs t)
    (hwrote : ∀ {xs s} bs, I xs s → I xs (s.wrote bs)) : ∀ (bs : List Byte) (k : Nat) (s : State),
    I (inputSymbols bs) s → s.snk.cap = none → (∀ t, decodeLoop d k s ≠ .error .loopBound t) →
    ∃ t, decodeLoop d k s = .ok () t ∧ t.snk.data = s.snk.data ++ bs
  | _, 0, s, _, _, hend => absurd rfl (hend s)
  | [], k + 1, s, h, _, _ => by
    obtain ⟨t, e, hsnk, _⟩ := hread h
    exact ⟨t, decodeLoop_of_eos e, by rw [hsnk, List.append_nil]⟩
  | b :: bs, k + 1, s, h, hcap, hend => by
    obtain ⟨t, e, hsnk, ht⟩ := hread h
    have hcap' : t.snk.cap = none := by rw [hsnk, hcap]
    rw [decodeLoop_of_byte (byteSymbol_ne_eos b) e (State.hasRoom_of_none 1 hcap'), symbolByte_byteSymbol] at hend ⊢
    obtain ⟨u, eu, hu⟩ := decodeLoop_of_symbols hread hwrote bs k (t.wrote [b]) (hwrote [b] ht) hcap' hend
    exact ⟨u, eu, by rw [hu, State.wrote_snk, hsnk, List.append_assoc, List.singleton_append]⟩

/-- R149, R146: the header and the table of a stream with these counts. -/
theorem header_run {s : State} {tag : Word} {f : Vector Word 257} {payload : List Byte}
    (h : s.remaining = headerBytes tag f ++ payload)
    (hok : FM.total { s.fm with freq := f } = 0 ∨ FM.freqAt { s.fm with freq := f } eosSymbol ≠ 0)
    (ht : FM.total { s.fm with freq := f } ≤ 2 ^ 32 - 1) :
    ((s.consumed 1036).setFm (FM.ofCounts f)).remaining = payload
      ∧ ∀ k : Op Unit, (do fmRhdr tag; fmCum; k : Op Unit) s = k ((s.consumed 1036).setFm (FM.ofCounts f)) := by
  refine ⟨?_, fun k => ?_⟩
  · change (s.consumed 1036).remaining = payload
    rw [State.remaining_consumed, h, List.drop_left' (headerBytes_length _ _)]
  · have hdr : fmRhdr tag s = .ok () ((s.consumed 1036).setFm { s.fm with freq := f }) := by
      rw [fmRhdr_of_whole h]
      obtain ⟨ht, hz, _⟩ | ⟨_, e⟩ := headerHasEos_run ((s.consumed 1036).setFm { s.fm with freq := f })
      · exact absurd hz (hok.resolve_left ht)
      · exact e
    have hcum : fmCum ((s.consumed 1036).setFm { s.fm with freq := f })
        = .ok () ((s.consumed 1036).setFm (FM.ofCounts f)) := fmCum_of_le ht
    rw [Op.bind_of_ok hdr, Op.bind_of_ok hcum]

/-- R228: `RC.DEC` with a header of these counts comes to its loop, the payload in its code and in the source. -/
theorem rcDec_of_header {s : State} {f : Vector Word 257} {payload : List Byte}
    (h : s.remaining = headerBytes Config.magicRC f ++ payload)
    (hok : FM.total { s.fm with freq := f } = 0 ∨ FM.freqAt { s.fm with freq := f } eosSymbol ≠ 0)
    (ht : FM.total { s.fm with freq := f } ≤ 2 ^ 32 - 1) (hlen : 4 ≤ payload.length) :
    ∃ u, rcDec s = decodeLoop rcDsym (rcDecBound u) u ∧ u.fm = FM.ofCounts f ∧ u.snk = s.snk ∧ u.rc.low = 0
      ∧ u.rc.high = 0xFFFFFFFF ∧ u.SeesBytes payload := by
  obtain ⟨hrem, run⟩ := header_run h hok ht
  obtain ⟨r, e, hl, hh, hcode, hz⟩ := rcDinit_reads ((s.consumed 1036).setFm (FM.ofCounts f))
  rw [hrem, Nat.min_eq_left hlen] at e hz
  rw [hrem] at hcode
  refine ⟨(((s.consumed 1036).setFm (FM.ofCounts f)).consumed 4).setRc r, ?_, rfl, rfl, hl, hh, hcode, ?_, hz⟩
  · rw [rcDec, run, Op.bind_of_ok e, reading_run]
  · change (State.consumed _ 4).remaining = _
    rw [State.remaining_consumed, hrem]

/-- R228, R230: what the encoder has written is read back. -/
theorem rcDec_of_stream {xs out : List Byte}
    (he : RcEncodes (FM.ofCounts (scaledCounts xs)) 0 0xFFFFFFFF (inputSymbols xs) out) :
    ∃ u, rcDec (State.attach (headerBytes Config.magicRC (scaledCounts xs) ++ out) none) = .ok () u ∧ u.snk.data = xs := by
  have htotal := scaledCounts_total xs
  have heos : 0 < FM.freqAt { FM.reset with freq := scaledCounts xs } eosSymbol :=
    FM.scaled_freqAt_pos (m := FM.reset.scanned xs) (.inr (by rw [eosSymbol, FM.freqAt_scanned_eos]; exact Nat.one_pos))
  obtain ⟨v, e, hfm, hsnk, hl, hh, hsees⟩ := rcDec_of_header
    (s := State.attach (headerBytes Config.magicRC (scaledCounts xs) ++ out) none) (f := scaledCounts xs) (payload := out)
    rfl (.inr heos.ne') (show FM.total { FM.reset with freq := scaledCounts xs } ≤ _ by omega) he.four_le_length
  rw [← hl, ← hh, ← hfm] at he
  have hc : v.fm.cumLegal := by
    rw [hfm]
    exact FM.ofCounts_cumLegal (f := scaledCounts xs) (by omega)
  obtain ⟨u, eu, hu⟩ := decodeLoop_of_symbols (I := State.SeesSymbols) rcDsym_of_sees (fun bs h => h.wrote bs) xs
    (rcDecBound v) v ⟨hc, out, he, hsees⟩ (by rw [hsnk]; rfl) fun t et => rcDec_endsWith.ends _ t (e.trans et)
  refine ⟨u, e.trans eu, ?_⟩
  rw [hu, hsnk]
  rfl

/-- Settles O56: an encoder that ends with status 0 has given each symbol of the input a share, and the decoder sees the code in
the share of each. -/
theorem rangeRoundTrip : Obligations.RangeRoundTrip := by
  intro xs t h ht
  obtain ⟨u, e, hsnk⟩ := ok_of_finish ((runCommand_noValue (State.attach_status xs none) rcEnc).symm.trans h) ht
  obtain ⟨out, hout, hdata⟩ := rcEnc_attach e
  obtain ⟨v, ev, hv⟩ := rcDec_of_stream hout
  have hvst := Op.Preserves.status_of_ok (fun _ hP => hP.keeps_rcDec) ev
  refine ⟨{ v with resp := answerNone }, ?_, hvst, hv⟩
  rw [hsnk, hdata]
  exact exec_rcDec_of_ok (State.attach_status _ _) ev hvst

end Sys2Proof.Machine

/-! SUPPORT. The run-length encoder (R252, R253, R255): the commands by the run that is open, the records of a list of bytes,
and the loop over the source. -/

namespace Sys2Proof.Machine

open Sys2Proof

/-! ## One byte, and the end (R252, R253) -/

section
variable {s : State} {b : Byte}

theorem rlEbyte_of_closed (hc : s.rl.cnt = 0) : rlEbyte b s = .ok () (s.setRl ⟨b, 1⟩) := by
  obtain ⟨_, e⟩ | ⟨ho, _⟩ | ⟨ho, _⟩ := rlEbyte_run b s
  · exact e
  · exact absurd hc ho
  · exact absurd hc ho

theorem rlEbyte_of_longer (ho : s.rl.cnt ≠ 0) (hb : b = s.rl.cur) (hn : s.rl.cnt.toNat < 2 ^ 32 - 1) :
    rlEbyte b s = .ok () (s.setRl { s.rl with cnt := s.rl.cnt + 1 }) := by
  obtain ⟨hc, _⟩ | ⟨_, _, _, e⟩ | ⟨_, hend, _⟩ := rlEbyte_run b s
  · exact absurd hc ho
  · exact e
  · exact hend.elim (absurd hb) fun h => absurd h hn.ne

theorem rlEbyte_of_next (ho : s.rl.cnt ≠ 0) (hend : b ≠ s.rl.cur ∨ s.rl.cnt.toNat = 2 ^ 32 - 1) :
    rlEbyte b s = writeBytes (leBytes32 s.rl.cnt ++ [s.rl.cur]) (s.setRl ⟨b, 1⟩) := by
  obtain ⟨hc, _⟩ | ⟨_, hb, hn, _⟩ | ⟨_, _, e⟩ := rlEbyte_run b s
  · exact absurd hc ho
  · exact hend.elim (absurd hb) fun h => absurd h hn.ne
  · exact e

theorem rlEfin_of_closed (hc : s.rl.cnt = 0) : rlEfin s = .ok () s := by
  obtain ⟨_, e⟩ | ⟨ho, _⟩ := rlEfin_run s
  · exact e
  · exact absurd hc ho

theorem rlEfin_of_open (ho : s.rl.cnt ≠ 0) :
    rlEfin s = writeBytes (leBytes32 s.rl.cnt ++ [s.rl.cur]) (s.setRl { s.rl with cnt := 0 }) := by
  obtain ⟨hc, _⟩ | ⟨_, e⟩ := rlEfin_run s
  · exact absurd hc ho
  · exact e

end

/-- Settles O57, by the run that is open and by the room for its record. -/
theorem runsAreFramed : Obligations.RunsAreFramed := by
  refine ⟨⟨fun _ => rfl, rfl⟩, fun s h0 => ⟨fun b => ⟨fun hc => ?_, fun ho hb hn => ?_, fun ho hend => ⟨fun hroom => ?_,
    fun m hshort => ⟨⟨b, 1⟩, ?_⟩⟩⟩, fun hc => ?_, fun ho hroom => ?_, fun m ho hshort => ⟨⟨s.rl.cur, 0⟩, ?_⟩⟩⟩
  · exact runCommand_noValue_ok h0 (rlEbyte_of_closed hc) h0
  · subst hb
    exact runCommand_noValue_ok h0 (rlEbyte_of_longer ho rfl hn) h0
  · exact runCommand_noValue_ok h0 ((rlEbyte_of_next ho hend).trans (writeBytes_of_room _ (s.setRl _) hroom)) h0
  · exact runCommand_noValue_raise h0 ((rlEbyte_of_next ho hend).trans (writeBytes_of_short _ m (s.setRl _) hshort))
  · exact runCommand_noValue_ok h0 (rlEfin_of_closed hc) h0
  · exact runCommand_noValue_ok h0 ((rlEfin_of_open ho).trans (writeBytes_of_room _ (s.setRl _) hroom)) h0
  · exact runCommand_noValue_raise h0 ((rlEfin_of_open ho).trans (writeBytes_of_short _ m (s.setRl _) hshort))

/-! ## The records of a list of bytes (R94) -/

theorem recordBytes_cons (n : Word) (v : Byte) (rs : List (Word × Byte)) :
    recordBytes ((n, v) :: rs) = leBytes32 n ++ [v] ++ recordBytes rs := rfl

theorem recordBytes_append (rs rs' : List (Word × Byte)) : recordBytes (rs ++ rs') = recordBytes rs ++ recordBytes rs' :=
  List.flatMap_append

theorem recordBytes_length (rs : List (Word × Byte)) : (recordBytes rs).length = 5 * rs.length := by
  induction rs with
  | nil => rfl
  | cons r rs ih =>
    rw [recordBytes_cons, List.length_append, List.length_append, leBytes32_length, List.length_singleton, ih,
      List.length_cons]
    omega

theorem recordExpansion_cons (n : Word) (v : Byte) (rs : List (Word × Byte)) :
    recordExpansion ((n, v) :: rs) = List.replicate n.toNat v ++ recordExpansion rs := rfl

theorem recordExpansion_append (rs rs' : List (Word × Byte)) :
    recordExpansion (rs ++ rs') = recordExpansion rs ++ recordExpansion rs' := List.flatMap_append

/-- R252, R253: the records of n copies of c, which have been read, and of the bytes to come. -/
def runsFrom (c : Byte) (n : Word) : List Byte → List (Word × Byte)
  | [] => [(n, c)]
  | b :: bs => if b = c ∧ n.toNat < 2 ^ 32 - 1 then runsFrom c (n + 1) bs else (n, c) :: runsFrom b 1 bs

/-- R255: the records of an input. -/
def runsOf : List Byte → List (Word × Byte)
  | [] => []
  | b :: bs => runsFrom b 1 bs

section
variable {b c : Byte} {n : Word} {bs : List Byte}

/-- R252: a byte lengthens the run or begins the next. -/
theorem longer_or_next (b c : Byte) (n : Word) :
    (b = c ∧ n.toNat < 2 ^ 32 - 1) ∨ (b ≠ c ∨ n.toNat = 2 ^ 32 - 1) := by
  have hmax := n.isLt
  by_cases hb : b = c
  · by_cases hn : n.toNat < 2 ^ 32 - 1
    · exact .inl ⟨hb, hn⟩
    · exact .inr (.inr (by omega))
  · exact .inr (.inl hb)

theorem runsFrom_of_longer (hb : b = c) (hn : n.toNat < 2 ^ 32 - 1) :
    runsFrom c n (b :: bs) = runsFrom c (n + 1) bs := by rw [runsFrom, if_pos ⟨hb, hn⟩]

theorem runsFrom_of_next (hend : b ≠ c ∨ n.toNat = 2 ^ 32 - 1) :
    runsFrom c n (b :: bs) = (n, c) :: runsFrom b 1 bs := by
  rw [runsFrom, if_neg]
  rintro ⟨hb, hn⟩
  exact hend.elim (absurd hb) fun h => absurd h hn.ne

theorem toNat_longer (hn : n.toNat < 2 ^ 32 - 1) : (n + 1).toNat = n.toNat + 1 := by
  rw [BitVec.toNat_add]
  exact Nat.mod_eq_of_lt (by simp; omega)

theorem longer_ne_zero (hn : n.toNat < 2 ^ 32 - 1) : n + 1 ≠ 0 := fun h => by
  have := toNat_longer hn
  rw [h] at this
  exact absurd this (by simp)

/-- The first record is of the open run's byte. -/
theorem exists_runsFrom_eq_cons (c : Byte) : ∀ (n : Word) (bs : List Byte), ∃ m rs, runsFrom c n bs = (m, c) :: rs
  | n, [] => ⟨n, [], rfl⟩
  | n, b :: bs => by
    obtain ⟨hb, hn⟩ | hend := longer_or_next b c n
    · rw [runsFrom_of_longer hb hn]
      exact exists_runsFrom_eq_cons c (n + 1) bs
    · exact ⟨n, _, runsFrom_of_next hend⟩

theorem recordExpansion_runsFrom : ∀ (bs : List Byte) (c : Byte) (n : Word),
    recordExpansion (runsFrom c n bs) = List.replicate n.toNat c ++ bs
  | [], c, n => rfl
  | b :: bs, c, n => by
    obtain ⟨rfl, hn⟩ | hend := longer_or_next b c n
    · rw [runsFrom_of_longer rfl hn, recordExpansion_runsFrom, toNat_longer hn, List.replicate_succ', List.append_assoc]
      rfl
    · rw [runsFrom_of_next hend, recordExpansion_cons, recordExpansion_runsFrom]
      rfl

theorem runsFrom_ne_zero : ∀ (bs : List Byte) (c : Byte) (n : Word), n ≠ 0 → ∀ r ∈ runsFrom c n bs, r.1 ≠ 0
  | [], c, n, h0 => fun r hr => by
    rw [List.mem_singleton.mp hr]
    exact h0
  | b :: bs, c, n, h0 => by
    obtain ⟨hb, hn⟩ | hend := longer_or_next b c n
    · rw [runsFrom_of_longer hb hn]
      exact runsFrom_ne_zero bs c (n + 1) (longer_ne_zero hn)
    · rw [runsFrom_of_next hend, List.forall_mem_cons]
      exact ⟨h0, runsFrom_ne_zero bs b 1 (by decide)⟩

/-- R257(a): neighbours are of different bytes, unless the first could not be longer. -/
def MaximalRuns (rs : List (Word × Byte)) : Prop := rs.IsChain fun a b => a.2 ≠ b.2 ∨ a.1.toNat = 2 ^ 32 - 1

theorem runsFrom_maximal : ∀ (bs : List Byte) (c : Byte) (n : Word), MaximalRuns (runsFrom c n bs)
  | [], c, n => .singleton _
  | b :: bs, c, n => by
    obtain ⟨hb, hn⟩ | hend := longer_or_next b c n
    · rw [runsFrom_of_longer hb hn]
      exact runsFrom_maximal bs c (n + 1)
    · have hrest := runsFrom_maximal bs b 1
      obtain ⟨m, rs, e⟩ := exists_runsFrom_eq_cons b 1 bs
      rw [runsFrom_of_next hend]
      rw [e] at hrest ⊢
      exact .cons_cons (hend.imp_left Ne.symm) hrest

end

theorem recordExpansion_runsOf (bs : List Byte) : recordExpansion (runsOf bs) = bs := by
  cases bs with
  | nil => rfl
  | cons b bs => exact recordExpansion_runsFrom bs b 1

theorem runsOf_ne_zero (bs : List Byte) : ∀ r ∈ runsOf bs, r.1 ≠ 0 := by
  cases bs with
  | nil => exact fun r hr => absurd hr List.not_mem_nil
  | cons b bs => exact runsFrom_ne_zero bs b 1 (by decide)

theorem runsOf_maximal (bs : List Byte) : MaximalRuns (runsOf bs) := by
  cases bs with
  | nil => exact .nil
  | cons b bs => exact runsFrom_maximal bs b 1

/-! ## The loop over the source (R255) -/

theorem writeBytes_of_unbounded {s : State} (bs : List Byte) (hcap : s.snk.cap = none) :
    writeBytes bs s = .ok () (s.wrote bs) := writeBytes_of_room bs s (State.hasRoom_of_none _ hcap)

/-- From an open run to the end of the source and the last record. -/
theorem rlEncLoop_of_open : ∀ (bs : List Byte) (k : Nat) (s : State) (c : Byte) (n : Word), s.remaining = bs →
    bs.length < k → n ≠ 0 → s.snk.cap = none →
    ∃ c', (do forEachByte rlEbyte k; rlEfin : Op Unit) (s.setRl ⟨c, n⟩)
      = .ok () (((s.consumed bs.length).wrote (recordBytes (runsFrom c n bs))).setRl ⟨c', 0⟩)
  | [], k + 1, s, c, n, hrem, _, h0, hcap => by
    refine ⟨c, ?_⟩
    rw [Op.bind_of_ok (forEachByte_nil (s := s.setRl ⟨c, n⟩) hrem)]
    exact (rlEfin_of_open h0).trans (writeBytes_of_unbounded (s := (s.setRl ⟨c, n⟩).setRl ⟨c, 0⟩) _ hcap)
  | b :: bs, k + 1, s, c, n, hrem, hk, h0, hcap => by
    have hrest : (s.consumed 1).remaining = bs := State.remaining_of_cons hrem
    have hturn : ∀ {u : State}, rlEbyte b ((s.consumed 1).setRl ⟨c, n⟩) = .ok () u →
        (do forEachByte rlEbyte (k + 1); rlEfin : Op Unit) (s.setRl ⟨c, n⟩)
          = (do forEachByte rlEbyte k; rlEfin : Op Unit) u := fun {u} e => by
      have hbyte : rlEbyte b ((s.setRl ⟨c, n⟩).consumed 1) = .ok () u := e
      rw [Op.bind_run, forEachByte_cons (s := s.setRl ⟨c, n⟩) hrem, Op.bind_of_ok hbyte, Op.bind_run]
    have hlen : s.consumed (b :: bs).length = (s.consumed 1).consumed bs.length := by
      rw [State.consumed_consumed, List.length_cons, Nat.add_comm]
    rw [hlen]
    obtain ⟨hb, hn⟩ | hend := longer_or_next b c n
    · rw [runsFrom_of_longer hb hn, hturn (rlEbyte_of_longer (s := (s.consumed 1).setRl ⟨c, n⟩) h0 hb hn)]
      exact rlEncLoop_of_open bs k (s.consumed 1) c (n + 1) hrest (Nat.lt_of_succ_lt_succ hk) (longer_ne_zero hn) hcap
    · have hwrite := (rlEbyte_of_next (s := (s.consumed 1).setRl ⟨c, n⟩) h0 hend).trans
        (writeBytes_of_unbounded (s := ((s.consumed 1).setRl ⟨c, n⟩).setRl ⟨b, 1⟩) _ hcap)
      obtain ⟨c', e⟩ := rlEncLoop_of_open bs k ((s.consumed 1).wrote (leBytes32 n ++ [c])) b 1 hrest
        (Nat.lt_of_succ_lt_succ hk) (by decide) hcap
      refine ⟨c', (hturn hwrite).trans (e.trans ?_)⟩
      rw [runsFrom_of_next hend, recordBytes_cons, ← State.wrote_wrote _ (leBytes32 n ++ [c])]
      rfl

/-- R255: with an unbounded sink the encoder writes the records of what the source still holds. -/
theorem rlEnc_of_unbounded {s : State} (hcap : s.snk.cap = none) : ∃ c, rlEnc s
    = .ok () (((s.consumed s.remaining.length).wrote (recordBytes (runsOf s.remaining))).setRl ⟨c, 0⟩) := by
  cases hrem : s.remaining with
  | nil => 
    refine ⟨0, ?_⟩
    rw [rlEnc_of_nil hrem, runsOf, show recordBytes [] = [] from rfl, State.wrote_nil]
    rfl
  | cons b bs =>
    have hleft : srcLeft (s.setRl ⟨0, 0⟩) = bs.length + 1 := by rw [srcLeft_eq]; exact congrArg List.length hrem
    obtain ⟨c, e⟩ := rlEncLoop_of_open bs (bs.length + 1) (s.consumed 1) b 1 (State.remaining_of_cons hrem)
      (Nat.lt_succ_self _) (by decide) hcap
    refine ⟨c, ?_⟩
    rw [rlEnc, Op.bind_of_ok (rlEinit_run s), forSource, Op.bind_run, reading_run, hleft,
      forEachByte_cons (s := s.setRl ⟨0, 0⟩) hrem, Op.bind_of_ok (rlEbyte_of_closed rfl), ← Op.bind_run]
    rw [State.consumed_consumed, Nat.add_comm 1] at e
    exact e

theorem exec_rlEnc_of_unbounded {s : State} (h0 : s.status = 0) (hcap : s.snk.cap = none) :
    ∃ c, exec .rlEnc s = .next { (s.consumed s.remaining.length).wrote (recordBytes (runsOf s.remaining)) with
      rl := ⟨c, 0⟩, resp := answerNone } := by
  obtain ⟨c, e⟩ := rlEnc_of_unbounded hcap
  exact ⟨c, runCommand_noValue_ok h0 e h0⟩

/-- Settles O59: the records of the input are those of its maximal runs. -/
theorem runLengthEncoderWritesMaximalRuns : Obligations.RunLengthEncoderWritesMaximalRuns := by
  intro s h0 hcap
  obtain ⟨c, e⟩ := exec_rlEnc_of_unbounded h0 hcap
  exact ⟨runsOf s.remaining, c, e, recordExpansion_runsOf _, runsOf_ne_zero _, runsOf_maximal _⟩

end Sys2Proof.Machine

/-! SUPPORT. The run-length decoder (R254, R256): one record by what the source holds, and the loop, which reads records until
something else stands in the source. -/

namespace Sys2Proof.Machine

open Sys2Proof

/-! ## One record (R254) -/

section
variable {s : State} {n : Word} {v : Byte} {rest : List Byte}

theorem leRd32_of_word (h : s.remaining = leBytes32 n ++ rest) : leRd32 s = .ok (some n) (s.consumed 4) := by
  rw [leRd32_of_four h, ofLeBytes32_byteOf]

theorem rlDrec_of_nil (h : s.remaining = []) : rlDrec s = .ok false s := Op.bind_of_ok (leRd32_of_nil h)

theorem rlDrec_of_cutCount (h1 : 1 ≤ s.remaining.length) (h3 : s.remaining.length ≤ 3) :
    rlDrec s = .error (.raise .truncation) (s.consumed s.remaining.length) := Op.bind_of_error (leRd32_of_short h1 h3)

theorem rlDrec_of_zero (h : s.remaining = leBytes32 0 ++ rest) :
    rlDrec s = .error (.raise .corruptStream) (s.consumed 4) := Op.bind_of_ok (leRd32_of_word h)

theorem rlDrec_of_count (hn : n ≠ 0) (h : s.remaining = leBytes32 n ++ rest) :
    rlDrec s = (do
      let v ← readByteOrTruncation
      writeCopies n.toNat v
      pure true) (s.consumed 4) := by
  rw [rlDrec, Op.bind_of_ok (leRd32_of_word h)]
  dsimp only
  rw [if_neg hn]

theorem rlDrec_of_noValue (hn : n ≠ 0) (h : s.remaining = leBytes32 n) :
    rlDrec s = .error (.raise .truncation) (s.consumed 4) := by
  have h' : s.remaining = leBytes32 n ++ [] := h
  rw [rlDrec_of_count hn h', Op.bind_run, readByteOrTruncation_run, State.remaining_consumed_word h']

theorem rlDrec_of_record (hn : n ≠ 0) (h : s.remaining = leBytes32 n ++ v :: rest) :
    rlDrec s = (do
      writeBytes (List.replicate n.toNat v)
      pure true) (s.consumed 5) := by
  rw [rlDrec_of_count hn h, Op.bind_run, readByteOrTruncation_run, State.remaining_consumed_word h]
  dsimp only
  rw [State.consumed_consumed, writeCopies_eq]

theorem rlDrec_of_room (hn : n ≠ 0) (h : s.remaining = leBytes32 n ++ v :: rest) (hroom : s.hasRoom n.toNat = true) :
    rlDrec s = .ok true ((s.consumed 5).wrote (List.replicate n.toNat v)) :=
  (rlDrec_of_record hn h).trans (Op.bind_of_ok (writeBytes_of_room _ (s.consumed 5) (by rwa [List.length_replicate])))

theorem rlDrec_of_full (hn : n ≠ 0) (h : s.remaining = leBytes32 n ++ v :: rest) {m : Nat}
    (hm : s.roomOnlyFor m n.toNat) :
    rlDrec s = .error (.raise .sinkFailure) ((s.consumed 5).wrote (List.replicate m v)) := by
  have hshort := writeBytes_of_short (List.replicate n.toNat v) m (s.consumed 5) (by rwa [List.length_replicate])
  rw [List.take_replicate, Nat.min_eq_left hm.2.le] at hshort
  exact (rlDrec_of_record hn h).trans (Op.bind_of_error hshort)

end

/-- R254: what can stand at the front of the source. -/
theorem recordFront_cases (l : List Byte) :
    l = [] ∨ (1 ≤ l.length ∧ l.length ≤ 3) ∨ (∃ rest, l = leBytes32 0 ++ rest) ∨ (∃ n, n ≠ 0 ∧ l = leBytes32 n)
      ∨ ∃ n v rest, n ≠ 0 ∧ l = leBytes32 n ++ v :: rest := by
  by_cases h4 : 4 ≤ l.length
  · obtain ⟨n, rest, rfl⟩ := exists_leBytes32_append h4
    by_cases hn : n = 0
    · exact .inr (.inr (.inl ⟨rest, by rw [hn]⟩))
    · cases rest with
      | nil => exact .inr (.inr (.inr (.inl ⟨n, hn, rfl⟩)))
      | cons v rest => exact .inr (.inr (.inr (.inr ⟨n, v, rest, hn, rfl⟩)))
  · cases l with
    | nil => exact .inl rfl
    | cons b l => exact .inr (.inl ⟨Nat.succ_pos _, by omega⟩)

section
variable {s t : State}

/-- An expanded record has taken five bytes off the source. -/
theorem length_remaining_of_rlDrec (e : rlDrec s = .ok true t) : s.remaining.length = t.remaining.length + 5 := by
  obtain h | ⟨h1, h3⟩ | ⟨_, h⟩ | ⟨_, hn, h⟩ | ⟨n, v, rest, hn, h⟩ := recordFront_cases s.remaining
  · rw [rlDrec_of_nil h] at e; cases e
  · rw [rlDrec_of_cutCount h1 h3] at e; cases e
  · rw [rlDrec_of_zero h] at e; cases e
  · rw [rlDrec_of_noValue hn h] at e; cases e
  · rw [rlDrec_of_record hn h] at e
    obtain ⟨_, u, eu, et⟩ := Op.bind_eq_ok.mp e
    cases et
    have hrest : ∀ w, ((s.consumed 5).setSnk w).remaining = rest := fun _ =>
      (State.remaining_consumed s 5).trans (by rw [h]; rfl)
    obtain ⟨w, ew⟩ | ⟨_, w, ew⟩ := writeBytes_sink (List.replicate n.toNat v) (s.consumed 5)
    · rw [ew] at eu
      cases eu
      rw [h, hrest]
      rfl
    · rw [ew] at eu
      cases eu

/-! ## The loop (R256) -/

theorem rlDecLoop_of_record (k : Nat) (e : rlDrec s = .ok true t) : rlDecLoop (k + 1) s = rlDecLoop k t := by
  rw [rlDecLoop_run, e]

theorem rlDecLoop_of_end (k : Nat) (e : rlDrec s = .ok false t) : rlDecLoop (k + 1) s = .ok () t := by
  rw [rlDecLoop_run, e]

theorem rlDecLoop_of_error (k : Nat) {z : Stop} (e : rlDrec s = .error z t) : rlDecLoop (k + 1) s = .error z t := by
  rw [rlDecLoop_run, e]

theorem rlDec_eq (s : State) : rlDec s = rlDecLoop (s.remaining.length + 1) s := by
  rw [rlDec, reading_run, srcLeft_eq]

end

/-- Every turn but the last reads bytes, so that a bound above their number is not used up. -/
theorem rlDecLoop_eq_of_lt : ∀ (k k' : Nat) (s : State), s.remaining.length < k → s.remaining.length < k' →
    rlDecLoop k s = rlDecLoop k' s
  | k + 1, k' + 1, s, hk, hk' => by
    rcases e : rlDrec s with ⟨_ | _, t⟩ | ⟨z, t⟩
    · rw [rlDecLoop_of_end k e, rlDecLoop_of_end k' e]
    · have := length_remaining_of_rlDrec e
      rw [rlDecLoop_of_record k e, rlDecLoop_of_record k' e]
      exact rlDecLoop_eq_of_lt k k' t (by omega) (by omega)
    · rw [rlDecLoop_of_error k e, rlDecLoop_of_error k' e]

section
variable {s t : State}

theorem rlDec_of_record (e : rlDrec s = .ok true t) : rlDec s = rlDec t := by
  have := length_remaining_of_rlDrec e
  rw [rlDec_eq, rlDec_eq, rlDecLoop_of_record _ e]
  exact rlDecLoop_eq_of_lt _ _ t (by omega) (by omega)

theorem rlDec_of_end (e : rlDrec s = .ok false t) : rlDec s = .ok () t := by
  rw [rlDec_eq, rlDecLoop_of_end _ e]

theorem rlDec_of_error {z : Stop} (e : rlDrec s = .error z t) : rlDec s = .error z t := by
  rw [rlDec_eq, rlDecLoop_of_error _ e]

/-- R257(b): the records at the front of the source are expanded. -/
theorem rlDec_of_records : ∀ (rs : List (Word × Byte)) (s : State) (rest : List Byte),
    s.remaining = recordBytes rs ++ rest → (∀ r ∈ rs, r.1 ≠ 0) → s.snk.cap = none →
    ∃ t, t = (s.consumed (5 * rs.length)).wrote (recordExpansion rs) ∧ t.remaining = rest ∧ rlDec s = rlDec t
  | [], s, rest, h, _, _ => ⟨_, rfl, h, by rw [show recordExpansion [] = [] from rfl, State.wrote_nil]; rfl⟩
  | (n, v) :: rs, s, rest, h, h0, hcap => by
    obtain ⟨hn, hrs⟩ := List.forall_mem_cons.mp h0
    have e := rlDrec_of_room hn h (State.hasRoom_of_none _ hcap)
    have hrest : ((s.consumed 5).wrote (List.replicate n.toNat v)).remaining = recordBytes rs ++ rest := by
      rw [State.remaining_wrote, State.remaining_consumed, h]
      rfl
    obtain ⟨t, ht, hrem, et⟩ := rlDec_of_records rs _ rest hrest hrs hcap
    refine ⟨t, ?_, hrem, (rlDec_of_record e).trans et⟩
    rw [ht, recordExpansion_cons, ← State.wrote_wrote, List.length_cons, Nat.mul_succ, Nat.add_comm,
      ← State.consumed_consumed]
    rfl

/-- R256: "until the source ends at a record boundary". -/
theorem rlDec_of_wholeRecords {rs : List (Word × Byte)} (h : s.remaining = recordBytes rs) (h0 : ∀ r ∈ rs, r.1 ≠ 0)
    (hcap : s.snk.cap = none) :
    rlDec s = .ok () ((s.consumed (5 * rs.length)).wrote (recordExpansion rs)) := by
  obtain ⟨t, rfl, hrem, et⟩ := rlDec_of_records rs s [] (by rw [h, List.append_nil]) h0 hcap
  exact et.trans (rlDec_of_end (rlDrec_of_nil hrem))

end

/-! ## The commands -/

theorem leRd32_portBlind : leRd32.PortBlind :=
  srcRead_portBlind.bind fun
    | none => .pure _
    | some _ => readByteOrTruncation_portBlind.bind fun _ => readByteOrTruncation_portBlind.bind fun _ =>
      readByteOrTruncation_portBlind.bind fun _ => .pure _

theorem rlDrec_portBlind : rlDrec.PortBlind :=
  leRd32_portBlind.bind fun
    | none => .pure _
    | some n => by
      dsimp only
      split
      · exact .raise _
      · refine readByteOrTruncation_portBlind.bind fun v => ?_
        rw [writeCopies_eq]
        exact (writeBytes_plain _).blind.portBlind.bind fun _ => .pure _

theorem rlDecLoop_portBlind : ∀ k, (rlDecLoop k).PortBlind
  | 0 => .stuck
  | k + 1 => rlDrec_portBlind.bind fun
    | true => rlDecLoop_portBlind k
    | false => .pure _

theorem rlDec_portBlind : rlDec.PortBlind := .reading (fun _ => rlDecLoop_portBlind _) fun _ _ => rfl

section
variable {s t : State} (h0 : s.status = 0)
include h0

theorem exec_rlDrec_of_record (e : rlDrec s = .ok true t) (ht : t.status = 0) :
    exec .rlDrec s = .next { t with resp := answerVal 1 } := by
  rw [← State.answer_val_of_ok ht]
  exact runCommand_ok h0 (Op.bind_of_ok e)

theorem exec_rlDrec_of_end (e : rlDrec s = .ok false t) (ht : t.status = 0) :
    exec .rlDrec s = .next { t with resp := answerCeof } := by
  rw [← State.answer_ceof_of_ok ht]
  exact runCommand_ok h0 (Op.bind_of_ok e)

theorem exec_rlDrec_of_raise {k : ErrorKind} (e : rlDrec s = .error (.raise k) t) :
    exec .rlDrec s = .next (t.failed k.code) := runCommand_raise h0 (Op.bind_of_error e)

theorem exec_rlDec_of_ok (e : rlDec s = .ok () t) (ht : t.status = 0) :
    exec .rlDec s = .next { t with resp := answerNone } := runCommand_noValue_ok h0 e ht

theorem exec_rlDec_of_raise {k : ErrorKind} (e : rlDec s = .error (.raise k) t) :
    exec .rlDec s = .next (t.failed k.code) := runCommand_noValue_raise h0 e

/-- R256: by what the record's command answers. -/
theorem exec_rlDec_eq (e : exec .rlDrec s = .next t) :
    exec .rlDec s = if t.resp = answerVal 1 then exec .rlDec t
      else if t.resp = answerCeof then .next { t with resp := answerNone } else .next t := by
  have keeps : ∀ {r u}, rlDrec s = .ok r u → u.status = 0 := fun eu =>
    (Op.Preserves.status_of_ok (fun _ hP => hP.keeps_rlDrec) eu).trans h0
  rcases er : rlDrec s with ⟨_ | _, u⟩ | ⟨k | _, u⟩
  · rw [exec_rlDrec_of_end h0 er (keeps er)] at e
    cases e
    rw [if_neg (by simp [answerCeof, answerVal]), if_pos rfl]
    have hend := exec_rlDec_of_ok h0 (rlDec_of_end er) (keeps er)
    exact hend
  · rw [exec_rlDrec_of_record h0 er (keeps er)] at e
    cases e
    rw [if_pos rfl]
    have silent : (noValue rlDec).PortBlind := rlDec_portBlind.bind fun _ => .pure _
    change _ = runCommand (noValue rlDec) (u.withResp (answerVal 1))
    rw [silent.runCommand_withResp]
    refine runCommand_congr h0 (keeps er) ?_
    rw [noValue_run, noValue_run, rlDec_of_record er]
  · rw [exec_rlDrec_of_raise h0 er] at e
    cases e
    rw [if_neg (by simp [answerError, answerVal]), if_neg (by simp [answerError, answerCeof])]
    exact exec_rlDec_of_raise h0 (rlDec_of_error er)
  · have hstuck : exec .rlDrec s = .fault .loopBound := runCommand_stuck h0 (Op.bind_of_error er)
    rw [hstuck] at e
    cases e

end

/-- Settles O58: one record by what the source holds, then the loop by one record and by whole records. -/
theorem recordsAreExpanded : Obligations.RecordsAreExpanded := by
  refine ⟨⟨rfl, rfl⟩, fun s h0 => ⟨fun h => ?_, fun h1 h3 => ?_, fun rest h => ?_, fun n hn h => ?_,
    fun n v rest hn h => ⟨fun hroom => ?_, fun m hm => ?_⟩, fun t e => exec_rlDec_eq h0 e, fun rs h hrs hcap => ?_⟩⟩
  · exact exec_rlDrec_of_end h0 (rlDrec_of_nil h) h0
  · exact exec_rlDrec_of_raise h0 (rlDrec_of_cutCount h1 h3)
  · exact exec_rlDrec_of_raise h0 (rlDrec_of_zero h)
  · exact exec_rlDrec_of_raise h0 (rlDrec_of_noValue hn h)
  · exact exec_rlDrec_of_record h0 (rlDrec_of_room hn h hroom) h0
  · exact exec_rlDrec_of_raise h0 (rlDrec_of_full hn h hm)
  · exact exec_rlDec_of_ok h0 (rlDec_of_wholeRecords h hrs hcap) h0

end Sys2Proof.Machine

/-! SUPPORT. The run-length round trip (R257, R320), and a stream of records cut anywhere. -/

namespace Sys2Proof.Machine

open Sys2Proof

/-- A stream cut short is some of its records and less than five bytes of the next. -/
theorem take_recordBytes {rs : List (Word × Byte)} {k : Nat} (hk : k < (recordBytes rs).length) :
    ∃ qs n v rs', rs = qs ++ (n, v) :: rs'
      ∧ (recordBytes rs).take k = recordBytes qs ++ (leBytes32 n ++ [v]).take (k % 5) := by
  rw [recordBytes_length] at hk
  have hi : k / 5 < rs.length := by omega
  have hsplit : rs = rs.take (k / 5) ++ rs[k / 5] :: rs.drop (k / 5 + 1) := by
    rw [← List.drop_eq_getElem_cons hi, List.take_append_drop]
  have hlen : (recordBytes (rs.take (k / 5))).length = 5 * (k / 5) := by
    rw [recordBytes_length, List.length_take, Nat.min_eq_left hi.le]
  refine ⟨rs.take (k / 5), rs[k / 5].1, rs[k / 5].2, rs.drop (k / 5 + 1), hsplit, ?_⟩
  have hrest : k - 5 * (k / 5) = k % 5 := by omega
  conv_lhs => rw [hsplit]
  rw [recordBytes_append, List.take_append, List.take_of_length_le (by omega), hlen, hrest, recordBytes_cons,
    List.take_append_of_le_length (by simp; omega)]

/-- R257(d): the decoder on a part of a record. -/
theorem finish_rlDec_of_cutRecord {s : State} {n : Word} {v : Byte} {j : Nat} (h0 : s.status = 0) (hn : n ≠ 0) (hj : j < 5)
    (h : s.remaining = (leBytes32 n ++ [v]).take j) :
    ∃ u, finish (rlDec s) = .next u ∧ u.status = (if j = 0 then 0 else 1) ∧ u.snk = s.snk := by
  have hlen : s.remaining.length = j := by
    rw [h, List.length_take, List.length_append, leBytes32_length, List.length_singleton]
    omega
  obtain rfl | hpos := Nat.eq_zero_or_pos j
  · rw [rlDec_of_end (rlDrec_of_nil h)]
    exact ⟨_, rfl, h0, rfl⟩
  · rw [if_neg hpos.ne']
    by_cases h3 : j ≤ 3
    · rw [rlDec_of_error (rlDrec_of_cutCount (by omega) (by omega))]
      exact ⟨_, rfl, rfl, rfl⟩
    · obtain rfl : j = 4 := by omega
      rw [rlDec_of_error (rlDrec_of_noValue hn h)]
      exact ⟨_, rfl, rfl, rfl⟩

section
variable {rs : List (Word × Byte)} (hrs : ∀ r ∈ rs, r.1 ≠ 0)
include hrs

/-- R257(b): the whole stream. -/
theorem exec_rlDec_of_recordBytes : ∃ u, exec .rlDec (State.attach (recordBytes rs) none) = .next u ∧ u.status = 0
    ∧ u.snk.data = recordExpansion rs :=
  ⟨_, exec_rlDec_of_ok (State.attach_status _ _)
    (rlDec_of_wholeRecords (s := State.attach (recordBytes rs) none) rfl hrs rfl) rfl, rfl, rfl⟩

/-- R257(d): the stream cut anywhere. -/
theorem exec_rlDec_of_cutStream {k : Nat} (hk : k < (recordBytes rs).length) :
    ∃ u, exec .rlDec (State.attach ((recordBytes rs).take k) none) = .next u
      ∧ u.status = (if ((recordBytes rs).length - k) % 5 = 0 then 0 else 1) ∧ u.snk.data <+: recordExpansion rs := by
  obtain ⟨qs, n, v, rs', rfl, hcut⟩ := take_recordBytes hk
  rw [List.forall_mem_append, List.forall_mem_cons] at hrs
  obtain ⟨hqs, hn, _⟩ := hrs
  obtain ⟨t, rfl, hrem, et⟩ := rlDec_of_records qs (State.attach _ none) _ hcut hqs rfl
  obtain ⟨u, eu, hst, hsnk⟩ := finish_rlDec_of_cutRecord rfl hn (Nat.mod_lt k (by decide)) hrem
  refine ⟨u, ?_, ?_, ?_⟩
  · rw [← eu, ← et]
    exact runCommand_noValue (State.attach_status _ _) rlDec
  · have hwhole : ((recordBytes (qs ++ (n, v) :: rs')).length - k) % 5 = 0 ↔ k % 5 = 0 := by
      rw [recordBytes_length] at hk ⊢
      omega
    rw [hst]
    simp only [hwhole]
  · rw [hsnk, recordExpansion_append]
    exact List.prefix_append _ _

end

/-- Settles O60: the stream is the records of the input, which the decoder expands, all of them or those before the cut. -/
theorem runLengthRoundTrip : Obligations.RunLengthRoundTrip := by
  intro xs
  obtain ⟨c, e⟩ := exec_rlEnc_of_unbounded (s := State.attach xs none) rfl rfl
  refine ⟨_, e, rfl, ?_⟩
  change (∃ u, exec .rlDec (State.attach (recordBytes (runsOf xs)) none) = .next u ∧ _)
    ∧ ∀ k, k < (recordBytes (runsOf xs)).length → _
  have hwhole := exec_rlDec_of_recordBytes (runsOf_ne_zero xs)
  have hcut := fun k => exec_rlDec_of_cutStream (runsOf_ne_zero xs) (k := k)
  rw [recordExpansion_runsOf] at hwhole hcut
  exact ⟨hwhole, hcut⟩

end Sys2Proof.Machine

/-! SUPPORT. The error state and the four CORE commands (R281, R289 to R293), and the checks that the two interval decoders make
before they look for a symbol (R277 item 4). -/

namespace Sys2Proof.Machine

open Sys2Proof

/-! ## The error state (R281) -/

theorem State.answer_none (s : State) : s.answer .none = { s with resp := answerError s.status } := rfl

theorem exec_refused {i : Instr} {s : State} (h : s.status ≠ 0) (hi : i ≠ .coreReset) :
    exec i s = .next (s.answer .none) := by
  obtain ⟨op, _, heq⟩ := exec_eq_runCommand hi
  rw [heq, runCommand_refused h]

theorem rejectCommand_refused {s : State} (h : s.status ≠ 0) : rejectCommand s = .next (s.answer .none) :=
  runCommand_refused h

/-- A byte on the command port is a command or a bad command, never an idle port. -/
theorem decode_cons_ne_noCommand (op : Byte) (rest : List Byte) : decode (op :: rest) ≠ .error .noCommand := by
  intro h
  unfold decode at h
  dsimp only at h
  split at h
  case h_1 => cases h
  case h_2 => cases h
  all_goals split at h <;> cases h

/-- R100: the only encoding that begins with 01 is that of `CORE.RESET`. -/
theorem ne_coreReset_of_decode {op : Byte} {rest l : List Byte} {i : Instr} (h : decode (op :: rest) = .ok (i, l))
    (hop : op ≠ 0x01) : i ≠ .coreReset := by
  rintro rfl
  obtain ⟨rfl, _⟩ := List.cons.inj (eq_encode_of_decode h)
  exact hop rfl

/-- What a step on a command byte other than 01 performs: a command that can be refused, or the rejection of the bytes. -/
theorem step_of_cmd_cons {s : State} {op : Byte} {rest : List Byte} (hc : s.cmd = op :: rest) (hop : op ≠ 0x01) :
    ∃ c, (∃ i, i ≠ .coreReset ∧ step s = exec i (s.setCmd c)) ∨ step s = rejectCommand (s.setCmd c) := by
  cases hd : decode s.cmd with
  | ok p =>
    have hi := ne_coreReset_of_decode (hc ▸ hd) hop
    exact ⟨p.2, .inl ⟨p.1, hi, stepPerformsTheDecodedCommand s p.1 p.2 hd⟩⟩
  | error k =>
    cases k with
    | noCommand => exact absurd (hc ▸ hd) (decode_cons_ne_noCommand op rest)
    | reservedOpcode b => exact ⟨s.cmd.tail, .inr (by simp only [step, fetch, hd])⟩
    | operandMissing b => exact ⟨[], .inr (by simp only [step, fetch, hd])⟩

theorem exec_coreReset (s : State) : exec .coreReset s = .next (s.resetBlock.answer .none) := rfl

/-- Settles O8: every command but the reset, and the rejection of bad bytes, goes through `runCommand`, which refuses it. -/
theorem nonzeroStatusRefusesAllButReset : Obligations.NonzeroStatusRefusesAllButReset := by
  refine ⟨fun i s h hi => exec_refused h hi, fun s op rest h hc hop => ?_, fun s => ⟨_, exec_coreReset s, rfl⟩⟩
  obtain ⟨c, ⟨i, hi, e⟩ | e⟩ := step_of_cmd_cons hc hop
  · exact ⟨c, e.trans (exec_refused h hi)⟩
  · exact ⟨c, e.trans (rejectCommand_refused h)⟩

/-! ## The CORE commands (R289 to R293) -/

/-- Settles O2: no bytes are no command, and `fetch` finds the port idle. -/
theorem idleCommandPortKeepsTheState : Obligations.IdleCommandPortKeepsTheState := by
  intro s h
  have hd : decode s.cmd = .error .noCommand := by rw [h]; rfl
  simp only [step, fetch, hd]

/-- R290, R292: a command that only answers does so whether it is refused or not. -/
theorem runCommand_pure_none (s : State) : runCommand (pure Reply.none) s = .next (s.answer .none) := by
  by_cases h : s.status = 0
  · exact runCommand_ok h (Op.pure_run Reply.none s)
  · exact runCommand_refused h

/-- Settles O9: the pseudocode of the first two is empty, that of the third is one seek. -/
theorem nopStatusAndRewind : Obligations.NopStatusAndRewind := by
  refine ⟨⟨rfl, rfl, rfl⟩, fun s => ⟨runCommand_pure_none s, runCommand_pure_none s⟩, fun s => ⟨fun h0 => ?_, fun h => ?_⟩⟩
  · exact runCommand_noValue_ok h0 (srcSeek_run 0 s) h0
  · exact exec_refused h (by decide)

theorem FM.reset_freqAt (x : Symbol) : FM.reset.freqAt x = 0 := FM.reset.freqAt_replicate x 0

theorem HF.reset_codes (x : Symbol) : HF.reset.len[x] = 0 ∧ HF.reset.bits[x] = 0 := by
  simp [HF.reset]

/-- Settles O10: `CORE.RESET` ends in `State.resetBlock`, each register of which is the reset value of its unit. -/
theorem resetRestoresEveryRegister : Obligations.ResetRestoresEveryRegister := by
  exact ⟨rfl, fun s => ⟨_, exec_coreReset s, rfl, ⟨rfl, rfl⟩, ⟨rfl, rfl, rfl⟩, FM.reset_freqAt, fun i _ => FM.reset_cumAt i,
    ⟨rfl, rfl, rfl⟩, HF.reset_codes, ⟨rfl, rfl, rfl, rfl, rfl⟩, ⟨rfl, rfl, rfl, rfl⟩, ⟨rfl, rfl⟩, rfl, rfl, rfl, rfl⟩⟩

/-! ## The checks of the interval decoders (R198, R199, R226, R277 item 4) -/

section
variable {s : State}

theorem targetValue_of_noTable (u : Coder) (ht : s.fm.cumAt 257 = 0) :
    targetValue u s = .error (.raise .domainFault) s := if_pos (.inl ht)

theorem targetValue_of_outside {u : Coder} (ht : s.fm.cumAt 257 ≠ 0) (hle : s.lowOf u ≤ s.highOf u)
    (hout : s.codeOf u < s.lowOf u ∨ s.highOf u < s.codeOf u) :
    targetValue u s = .error (.raise .corruptStream) s := by
  have hrange : s.rangeOf u ≠ 0 := by unfold State.rangeOf; omega
  rw [targetValue, if_neg (not_or.mpr ⟨ht, hrange⟩), if_pos hout]

theorem acNeedInput_of_used (hz : s.ac.zfill.val = 32) : acNeedInput s = .error (.raise .truncation) s := by
  obtain ⟨_, e⟩ | ⟨h, _⟩ := acNeedInput_run s
  · exact e
  · omega

theorem acNeedInput_of_left (hz : s.ac.zfill.val < 32) : acNeedInput s = .ok () s := by
  obtain ⟨h, _⟩ | ⟨_, e⟩ := acNeedInput_run s
  · omega
  · exact e

theorem rcNeedInput_of_used (hz : s.rc.zfill.val = 4) : rcNeedInput s = .error (.raise .truncation) s := by
  obtain ⟨_, e⟩ | ⟨h, _⟩ := rcNeedInput_run s
  · exact e
  · omega

theorem rcNeedInput_of_left (hz : s.rc.zfill.val < 4) : rcNeedInput s = .ok () s := by
  obtain ⟨h, _⟩ | ⟨_, e⟩ := rcNeedInput_run s
  · omega
  · exact e

theorem acDsym_of_targetValue_error {e : Stop} (hz : s.ac.zfill.val < 32) (he : targetValue .ac s = .error e s) :
    acDsym s = .error e s := by
  rw [acDsym, Op.bind_of_ok (acNeedInput_of_left hz), Op.bind_of_error he]

theorem rcDsym_of_targetValue_error {e : Stop} (hz : s.rc.zfill.val < 4) (he : targetValue .rc s = .error e s) :
    rcDsym s = .error e s := by
  rw [rcDsym, Op.bind_of_ok (rcNeedInput_of_left hz), Op.bind_of_error he]

end

/-- Settles O46: the check of the input comes before `TargetValue`, which looks for the table before it looks at the code. -/
theorem decodersCheckInOrder : Obligations.DecodersCheckInOrder := by
  refine fun s h0 => ⟨fun hz => ?acInput, fun hz ht => ?acTable, fun hz ht hle hout => ?acCode,
    fun hz => ?rcInput, fun hz ht => ?rcTable, fun hz ht hle hout => ?rcCode⟩
  case acInput => exact reads_acDsym.exec_of_raise h0 (Op.bind_of_error (acNeedInput_of_used hz))
  case acTable => exact reads_acDsym.exec_of_raise h0 (acDsym_of_targetValue_error hz (targetValue_of_noTable .ac ht))
  case acCode =>
    exact reads_acDsym.exec_of_raise h0 (acDsym_of_targetValue_error hz (targetValue_of_outside (u := .ac) ht hle hout))
  case rcInput => exact reads_rcDsym.exec_of_raise h0 (Op.bind_of_error (rcNeedInput_of_used hz))
  case rcTable => exact reads_rcDsym.exec_of_raise h0 (rcDsym_of_targetValue_error hz (targetValue_of_noTable .rc ht))
  case rcCode =>
    exact reads_rcDsym.exec_of_raise h0 (rcDsym_of_targetValue_error hz (targetValue_of_outside (u := .rc) ht hle hout))

end Sys2Proof.Machine

/-! SUPPORT. Every command ends in a next state (R319): most pseudocode runs straight through, and the loops of the rest end
because the source does (R167, R254) or because each turn makes the interval larger (R194, R199, R222, R226). -/

namespace Sys2Proof.Machine

open Sys2Proof

/-! ## Operations that complete -/

section
variable {α : Type} {P Q : State → Prop}

theorem Op.EndsWith.completes {op : Op α} {K : List ErrorKind} {R : α → State → Prop} (h : op.EndsWith P K R) :
    op.Completes P fun _ => True := fun s hs => by
  refine ⟨fun _ _ _ => trivial, fun t e => ?_⟩
  obtain ⟨_, _, hk⟩ := (h s hs).2 _ t e
  cases hk

theorem Op.completes_of_ok {op : Op α} (h : ∀ s, ∃ a t, op s = .ok a t) : op.Completes P fun _ => True := fun s _ => by
  obtain ⟨a, t, e⟩ := h s
  refine ⟨fun _ _ _ => trivial, fun u eu => ?_⟩
  rw [e] at eu
  cases eu

theorem Op.Completes.pure (a : α) : Op.Completes P (Pure.pure a : Op α) fun _ => True := (Op.Plain.pure a).completes

theorem Op.Completes.raise (k : ErrorKind) : Op.Completes P (Machine.raise k : Op α) fun _ => True :=
  (Op.Plain.raise k).completes

theorem Op.Completes.repeatOp {op : Op Unit} (h : op.Completes P P) : ∀ n, Op.Completes P (Machine.repeatOp op n) P
  | 0 => (Op.Plain.pure ()).completes_of_preserves (.pure ())
  | n + 1 => h.bind fun _ => Op.Completes.repeatOp h n

/-- R281, R280: a command that is refused, returns or raises ends in a next state. -/
theorem Op.Completes.runCommand {op : Op Reply} (h : op.Completes P Q) {s : State} (hs : P s) :
    ∃ t, Machine.runCommand op s = .next t := by
  by_cases h0 : s.status = 0
  · rcases e : op s with ⟨r, t⟩ | ⟨k | _, t⟩
    · exact ⟨_, runCommand_ok h0 e⟩
    · exact ⟨_, runCommand_raise h0 e⟩
    · exact absurd e ((h s hs).2 t)
  · exact ⟨_, runCommand_refused h0⟩

theorem Op.Completes.runCommand_noValue {op : Op Unit} (h : op.Completes P Q) {s : State} (hs : P s) :
    ∃ t, Machine.runCommand (noValue op) s = .next t :=
  Op.Completes.runCommand (h.bind fun _ => .pure _) hs

end

/-! ## The streams, and the operations without a loop of their own -/

theorem srcRead_completes : srcRead.Completes (fun _ => True) fun _ => True := Op.completes_of_ok fun s => by
  rw [srcRead_run]
  cases s.remaining with
  | nil => exact ⟨_, _, rfl⟩
  | cons b l => exact ⟨_, _, rfl⟩

theorem readByteOrTruncation_completes : readByteOrTruncation.Completes (fun _ => True) fun _ => True :=
  srcRead_completes.bind fun
    | some b => .pure b
    | none => .raise _

theorem leRd32_completes : leRd32.Completes (fun _ => True) fun _ => True :=
  srcRead_completes.bind fun
    | none => .pure _
    | some _ => readByteOrTruncation_completes.bind fun _ => readByteOrTruncation_completes.bind fun _ =>
      readByteOrTruncation_completes.bind fun _ => .pure _

theorem symbolOperand_plain (v : BitVec 16) : (symbolOperand v).Plain := by
  unfold symbolOperand
  split
  · exact .pure _
  · exact .raise _

/-- R99: a symbol operand asks nothing of the state. -/
theorem symbolOperand_bind_completes {P Q : State → Prop} {f : Symbol → Op Unit} (v : BitVec 16)
    (h : ∀ x, (f x).Completes P Q) : (symbolOperand v >>= f).Completes P Q :=
  ((symbolOperand_plain v).completes_of_preserves (symbolOperand_preserves v)).bind h

theorem fmFind_completes (v : Nat) : (fmFind v).Completes (fun _ => True) fun _ => True := fun s _ => by
  refine ⟨fun _ _ _ => trivial, fun t e => ?_⟩
  unfold fmFind at e
  split at e
  · cases e
  · cases e

/-! ## The Huffman walker (R166, R167) -/

theorem hfStep_completes : hfStep.Completes (fun _ => True) fun _ => True :=
  Op.EndsWith.completes (K := [.truncation, .corruptStream, .domainFault]) (R := fun _ _ => True) <| .each fun s _ => by
    by_cases hroot : s.hf.root = Config.null
    · exact .of_raise (hfStep_of_noTree hroot) (by simp)
    · exact (hfStep_endsWith hroot).mono (fun _ => id) (by simp) fun _ _ _ => trivial

theorem hfDsym_completes : hfDsym.Completes (fun _ => True) fun _ => True :=
  Op.EndsWith.completes (K := [.truncation, .corruptStream, .domainFault]) (R := fun _ _ => True) <| .each fun s _ => by
    by_cases hroot : s.hf.root = Config.null
    · exact .of_raise (hfDsym_of_error (hfStep_of_noTree hroot)) (by simp)
    · exact (hfDsym_advances.symbol s hroot).mono (fun _ => id) (by simp) fun _ _ _ => trivial

/-! ## The interval decoders (R197, R199, R225, R226) -/

theorem acDinit_completes : acDinit.Completes (fun _ => True) fun _ => True :=
  (modAc_plain _).completes.bind fun _ => Op.Completes.repeatOp (op := acShiftIn) (Op.completes_of_ok fun s => by
    obtain ⟨t, e, _⟩ := acShiftIn_uses s
    exact ⟨(), t, e⟩) 32

theorem rcDinit_completes : rcDinit.Completes (fun _ => True) fun _ => True :=
  (modRc_plain _).completes.bind fun _ => Op.Completes.repeatOp (op := rcShiftIn)
    (Op.completes_of_ok fun s => ⟨(), _, rcShiftIn_run s⟩) 4

/-- R198, R199: a code inside the interval stays inside, so that the loop doubles an interval that is not empty; any other code
is refused before the loop. -/
theorem acDsym_endsWith : acDsym.EndsWith State.AcReady [.truncation, .domainFault, .corruptStream] fun _ _ => True :=
  .each fun s ⟨hc, hord⟩ => by
    obtain ⟨_, e⟩ | ⟨hz, _⟩ := acNeedInput_run s
    · exact .of_raise (Op.bind_of_error e) (by simp)
    obtain ⟨_, e⟩ | ⟨_, _, e⟩ | ⟨ht, hl, hh, _⟩ := targetValue_ac_run hord
    · exact .of_raise (acDsym_of_targetValue_error hz e) (by simp)
    · exact .of_raise (acDsym_of_targetValue_error hz e) (by simp)
    obtain ⟨x, e, hs, hlow, hhigh⟩ := acDsym_narrows hc ht ⟨hl, hh⟩ hz
    obtain ⟨elow, ehigh⟩ := FM.interval_ofNat hc hs
    have hin : (s.ac.narrowed s.fm x).Inside := by rw [AC.Inside, AC.narrowed, elow, ehigh]; exact ⟨hlow, hhigh⟩
    obtain ⟨t, et, _⟩ := acDecLoop_run 33 (s.setAc (s.ac.narrowed s.fm x)) hin (by
      have := rangeSize_of_le (hin.1.trans hin.2)
      rw [State.setAc_ac]
      omega)
    exact .of_ok (e.trans (Op.bind_of_ok et)) trivial

/-- What the interval of the range coder rests on (R191, R230(a)). -/
def State.RcReady (s : State) : Prop := s.fm.cumLegal ∧ s.rc.Ordered

/-- R198, R226: the same for the range decoder, whose turns make the interval 256 times as large. -/
theorem rcDsym_endsWith : rcDsym.EndsWith State.RcReady [.truncation, .domainFault, .corruptStream] fun _ _ => True :=
  .each fun s ⟨hc, hord⟩ => by
    obtain ⟨_, e⟩ | ⟨hz, _⟩ := rcNeedInput_run s
    · exact .of_raise (Op.bind_of_error e) (by simp)
    obtain ⟨_, e⟩ | ⟨_, _, e⟩ | ⟨ht, hl, hh, _⟩ := targetValue_rc_run hord
    · exact .of_raise (rcDsym_of_targetValue_error hz e) (by simp)
    · exact .of_raise (rcDsym_of_targetValue_error hz e) (by simp)
    obtain ⟨x, e, hs, hlow, hhigh⟩ := rcDsym_narrows hc ht ⟨hl, hh⟩ hz
    obtain ⟨elow, ehigh⟩ := FM.interval_ofNat hc hs
    have hin : (s.rc.narrowed s.fm x).Inside := by rw [RC.Inside, RC.narrowed, elow, ehigh]; exact ⟨hlow, hhigh⟩
    obtain ⟨t, et, _⟩ := rcDecLoop_run 5 (s.setRc (s.rc.narrowed s.fm x)) hin (by
      have := rangeSize_of_le (hin.1.trans hin.2)
      rw [State.setRc_rc]
      omega)
    exact .of_ok (e.trans (Op.bind_of_ok et)) trivial

/-! ## The run-length decoder (R254, R256) -/

theorem rlDrec_completes : rlDrec.Completes (fun _ => True) fun _ => True :=
  leRd32_completes.bind fun
    | none => .pure _
    | some n => by
      dsimp only
      split
      · exact .raise _
      · refine readByteOrTruncation_completes.bind fun v => ?_
        rw [writeCopies_eq]
        exact (writeBytes_plain _).completes.bind fun _ => .pure _

/-- Each record takes bytes off the source, so that a bound above their number is not used up. -/
theorem rlDecLoop_completes : ∀ k, (rlDecLoop k).Completes (fun s => s.remaining.length < k) fun _ => True
  | 0 => fun _ hs => absurd hs (Nat.not_lt_zero _)
  | k + 1 => fun s hs => by
    refine ⟨fun _ _ _ => trivial, fun t e => ?_⟩
    rcases er : rlDrec s with ⟨_ | _, u⟩ | ⟨z, u⟩
    · rw [rlDecLoop_of_end k er] at e
      cases e
    · have hlen := length_remaining_of_rlDrec er
      rw [rlDecLoop_of_record k er] at e
      exact (rlDecLoop_completes k u (by omega)).2 t e
    · rw [rlDecLoop_of_error k er] at e
      cases e
      exact (rlDrec_completes s trivial).2 _ er

theorem rlDec_completes : rlDec.Completes (fun _ => True) fun _ => True := fun s _ => by
  rw [rlDec_eq]
  exact rlDecLoop_completes _ s (Nat.lt_succ_self _)

/-! ## The commands (R319) -/

/-- R168, R200, R227, R255: an encoder ends as its expansion does. -/
theorem IsExpansion.exec_next {enc : Instr} {scan is : List Instr} {s : State} (h : IsExpansion enc scan is s) :
    ∃ t, exec enc s = .next t := by
  obtain ⟨_, u, _, _, _, hok, herror⟩ := h
  by_cases hu : u.status = 0
  · exact ⟨_, hok hu⟩
  · obtain ⟨t, e, _⟩ := herror hu
    exact ⟨t, e⟩

theorem exec_next_of_status {i : Instr} {s : State} (h0 : s.status = 0) (hs : s.registersLegal) :
    ∃ t, exec i s = .next t := by
  obtain ⟨_, hcum, _, hac, hrc⟩ := hs
  have hacReady : s.AcReady := ⟨hcum, hac⟩
  have hrcReady : s.RcReady := ⟨hcum, hrc h0⟩
  have always {op : Op Reply} (h : op.Completes (fun _ => True) fun _ => True) := h.runCommand (s := s) trivial
  have unit {op : Op Unit} (h : op.Completes (fun _ => True) fun _ => True) := h.runCommand_noValue (s := s) trivial
  have plain {op : Op Unit} (h : op.Plain) := unit h.completes
  cases i with
  | coreNop => exact always (.pure _)
  | coreReset => exact ⟨_, exec_coreReset s⟩
  | coreStatus => exact always (.pure _)
  | coreRewind => exact unit (Op.completes_of_ok fun u => ⟨(), _, srcSeek_run 0 u⟩)
  | leWr32 v => exact plain (writeBytes_plain (leBytes32 v))
  | leRd32 =>
    exact always (leRd32_completes.bind fun
      | some _ => .pure _
      | none => .pure _)
  | bwInit => exact plain bwInit_plain
  | bwWbit b => exact plain (bwWbit_plain (bitOperand b))
  | bwFlush => exact plain bwFlush_plain
  | brInit => exact unit (Op.completes_of_ok fun u => ⟨(), _, brInit_run u⟩)
  | brRbit => exact always ((Op.completes_of_ok brRbit_ok).bind fun _ => .pure _)
  | brEof => exact always (Op.completes_of_ok fun u => ⟨.val u.eofFlag, u, rfl⟩)
  | fmClr => exact plain fmClr_plain
  | fmAcc b => exact plain (fmAcc_plain b)
  | fmEos => exact plain fmEos_plain
  | fmScale => exact plain fmScale_plain
  | fmCum => exact plain fmCum_plain
  | fmFind v => exact always ((fmFind_completes _).bind fun _ => .pure _)
  | fmWhdr tag => exact plain (fmWhdr_plain tag)
  | fmRhdr tag => exact unit (fmRhdr_endsWith tag).completes
  | fmScan => exact unit (Op.completes_of_ok fun u => ⟨(), _, fmScan_run u⟩)
  | hfBuild => exact plain hfBuild_plain
  | hfCodes => exact plain hfCodes_plain
  | hfEsym v => exact unit (symbolOperand_bind_completes v fun x => (hfEsym_plain x).completes)
  | hfStep =>
    exact always (hfStep_completes.bind fun
      | some _ => .pure _
      | none => .pure _)
  | hfDsym => exact always (hfDsym_completes.bind fun _ => .pure _)
  | hfEnc => exact (hfEnc_isExpansion h0).exec_next
  | hfDec => exact unit hfDec_endsWith.completes
  | acEinit => exact plain acEinit_plain
  | acEsym v => exact (symbolOperand_bind_completes v acEsym_completes).runCommand_noValue hacReady
  | acEfin => exact plain acEfin_plain
  | acDinit => exact unit acDinit_completes
  | acDsym => exact (acDsym_endsWith.completes.bind fun _ => .pure _).runCommand hacReady
  | acEnc => exact (acEnc_isExpansion h0).exec_next
  | acDec => exact unit acDec_endsWith.completes
  | rcEinit => exact plain rcEinit_plain
  | rcEsym v => exact unit (symbolOperand_bind_completes v fun x => (rcEsym_plain x).completes)
  | rcEfin => exact plain rcEfin_plain
  | rcDinit => exact unit rcDinit_completes
  | rcDsym => exact (rcDsym_endsWith.completes.bind fun _ => .pure _).runCommand hrcReady
  | rcEnc => exact (rcEnc_isExpansion h0).exec_next
  | rcDec => exact unit rcDec_endsWith.completes
  | rlEinit => exact plain rlEinit_plain
  | rlEbyte b => exact plain (rlEbyte_plain b)
  | rlEfin => exact plain rlEfin_plain
  | rlDrec =>
    exact always (rlDrec_completes.bind fun
      | true => .pure _
      | false => .pure _)
  | rlEnc => exact (rlEnc_isExpansion h0).exec_next
  | rlDec => exact unit rlDec_completes

/-- Settles O16: a command is refused, or its pseudocode completes. -/
theorem everyCommandEnds : Obligations.EveryCommandEnds := by
  intro i s hs
  by_cases h0 : s.status = 0
  · exact exec_next_of_status h0 hs
  · by_cases hi : i = .coreReset
    · exact ⟨_, hi ▸ exec_coreReset s⟩
    · exact ⟨_, exec_refused h0 hi⟩

/-! ## The INIT commands after a reset (R302) -/

/-- A command whose pseudocode changes nothing, where the port already shows its answer. -/
theorem runCommand_noValue_of_unchanged {op : Op Unit} {s : State} (h0 : s.status = 0) (hr : s.resp = answerNone)
    (e : op s = .ok () s) : runCommand (noValue op) s = .next s := by
  rw [runCommand_noValue_ok h0 e h0, ← hr]

/-- Settles O11: each of the commands writes the values of R39, which the registers hold after the reset. -/
theorem initAfterResetChangesNothing : Obligations.InitAfterResetChangesNothing := by
  refine fun s => ⟨_, exec_coreReset s, fun i hi => ?_⟩
  have unchanged {op : Op Unit} (e : op (s.resetBlock.answer .none) = .ok () (s.resetBlock.answer .none)) :=
    runCommand_noValue_of_unchanged (s := s.resetBlock.answer .none) rfl rfl e
  simp only [List.mem_cons, List.not_mem_nil, or_false] at hi
  obtain rfl | rfl | rfl | rfl | rfl | rfl := hi
  · exact unchanged (bwInit_run _)
  · exact unchanged (brInit_run _)
  · exact unchanged (acEinit_run _)
  · exact unchanged (op := rcEinit) (modRc_run _ _)
  · exact unchanged (op := rlEinit) rfl
  · exact unchanged (fmClr_run _)

end Sys2Proof.Machine
